-- ==== Sys2Proof/Word.lean ====
section
/-! DEFINITION. The words of the command port and the plain-data forms of the exact numbers the block computes with
(`00_scope.md` R16, `40_fft_engine.md` R122). What each form stands for is written beside it; the arithmetic on
them is in `Machine/Cyclotomic.lean`, `Machine/Roots.lean`, `Machine/Numbers.lean` and `Machine/Angles.lean`, and the
real and complex numbers they denote are in `Machine/Values.lean`. -/

namespace Sys2Proof

/-- A command, response or register word (`30_encoding.md` R92, R96; `10_state.md` R44). -/
abbrev Word := BitVec 32

/-! ## Exact numbers

The block computes over `R` and `C` (R16). A number is a polynomial in real constants `c₀, c₁, …` that no proof knows
the values of (`Config.reals`), so that every real and every complex number has a form; a number without constants is a
combination of roots of unity, which the kernel computes with. -/

/-- A combination of roots of unity: the list `[(e₁, q₁), …]` stands for `∑ qⱼ · exp (2πi·eⱼ / M)`, where `M` is the
configuration's order (`Machine.cfgOrder`). Exponents rise strictly, no coefficient is 0, and only exponents of one
fixed basis occur (`Machine.cycNorm`), so that equal numbers are equal lists. -/
abbrev Cyc := List (Nat × Rat)

/-- A product of real constants, by their numbers, in rising order. -/
abbrev Mono := List Nat

/-- One term `coef · mono` of a `Scalar`. -/
structure ScalarTerm where
  mono : Mono
  coef : Rat
deriving DecidableEq, Repr

/-- An exact real number: the sum of its terms. -/
abbrev Scalar := List ScalarTerm

/-- One term `coef · mono` of a `Cx`. -/
structure CxTerm where
  mono : Mono
  coef : Cyc
deriving DecidableEq, Repr

/-- An exact complex number: the sum of its terms. -/
abbrev Cx := List CxTerm

/-- One term `coef · √(Re radicand)` of a `Mag`. -/
structure MagTerm where
  coef     : Scalar
  radicand : Cx
deriving DecidableEq, Repr

/-- An exact real number built from magnitudes: the sum of its terms. -/
abbrev Mag := List MagTerm

/-- The same without constants. -/
abbrev Surds := List (Rat × Cyc)

/-- An exact angle: `2π · turns + arg dir`, with `arg` in `(-π, π]` (`00_scope.md` R17). -/
structure Angle where
  turns : Int
  dir   : Cx
deriving DecidableEq, Repr

/-- An exact real number of hertz: `base + ∑ cⱼ · θⱼ / 2π` (the form that `FTRACK` builds,
`46_sync_controller.md` R293). -/
structure Hertz where
  base  : Scalar
  parts : List (Scalar × Angle)
deriving DecidableEq, Repr

/-- The same with rational coefficients. -/
structure RatHertz where
  base  : Rat
  parts : List (Rat × Angle)
deriving DecidableEq, Repr

/-! ## Soft bits and buffers -/

/-- A soft bit: a signed integer; negative leans to bit 0, positive to bit 1, 0 is an erasure
(`00_scope.md` glossary, `42_ofdm_decoder.md` R166). -/
abbrev Soft := Int

/-- A buffer: its written elements as (index, element) pairs, indices strictly rising. An index that is not
listed is one that nothing has written (`93_implementation_defined.md` U1). -/
abbrev Buf (α : Type) := List (Nat × α)

end Sys2Proof
end

