-- ==== Sys2Proof/Syntax.lean ====
section
/-! DEFINITION. The commands of the block: one constructor per row of `spec/opcode_table.json` (`30_encoding.md` R94).
Counts, offsets, indices and register addresses are numbers; identifiers and register values are bit vectors. -/

namespace Sys2Proof

/-- A command (`30_encoding.md` R90), its operands as R95 assembles them. -/
inductive Instr where
  /-- `START` -/
  | start
  /-- `STOP` -/
  | stop
  /-- `RDCSR a` -/
  | rdcsr (a : Nat)
  /-- `WRCSR a, d` -/
  | wrcsr (a : Nat) (d : Word)
  /-- `SUBSCRIBE sink, comp, sid, len, start` -/
  | subscribe (sink : BitVec 8) (comp : BitVec 16) (sid : Word) (len start : Nat)
  /-- `UNSUBSCRIBE comp, sid` -/
  | unsubscribe (comp : BitVec 16) (sid : Word)
  /-- `RESET_SUBS` -/
  | resetSubs
  /-- `LEVEL n` -/
  | level (n : Nat)
  /-- `NULLSCAN` -/
  | nullscan
  /-- `FILL off, n` -/
  | fill (off n : Nat)
  /-- `SHIFT n` -/
  | shift (n : Nat)
  /-- `SKIPNULL` -/
  | skipnull
  /-- `FFT off` -/
  | fft (off : Nat)
  /-- `FINDB thr` -/
  | findb (thr : Nat)
  /-- `ESTCO off` -/
  | estco (off : Nat)
  /-- `PRIME off` -/
  | prime (off : Nat)
  /-- `FCORR` -/
  | fcorr
  /-- `DECSYM off` -/
  | decsym (off : Nat)
  /-- `FTRACK` -/
  | ftrack
  /-- `FICPUSH idx` -/
  | ficpush (idx : Nat)
  /-- `FICDEC` -/
  | ficdec
  /-- `CRC16 f` -/
  | crc16 (f : Nat)
  /-- `MSCPUSH s` -/
  | mscpush (s : Nat)
  /-- `CIFPOP` -/
  | cifpop
deriving DecidableEq, Repr

end Sys2Proof
end

