-- ==== Sys2Proof/WellFormed.lean ====
section
/-! DEFINITION. Which commands have an encoding: every operand fits its field (`30_encoding.md` R93). -/

namespace Sys2Proof

/-- An operand of the 16-bit unsigned field `imm16`, `len` or `start`. -/
def fits16 (n : Nat) : Bool := decide (n < 2 ^ 16)

/-- An operand of the 32-bit unsigned field `data32`. -/
def fits32 (n : Nat) : Bool := decide (n < 2 ^ 32)

/-- Every operand fits its field (`30_encoding.md` R93, R94). -/
def Instr.wellFormed : Instr → Bool
  | .start => true
  | .stop => true
  | .rdcsr a => fits16 a
  | .wrcsr a _ => fits16 a
  | .subscribe _ _ _ len addr => fits16 len && fits16 addr
  | .unsubscribe _ _ => true
  | .resetSubs => true
  | .level n => fits16 n
  | .nullscan => true
  | .fill off n => fits16 off && fits32 n
  | .shift n => fits16 n
  | .skipnull => true
  | .fft off => fits16 off
  | .findb thr => fits16 thr
  | .estco off => fits16 off
  | .prime off => fits16 off
  | .fcorr => true
  | .decsym off => fits16 off
  | .ftrack => true
  | .ficpush idx => fits16 idx
  | .ficdec => true
  | .crc16 f => fits16 f
  | .mscpush s => fits16 s
  | .cifpop => true

end Sys2Proof
end

