-- ==== Sys2Proof/Decode.lean ====
section
/-! DEFINITION. The command decoder and encoder (`30_encoding.md` R92 to R98). A decoder reads word 0, looks the
opcode up, and reads the extension words of that opcode's format. -/

namespace Sys2Proof

/-- The five formats of `30_encoding.md` R93. -/
inductive Format where
  | N | I | W | U | S
deriving DecidableEq, Repr

/-- Why a command is illegal (`30_encoding.md` R97). -/
inductive Illegal where
  /-- the opcode is not one of R94 -/
  | opcode (op : BitVec 8)
  /-- a legal opcode's must-be-zero field is not zero -/
  | mbz (op : BitVec 8)
deriving DecidableEq, Repr

/-- What the decoder makes of the words at the head of the command stream. -/
inductive Decoded where
  /-- a command, and the words after it -/
  | command (i : Instr) (rest : List Word)
  /-- an illegal command, and the words after those it consumed (R97) -/
  | illegal (why : Illegal) (rest : List Word)
  /-- the words of the command have not all arrived -/
  | incomplete
deriving DecidableEq, Repr

/-- How many words a format has (R93). -/
def Format.words : Format → Nat
  | .N => 1
  | .I => 1
  | .W => 2
  | .U => 2
  | .S => 3

/-- The opcode field, `bits[31:24]` of word 0 (R92). -/
def opcodeOf (w : Word) : BitVec 8 := w.extractLsb' 24 8

/-- `bits[15:0]` (`imm16`, `comp`, `start`; R93). -/
def lowHalf (w : Word) : BitVec 16 := w.extractLsb' 0 16

/-- `bits[31:16]` (`len`; R93). -/
def highHalf (w : Word) : BitVec 16 := w.extractLsb' 16 16

/-- `bits[23:16]` (`sink`, or must be zero; R93). -/
def thirdByte (w : Word) : BitVec 8 := w.extractLsb' 16 8

/-- The format of a legal opcode (R94). -/
def formatOf (op : BitVec 8) : Option Format :=
  match op.toNat with
  | 0x01 => some .N
  | 0x02 => some .N
  | 0x03 => some .I
  | 0x04 => some .W
  | 0x05 => some .S
  | 0x06 => some .U
  | 0x07 => some .N
  | 0x10 => some .I
  | 0x11 => some .N
  | 0x12 => some .W
  | 0x13 => some .I
  | 0x14 => some .N
  | 0x18 => some .I
  | 0x19 => some .I
  | 0x1A => some .I
  | 0x20 => some .I
  | 0x21 => some .N
  | 0x22 => some .I
  | 0x23 => some .N
  | 0x28 => some .I
  | 0x29 => some .N
  | 0x2A => some .I
  | 0x30 => some .I
  | 0x31 => some .N
  | _ => none

/-- Whether word 0's must-be-zero field is zero (R93). -/
def mbzClear (f : Format) (w : Word) : Bool :=
  match f with
  | .N => thirdByte w == 0 && lowHalf w == 0
  | .I => thirdByte w == 0
  | .W => thirdByte w == 0
  | .U => thirdByte w == 0
  | .S => true

/-- The command that an opcode and the words of its format stand for (R94, R95); the extension words a format
does not have are not read. -/
def instrOf (op : BitVec 8) (w0 w1 w2 : Word) : Option Instr :=
  let imm := (lowHalf w0).toNat
  match op.toNat with
  | 0x01 => some .start
  | 0x02 => some .stop
  | 0x03 => some (.rdcsr imm)
  | 0x04 => some (.wrcsr imm w1)
  | 0x05 => some (.subscribe (thirdByte w0) (lowHalf w0) w1 (highHalf w2).toNat (lowHalf w2).toNat)
  | 0x06 => some (.unsubscribe (lowHalf w0) w1)
  | 0x07 => some .resetSubs
  | 0x10 => some (.level imm)
  | 0x11 => some .nullscan
  | 0x12 => some (.fill imm w1.toNat)
  | 0x13 => some (.shift imm)
  | 0x14 => some .skipnull
  | 0x18 => some (.fft imm)
  | 0x19 => some (.findb imm)
  | 0x1A => some (.estco imm)
  | 0x20 => some (.prime imm)
  | 0x21 => some .fcorr
  | 0x22 => some (.decsym imm)
  | 0x23 => some .ftrack
  | 0x28 => some (.ficpush imm)
  | 0x29 => some .ficdec
  | 0x2A => some (.crc16 imm)
  | 0x30 => some (.mscpush imm)
  | 0x31 => some .cifpop
  | _ => none

/-- The decoder (R92, R97): an unknown opcode consumes word 0 only, a legal opcode all the words of its format. -/
def decode : List Word → Decoded
  | [] => .incomplete
  | w0 :: ws =>
    match formatOf (opcodeOf w0) with
    | none => .illegal (.opcode (opcodeOf w0)) ws
    | some f =>
      if ws.length + 1 < f.words then .incomplete
      else
        let rest := ws.drop (f.words - 1)
        match mbzClear f w0, instrOf (opcodeOf w0) w0 (ws.getD 0 0) (ws.getD 1 0) with
        | true, some i => .command i rest
        | _, _ => .illegal (.mbz (opcodeOf w0)) rest

/-! ## The encoder (R93 to R95) -/

/-- Word 0: opcode, `bits[23:16]`, `bits[15:0]`. -/
def word0 (op : Nat) (b : BitVec 8) (h : BitVec 16) : Word := BitVec.ofNat 8 op ++ b ++ h

/-- Word 0 with an `imm16` field. -/
def immWord (op n : Nat) : Word := word0 op 0 (BitVec.ofNat 16 n)

/-- The words of a command. -/
def encode : Instr → List Word
  | .start => [immWord 0x01 0]
  | .stop => [immWord 0x02 0]
  | .rdcsr a => [immWord 0x03 a]
  | .wrcsr a d => [immWord 0x04 a, d]
  | .subscribe sink comp sid len start =>
    [word0 0x05 sink comp, sid, BitVec.ofNat 16 len ++ BitVec.ofNat 16 start]
  | .unsubscribe comp sid => [word0 0x06 0 comp, sid]
  | .resetSubs => [immWord 0x07 0]
  | .level n => [immWord 0x10 n]
  | .nullscan => [immWord 0x11 0]
  | .fill off n => [immWord 0x12 off, BitVec.ofNat 32 n]
  | .shift n => [immWord 0x13 n]
  | .skipnull => [immWord 0x14 0]
  | .fft off => [immWord 0x18 off]
  | .findb thr => [immWord 0x19 thr]
  | .estco off => [immWord 0x1A off]
  | .prime off => [immWord 0x20 off]
  | .fcorr => [immWord 0x21 0]
  | .decsym off => [immWord 0x22 off]
  | .ftrack => [immWord 0x23 0]
  | .ficpush idx => [immWord 0x28 idx]
  | .ficdec => [immWord 0x29 0]
  | .crc16 f => [immWord 0x2A f]
  | .mscpush s => [immWord 0x30 s]
  | .cifpop => [immWord 0x31 0]

/-! ## The opcode table's numbering of bits -/

/-- Word `k` of an instruction whose bits are `w`, bit 0 the least significant of word 0. -/
def tableWord (w k : Nat) : Word := BitVec.ofNat 32 (w / 2 ^ (32 * k))

/-- The words of an instruction of `nbits` bits `w`, up to the longest format, zero above `nbits`. -/
def tableWords (nbits w : Nat) : List Word :=
  let v := w % 2 ^ nbits
  [tableWord v 0, tableWord v 1, tableWord v 2]

/-- The command the decoder reads from an instruction whose bits are `w`, numbered as `spec/opcode_table.json`
numbers them. -/
def decodeTableWord (nbits w : Nat) : Option Instr :=
  match decode (tableWords nbits w) with
  | .command i _ => some i
  | .illegal _ _ => none
  | .incomplete => none

end Sys2Proof
end

