-- ==== Sys2Proof/Config.lean ====
section
/-! DEFINITION. The configuration record `Cfg` of `00_scope.md` R13, the values the document fixes, a free value that the
spec leaves open (the real numbers of R16 are in `Machine/Values.lean`), and the one concrete configuration the reset
state carries. -/

namespace Sys2Proof

/-- One supported mode: `ModeParams` (`00_scope.md` R10) with every per-mode parameter and table of R13. Real
parameters are any real numbers and `ref` holds any complex ones, in the forms of `Word.lean` (log 2, log 3). Its
well-formedness is `Machine.modeWf`. -/
structure Mode where
  tU : Nat
  tG : Nat
  tS : Nat
  tNull : Nat
  tF : Nat
  /-- `L`, symbols per frame. -/
  symbols : Nat
  /-- `K`, the carrier count. -/
  carriers : Nat
  carrierDiff : Nat
  /-- `PERM` (`42_ofdm_decoder.md` R161). -/
  perm : List Int
  /-- `REF` (`41_phase_reference.md` R141). -/
  ref : List Cx
  searchW : Nat
  dipWindow : Nat
  dipLow : Scalar
  dipHigh : Scalar
  levelAlpha : Scalar
  fineGain : Scalar
  coRange : Nat
  coLen : Nat
  /-- `CO_EPS`, in radians (`41_phase_reference.md` R149). -/
  coEps : Scalar
  nBlk : Nat
  blkOut : Nat
  /-- `PM`, true where the mother-code bit was transmitted (`43_fic_decoder.md` R186). -/
  pm : List Bool
  convK : Nat
  /-- `CONV_TAPS`, four sets of delays (`43_fic_decoder.md` R189). -/
  convTaps : List (List Nat)
  /-- `PRBS_TAPS`, the delays `d` with `prbs[t] = xor of prbs[t - d]` (`43_fic_decoder.md` R193; log 16). -/
  prbsTaps : List Nat
  /-- `PRBS_INIT`: `prbs[-1], prbs[-2], …` (log 16). -/
  prbsInit : List Bool
  crcPoly : BitVec 16
  crcInit : BitVec 16
  crcXorout : BitVec 16
  cifBits : Nat
  cuBits : Nat
deriving DecidableEq, Repr

/-- The configuration of a built block (`00_scope.md` R13): its modes and the capacity of the subscription
table. Held in State as a constant (log 1). `fieldOrder` is the model's own: the parts of exact numbers
without constants (those of `REF` among them) may be made from roots of unity of this order too (log 3). -/
structure Cfg where
  modes : List Mode
  maxSubs : Nat
  fieldOrder : Nat
deriving DecidableEq, Repr

namespace Config

/-- `FIC_SYMS` (`00_scope.md` R13, doc §4.5). -/
abbrev ficSyms : Nat := 4
/-- `FIB_BITS` (`00_scope.md` R13). -/
abbrev fibBits : Nat := 256
/-- `FIB_PAYLOAD_BITS` (`00_scope.md` R13). -/
abbrev fibPayloadBits : Nat := 240
/-- `CRC_BITS` (`00_scope.md` R13). -/
abbrev crcBits : Nat := 16
/-- `N_NOSIG` (`00_scope.md` R13). -/
abbrev nNosig : Nat := 8
/-- `N_BFAIL` (`00_scope.md` R13). -/
abbrev nBfail : Nat := 3
/-- `THR_MULT` (`00_scope.md` R13). -/
abbrev thrMult : Nat := 3
/-- `SOFT_MAX` (`00_scope.md` R13). -/
abbrev softMax : Nat := 127
/-- `MSC_FIRST` (`00_scope.md` R14). -/
abbrev mscFirst : Nat := ficSyms + 1

/-- FREE VALUE (`93_implementation_defined.md` U2, log 9): where two survivors of `viterbi y` have equal metrics
at step `t` in the encoder state `n`, whether the second is kept. That the choice may differ from mode to mode is
the model's choice (DESIGN CHOICE, log 9): the spec says only that it returns a maximiser. -/
opaque vitTie : Mode → List Soft → Nat → Nat → Bool

/-- The toy mode of `95_test_vectors.md` section 0, TOY. -/
def toyMode : Mode where
  tU := 4
  tG := 1
  tS := 5
  tNull := 6
  tF := 41
  symbols := 7
  carriers := 2
  carrierDiff := 1000
  perm := [1, -1]
  ref := [[], [⟨[], [(0, 1)]⟩], [], [⟨[], [(2, 1)]⟩]]
  searchW := 1
  dipWindow := 2
  dipLow := [⟨[], 1 / 2⟩]
  dipHigh := [⟨[], 3 / 4⟩]
  levelAlpha := [⟨[], 1 / 8⟩]
  fineGain := [⟨[], 1 / 2⟩]
  coRange := 0
  coLen := 0
  coEps := [⟨[], 1 / 10⟩]
  nBlk := 1
  blkOut := 256
  pm := List.replicate 16 true ++ List.replicate 1032 false
  convK := 7
  convTaps := [[0, 2, 3, 5, 6], [0, 1, 2, 3, 6], [0, 1, 4, 6], [0, 2, 3, 5, 6]]
  prbsTaps := [5, 9]
  prbsInit := List.replicate 9 true
  crcPoly := 0x1021
  crcInit := 0xFFFF
  crcXorout := 0xFFFF
  cifBits := 8
  cuBits := 2

/-- The configuration of `State.reset`: TOY of `95_test_vectors.md` section 0 (log 1). -/
def toy : Cfg where
  modes := [toyMode]
  maxSubs := 2
  fieldOrder := 1

end Config

end Sys2Proof
end

