-- ==== Sys2Proof/Machine/Cyclotomic.lean ====
section
/-! DEFINITION. Exact arithmetic on the combinations of roots of unity `Cyc`, the coefficients of the complex numbers of
`Machine/Numbers.lean` (`40_fft_engine.md` R122). `M` is always the order: `ζ = exp (2πi / M)`, and 4 divides `M`. -/

namespace Sys2Proof.Machine

/-! ## Sums of roots of unity in one basis -/

/-- `q · ζ^e` added to a sum that is in rising order. -/
def cycAddTerm (e : Nat) (q : Rat) : Cyc → Cyc
  | [] => if q = 0 then [] else [(e, q)]
  | (e', q') :: r =>
    if e < e' then (if q = 0 then (e', q') :: r else (e, q) :: (e', q') :: r)
    else if e = e' then (if q + q' = 0 then r else (e, q + q') :: r)
    else (e', q') :: cycAddTerm e q r

/-- Terms in any order, summed. -/
def cycCollect (ts : List (Nat × Rat)) : Cyc :=
  ts.foldl (fun acc t => cycAddTerm t.1 t.2 acc) []

/-- The largest power of `p` that divides `n`, up to `p ^ fuel`. -/
def primePower (p : Nat) : Nat → Nat → Nat
  | 0, _ => 1
  | fuel + 1, n => if n % p = 0 then p * primePower p fuel (n / p) else 1

/-- The prime divisors of `M`. -/
def primesOf (M : Nat) : List Nat :=
  (List.range (M + 1)).filter fun p =>
    decide (2 ≤ p) && decide (M % p = 0) && (List.range p).all fun d => decide (d < 2) || decide (p % d ≠ 0)

/-- The `p` roots `ζ^(e + j·M/p)`, `j < p`, add up to 0. Of each such class the member whose top base-`p` digit
is `p - 1` is left out of the basis and is replaced by minus the others. -/
def rewriteTerm (M p : Nat) (t : Nat × Rat) : List (Nat × Rat) :=
  let pa := primePower p (Nat.log2 M) M
  if (t.1 % pa) / (pa / p) = p - 1 then
    (List.range (p - 1)).map fun j => ((t.1 + (j + 1) * (M / p)) % M, -t.2)
  else [t]

/-- A sum of any terms `q · ζ^e`, in the basis. -/
def cycNorm (M : Nat) (ts : List (Nat × Rat)) : Cyc :=
  cycCollect ((primesOf M).foldl (fun l p => l.flatMap (rewriteTerm M p)) (ts.map fun t => (t.1 % M, t.2)))

/-! ## Operations -/

def cycAdd (a b : Cyc) : Cyc := a.foldl (fun acc t => cycAddTerm t.1 t.2 acc) b

def cycScale (q : Rat) (a : Cyc) : Cyc := if q = 0 then [] else a.map fun t => (t.1, q * t.2)

/-- `ζ^k · a`. -/
def cycRot (M k : Nat) (a : Cyc) : Cyc := cycNorm M (a.map fun t => (t.1 + k, t.2))

def cycMul (M : Nat) (a b : Cyc) : Cyc :=
  cycNorm M (a.flatMap fun x => b.map fun y => (x.1 + y.1, x.2 * y.2))

def cycConj (M : Nat) (a : Cyc) : Cyc := cycNorm M (a.map fun t => (M - t.1 % M, t.2))

/-- The number as a rational, where it is one. -/
def cycRat? : Cyc → Option Rat
  | [] => some 0
  | [(0, q)] => some q
  | _ => none

end Sys2Proof.Machine
end

