-- ==== Sys2Proof/Machine/Approx.lean ====
section
/-! DEFINITION. The sign of a number without constants (`00_scope.md` R16: comparisons are of exact reals). A real `Cyc`
that is not rational is enclosed between two multiples of `2^-p`, at a precision `p` that doubles until the enclosure
leaves 0 out. Enclosures are pairs (low, high) of integers at the scale `2^p`. The bound `cycBits` is where a
number that is not 0 must have left 0 (the norm of a non-zero algebraic integer is at least 1), so the sign is
exact (log 4). -/

namespace Sys2Proof.Machine

/-- `⌈a / b⌉`. -/
def ceilDiv (a b : Nat) : Nat := (a + (b - 1)) / b

/-! ## Enclosures of π and of the cosine, by alternating series in Horner form -/

/-- `1/(2n+1) - y/(2n+3) + …` with `y = 1/m²`, from its `n`-th term on, `depth` terms deep. -/
def atanSeries (p m : Nat) : Nat → Nat → Nat × Nat
  | 0, _ => (0, 2 ^ p)
  | depth + 1, n =>
    let r := atanSeries p m depth (n + 1)
    (2 ^ p / (2 * n + 1) - ceilDiv r.2 (m * m), ceilDiv (2 ^ p) (2 * n + 1) - r.1 / (m * m))

/-- `arctan (1/m)`. -/
def atanInv (p m : Nat) : Nat × Nat :=
  let r := atanSeries p m (p / 2 + 4) 0
  (r.1 / m, ceilDiv r.2 m)

/-- π, by Machin's formula. -/
def piBounds (p : Nat) : Nat × Nat :=
  let a := atanInv p 5
  let b := atanInv p 239
  (16 * a.1 - 4 * b.2, 16 * a.2 - 4 * b.1)

/-- `1 - x/((2n+1)(2n+2)) · (1 - …)`, the cosine's series in `x = θ²` from its `n`-th term on; `x` is enclosed
by `xl`, `xh`. -/
def cosSeries (p xl xh : Nat) : Nat → Nat → Nat × Nat
  | 0, _ => (0, 2 ^ p)
  | depth + 1, n =>
    let r := cosSeries p xl xh depth (n + 1)
    let d := 2 ^ p * ((2 * n + 1) * (2 * n + 2))
    (2 ^ p - ceilDiv (xh * r.2) d, 2 ^ p - xl * r.1 / d)

/-- `cos θ` for a `θ` in `[0, π/2]` enclosed by `tl`, `th`. -/
def cosBetween (p tl th : Nat) : Nat × Nat :=
  cosSeries p (tl * tl / 2 ^ p) (ceilDiv (th * th) (2 ^ p)) (p / 4 + 8) 0

/-- `cos (2π·num/den)` for `num/den` in `[0, 1/4]`. -/
def cosTurn (p num den : Nat) : Nat × Nat :=
  let q := piBounds p
  cosBetween p (2 * q.1 * num / den) (ceilDiv (2 * q.2 * num) den)

/-- `cos (2π·e/M)`. -/
def cosRoot (p M e : Nat) : Int × Int :=
  let e := e % M
  let e := if M < 2 * e then M - e else e
  if M < 4 * e then
    let r := cosTurn p (M - 2 * e) (2 * M)
    (-(r.2 : Int), -(r.1 : Int))
  else
    let r := cosTurn p e M
    ((r.1 : Int), (r.2 : Int))

/-- `⌈a / b⌉` of integers, `b > 0`. -/
def intCeilDiv (a b : Int) : Int := -(-a / b)

/-- A rational multiple of an enclosed number. -/
def scaleBounds (q : Rat) (r : Int × Int) : Int × Int :=
  if 0 ≤ q then (q.num * r.1 / (q.den : Int), intCeilDiv (q.num * r.2) (q.den : Int))
  else (q.num * r.2 / (q.den : Int), intCeilDiv (q.num * r.1) (q.den : Int))

def addBounds (a b : Int × Int) : Int × Int := (a.1 + b.1, a.2 + b.2)

/-- The real part of a `Cyc`. -/
def cycReBounds (p M : Nat) (a : Cyc) : Int × Int :=
  a.foldr (fun t acc => addBounds (scaleBounds t.2 (cosRoot p M t.1)) acc) (0, 0)

/-! ## Signs -/

def ratSign (q : Rat) : Int := if 0 < q then 1 else if q < 0 then -1 else 0

/-- Precision doubled until the enclosure leaves 0 out. -/
def refine (bounds : Nat → Int × Int) : Nat → Nat → Int
  | 0, _ => 0
  | fuel + 1, p =>
    let r := bounds p
    if 0 < r.1 then 1 else if r.2 < 0 then -1 else refine bounds fuel (2 * p)

/-- The common denominator of a sum's coefficients. -/
def cycDen (a : Cyc) : Nat := a.foldr (fun t d => Nat.lcm t.2.den d) 1

/-- An integer no smaller than any conjugate of `cycDen a · a`, nor than 1. -/
def cycSize (a : Cyc) : Nat := a.foldr (fun t s => t.2.num.natAbs * (cycDen a / t.2.den) + s) 1

/-- A non-zero real part is at least `2^-cycBits` in magnitude. -/
def cycBits (M : Nat) (a : Cyc) : Nat :=
  Nat.log2 (2 * cycDen a) + 1 + M * (Nat.log2 (2 * cycSize a) + 1)

/-- How often the precision may double from 32 until it reaches `bits` and a guard. -/
def doublings (bits : Nat) : Nat := Nat.log2 (bits + 128) + 1

/-- The sign, -1, 0 or 1, of the real part of a number that is real. -/
def cycSign (M : Nat) (w : Cyc) : Int :=
  match cycRat? w with
  | some q => ratSign q
  | none => refine (fun p => cycReBounds p M w) (doublings (cycBits M w)) 32

/-- The sign of `y - q`, from the enclosures of `y` at every precision, for a `y` and a fraction `q` that are further
apart than `2^-bits`. -/
def signFrom (bounds : Nat → Int × Int) (bits : Nat) (q : Rat) : Int :=
  refine (fun p => addBounds (bounds p) (scaleBounds (-q) (2 ^ p, 2 ^ p))) (doublings bits) 32

/-! ## Numbers that are not algebraic: π and angles in radians -/

/-- `Re z` and `cos ε` are further apart than `2^-argBits`, for `z` in the field of order `M` and a rational `ε` in
`(0, π/2)`: far beyond what the theorem of Nesterenko and Waldschmidt on `|exp β - α|` needs (PRESUMED, log 4). A sign
that is found is right whatever this bound is. -/
def argBits (M : Nat) (z : Cyc) (eps : Rat) : Nat :=
  2 ^ 14 * (M + 1) ^ 3 * (M + Nat.log2 (cycDen z * cycSize z) + Nat.log2 (eps.num.natAbs * eps.den + 1) + 64) ^ 3

/-- The sign of `Re z - cos ε` for `ε` radians, `0 < ε < π/2`; 0 where no precision shows it. For `z` of modulus 1 it
is the sign of `ε - |arg z|`. -/
def argCompare (M : Nat) (z : Cyc) (eps : Rat) : Int :=
  refine (fun p =>
    let c := cosBetween p (eps.num.toNat * 2 ^ p / eps.den) (ceilDiv (eps.num.toNat * 2 ^ p) eps.den)
    addBounds (cycReBounds p M z) (-(c.2 : Int), -(c.1 : Int))) (doublings (argBits M z eps)) 32

/-- π and a fraction with the denominator `d` are further apart than `2^-piBits`: the theorem of Mahler gives
`|π - n/d| > d^-42` for `d ≥ 2` (PRESUMED, log 4). -/
def piBits (d : Nat) : Nat := 42 * (Nat.log2 d + 1)

/-- `q < π/2`. A `q` of which this is true is below `π/2` whatever the bound `piBits` is; that it is true of every such
`q` rests on log 4. -/
def ratBelowHalfPi (q : Rat) : Bool :=
  decide (signFrom (fun p => (((piBounds p).1 : Int), ((piBounds p).2 : Int))) (piBits (2 * q).den) (2 * q) = 1)

end Sys2Proof.Machine
end

