-- ==== Sys2Proof/Machine/Roots.lean ====
section
/-! DEFINITION. Square roots, and the sign of a sum of square roots without constants (`00_scope.md` R16, R17). -/

namespace Sys2Proof.Machine

/-- `⌊√n⌋`, for `n < 4 ^ fuel`. -/
def isqrtFuel : Nat → Nat → Nat
  | 0, _ => 0
  | fuel + 1, n =>
    let r := 2 * isqrtFuel fuel (n / 4)
    if (r + 1) * (r + 1) ≤ n then r + 1 else r

/-- `⌊√n⌋`. -/
def isqrt (n : Nat) : Nat := isqrtFuel (Nat.log2 n / 2 + 1) n

/-- The non-negative rational square root, where there is one. -/
def ratSqrt? (q : Rat) : Option Rat :=
  let a := isqrt q.num.natAbs
  let b := isqrt q.den
  if 0 ≤ q ∧ a * a = q.num.natAbs ∧ b * b = q.den then some ((a : Rat) / (b : Rat)) else none

/-- `√a` enclosed at the scale `2^p`, from `a` enclosed at `2^(2p)`. -/
def sqrtBounds (p M : Nat) (a : Cyc) : Int × Int :=
  let r := cycReBounds (2 * p) M a
  ((isqrt r.1.toNat : Int), (isqrt r.2.toNat : Int) + 1)

def surdBounds (p M : Nat) (x : Surds) : Int × Int :=
  x.foldr (fun t acc => addBounds (scaleBounds t.1 (sqrtBounds p M t.2)) acc) (0, 0)

/-- The common denominator of a sum of roots: `surdDen x · x` is an algebraic integer. -/
def surdDen (x : Surds) : Nat := x.foldr (fun t d => Nat.lcm (t.1.den * cycDen t.2) d) 1

/-- An integer no smaller than any conjugate of `surdDen x · x`, nor than 1. -/
def surdSize (x : Surds) : Nat :=
  x.foldr (fun t s => t.1.num.natAbs * surdDen x * (1 + cycSize t.2) + s) 1

/-- A sum of roots that is not 0 is at least `2^-surdBits` in magnitude: its degree is at most `M · 2^length`. -/
def surdBits (M : Nat) (x : Surds) : Nat :=
  Nat.log2 (2 * surdDen x) + 1 + M * 2 ^ x.length * (Nat.log2 (2 * surdSize x) + 1)

/-- The sign, -1, 0 or 1, of a sum of magnitudes; a single root is 0 where its radicand is not positive. -/
def surdSign (M : Nat) (x : Surds) : Int :=
  match x with
  | [] => 0
  | [(c, a)] => ratSign c * max 0 (cycSign M a)
  | _ => refine (fun p => surdBounds p M x) (doublings (surdBits M x)) 32

end Sys2Proof.Machine
end

