-- ==== Sys2Proof/Machine/Values.lean ====
section
/-! DEFINITION. The real and complex numbers that exact numbers stand for (`00_scope.md` R16), and the configuration
record of R16: the real constants, and the comparisons on the reals made from them, of which nothing is assumed beyond
their definitions, with `SIGNAL_REPR`. -/

namespace Sys2Proof.Machine

/-! ## What exact numbers stand for, where `c` gives the constants -/

/-- A combination of roots of unity. -/
noncomputable def cycVal (M : Nat) (a : Cyc) : ℂ :=
  (a.map fun t => ((t.2 : ℚ) : ℂ) * Complex.exp (2 * Real.pi * Complex.I * (t.1 : ℂ) / (M : ℂ))).sum

/-- A sum of square roots without constants. -/
noncomputable def surdVal (M : Nat) (x : Surds) : ℝ :=
  (x.map fun t => ((t.1 : ℚ) : ℝ) * Real.sqrt (cycVal M t.2).re).sum

/-- A product of constants. -/
noncomputable def monoAt (c : Nat → ℝ) (m : Mono) : ℝ := (m.map c).prod

/-- A `Scalar`. -/
noncomputable def scalarAt (c : Nat → ℝ) (r : Scalar) : ℝ := (r.map fun t => ((t.coef : ℚ) : ℝ) * monoAt c t.mono).sum

/-- A `Cx`. -/
noncomputable def cxAt (c : Nat → ℝ) (M : Nat) (z : Cx) : ℂ :=
  (z.map fun t => cycVal M t.coef * ((monoAt c t.mono : ℝ) : ℂ)).sum

/-- A `Mag`. -/
noncomputable def magAt (c : Nat → ℝ) (M : Nat) (x : Mag) : ℝ :=
  (x.map fun t => scalarAt c t.coef * Real.sqrt (cxAt c M t.radicand).re).sum

/-- An `Angle`, in radians. -/
noncomputable def angleAt (c : Nat → ℝ) (M : Nat) (a : Angle) : ℝ :=
  2 * Real.pi * (a.turns : ℝ) + Complex.arg (cxAt c M a.dir)

/-- A `Hertz`. -/
noncomputable def hertzAt (c : Nat → ℝ) (M : Nat) (f : Hertz) : ℝ :=
  scalarAt c f.base + (f.parts.map fun t => scalarAt c t.1 * (angleAt c M t.2 / (2 * Real.pi))).sum

/-! ## The configuration record of R16 -/

/-- The real constants of a configuration, the comparisons on the reals, and `SIGNAL_REPR`. Every sequence of real
numbers has such a record, and nothing else is known of one than that its comparisons are those of the real numbers and
that `SIGNAL_REPR` is monotone. -/
structure RealRecord where
  const : Nat → ℝ
  /-- the sign of a real part -/
  reSign : Nat → Cx → Int
  /-- the sign of a sum of magnitudes -/
  magSign : Nat → Mag → Int
  /-- the sign of a number of hertz -/
  hertzSign : Nat → Hertz → Int
  /-- `⌊f⌋` -/
  hertzFloor : Nat → Hertz → Int
  /-- `|arg z| < ε` -/
  argBelow : Nat → Cx → Scalar → Bool
  /-- `ε < π/2` -/
  belowHalfPi : Scalar → Bool
  /-- `SIGNAL_REPR` (`93_implementation_defined.md` U5) -/
  signalRepr : Nat → Mag → Word
  reSign_eq : ∀ M z, reSign M z = SignType.sign (cxAt const M z).re
  magSign_eq : ∀ M x, magSign M x = SignType.sign (magAt const M x)
  hertzSign_eq : ∀ M f, hertzSign M f = SignType.sign (hertzAt const M f)
  hertzFloor_eq : ∀ M f, hertzFloor M f = ⌊hertzAt const M f⌋
  argBelow_iff : ∀ M z ε, argBelow M z ε = true ↔ |Complex.arg (cxAt const M z)| < scalarAt const ε
  belowHalfPi_iff : ∀ ε, belowHalfPi ε = true ↔ scalarAt const ε < Real.pi / 2
  signalRepr_mono : ∀ M x y, magAt const M x ≤ magAt const M y → (signalRepr M x).toNat ≤ (signalRepr M y).toNat

end Sys2Proof.Machine

namespace Sys2Proof.Config

/-- FREE VALUE (`00_scope.md` R13, R16; log 2, log 3, log 8): the record of the built configuration. Where there is none, every
constant is 0, and so is `SIGNAL_REPR`. -/
opaque reals : Option Machine.RealRecord

/-- The real constants. -/
noncomputable def const : Nat → ℝ :=
  match reals with
  | some r => r.const
  | none => fun _ => 0

end Sys2Proof.Config

namespace Sys2Proof.Machine

/-! ## What exact numbers stand for -/

/-- The real number a `Scalar` stands for. -/
noncomputable abbrev scalarVal (r : Scalar) : ℝ := scalarAt Config.const r

/-- The complex number a `Cx` stands for. -/
noncomputable abbrev cxVal (M : Nat) (z : Cx) : ℂ := cxAt Config.const M z

/-- The real number a `Mag` stands for. -/
noncomputable abbrev magVal (M : Nat) (x : Mag) : ℝ := magAt Config.const M x

/-- The angle, in radians, an `Angle` stands for. -/
noncomputable abbrev angleVal (M : Nat) (a : Angle) : ℝ := angleAt Config.const M a

/-- The number of hertz a `Hertz` stands for. -/
noncomputable abbrev hertzVal (M : Nat) (f : Hertz) : ℝ := hertzAt Config.const M f

end Sys2Proof.Machine
end

