-- ==== Sys2Proof/Machine/Numbers.lean ====
section
/-! DEFINITION. Exact arithmetic on real and complex numbers (`00_scope.md` R16, `40_fft_engine.md` R122, R123), the
transforms of R120 and R121, and magnitudes. A comparison of numbers without constants is computed
(`Machine/Approx.lean`, `Machine/Roots.lean`); any other is answered by the record `Config.reals`. Where there is no
record every constant is 0, and the comparison is that of the parts without constants. -/

namespace Sys2Proof.Machine

/-! ## Products of constants -/

/-- A product by one constant more. -/
def monoInsert (k : Nat) : Mono → Mono
  | [] => [k]
  | j :: r => if k ≤ j then k :: j :: r else j :: monoInsert k r

def monoMul (a b : Mono) : Mono := a.foldr monoInsert b

/-! ## Real numbers -/

def scalarOfRat (q : Rat) : Scalar := if q = 0 then [] else [⟨[], q⟩]

/-- `q · m` added to a sum that is in rising order. -/
def scalarAddTerm (m : Mono) (q : Rat) : Scalar → Scalar
  | [] => if q = 0 then [] else [⟨m, q⟩]
  | t :: r =>
    if m = t.mono then (if q + t.coef = 0 then r else ⟨m, q + t.coef⟩ :: r)
    else if m < t.mono then (if q = 0 then t :: r else ⟨m, q⟩ :: t :: r)
    else t :: scalarAddTerm m q r

def scalarAdd (a b : Scalar) : Scalar := a.foldl (fun acc t => scalarAddTerm t.mono t.coef acc) b

def scalarScale (q : Rat) (a : Scalar) : Scalar := if q = 0 then [] else a.map fun t => ⟨t.mono, q * t.coef⟩

def scalarMul (a b : Scalar) : Scalar :=
  scalarAdd (a.flatMap fun x => b.map fun y => ⟨monoMul x.mono y.mono, x.coef * y.coef⟩) []

/-- `a - b`. -/
def scalarSub (a b : Scalar) : Scalar := scalarAdd a (scalarScale (-1) b)

/-- Whether no constant occurs. -/
def scalarPure (a : Scalar) : Bool := a.all fun t => decide (t.mono = [])

/-- The number where every constant is 0. -/
def scalarAtZero (a : Scalar) : Rat := a.foldr (fun t q => if t.mono = [] then t.coef + q else q) 0

/-! ## Complex numbers -/

/-- A combination of roots of unity. -/
def cxOfCyc (a : Cyc) : Cx := if a = [] then [] else [⟨[], a⟩]

/-- `1`. -/
def cxOne : Cx := [⟨[], [(0, 1)]⟩]

/-- `re + i·im`. -/
def cxOf (M : Nat) (re im : Rat) : Cx := cxOfCyc (cycNorm M [(0, re), (M / 4, im)])

/-- A real number. -/
def cxOfScalar (a : Scalar) : Cx := a.map fun t => ⟨t.mono, if t.coef = 0 then [] else [(0, t.coef)]⟩

/-- `a · m` added to a sum that is in rising order. -/
def cxAddTerm (m : Mono) (a : Cyc) : Cx → Cx
  | [] => if a = [] then [] else [⟨m, a⟩]
  | t :: r =>
    if m = t.mono then (if cycAdd a t.coef = [] then r else ⟨m, cycAdd a t.coef⟩ :: r)
    else if m < t.mono then (if a = [] then t :: r else ⟨m, a⟩ :: t :: r)
    else t :: cxAddTerm m a r

def cxAdd (a b : Cx) : Cx := a.foldl (fun acc t => cxAddTerm t.mono t.coef acc) b

/-- The same number with its terms in order and each coefficient in its basis. -/
def cxNorm (M : Nat) (a : Cx) : Cx := cxAdd (a.map fun t => ⟨t.mono, cycNorm M t.coef⟩) []

def cxScale (q : Rat) (a : Cx) : Cx := if q = 0 then [] else a.map fun t => ⟨t.mono, cycScale q t.coef⟩

def cxNeg (a : Cx) : Cx := cxScale (-1) a

def cxSub (a b : Cx) : Cx := cxAdd a (cxNeg b)

/-- `ζ^k · a`. -/
def cxRot (M k : Nat) (a : Cx) : Cx := a.map fun t => ⟨t.mono, cycRot M k t.coef⟩

def cxMul (M : Nat) (a b : Cx) : Cx :=
  cxAdd (a.flatMap fun x => b.map fun y => ⟨monoMul x.mono y.mono, cycMul M x.coef y.coef⟩) []

def cxConj (M : Nat) (a : Cx) : Cx := a.map fun t => ⟨t.mono, cycConj M t.coef⟩

def cxSum (l : List Cx) : Cx := l.foldr cxAdd []

/-- `|a|²`. -/
def cxNormSq (M : Nat) (a : Cx) : Cx := cxMul M a (cxConj M a)

/-- The real part. -/
def cxRe (M : Nat) (a : Cx) : Cx := cxScale (1 / 2) (cxAdd a (cxConj M a))

/-- The imaginary part: the real part of `-i·a`. -/
def cxIm (M : Nat) (a : Cx) : Cx := cxRe M (cxRot M (M - M / 4) a)

/-- Whether no constant occurs. -/
def cxPure (a : Cx) : Bool := a.all fun t => decide (t.mono = [])

/-- The number where every constant is 0. -/
def cxAtZero (a : Cx) : Cyc := a.foldr (fun t acc => if t.mono = [] then cycAdd t.coef acc else acc) []

/-- The number as a rational, where its form is that of one. -/
def cxRat? : Cx → Option Rat
  | [] => some 0
  | [⟨[], [(0, q)]⟩] => some q
  | _ => none

/-- The sign, -1, 0 or 1, of the real part of a number that is real. -/
def reSign (M : Nat) (z : Cx) : Int :=
  if cxPure z then cycSign M (cxAtZero z)
  else
    match Config.reals with
    | some r => r.reSign M z
    | none => cycSign M (cxAtZero z)

/-- The sign, -1, 0 or 1, of the real part. -/
def cxSignRe (M : Nat) (a : Cx) : Int := reSign M (cxRe M a)

/-- The sign, -1, 0 or 1, of the imaginary part. -/
def cxSignIm (M : Nat) (a : Cx) : Int := cxSignRe M (cxRot M (M - M / 4) a)

/-- The sign, -1, 0 or 1, of a real number. -/
def scalarSign (a : Scalar) : Int := reSign 1 (cxOfScalar a)

/-- `a < b`. -/
def scalarLt (a b : Scalar) : Bool := decide (scalarSign (scalarSub a b) < 0)

/-! ## The transforms (`40_fft_engine.md` R120, R121, `00_scope.md` R19) -/

/-- `∑ₙ x[n] · exp (2πi·n·k / N)`, the positions of `x` counted from `n`. `N` divides `M`. -/
def rootSum (M N k : Nat) : Nat → List Cx → Cx
  | _, [] => []
  | n, z :: zs => cxAdd (cxRot M (n * k % N * (M / N)) z) (rootSum M N k (n + 1) zs)

/-- `DFT_N` (R120): unnormalised, kernel `exp (-2πi·n·k / N)`. -/
def dft (M N : Nat) (x : List Cx) : List Cx :=
  (List.range N).map fun k => rootSum M N (N - k % N) 0 x

/-- `IDFT_N` (R121): kernel `exp (+2πi·n·k / N)`, scaled by `1 / N`. -/
def idft (M N : Nat) (X : List Cx) : List Cx :=
  (List.range N).map fun n => cxScale (1 / (N : Rat)) (rootSum M N n 0 X)

/-- The conjugate-multiply of two vectors (R123). -/
def conjMul (M : Nat) (a b : List Cx) : List Cx := List.zipWith (fun x y => cxMul M x (cxConj M y)) a b

/-! ## Magnitudes (`|z|` of `00_scope.md` R17) -/

/-- The rational `r` with `a = r · b`, where their forms show one. -/
def cxRatio? (a b : Cx) : Option Rat :=
  match a, b with
  | ⟨_, (_, q) :: _⟩ :: _, ⟨_, (_, q') :: _⟩ :: _ => if cxScale (q / q') b = a then some (q / q') else none
  | _, _ => none

/-- `√a` of a real non-negative `a`. -/
def magSqrt (a : Cx) : Mag :=
  match cxRat? a with
  | some q =>
    match ratSqrt? q with
    | some r => if r = 0 then [] else [⟨scalarOfRat r, cxOne⟩]
    | none => [⟨scalarOfRat 1, a⟩]
  | none => [⟨scalarOfRat 1, a⟩]

/-- `|z|`. -/
def magAbs (M : Nat) (z : Cx) : Mag := magSqrt (cxNormSq M z)

/-- `c·√a` added to a sum; like radicals are merged. -/
def magAddTerm (c : Scalar) (a : Cx) : Mag → Mag
  | [] => [⟨c, a⟩]
  | t :: r =>
    match (cxRatio? a t.radicand).bind ratSqrt? with
    | some s =>
      let c' := scalarAdd t.coef (scalarScale s c)
      if c' = [] then r else ⟨c', t.radicand⟩ :: r
    | none => t :: magAddTerm c a r

def magAdd (x y : Mag) : Mag := x.foldl (fun acc t => magAddTerm t.coef t.radicand acc) y

/-- A magnitude times a real number. -/
def magScale (r : Scalar) (x : Mag) : Mag := if r = [] then [] else x.map fun t => ⟨scalarMul r t.coef, t.radicand⟩

/-- A magnitude times a rational. -/
def magScaleRat (q : Rat) (x : Mag) : Mag := magScale (scalarOfRat q) x

def magSub (x y : Mag) : Mag := magAdd x (magScaleRat (-1) y)

def magSum (l : List Mag) : Mag := l.foldr magAdd []

/-- Whether no constant occurs. -/
def magPure (x : Mag) : Bool := x.all fun t => scalarPure t.coef && cxPure t.radicand

/-- The number where every constant is 0. -/
def magAtZero (x : Mag) : Surds := x.map fun t => (scalarAtZero t.coef, cxAtZero t.radicand)

/-- The sign, -1, 0 or 1, of a sum of magnitudes. -/
def magSign (M : Nat) (x : Mag) : Int :=
  if magPure x then surdSign M (magAtZero x)
  else
    match Config.reals with
    | some r => r.magSign M x
    | none => surdSign M (magAtZero x)

/-- `x < y`. -/
def magLt (M : Nat) (x y : Mag) : Bool := decide (magSign M (magSub x y) < 0)

/-! ## Angles of numbers of modulus 1 against radians -/

/-- Whether `|arg z| < ε` for `z` of modulus 1 and `ε` radians, `0 < ε < π/2`, where `argDecided` holds. -/
def argBelow (M : Nat) (z : Cx) (eps : Scalar) : Bool :=
  if cxPure z && scalarPure eps then decide (argCompare M (cxAtZero z) (scalarAtZero eps) = 1)
  else
    match Config.reals with
    | some r => r.argBelow M z eps
    | none => decide (argCompare M (cxAtZero z) (scalarAtZero eps) = 1)

/-- Whether that comparison is answered by the record, or finds a sign. -/
def argDecided (M : Nat) (z : Cx) (eps : Scalar) : Bool :=
  if cxPure z && scalarPure eps then decide (argCompare M (cxAtZero z) (scalarAtZero eps) ≠ 0)
  else
    match Config.reals with
    | some _ => true
    | none => decide (argCompare M (cxAtZero z) (scalarAtZero eps) ≠ 0)

/-- `ε < π/2`. -/
def belowHalfPi (eps : Scalar) : Bool :=
  if scalarPure eps then ratBelowHalfPi (scalarAtZero eps)
  else
    match Config.reals with
    | some r => r.belowHalfPi eps
    | none => ratBelowHalfPi (scalarAtZero eps)

end Sys2Proof.Machine
end

