-- ==== Sys2Proof/Machine/Angles.lean ====
section
/-! DEFINITION. Arguments, sums of arguments and the frequency offsets made from them, compared exactly
(`00_scope.md` R16, R17: `arg z` in `(-π, π]`, `arg 0 = 0`). A sum of arguments is the argument of a product and a
number of whole turns, so that comparing two sums needs only the signs of real and imaginary parts. -/

namespace Sys2Proof.Machine

/-- The sign, -1, 0 or 1, of `arg z`. -/
def argSign (M : Nat) (z : Cx) : Int :=
  let s := cxSignIm M z
  if s ≠ 0 then s else if cxSignRe M z < 0 then 1 else 0

/-- A number with the direction of `z`: `1` for a positive `z` and for 0, else `z`, without constants scaled so that
its first coefficient, where it is not 0, is 1 or -1. -/
def direction (M : Nat) (z : Cx) : Cx :=
  if argSign M z = 0 then cxOne
  else
    match z with
    | [⟨[], (_, q) :: _⟩] => if q = 0 then z else cxScale (1 / |q|) z
    | _ => z

def angleZero : Angle := ⟨0, cxOne⟩

/-- `arg z`. -/
def angleArg (M : Nat) (z : Cx) : Angle := ⟨0, direction M z⟩

/-- The whole turns by which the arguments of two numbers, of the signs `sa` and `sb`, exceed the argument of their
product, of the sign `sd`. The product's argument is short of the sum by one turn where both arguments are positive
and its own is not, and is beyond it by one turn where both are negative and its own is positive. -/
def windings (sa sb sd : Int) : Int :=
  if 0 < sa ∧ 0 < sb ∧ sd ≤ 0 then 1 else if sa < 0 ∧ sb < 0 ∧ 0 < sd then -1 else 0

/-- The sum of two angles; a direction of argument 0 adds its turns only. -/
def angleAdd (M : Nat) (a b : Angle) : Angle :=
  let sa := argSign M a.dir
  let sb := argSign M b.dir
  if sa = 0 then ⟨a.turns + b.turns, b.dir⟩
  else if sb = 0 then ⟨a.turns + b.turns, a.dir⟩
  else
    let d := cxMul M a.dir b.dir
    ⟨a.turns + b.turns + windings sa sb (argSign M d), direction M d⟩

/-- The opposite angle; the argument π is its own opposite less a turn. -/
def angleNeg (M : Nat) (a : Angle) : Angle :=
  if cxSignIm M a.dir = 0 ∧ cxSignRe M a.dir < 0 then ⟨-a.turns - 1, a.dir⟩ else ⟨-a.turns, cxConj M a.dir⟩

/-- The sign, -1, 0 or 1. -/
def angleSign (M : Nat) (a : Angle) : Int :=
  if a.turns = 0 then argSign M a.dir else if 0 < a.turns then 1 else -1

/-- `a < b`. -/
def angleLt (M : Nat) (a b : Angle) : Bool := decide (angleSign M (angleAdd M a (angleNeg M b)) < 0)

def angleSum (M : Nat) (l : List Angle) : Angle := l.foldr (angleAdd M) angleZero

/-- `n · a`. -/
def angleTimes (M : Nat) : Nat → Angle → Angle
  | 0, _ => angleZero
  | n + 1, a => angleAdd M a (angleTimes M n a)

/-- `n · a` for an integer `n`. -/
def angleTimesInt (M : Nat) (n : Int) (a : Angle) : Angle :=
  if 0 ≤ n then angleTimes M n.toNat a else angleNeg M (angleTimes M (-n).toNat a)

/-- `z` or its conjugate, whichever has no negative imaginary part: its argument is `|arg z|`. -/
def upperHalf (M : Nat) (z : Cx) : Cx := if cxSignIm M z < 0 then cxConj M z else z

/-- `|arg z|`. -/
def angleAbsArg (M : Nat) (z : Cx) : Angle := angleArg M (upperHalf M z)

/-! ## Real numbers of hertz -/

def hertzAddRat (q : Rat) (f : Hertz) : Hertz := ⟨scalarAdd (scalarOfRat q) f.base, f.parts⟩

/-- `c · θ / 2π` added to a sum; terms of one factor are merged. -/
def addPart (M : Nat) (c : Scalar) (θ : Angle) : List (Scalar × Angle) → List (Scalar × Angle)
  | [] => [(c, θ)]
  | (c', θ') :: r => if c' = c then (c, angleAdd M θ θ') :: r else (c', θ') :: addPart M c θ r

/-- The part of a turn, in `(-1/2, 1/2]`, that the argument of `q · ζ^e` is. -/
def rootTurn (M e : Nat) (q : Rat) : Rat :=
  let e := (if q < 0 then e + M / 2 else e) % M
  if M < 2 * e then (e : Rat) / (M : Rat) - 1 else (e : Rat) / (M : Rat)

/-- `f + c · arg z / 2π`. Where `z` is a real multiple of one root of unity the increment is a multiple of `c`. -/
def hertzAddArg (M : Nat) (c : Scalar) (z : Cx) (f : Hertz) : Hertz :=
  match direction M z with
  | [⟨[], [(e, q)]⟩] => ⟨scalarAdd (scalarScale (rootTurn M e q) c) f.base, f.parts⟩
  | d => ⟨f.base, addPart M c ⟨0, d⟩ f.parts⟩

/-- `-f`. -/
def hertzNeg (f : Hertz) : Hertz := ⟨scalarScale (-1) f.base, f.parts.map fun t => (scalarScale (-1) t.1, t.2)⟩

/-! ## Their signs and floors, where the coefficients are rational -/

/-- The common denominator of a number's coefficients. -/
def hertzDen (f : RatHertz) : Nat := f.parts.foldr (fun t d => Nat.lcm t.1.den d) f.base.den

/-- The integer coefficients of `hertzDen f · f`: of whole turns, then of each angle. -/
def hertzCoeff (f : RatHertz) (q : Rat) : Int := q.num * ((hertzDen f / q.den : Nat) : Int)

/-- The greatest common divisor of those coefficients. -/
def hertzGcd (f : RatHertz) : Nat :=
  f.parts.foldr (fun t g => Nat.gcd (hertzCoeff f t.1).natAbs g) (hertzCoeff f f.base).natAbs

/-- The sign, -1, 0 or 1: that of an integer combination of angles and whole turns. -/
def ratHertzSign (M : Nat) (f : RatHertz) : Int :=
  match f.parts with
  | [] => ratSign f.base
  | _ =>
    let g : Int := (hertzGcd f : Int)
    angleSign M (angleAdd M ⟨hertzCoeff f f.base / g, cxOne⟩
      (angleSum M (f.parts.map fun t => angleTimesInt M (hertzCoeff f t.1 / g) t.2)))

/-- The largest integer in `[lo, lo + 2^fuel)` that satisfies `ok`, for an `ok` that holds of `lo` and of nothing
above a point. -/
def searchUp (ok : Int → Bool) : Nat → Int → Int
  | 0, lo => lo
  | fuel + 1, lo =>
    let mid := lo + (2 ^ fuel : Nat)
    if ok mid then searchUp ok fuel mid else searchUp ok fuel lo

/-- A bound on the angles' part of a number, as an integer. -/
def hertzSpread (f : RatHertz) : Int :=
  f.parts.foldr (fun t acc => (|t.1| * (|(t.2.turns : Rat)| + 1)).ceil + acc) 1

/-- `⌊f⌋`. -/
def ratHertzFloor (M : Nat) (f : RatHertz) : Int :=
  match f.parts with
  | [] => f.base.floor
  | _ =>
    searchUp (fun k => decide (0 ≤ ratHertzSign M ⟨f.base - (k : Rat), f.parts⟩))
      (Nat.log2 (2 * hertzSpread f).toNat + 1) (f.base.floor - hertzSpread f)

/-! ## Their signs and floors -/

/-- Whether no constant occurs in the coefficients. -/
def hertzPure (f : Hertz) : Bool := scalarPure f.base && f.parts.all fun t => scalarPure t.1

/-- The number with every constant of its coefficients 0. -/
def hertzAtZero (f : Hertz) : RatHertz := ⟨scalarAtZero f.base, f.parts.map fun t => (scalarAtZero t.1, t.2)⟩

/-- The sign, -1, 0 or 1. -/
def hertzSign (M : Nat) (f : Hertz) : Int :=
  if hertzPure f then ratHertzSign M (hertzAtZero f)
  else
    match Config.reals with
    | some r => r.hertzSign M f
    | none => ratHertzSign M (hertzAtZero f)

/-- `⌊f⌋`. -/
def hertzFloor (M : Nat) (f : Hertz) : Int :=
  if hertzPure f then ratHertzFloor M (hertzAtZero f)
  else
    match Config.reals with
    | some r => r.hertzFloor M f
    | none => ratHertzFloor M (hertzAtZero f)

/-- `q ≤ f`. -/
def ratLeHertz (M : Nat) (q : Rat) (f : Hertz) : Bool := decide (0 ≤ hertzSign M (hertzAddRat (-q) f))

/-- `trunc f`, toward zero (`48_arithmetic_and_control.md` R331). -/
def hertzTrunc (M : Nat) (f : Hertz) : Int :=
  if hertzSign M f < 0 then -hertzFloor M (hertzNeg f) else hertzFloor M f

end Sys2Proof.Machine
end

