-- ==== Sys2Proof/Machine/Geometry.lean ====
section
/-! DEFINITION. The derived parameters of a mode (`00_scope.md` R14), its pattern sets (`41_phase_reference.md`
R149), and the well-formedness of a configuration (`70_reset_and_hazards.md` R388). -/

namespace Sys2Proof.Machine

/-! ## Derived parameters (R14) -/

/-- `N_SOFT`. -/
def nSoft (m : Mode) : Nat := 2 * m.carriers

/-- `FIC_BITS`. -/
def ficBits (m : Mode) : Nat := Config.ficSyms * nSoft m

/-- `BLK_IN`. -/
def blkIn (m : Mode) : Nat := ficBits m / m.nBlk

/-- `MOTHER_LEN` (`43_fic_decoder.md` R182). -/
def motherLen (m : Mode) : Nat := 4 * (m.blkOut + m.convK - 1)

/-- `FIBS_PER_BLK`. -/
def fibsPerBlk (m : Mode) : Nat := m.blkOut / Config.fibBits

/-- `FIBS_PER_FRAME`. -/
def fibsPerFrame (m : Mode) : Nat := m.nBlk * fibsPerBlk m

/-- `SYMS_PER_CIF`. -/
def symsPerCif (m : Mode) : Nat := m.cifBits / nSoft m

/-- `CIF_CUS`. -/
def cifCus (m : Mode) : Nat := m.cifBits / m.cuBits

/-- `FIFO_DEPTH = L` (R13). -/
def fifoDepth (m : Mode) : Nat := m.symbols

/-- `INIT_DISCARD = ⌊T_F / 5⌋` (`46_sync_controller.md` R274). -/
def initDiscard (m : Mode) : Nat := m.tF / 5

/-- The transform bin of a carrier offset (`20_memory.md` R62). -/
def carrierBin (m : Mode) (k : Int) : Nat := (k % (m.tU : Int)).toNat

/-- `pos[0], pos[1], …`: the positions of the ones of `PM` (`43_fic_decoder.md` R187). -/
def onesFrom : Nat → List Bool → List Nat
  | _, [] => []
  | q, b :: bs => if b then q :: onesFrom (q + 1) bs else onesFrom (q + 1) bs

def punctureMap (m : Mode) : List Nat := onesFrom 0 m.pm

/-- The order of the roots of unity in the exact numbers' forms: a multiple of 8, of the configuration's
`fieldOrder` and of every mode's `T_u` (log 3). -/
def cfgOrder (c : Cfg) : Nat := c.modes.foldr (fun m n => Nat.lcm m.tU n) (Nat.lcm 8 c.fieldOrder)

/-! ## The pattern sets (`41_phase_reference.md` R149) -/

/-- `REF[bin(1 + j)] · conj REF[bin(2 + j)]`. -/
def refStep (M : Nat) (m : Mode) (j : Nat) : Cx :=
  cxMul M (m.ref.getD (carrierBin m (1 + j)) []) (cxConj M (m.ref.getD (carrierBin m (2 + j)) []))

/-- The expected-zero pairs, `e[j] < CO_EPS`. -/
def zeroPairs (M : Nat) (m : Mode) : List Nat :=
  (List.range m.coLen).filter fun j => argBelow M (refStep M m j) m.coEps

/-- The expected-π pairs, `e[j] > π - CO_EPS`. -/
def piPairs (M : Nat) (m : Mode) : List Nat :=
  (List.range m.coLen).filter fun j => argBelow M (cxNeg (refStep M m j)) m.coEps

/-! ## Well-formedness (`70_reset_and_hazards.md` R388) -/

/-- A carrier offset of the mode: non-zero, in `[-K/2, K/2]`. -/
def isOffset (m : Mode) (k : Int) : Bool := decide (k ≠ 0 ∧ k.natAbs ≤ m.carriers / 2)

/-- The carrier offsets of the mode. -/
def offsets (m : Mode) : List Int :=
  ((List.range (m.carriers / 2)).map fun (j : Nat) => (j : Int) + 1) ++
    (List.range (m.carriers / 2)).map fun (j : Nat) => -((j : Int) + 1)

/-- `PERM` is a bijection onto the offsets (`42_ofdm_decoder.md` R161). -/
def permWf (m : Mode) : Bool :=
  decide (m.perm.length = m.carriers) && m.perm.all (isOffset m) && decide m.perm.Nodup

/-- `REF` is of unit modulus on the carriers and zero off them (`41_phase_reference.md` R141). -/
def refWf (M : Nat) (m : Mode) : Bool :=
  decide (m.ref.length = m.tU) &&
  (List.range m.tU).all fun b =>
    let z := m.ref.getD b []
    if (offsets m).any fun k => decide (carrierBin m k = b) then decide (cxSignRe M (cxSub (cxNormSq M z) cxOne) = 0)
    else decide (cxSignRe M (cxNormSq M z) = 0)

def lengthsWf (m : Mode) : Bool :=
  decide (m.tS = m.tU + m.tG) && decide (m.tF = m.symbols * m.tS + m.tNull) &&
  decide (0 < m.tU ∧ 0 < m.tG ∧ 0 < m.tNull ∧ 0 < m.carrierDiff) && decide (m.tS ≤ 65535) &&
  decide (m.carriers % 2 = 0 ∧ 2 ≤ m.carriers ∧ m.carriers < m.tU) &&
  decide (Config.ficSyms + 2 ≤ m.symbols)

def searchWf (m : Mode) : Bool :=
  decide (m.searchW ≤ m.tG ∧ m.tG + m.searchW < m.tU) &&
  decide (m.coLen + 1 ≤ m.carriers / 2) && decide (0 < scalarSign m.coEps) && belowHalfPi m.coEps &&
  decide (2 * (m.coRange + m.coLen + 1) < m.tU)

/-- Every comparison that the pattern sets rest on is decided, so that they are those of R149 in every mode that is not
refused. By log 4 (PRESUMED) no `CO_EPS` fails this. -/
def patternsWf (M : Nat) (m : Mode) : Bool :=
  (List.range m.coLen).all fun j => argDecided M (refStep M m j) m.coEps && argDecided M (cxNeg (refStep M m j)) m.coEps

/-- `0 < a ≤ 1`. -/
def inUnitRange (a : Scalar) : Bool := decide (0 < scalarSign a) && !scalarLt (scalarOfRat 1) a

def levelsWf (m : Mode) : Bool :=
  decide (1 ≤ m.dipWindow ∧ m.dipWindow ≤ m.tF) && decide (0 < scalarSign m.dipLow) && scalarLt m.dipLow m.dipHigh &&
  inUnitRange m.levelAlpha && inUnitRange m.fineGain

/-- The FIC's geometry and codes; the last line is what the code and the dispersal generator need to be defined
(log 16). -/
def ficWf (m : Mode) : Bool :=
  decide (0 < m.nBlk ∧ ficBits m % m.nBlk = 0) && decide (m.blkOut % Config.fibBits = 0 ∧ Config.fibBits ≤ m.blkOut) &&
  decide (m.pm.length = motherLen m) && decide ((punctureMap m).length = blkIn m) && m.crcPoly.getLsbD 0 &&
  decide (1 ≤ m.convK) && decide (m.convTaps.length = 4) && m.convTaps.all (·.all fun d => decide (d < m.convK)) &&
  m.prbsTaps.all fun d => decide (1 ≤ d ∧ d ≤ m.prbsInit.length)

/-- The CIF's geometry. `CIF_BITS = 0` meets the conditions that R241 and R388 list, but leaves `mod SYMS_PER_CIF`
(R17, R250) undefined; it is refused, and so is `CU_BITS = 0` (DESIGN CHOICE, log 29). -/
def cifWf (m : Mode) : Bool :=
  decide (m.cifBits % nSoft m = 0) && decide (0 < m.cuBits ∧ m.cifBits % m.cuBits = 0) && decide (0 < m.cifBits) &&
  decide (symsPerCif m ≤ m.symbols - Config.mscFirst) && decide (cifCus m ≤ 65535)

/-- One mode of R388. -/
def modeWf (M : Nat) (m : Mode) : Bool :=
  lengthsWf m && permWf m && refWf M m && searchWf m && patternsWf M m && levelsWf m && ficWf m && cifWf m

/-- A configuration the block is defined on (R388). -/
def cfgWf (c : Cfg) : Bool :=
  decide (0 < c.fieldOrder) && decide (1 ≤ c.modes.length ∧ c.modes.length ≤ 256) && decide (1 ≤ c.maxSubs ∧ c.maxSubs ≤ 65535) &&
  c.modes.all (modeWf (cfgOrder c))

end Sys2Proof.Machine
end

