-- ==== Sys2Proof/Machine/State.lean ====
section
/-! DEFINITION. The state of the block: everything `10_state.md` names, the ports of `20_memory.md` R60, and the
environment's next acts. Plain data. -/

namespace Sys2Proof.Machine

/-! ## Named values -/

/-- `SYNC_STATE` (`10_state.md` R23). -/
inductive SyncState where
  | idle | acquiringLevel | searchingNull | verifyingNull | synchronized
deriving DecidableEq, Repr

/-- `SEQ_STEP` (`10_state.md` R55), in the order of its encoding. -/
inductive SeqStep where
  | a0 | n0 | v0 | v1 | f0 | f1 | f2 | f3 | s0 | s1 | s2 | s3 | s4 | e0 | e1 | e2 | e3
deriving DecidableEq, Repr

/-- `FIC_STATE` (`10_state.md` R36). -/
inductive FicState where
  | idle | accumulating | decoding | valid | invalid
deriving DecidableEq, Repr

/-- The status of a response (`30_encoding.md` R96). -/
inductive Status where
  | ok | fail | illegal | busy | stopped
deriving DecidableEq, Repr

/-- The buffers whose elements may be unwritten (`93_implementation_defined.md` U1). -/
inductive Space where
  | win | spec | prev | soft | ficAcc | ficOut | fifo | cif
deriving DecidableEq, Repr

/-! ## Records -/

/-- A response (`30_encoding.md` R96). -/
structure Resp where
  status : Status
  value  : Word
deriving DecidableEq, Repr

/-- A subscription (`10_state.md` R42). -/
structure Sub where
  sid   : Word
  comp  : BitVec 16
  start : Nat
  len   : Nat
  sink  : BitVec 8
deriving DecidableEq, Repr

/-- An entry of `FIFO` (`10_state.md` R40). -/
structure FifoEntry where
  sym  : Nat
  bits : List Soft
deriving DecidableEq, Repr

/-- A record on `CUOUT` (`45_msc_demux.md` R252). -/
structure CuRecord where
  sink : BitVec 8
  sid  : Word
  comp : BitVec 16
  bits : List Soft
deriving DecidableEq, Repr

/-- A record on `EVT` (`60_exceptions.md` R341, R345). -/
inductive EvtRecord where
  | noSignal
  | syncLost
  | configChanged
  | ficQuality (good bad : Word)
  | signalStrength (level : Word)
  | tii (main sub : BitVec 8)
deriving DecidableEq, Repr

/-- What `SRC` holds ready for a read (`20_memory.md` R63). -/
inductive SrcItem where
  | sample (z : Cx)
  | stopped
deriving DecidableEq, Repr

/-- A read that `SRC` has answered: the count asked for and the `freq_offset` argument (`20_memory.md` R63). -/
structure SrcRead where
  count : Nat
  foff  : Int
deriving DecidableEq, Repr

/-- A null scan in progress (`46_sync_controller.md` R279; `10_state.md` R51): whether the dip has started, `env`
oldest first, `cnt` and `cnt2`. -/
structure Scan where
  inDip : Bool
  env   : List Mag
  cnt   : Nat
  cnt2  : Nat
deriving DecidableEq, Repr

/-- One act of an agent or of the environment (`00_scope.md` R9; `93_implementation_defined.md` U3, U4, U10). -/
inductive Act where
  /-- `HOST`'s next command is executed -/
  | host
  /-- `SEQ` takes its next step -/
  | seq
  /-- `DMX` takes its step -/
  | dmx
  /-- a word arrives on `CMD` -/
  | command (w : Word)
  /-- a serial transport delivers the four bytes of a word, the most significant first (`20_memory.md` R66) -/
  | commandBytes (b3 b2 b1 b0 : BitVec 8)
  /-- a sample becomes ready at `SRC` -/
  | sample (z : Cx)
  /-- the sample device is stopped -/
  | stopped
  /-- `CFGA` raises `CONFIG_CHANGED` -/
  | configChanged
  /-- the TII detector reports a pair -/
  | tiiResult (main sub : BitVec 8)
deriving DecidableEq, Repr, Inhabited

/-! ## The state -/

/-- The state of the block. -/
structure State where
  /-- the configuration record; no step changes it (log 1) -/
  cfg : Cfg
  /-- `CTRL` (`10_state.md` R46): bit 0 `DMX_ASYNC`, bit 1 `TII_EN` -/
  ctrl : BitVec 2
  /-- `EVENT` (`10_state.md` R49) -/
  event : BitVec 6
  /-- `EVMASK` (`10_state.md` R49) -/
  evmask : BitVec 6
  /-- `THR` (`10_state.md` R47) -/
  thr : BitVec 16
  /-- `SIGNAL` (`10_state.md` R45) -/
  signal : Word
  /-- `TII` (`10_state.md` R45) -/
  tii : BitVec 16
  /-- `MODE_SEL` (`10_state.md` R48) -/
  modeSel : BitVec 8
  /-- `RUN` (`10_state.md` R22) -/
  run : Bool
  /-- `STOPREQ` (`10_state.md` R22) -/
  stopreq : Bool
  /-- `SYNC_STATE` (`10_state.md` R23) -/
  syncState : SyncState
  /-- `SEQ_STEP` (`10_state.md` R55) -/
  seqStep : SeqStep
  /-- `SYM_IDX` (`10_state.md` R25) -/
  symIdx : Nat
  /-- `NOSIG_CNT` (`10_state.md` R26) -/
  nosigCnt : Nat
  /-- `BFAIL_CNT` (`10_state.md` R26) -/
  bfailCnt : Nat
  /-- `BOFF` (`10_state.md` R54) -/
  boff : Nat
  /-- `SLEVEL` (`10_state.md` R27) -/
  slevel : Mag
  /-- `COARSE` (`10_state.md` R28) -/
  coarse : Int
  /-- `FINE` (`10_state.md` R28) -/
  fine : Hertz
  /-- `FREQCORR` (`10_state.md` R30) -/
  freqcorr : Cx
  /-- the null scan in progress (`10_state.md` R51) -/
  scan : Option Scan
  /-- `WIN` (`10_state.md` R32) -/
  win : Buf Cx
  /-- `SPEC` (`10_state.md` R33) -/
  spec : Buf Cx
  /-- `PREV` (`10_state.md` R34) -/
  prev : Buf Cx
  /-- `PREV_VALID` (`10_state.md` R34) -/
  prevValid : Bool
  /-- `SOFT` (`10_state.md` R35) -/
  soft : Buf Soft
  /-- `FIC_STATE` (`10_state.md` R36) -/
  ficState : FicState
  /-- `FIC_IDX` (`10_state.md` R36) -/
  ficIdx : Nat
  /-- `FIC_FILL` (`10_state.md` R37) -/
  ficFill : Nat
  /-- `FIC_ACC` (`10_state.md` R37), block `n` position `q` at `n · MOTHER_LEN + q` -/
  ficAcc : Buf Soft
  /-- whether an unlisted element of `FIC_ACC` is the 0 of its reset, or unwritten (log 7) -/
  ficAccZeroed : Bool
  /-- `FIC_OUT` (`10_state.md` R53) -/
  ficOut : Buf Bool
  /-- `FIB_GOOD` (`10_state.md` R38) -/
  fibGood : Word
  /-- `FIB_BAD` (`10_state.md` R38) -/
  fibBad : Word
  /-- `BAD_FRAMES` (`10_state.md` R38) -/
  badFrames : Word
  /-- `FIC_SYNC` (`10_state.md` R38) -/
  ficSync : Bool
  /-- `FIFO` (`10_state.md` R40), head first -/
  fifo : List FifoEntry
  /-- `CIF` (`10_state.md` R41) -/
  cif : Buf Soft
  /-- `CIF_VALID` (`10_state.md` R41): the slots whose bit is 1, rising -/
  cifValid : List Nat
  /-- `SUBS` (`10_state.md` R42), in table order -/
  subs : List Sub
  /-- `CMD` (`20_memory.md` R60): words received and not yet taken -/
  cmd : List Word
  /-- a unit operation of `HOST` that waits in a sample read (`20_memory.md` R70; log 11) -/
  hostWait : Option Instr
  /-- `RSP` (`20_memory.md` R60), oldest first -/
  rsp : List Resp
  /-- `SAMPLE` (`20_memory.md` R60): what `SRC` holds ready -/
  src : List SrcItem
  /-- the number of samples already taken from `SRC` (`10_state.md` R51) -/
  srcTaken : Nat
  /-- the reads `SRC` has answered, oldest first (`20_memory.md` R63; log 17) -/
  srcReq : List SrcRead
  /-- `FIBOUT` (`20_memory.md` R60), oldest first -/
  fibOut : List (List Bool)
  /-- `CUOUT` (`20_memory.md` R60), oldest first -/
  cuOut : List CuRecord
  /-- `TIIOUT` (`20_memory.md` R60), oldest first -/
  tiiOut : List (List Cx)
  /-- `EVT` (`20_memory.md` R60), oldest first -/
  evt : List EvtRecord
  /-- the model's own: the acts that come next (log 5) -/
  plan : List Act
  /-- the model's own: how many free acts have been taken (log 5) -/
  tick : Nat
deriving DecidableEq, Repr

/-- Why the machine stops. -/
inductive Fault where
  /-- Raised by a unit operation that reads an element of a buffer that nothing has written since `POR`, `START`
  or a change of `MODE_SEL` (`93_implementation_defined.md` U1). Safe: the hardware goes on with whatever the
  buffer holds. -/
  | readUnwritten (sp : Space)
deriving DecidableEq, Repr

/-- Why the model gives no step. -/
inductive Refusal where
  /-- Raised by no meaning: an arm of `exec` whose instruction has no meaning yet. Safe. -/
  | notModelled (mnemonic : String)
  /-- Raised by `step` on a configuration that breaks a condition of `70_reset_and_hazards.md` R388
  (`93_implementation_defined.md` U9). Safe: the block is not defined on it. -/
  | illFormedCfg
deriving DecidableEq, Repr

/-- Power-on reset of a block built with the configuration `c` (`10_state.md` R52, `70_reset_and_hazards.md`
R380). The port streams are empty. -/
def State.por (c : Cfg) : State where
  cfg := c
  ctrl := 0
  event := 0
  evmask := 0
  thr := 0
  signal := 0
  tii := 0
  modeSel := 0
  run := false
  stopreq := false
  syncState := .idle
  seqStep := .a0
  symIdx := 0
  nosigCnt := 0
  bfailCnt := 0
  boff := 0
  slevel := []
  coarse := 0
  fine := ⟨[], []⟩
  freqcorr := []
  scan := none
  win := []
  spec := []
  prev := []
  prevValid := false
  soft := []
  ficState := .idle
  ficIdx := 0
  ficFill := 0
  ficAcc := []
  ficAccZeroed := true
  ficOut := []
  fibGood := 0
  fibBad := 0
  badFrames := 0
  ficSync := false
  fifo := []
  cif := []
  cifValid := []
  subs := []
  cmd := []
  hostWait := none
  rsp := []
  src := []
  srcTaken := 0
  srcReq := []
  fibOut := []
  cuOut := []
  tiiOut := []
  evt := []
  plan := []
  tick := 0

/-- The machine right after power-on reset, in the configuration the log names (log 1). -/
def State.reset : State := State.por Config.toy

end Sys2Proof.Machine

namespace Sys2Proof.Config

/-- FREE VALUE (`93_implementation_defined.md` U3, U4, U10; log 5): the act that comes next where the plan is
empty, numbered by `tick`. -/
opaque freeAct : Nat → Machine.Act

end Sys2Proof.Config
end

