-- ==== Sys2Proof/Machine/Flags.lean ====
section
/-! DEFINITION. The block's flags (`10_state.md` R43: there are no condition codes): the `EVENT` bits, the
notification line, the `CTRL` bits, the `STATUS` word, and the encodings of the named values. -/

namespace Sys2Proof.Machine

/-- The `EVENT` bit of a record (`60_exceptions.md` R341). -/
def eventBit : EvtRecord → Nat
  | .noSignal => 0
  | .syncLost => 1
  | .configChanged => 2
  | .ficQuality _ _ => 3
  | .signalStrength _ => 4
  | .tii _ _ => 5

/-- The notification line: 1 exactly when `(EVENT and EVMASK) != 0` (`10_state.md` R49, `60_exceptions.md` R346). -/
def notifyLine (s : State) : Bool := decide (s.event &&& s.evmask ≠ 0)

/-- `CTRL.DMX_ASYNC` (`10_state.md` R46). -/
def dmxAsync (s : State) : Bool := s.ctrl.getLsbD 0

/-- `CTRL.TII_EN` (`10_state.md` R46). -/
def tiiEn (s : State) : Bool := s.ctrl.getLsbD 1

/-- `10_state.md` R23. -/
def syncCode : SyncState → Nat
  | .idle => 0
  | .acquiringLevel => 1
  | .searchingNull => 2
  | .verifyingNull => 3
  | .synchronized => 4

/-- `10_state.md` R36. -/
def ficCode : FicState → Nat
  | .idle => 0
  | .accumulating => 1
  | .decoding => 2
  | .valid => 3
  | .invalid => 4

/-- `30_encoding.md` R96. -/
def statusCode : Status → Nat
  | .ok => 0
  | .fail => 1
  | .illegal => 2
  | .busy => 3
  | .stopped => 4

/-- The two words of a response (`30_encoding.md` R96). -/
def respWords (r : Resp) : List Word := [BitVec.ofNat 32 (statusCode r.status), r.value]

/-- The bytes in which a serial transport sends a word: the most significant first (`20_memory.md` R66). -/
def wordBytes (w : Word) : List (BitVec 8) :=
  [w.extractLsb' 24 8, w.extractLsb' 16 8, w.extractLsb' 8 8, w.extractLsb' 0 8]

/-- The word that a serial transport delivers, from its bytes in the order of their arrival (`20_memory.md` R66). -/
def bytesWord (b3 b2 b1 b0 : BitVec 8) : Word := b3 ++ b2 ++ b1 ++ b0

/-- A response on a serial transport. -/
def respBytes (r : Resp) : List (BitVec 8) := (respWords r).flatMap wordBytes

/-- One bit at a place. -/
def flagAt (k : Nat) (b : Bool) : Word := if b then BitVec.ofNat 32 (2 ^ k) else 0

/-- `STATUS` (`10_state.md` R45). -/
def statusWord (s : State) : Word :=
  BitVec.ofNat 32 (syncCode s.syncState) ||| flagAt 3 s.run ||| flagAt 4 s.stopreq ||| flagAt 5 s.ficSync |||
    BitVec.ofNat 32 (ficCode s.ficState * 2 ^ 6) ||| flagAt 9 s.prevValid

/-- The `SYNC_STATE` that a position of the sequencer's program has while `RUN = 1` (`10_state.md` R55). -/
def syncOfStep : SeqStep → SyncState
  | .a0 => .acquiringLevel
  | .n0 => .searchingNull
  | .v0 => .verifyingNull
  | .v1 => .verifyingNull
  | .f0 => .synchronized
  | .f1 => .synchronized
  | .f2 => .synchronized
  | .f3 => .synchronized
  | .s0 => .synchronized
  | .s1 => .synchronized
  | .s2 => .synchronized
  | .s3 => .synchronized
  | .s4 => .synchronized
  | .e0 => .synchronized
  | .e1 => .synchronized
  | .e2 => .synchronized
  | .e3 => .synchronized

end Sys2Proof.Machine
end

