-- ==== Sys2Proof/Machine/Ops.lean ====
section
/-! DEFINITION. The named operations over the state: buffers, the selected mode, the sample port, events, responses,
the reset events, and the return to `Idle`. -/

namespace Sys2Proof.Machine

/-! ## Buffers (`20_memory.md` R60; `93_implementation_defined.md` U1) -/

/-- One element; none where nothing has written it. -/
def bufRead {α : Type} : Buf α → Nat → Option α
  | [], _ => none
  | (k, v) :: r, a => if a = k then some v else bufRead r a

/-- `n` elements from `off` on; none where one of them is unwritten. -/
def bufReadRange {α : Type} (b : Buf α) (off : Nat) : Nat → Option (List α)
  | 0 => some []
  | n + 1 =>
    match bufRead b off, bufReadRange b (off + 1) n with
    | some v, some vs => some (v :: vs)
    | _, _ => none

/-- Elements with their indices, from `off` on. -/
def bufOf {α : Type} (off : Nat) : List α → Buf α
  | [] => []
  | v :: vs => (off, v) :: bufOf (off + 1) vs

/-- Elements written from `off` on. -/
def bufWriteRange {α : Type} (b : Buf α) (off : Nat) (vs : List α) : Buf α :=
  b.filter (fun t => decide (t.1 < off)) ++ bufOf off vs ++ b.filter (fun t => decide (off + vs.length ≤ t.1))

/-- One element written. -/
def bufWrite {α : Type} (b : Buf α) (a : Nat) (v : α) : Buf α := bufWriteRange b a [v]

/-- The canonical form: indices strictly rising. -/
def bufWf {α : Type} : Buf α → Bool
  | [] => true
  | (k, _) :: r => (r.all fun t => decide (k < t.1)) && bufWf r

/-- One element of `FIC_ACC`, which reads 0 where a reset zeroed it and nothing has written it since. -/
def accRead (zeroed : Bool) (b : Buf Soft) (a : Nat) : Option Soft :=
  match bufRead b a with
  | some v => some v
  | none => if zeroed then some 0 else none

/-- One element of `FIC_ACC` written; an element equal to what an unlisted one reads as is not listed. -/
def accWrite (zeroed : Bool) (b : Buf Soft) (a : Nat) (v : Soft) : Buf Soft :=
  if zeroed = true ∧ v = 0 then b.filter (fun t => decide (t.1 ≠ a)) else bufWrite b a v

/-- `n` elements of `FIC_ACC` from `off` on. -/
def accReadRange (zeroed : Bool) (b : Buf Soft) (off : Nat) : Nat → Option (List Soft)
  | 0 => some []
  | n + 1 =>
    match accRead zeroed b off, accReadRange zeroed b (off + 1) n with
    | some v, some vs => some (v :: vs)
    | _, _ => none

/-- The canonical form of `FIC_ACC`. -/
def accWf (zeroed : Bool) (b : Buf Soft) : Bool := bufWf b && (!zeroed || b.all fun t => decide (t.2 ≠ 0))

/-! ## The selected mode (`10_state.md` R48) -/

/-- A mode that no `MODE_SEL` in range selects. -/
def nullMode : Mode where
  tU := 0
  tG := 0
  tS := 0
  tNull := 0
  tF := 0
  symbols := 0
  carriers := 0
  carrierDiff := 0
  perm := []
  ref := []
  searchW := 0
  dipWindow := 0
  dipLow := []
  dipHigh := []
  levelAlpha := []
  fineGain := []
  coRange := 0
  coLen := 0
  coEps := []
  nBlk := 0
  blkOut := 0
  pm := []
  convK := 0
  convTaps := []
  prbsTaps := []
  prbsInit := []
  crcPoly := 0
  crcInit := 0
  crcXorout := 0
  cifBits := 0
  cuBits := 0

/-- The mode `MODE_SEL` selects (`10_state.md` R48, `70_reset_and_hazards.md` R386). -/
def mode (s : State) : Mode := s.cfg.modes.getD s.modeSel.toNat nullMode

/-- The order of the configuration's exact numbers. -/
def order (s : State) : Nat := cfgOrder s.cfg

/-! ## Integers (`48_arithmetic_and_control.md` R330; log 10) -/

/-- An integer held in 32 bits two's complement; outside the range it saturates (`93` U7). -/
def sat32 (x : Int) : Int := max (-2 ^ 31) (min x (2 ^ 31 - 1))

/-- The 32-bit two's-complement word of an integer. -/
def word32 (x : Int) : Word := BitVec.ofInt 32 x

/-- `FOFF` (`10_state.md` R29). `92_eei_decisions.md` D18 words it `trunc(COARSE * carrierDiff + FINE)`; R29, U7 and
N24 truncate `FINE` alone, and the model follows them (DESIGN CHOICE, log 28). Beyond 32 bits it saturates (log 10). -/
def foff (s : State) : Int := sat32 (s.coarse * ((mode s).carrierDiff : Int) + hertzTrunc (order s) s.fine)

/-! ## Responses and events -/

/-- `resp(status, value)` (`30_encoding.md` R96). The value is one 32-bit word; of a number that does not fit it an
operation gives the low 32 bits (DESIGN CHOICE, log 34). -/
def respond (s : State) (st : Status) (v : Word) : State := { s with rsp := s.rsp ++ [⟨st, v⟩] }

/-- `raise` (`60_exceptions.md` R345): the payload registers (R341), the `EVENT` bit, the record on `EVT`. -/
def raiseEvent (s : State) (e : EvtRecord) : State :=
  let s := { s with event := s.event ||| BitVec.ofNat 6 (2 ^ eventBit e), evt := s.evt ++ [e] }
  match e with
  | .signalStrength v => { s with signal := v }
  | .tii main sub => { s with tii := main ++ sub }
  | .noSignal => s
  | .syncLost => s
  | .configChanged => s
  | .ficQuality good bad => { s with fibGood := good, fibBad := bad }

/-! ## Reset events and the return to `Idle` -/

/-- `FIC_ACC`, `FIC_FILL`, `FIC_IDX` and the per-frame counters zeroed (`43_fic_decoder.md` R183, R185). -/
def zeroFic (s : State) : State :=
  { s with ficAcc := [], ficAccZeroed := true, ficFill := 0, ficIdx := 0, fibGood := 0, fibBad := 0 }

/-- The `FRAME` reset (`70_reset_and_hazards.md` R383). -/
def frameReset (s : State) : State := { zeroFic s with symIdx := 0, freqcorr := [], ficState := .idle }

/-- The `START` reset (`70_reset_and_hazards.md` R381); the buffers that R52 leaves unspecified at `START` become
unwritten (log 7). -/
def startReset (s : State) : State :=
  { zeroFic s with
    stopreq := false, symIdx := 0, nosigCnt := 0, bfailCnt := 0, boff := 0, slevel := [], coarse := 0,
    fine := ⟨[], []⟩, freqcorr := [], scan := none, prevValid := false, ficState := .idle, badFrames := 0,
    ficSync := false, fifo := [], cifValid := [], win := [], spec := [], prev := [], soft := [], cif := [],
    ficOut := [], run := true, syncState := .acquiringLevel, seqStep := .a0 }

/-- The return to `Idle` (`46_sync_controller.md` R301, `70_reset_and_hazards.md` R382); a null scan in progress
ends with it. -/
def goIdle (s : State) : State :=
  { s with run := false, stopreq := false, syncState := .idle, seqStep := .a0, fifo := [], cifValid := [],
           scan := none }

/-- All buffers become unwritten: `MODE_SEL` has changed (`70_reset_and_hazards.md` R386; log 7). The entries of
`FIFO` and the slots of `CIF_VALID` stay, also those beyond the new mode's bounds (DESIGN CHOICE, log 30 and 31).
`FIC_STATE`, `FIC_IDX`, `FIC_FILL` and every other item that is no buffer stay too: `FIC_FILL` may then exceed the new
mode's `FIC_BITS` (`10_state.md` R37; DESIGN CHOICE, log 33). -/
def forgetBuffers (s : State) : State :=
  { s with win := [], spec := [], prev := [], soft := [], cif := [], ficOut := [], ficAcc := [],
           ficAccZeroed := false, fifo := s.fifo.map fun e => { e with bits := [] } }

/-! ## The sample port -/

/-- The outcome of one read: the samples and what is left; the count of samples lost to a `Stopped` and what is
left; or a wait. -/
inductive Fetched where
  | samples (v : List Cx) (rest : List SrcItem)
  | stopped (lost : Nat) (rest : List SrcItem)
  | waits
deriving DecidableEq, Repr

/-- `SrcRead(n)` (`20_memory.md` R63): `n` samples in stream order; a short read is `Stopped` and loses its
samples; without either the read blocks. -/
def fetchSamples : Nat → List SrcItem → Fetched
  | 0, r => .samples [] r
  | _ + 1, [] => .waits
  | _ + 1, .stopped :: r => .stopped 0 r
  | n + 1, .sample z :: r =>
    match fetchSamples n r with
    | .samples v r' => .samples (z :: v) r'
    | .stopped k r' => .stopped (k + 1) r'
    | .waits => .waits

/-- The per-sample level update (`46_sync_controller.md` R276). -/
def levelUpdate (M : Nat) (alpha : Scalar) (lvl : Mag) (z : Cx) : Mag :=
  magAdd (magScale (scalarSub (scalarOfRat 1) alpha) lvl) (magScale alpha (magAbs M z))

/-- What `take` gives: the samples, `Stopped`, or a wait, with the state after it. -/
inductive Taken where
  | samples (v : List Cx) (s : State)
  | stopped (s : State)
  | waits
deriving DecidableEq, Repr

/-- `take(n)` (`46_sync_controller.md` R273). -/
def take (n : Nat) (s : State) : Taken :=
  if s.run = true ∧ s.stopreq = true then .stopped s
  else
    let req := s.srcReq ++ [⟨n, foff s⟩]
    match fetchSamples n s.src with
    | .samples v r =>
      .samples v { s with
        src := r, srcTaken := s.srcTaken + n, srcReq := req,
        slevel := v.foldl (levelUpdate (order s) (mode s).levelAlpha) s.slevel }
    | .stopped k r => .stopped { s with src := r, srcTaken := s.srcTaken + k, srcReq := req }
    | .waits => .waits

/-- `flush()` (`20_memory.md` R65, R78): the queued samples are discarded. -/
def flushSrc (s : State) : State := { s with src := s.src.filter fun i => decide (i = .stopped) }

/-! ## Unit operations -/

/-- What an operation does: it ends with its status and value, it waits in a read, or it reads an unwritten
element (`93` U1). -/
inductive OpRes where
  | done (s : State) (st : Status) (v : Word)
  | waits (s : State)
  | fault (f : Fault)
deriving DecidableEq, Repr

/-- The operation's outcome as `HOST` sees it: its response, or the command kept waiting (log 11). -/
def hostOutcome (i : Instr) : OpRes → Host.Outcome State Fault Refusal
  | .done s st v => .next (respond s st v)
  | .waits s => .next { s with hostWait := some i }
  | .fault f => .fault f

/-- A unit operation from `HOST` (`30_encoding.md` R91, `60_exceptions.md` R347). -/
def hostUnit (i : Instr) (op : State → OpRes) (s : State) : Host.Outcome State Fault Refusal :=
  if s.run then .next (respond s .busy 0) else hostOutcome i (op s)

end Sys2Proof.Machine
end

