-- ==== Sys2Proof/Machine/Operands.lean ====
section
/-! DEFINITION. The operand forms (`48_arithmetic_and_control.md` R333: one addressing mode, an immediate element
offset into a named buffer, checked against the buffer's length) and the control and status register map. -/

namespace Sys2Proof.Machine

/-! ## Slices of `WIN` -/

/-- Whether `WIN[off .. off + T_u)` leaves `WIN`. -/
def sliceLeaves (s : State) (off : Nat) : Bool := decide ((mode s).tS < off + (mode s).tU)

/-- `WIN[off .. off + T_u)`, where it is written. -/
def winSlice (s : State) (off : Nat) : Option (List Cx) := bufReadRange s.win off (mode s).tU

/-- The spectrum of a slice (`40_fft_engine.md` R120). -/
def sliceDft (s : State) (w : List Cx) : List Cx := dft (order s) (mode s).tU w

/-- An operation on the slice at an immediate offset: `ILLEGAL` where the slice leaves `WIN`. -/
def onSlice (s : State) (off : Nat) (k : List Cx → OpRes) : OpRes :=
  if sliceLeaves s off then .done s .illegal 0
  else
    match winSlice s off with
    | some w => k w
    | none => .fault (.readUnwritten .win)

/-! ## The control and status registers (`10_state.md` R45) -/

/-- A field of at most `k` bits. -/
def field (k n : Nat) : Word := BitVec.ofNat 32 (n % 2 ^ k)

/-- `csr[a]`; none at a reserved address (`10_state.md` R44, R45, R50). A value that does not fit its field (a mode
field of `2^32` or more, a `trunc(FINE)` beyond 32 bits) reads as its low bits (DESIGN CHOICE, log 32). -/
def csrRead (s : State) (a : Nat) : Option Word :=
  match a with
  | 0x00 => some (s.ctrl.setWidth 32)
  | 0x01 => some (statusWord s)
  | 0x02 => some (s.event.setWidth 32)
  | 0x03 => some (s.evmask.setWidth 32)
  | 0x04 => some (s.thr.setWidth 32)
  | 0x05 => some (field 16 s.symIdx)
  | 0x06 => some (field 8 s.nosigCnt)
  | 0x07 => some (field 8 s.bfailCnt)
  | 0x08 => some (word32 s.coarse)
  | 0x09 => some (word32 (hertzTrunc (order s) s.fine))
  | 0x0A => some (word32 (foff s))
  | 0x0B => some s.fibGood
  | 0x0C => some s.fibBad
  | 0x0D => some s.badFrames
  | 0x0E => some s.signal
  | 0x0F => some (s.tii.setWidth 32)
  | 0x10 => some (field 16 s.fifo.length)
  | 0x11 => some (field 16 s.subs.length)
  | 0x12 => some (field 8 s.ficIdx)
  | 0x1F => some (s.modeSel.setWidth 32)
  | 0x20 => some (field 32 (mode s).tU)
  | 0x21 => some (field 32 (mode s).tG)
  | 0x22 => some (field 32 (mode s).tS)
  | 0x23 => some (field 32 (mode s).tNull)
  | 0x24 => some (field 32 (mode s).tF)
  | 0x25 => some (field 32 (mode s).symbols)
  | 0x26 => some (field 32 (mode s).carriers)
  | 0x27 => some (field 32 (mode s).carrierDiff)
  | _ => none

/-- `WRCSR`'s effect and response (`47_host_commands.md` R326). A change of `MODE_SEL` makes the buffers unwritten
(`forgetBuffers`) and keeps every other item, also where its range depends on the mode (DESIGN CHOICE, log 33): `SYM_IDX`
may then be `L` or more (`10_state.md` R25), `BOFF` may be `T_u` or more (R54), `FINE` may lie outside
`[-carrierDiff/2, carrierDiff/2)` (R28) and one fold of `FTRACK` need not bring it back, and `FIC_FILL` may exceed
`FIC_BITS` (R37). -/
def csrWrite (s : State) (a : Nat) (d : Word) : State × Status :=
  match a with
  | 0x00 => if s.run then (s, .busy) else ({ s with ctrl := d.setWidth 2 }, .ok)
  | 0x02 => ({ s with event := s.event &&& ~~~(d.setWidth 6) }, .ok)
  | 0x03 => ({ s with evmask := d.setWidth 6 }, .ok)
  | 0x04 => ({ s with thr := d.setWidth 16 }, .ok)
  | 0x1F =>
    if s.run then (s, .busy)
    else if s.cfg.modes.length ≤ (d.setWidth 8).toNat then (s, .illegal)
    else if d.setWidth 8 = s.modeSel then (s, .ok)
    else ({ forgetBuffers s with modeSel := d.setWidth 8 }, .ok)
  | _ => (s, .illegal)

end Sys2Proof.Machine
end

