-- ==== Sys2Proof/Machine/Control.lean ====
section
/-! DEFINITION. The session and register commands: `START`, `STOP`, `RDCSR`, `WRCSR` (`47_host_commands.md`). -/

namespace Sys2Proof.Machine

/-- `START` (`47_host_commands.md` R321). -/
def execStart (s : State) : Host.Outcome State Fault Refusal :=
  if s.run then .next (respond s .busy 0) else .next (respond (flushSrc (startReset s)) .ok 0)

/-- `STOP` (`47_host_commands.md` R322). -/
def execStop (s : State) : Host.Outcome State Fault Refusal :=
  if s.run then .next (respond { s with stopreq := true } .ok 1) else .next (respond s .ok 0)

/-- `RDCSR a` (`47_host_commands.md` R325). -/
def execRdcsr (a : Nat) (s : State) : Host.Outcome State Fault Refusal :=
  match csrRead s a with
  | some v => .next (respond s .ok v)
  | none => .next (respond s .illegal 0)

/-- `WRCSR a, d` (`47_host_commands.md` R326); the value of an `OK` is the register's new value. -/
def execWrcsr (a : Nat) (d : Word) (s : State) : Host.Outcome State Fault Refusal :=
  let r := csrWrite s a d
  if r.2 = .ok then .next (respond r.1 .ok ((csrRead r.1 a).getD 0)) else .next (respond r.1 r.2 0)

end Sys2Proof.Machine
end

