-- ==== Sys2Proof/Machine/Fic.lean ====
section
/-! DEFINITION. The FIC decoder: `FICPUSH`, `FICDEC`, `CRC16` (`43_fic_decoder.md`). -/

namespace Sys2Proof.Machine

/-! ## FICPUSH -/

/-- The place of `FIC_ACC[q / BLK_IN][pos[q mod BLK_IN]]`, `q` a position of the punctured stream
(`43_fic_decoder.md` R185, R187). -/
def ficAddress (m : Mode) (q : Nat) : Nat := q / blkIn m * motherLen m + (punctureMap m).getD (q % blkIn m) 0

/-- The soft bits of one symbol, written from the position `q` of the punctured stream on. -/
def depuncture (m : Mode) (zeroed : Bool) : Nat → List Soft → Buf Soft → Buf Soft
  | _, [], acc => acc
  | q, v :: vs, acc =>
    depuncture m zeroed (q + 1) vs (accWrite zeroed acc (ficAddress m q) v)

/-- Whether `FICPUSH idx` is refused (`43_fic_decoder.md` R183, R185). -/
def ficPushRefused (idx : Nat) (s : State) : Bool :=
  decide (Config.ficSyms ≤ idx) || (decide (idx ≠ 0) && decide (s.ficState ≠ .accumulating ∨ idx ≠ s.ficIdx))

/-- `FICPUSH idx` (`43_fic_decoder.md` R185). -/
def opFicpush (idx : Nat) (s : State) : OpRes :=
  if ficPushRefused idx s then .done s .illegal 0
  else
    match bufReadRange s.soft 0 (nSoft (mode s)) with
    | none => .fault (.readUnwritten .soft)
    | some v =>
      let s := if idx = 0 then zeroFic s else s
      let t := { s with
        ficAcc := depuncture (mode s) s.ficAccZeroed (idx * nSoft (mode s)) v s.ficAcc
        ficFill := s.ficFill + nSoft (mode s)
        ficIdx := idx + 1
        ficState := .accumulating }
      .done t .ok (BitVec.ofNat 32 t.ficFill)

/-- The command `FICPUSH idx`. -/
def execFicpush (idx : Nat) (s : State) : Host.Outcome State Fault Refusal := hostUnit (.ficpush idx) (opFicpush idx) s

/-! ## The maximum-likelihood word (`43_fic_decoder.md` R189 to R192)

The encoder's state before step `t` is the number whose bit `i` is `u[t - 1 - i]`; the state and the input bit make
the window `w`, whose bit `d` is `u[t - d]`, and the next state is `w` without its top bit. -/

/-- The four code bits of a window (R189). -/
def codeBits (m : Mode) (w : Nat) : List Bool := m.convTaps.map fun ds => ds.foldl (fun b d => xor b (w.testBit d)) false

/-- The windows' share of the metric (R192). -/
def branchMetric (m : Mode) (w : Nat) (y : List Soft) : Int :=
  (List.zipWith (fun (x : Bool) (v : Soft) => if x then v else -v) (codeBits m w) y).sum

/-- A best word so far into a state: its metric and its bits, latest first. -/
abbrev Survivor := Option (Int × List Bool)

/-- The survivor of the state before a window, one bit longer; no tail bit is 1 (R191). -/
def extendSurvivor (m : Mode) (t : Nat) (y : List Soft) (tab : List Survivor) (w : Nat) : Survivor :=
  if m.blkOut ≤ t ∧ w % 2 = 1 then none
  else (tab.getD (w / 2) none).map fun p => (p.1 + branchMetric m w y, decide (w % 2 = 1) :: p.2)

/-- The better of two survivors; `tie` says that the second is kept where their metrics are equal. -/
def betterSurvivor (tie : Bool) : Survivor → Survivor → Survivor
  | none, b => b
  | some a, none => some a
  | some a, some b => if a.1 < b.1 ∨ (a.1 = b.1 ∧ tie = true) then some b else some a

/-- The survivors after step `t`; `y` is the whole block, for the choice among equals (`93` U2, log 9). -/
def trellisStep (m : Mode) (y : List Soft) (t : Nat) (yt : List Soft) (tab : List Survivor) : List Survivor :=
  (List.range (2 ^ (m.convK - 1))).map fun st =>
    betterSurvivor (Config.vitTie m y t st) (extendSurvivor m t yt tab st)
      (extendSurvivor m t yt tab (st + 2 ^ (m.convK - 1)))

/-- `n` steps from step `t` on, over the soft bits that are left. -/
def trellis (m : Mode) (y : List Soft) : Nat → Nat → List Soft → List Survivor → List Survivor
  | 0, _, _, tab => tab
  | n + 1, t, ys, tab => trellis m y n (t + 1) (ys.drop 4) (trellisStep m y t (ys.take 4) tab)

/-- The all-zero state alone (R191). -/
def trellisInit (m : Mode) : List Survivor := some (0, []) :: List.replicate (2 ^ (m.convK - 1) - 1) none

/-- `viterbi(y)` (R191, R192). -/
def viterbi (m : Mode) (y : List Soft) : List Bool :=
  match (trellis m y (m.blkOut + m.convK - 1) 0 y (trellisInit m)).getD 0 none with
  | some p => p.2.reverse.take m.blkOut
  | none => []

/-! ## Energy dispersal and the check word -/

/-- `n` bits of the dispersal sequence after the bits `h`, latest first (`43_fic_decoder.md` R193; log 16). -/
def prbsFrom (taps : List Nat) : Nat → List Bool → List Bool
  | 0, _ => []
  | n + 1, h =>
    let b := taps.foldl (fun b d => xor b (h.getD (d - 1) false)) false
    b :: prbsFrom taps n (b :: h)

/-- `prbs[0 .. BLK_OUT)`. -/
def prbs (m : Mode) : List Bool := prbsFrom m.prbsTaps m.blkOut m.prbsInit

/-- One bit into the check register (`43_fic_decoder.md` R195). -/
def crcStep (poly reg : BitVec 16) (b : Bool) : BitVec 16 :=
  if xor (reg.getLsbD 15) b then (reg <<< 1) ^^^ poly else reg <<< 1

/-- The check word of a bit sequence. -/
def crcOf (m : Mode) (bits : List Bool) : BitVec 16 := bits.foldl (crcStep m.crcPoly) m.crcInit ^^^ m.crcXorout

/-- A bit sequence as a number, first bit most significant. -/
def bitsWord (bits : List Bool) : BitVec 16 := bits.foldl (fun w b => (w <<< 1) ||| (BitVec.ofBool b).setWidth 16) 0

/-- `crc` of a FIB. -/
def fibCrc (m : Mode) (fib : List Bool) : BitVec 16 := crcOf m (fib.take Config.fibPayloadBits)

/-- `field` of a FIB. -/
def fibField (fib : List Bool) : BitVec 16 := bitsWord ((fib.drop Config.fibPayloadBits).take Config.crcBits)

/-- `crc_ok`. -/
def crcOk (m : Mode) (fib : List Bool) : Bool := decide (fibCrc m fib = fibField fib)

/-! ## FICDEC -/

/-- The blocks `n, n + 1, …` of `FIC_ACC`. -/
def ficBlocks (s : State) : Nat → Nat → Option (List (List Soft))
  | 0, _ => some []
  | k + 1, n =>
    match accReadRange s.ficAccZeroed s.ficAcc (n * motherLen (mode s)) (motherLen (mode s)), ficBlocks s k (n + 1) with
    | some y, some ys => some (y :: ys)
    | _, _ => none

/-- The decoded bits of a block without the dispersal sequence (`43_fic_decoder.md` R190). -/
def decodeBlock (m : Mode) (y : List Soft) : List Bool := List.zipWith xor (viterbi m y) (prbs m)

/-- The first `n` FIBs of the decoded bits (`43_fic_decoder.md` R194). -/
def fibsOf : Nat → List Bool → List (List Bool)
  | 0, _ => []
  | n + 1, bits => bits.take Config.fibBits :: fibsOf n (bits.drop Config.fibBits)

/-- The walk of R190 over decoded FIBs, from `FIC_OUT` on to the event. -/
def ficWalk (s : State) (out : List Bool) : State :=
  let fibs := fibsOf (fibsPerFrame (mode s)) out
  let good := fibs.filter (crcOk (mode s))
  let s := { s with
    ficOut := bufOf 0 out
    fibGood := s.fibGood + BitVec.ofNat 32 good.length
    fibBad := s.fibBad + BitVec.ofNat 32 (fibs.length - good.length)
    fibOut := s.fibOut ++ good }
  let s :=
    if s.fibGood = 0 then { s with badFrames := s.badFrames + 1, ficState := .invalid }
    else { s with ficState := .valid, ficSync := true }
  raiseEvent s (.ficQuality s.fibGood s.fibBad)

/-- `FICDEC` (`43_fic_decoder.md` R190). Its value `(FIB_BAD << 16) or FIB_GOOD` does not fit the 32 bits of word 1 where
`FIB_BAD` is `2^16` or more; the model answers the low 32 bits of it (DESIGN CHOICE, log 34). -/
def opFicdec (s : State) : OpRes :=
  if s.ficState ≠ .accumulating ∨ s.ficIdx ≠ Config.ficSyms then .done s .illegal 0
  else
    match ficBlocks s (mode s).nBlk 0 with
    | none => .fault (.readUnwritten .ficAcc)
    | some ys =>
      let t := ficWalk s (ys.flatMap (decodeBlock (mode s)))
      .done t (if t.ficState = .valid then .ok else .fail) ((t.fibBad <<< 16) ||| t.fibGood)

/-- The command `FICDEC`. -/
def execFicdec (s : State) : Host.Outcome State Fault Refusal := hostUnit .ficdec opFicdec s

/-! ## CRC16 -/

/-- `CRC16 f` (`43_fic_decoder.md` R197). -/
def opCrc16 (f : Nat) (s : State) : OpRes :=
  if fibsPerFrame (mode s) ≤ f then .done s .illegal 0
  else
    match bufReadRange s.ficOut (Config.fibBits * f) Config.fibBits with
    | none => .fault (.readUnwritten .ficOut)
    | some fib =>
      .done s (if crcOk (mode s) fib then .ok else .fail) (fibField fib ++ fibCrc (mode s) fib)

/-- The command `CRC16 f`. -/
def execCrc16 (f : Nat) (s : State) : Host.Outcome State Fault Refusal := hostUnit (.crc16 f) (opCrc16 f) s

end Sys2Proof.Machine
end

