-- ==== Sys2Proof/Machine/Msc.lean ====
section
/-! DEFINITION. The demultiplexer's operations: `MSCPUSH`, `CIFPOP` (`45_msc_demux.md` section 3). -/

namespace Sys2Proof.Machine

/-! ## MSCPUSH -/

/-- Whether the queue is full (`45_msc_demux.md` R248). A queue that a change of `MODE_SEL` has left longer than the
new mode's `FIFO_DEPTH` counts as full (DESIGN CHOICE, log 30). -/
def fifoFull (s : State) : Bool := decide (fifoDepth (mode s) ≤ s.fifo.length)

/-- `MSCPUSH sym` (`45_msc_demux.md` R248), as `HOST` issues it: a full queue is a `FAIL`. Of a level that does
not fit the 32 bits of word 1 it answers the low 32 bits (DESIGN CHOICE, log 34). -/
def opMscpush (sym : Nat) (s : State) : OpRes :=
  if sym < Config.mscFirst ∨ (mode s).symbols ≤ sym then .done s .illegal 0
  else if fifoFull s then .done s .fail (BitVec.ofNat 32 s.fifo.length)
  else
    match bufReadRange s.soft 0 (nSoft (mode s)) with
    | none => .fault (.readUnwritten .soft)
    | some v => .done { s with fifo := s.fifo ++ [⟨sym, v⟩] } .ok (BitVec.ofNat 32 (s.fifo.length + 1))

/-- The command `MSCPUSH sym`. -/
def execMscpush (sym : Nat) (s : State) : Host.Outcome State Fault Refusal := hostUnit (.mscpush sym) (opMscpush sym) s

/-! ## CIFPOP -/

/-- The slot of a symbol in its CIF (`45_msc_demux.md` R250). -/
def cifSlot (m : Mode) (sym : Nat) : Nat := (sym - Config.mscFirst) % symsPerCif m

/-- A number put into a rising list. -/
def insertRising (p : Nat) : List Nat → List Nat
  | [] => [p]
  | q :: r => if p < q then p :: q :: r else if p = q then q :: r else q :: insertRising p r

/-- Every bit of `CIF_VALID` is 1. -/
def cifComplete (m : Mode) (valid : List Nat) : Bool := (List.range (symsPerCif m)).all fun p => decide (p ∈ valid)

/-- The record of one subscription (`45_msc_demux.md` R249, R252). -/
def cuRecord (m : Mode) (cif : Buf Soft) (e : Sub) : Option CuRecord :=
  (bufReadRange cif (e.start * m.cuBits) (e.len * m.cuBits)).map fun v => ⟨e.sink, e.sid, e.comp, v⟩

/-- The records of the table, in table order; none where one reads an element that is not written. -/
def cuRecords (m : Mode) (cif : Buf Soft) : List Sub → Option (List CuRecord)
  | [] => some []
  | e :: es =>
    match cuRecord m cif e, cuRecords m cif es with
    | some r, some rs => some (r :: rs)
    | _, _ => none

/-- The head of the queue in its slot of the CIF (`45_msc_demux.md` R249, up to the slice). -/
def placeHead (s : State) (e : FifoEntry) (r : List FifoEntry) : State :=
  let p := cifSlot (mode s) e.sym
  { s with
    fifo := r
    cif := bufWriteRange s.cif (p * nSoft (mode s)) e.bits
    cifValid := insertRising p (if p = 0 then [] else s.cifValid) }

/-- `CIFPOP` (`45_msc_demux.md` R249, R251), as `HOST` issues it: an empty queue is a `FAIL`. An entry that does
not hold `N_SOFT` soft bits is one that a change of `MODE_SEL` has made unwritten (log 7). -/
def opCifpop (s : State) : OpRes :=
  match s.fifo with
  | [] => .done s .fail 0
  | e :: r =>
    if e.bits.length ≠ nSoft (mode s) then .fault (.readUnwritten .fifo)
    else
      let t := placeHead s e r
      if cifSlot (mode s) e.sym + 1 ≠ symsPerCif (mode s) then .done t .ok 0
      else if cifComplete (mode s) t.cifValid then
        match cuRecords (mode s) t.cif t.subs with
        | none => .fault (.readUnwritten .cif)
        | some rs => .done { t with cuOut := t.cuOut ++ rs, cifValid := [] } .ok (BitVec.ofNat 32 rs.length)
      else .done { t with cifValid := [] } .ok 0

/-- The command `CIFPOP`. -/
def execCifpop (s : State) : Host.Outcome State Fault Refusal := hostUnit .cifpop opCifpop s

end Sys2Proof.Machine
end

