-- ==== Sys2Proof/Machine/Sampling.lean ====
section
/-! DEFINITION. The sequencer's operations on samples: `LEVEL`, `NULLSCAN`, `FILL`, `SHIFT`, `SKIPNULL`
(`46_sync_controller.md`). `opX` is the operation whoever issues it, `execX` the command of `HOST`. -/

namespace Sys2Proof.Machine

/-! ## LEVEL -/

/-- `LEVEL n` (`46_sync_controller.md` R275). -/
def opLevel (n : Nat) (s : State) : OpRes :=
  if n = 0 then .done s .illegal 0
  else
    match take n s with
    | .samples v t =>
      .done { t with slevel := magScaleRat (1 / (n : Rat)) (magSum (v.map (magAbs (order s)))) } .ok (BitVec.ofNat 32 n)
    | .stopped t => .done t .stopped 0
    | .waits => .waits s

/-- The command `LEVEL n`. -/
def execLevel (n : Nat) (s : State) : Host.Outcome State Fault Refusal := hostUnit (.level n) (opLevel n) s

/-! ## NULLSCAN -/

/-- `cur`, the mean of `env` (`46_sync_controller.md` R279). -/
def scanMean (s : State) (env : List Mag) : Mag := magScaleRat (1 / ((mode s).dipWindow : Rat)) (magSum env)

/-- `dip_start(cur, SLEVEL)` (`46_sync_controller.md` R280). -/
def dipStart (s : State) (env : List Mag) : Bool :=
  magLt (order s) (scanMean s env) (magScale (mode s).dipLow s.slevel)

/-- `dip_end(cur, SLEVEL)` (`46_sync_controller.md` R283). -/
def dipEnd (s : State) (env : List Mag) : Bool :=
  magLt (order s) (magScale (mode s).dipHigh s.slevel) (scanMean s env)

/-- What the loop tests of `46_sync_controller.md` R279 say: the scan ends, or it needs one sample more. -/
inductive Verdict where
  | ends (st : Status) (v : Word)
  | more (sc : Scan)
deriving DecidableEq, Repr

/-- The test of phase 2. `Found` answers `cnt + cnt2`; of a sum that does not fit the 32 bits of word 1 (`T_F`,
`T_null` and `L` have no bound in `70_reset_and_hazards.md` R388), its low 32 bits (DESIGN CHOICE, log 34). -/
def scanPhase2 (s : State) (sc : Scan) : Verdict :=
  if dipEnd s sc.env then .ends .ok (BitVec.ofNat 32 (sc.cnt + sc.cnt2))
  else if (mode s).tNull + (mode s).dipWindow ≤ sc.cnt2 then .ends .fail 1
  else .more sc

/-- The test of the phase the scan is in. -/
def scanTest (s : State) (sc : Scan) : Verdict :=
  if sc.inDip then scanPhase2 s sc
  else if dipStart s sc.env then scanPhase2 s { sc with inDip := true, cnt2 := 0 }
  else if (mode s).tF ≤ sc.cnt then .ends .fail 0
  else .more sc

/-- One sample more: the oldest of `env` is dropped. -/
def scanPush (M : Nat) (sc : Scan) (v : List Cx) : Scan :=
  { sc with
    env := sc.env.drop v.length ++ v.map (magAbs M)
    cnt := if sc.inDip then sc.cnt else sc.cnt + v.length
    cnt2 := if sc.inDip then sc.cnt2 + v.length else sc.cnt2 }

/-- The loops of R279, one `take(1)` a round; `fuel` exceeds the number of items `SRC` holds. -/
def scanLoop : Nat → Scan → State → OpRes
  | fuel, sc, s =>
    match scanTest s sc with
    | .ends st v => .done { s with scan := none } st v
    | .more sc =>
      match fuel with
      | 0 => .waits { s with scan := some sc }
      | fuel + 1 =>
        match take 1 s with
        | .samples v t => scanLoop fuel (scanPush (order s) sc v) t
        | .stopped t => .done { t with scan := none } .stopped 0
        | .waits => .waits { s with scan := some sc }

/-- `NULLSCAN` (`46_sync_controller.md` R279). Where `SRC` runs dry the scan keeps what it has (log 12). -/
def opNullscan (s : State) : OpRes :=
  match s.scan with
  | some sc =>
    if s.run = true ∧ s.stopreq = true then .done { s with scan := none } .stopped 0
    else scanLoop (s.src.length + 1) sc s
  | none =>
    match take (mode s).dipWindow s with
    | .samples v t =>
      scanLoop (t.src.length + 1) ⟨false, v.map (magAbs (order s)), (mode s).dipWindow, 0⟩ t
    | .stopped t => .done t .stopped 0
    | .waits => .waits s

/-- The command `NULLSCAN`. -/
def execNullscan (s : State) : Host.Outcome State Fault Refusal := hostUnit .nullscan opNullscan s

/-! ## FILL, SHIFT and SKIPNULL -/

/-- `FILL off, n` (`46_sync_controller.md` R277). -/
def opFill (off n : Nat) (s : State) : OpRes :=
  if n = 0 ∨ (mode s).tS < off + n then .done s .illegal 0
  else
    match take n s with
    | .samples v t => .done { t with win := bufWriteRange t.win off v } .ok (BitVec.ofNat 32 n)
    | .stopped t => .done t .stopped 0
    | .waits => .waits s

/-- The command `FILL off, n`. -/
def execFill (off n : Nat) (s : State) : Host.Outcome State Fault Refusal := hostUnit (.fill off n) (opFill off n) s

/-- `SHIFT n` (`46_sync_controller.md` R287, `48_arithmetic_and_control.md` R334). `SHIFT 0` reads nothing. -/
def opShift (n : Nat) (s : State) : OpRes :=
  if (mode s).tU < n then .done s .illegal 0
  else if n = 0 then .done s .ok (BitVec.ofNat 32 (mode s).tU)
  else
    match bufReadRange s.win n ((mode s).tU - n) with
    | some vs => .done { s with win := bufWriteRange s.win 0 vs } .ok (BitVec.ofNat 32 ((mode s).tU - n))
    | none => .fault (.readUnwritten .win)

/-- The command `SHIFT n`. -/
def execShift (n : Nat) (s : State) : Host.Outcome State Fault Refusal := hostUnit (.shift n) (opShift n) s

/-- `SKIPNULL` (`46_sync_controller.md` R295, R296). It answers `T_null`; of a `T_null` that does not fit the 32 bits of
word 1, its low 32 bits (DESIGN CHOICE, log 34). -/
def opSkipnull (s : State) : OpRes :=
  match take (mode s).tNull s with
  | .samples v t =>
    .done (if tiiEn t then { t with tiiOut := t.tiiOut ++ [v] } else t) .ok (BitVec.ofNat 32 (mode s).tNull)
  | .stopped t => .done t .stopped 0
  | .waits => .waits s

/-- The command `SKIPNULL`. -/
def execSkipnull (s : State) : Host.Outcome State Fault Refusal := hostUnit .skipnull opSkipnull s

end Sys2Proof.Machine
end

