-- ==== Sys2Proof/Machine/Subs.lean ====
section
/-! DEFINITION. The subscription commands: `SUBSCRIBE`, `UNSUBSCRIBE`, `RESET_SUBS` (`45_msc_demux.md` section 2). -/

namespace Sys2Proof.Machine

/-- Whether an entry has the key `(sid, comp)` (`45_msc_demux.md` R242). -/
def hasKey (sid : Word) (comp : BitVec 16) (e : Sub) : Bool := decide (e.sid = sid ∧ e.comp = comp)

/-- `SUBSCRIBE sink, comp, sid, len, start` (`45_msc_demux.md` R243): duplicate, range, full, in this order. -/
def execSubscribe (sink : BitVec 8) (comp : BitVec 16) (sid : Word) (len addr : Nat) (s : State) :
    Host.Outcome State Fault Refusal :=
  if s.subs.any (hasKey sid comp) then .next (respond s .fail 1)
  else if len = 0 ∨ cifCus (mode s) < addr + len then .next (respond s .illegal 0)
  else if s.cfg.maxSubs ≤ s.subs.length then .next (respond s .fail 2)
  else
    let s := { s with subs := s.subs ++ [⟨sid, comp, addr, len, sink⟩] }
    .next (respond s .ok (BitVec.ofNat 32 s.subs.length))

/-- `UNSUBSCRIBE comp, sid` (`45_msc_demux.md` R244). -/
def execUnsubscribe (comp : BitVec 16) (sid : Word) (s : State) : Host.Outcome State Fault Refusal :=
  if s.subs.any (hasKey sid comp) then
    let s := { s with subs := s.subs.eraseP (hasKey sid comp) }
    .next (respond s .ok (BitVec.ofNat 32 s.subs.length))
  else .next (respond s .fail 0)

/-- `RESET_SUBS` (`45_msc_demux.md` R245). -/
def execResetSubs (s : State) : Host.Outcome State Fault Refusal := .next (respond { s with subs := [] } .ok 0)

end Sys2Proof.Machine
end

