-- ==== Sys2Proof/Machine/SymbolDecoder.lean ====
section
/-! DEFINITION. The symbol decoder and the tracking loop: `PRIME`, `DECSYM` (`42_ofdm_decoder.md`), `FCORR`, `FTRACK`
(`46_sync_controller.md`). -/

namespace Sys2Proof.Machine

/-! ## PRIME -/

/-- `PRIME off` (`42_ofdm_decoder.md` R163). -/
def opPrime (off : Nat) (s : State) : OpRes :=
  onSlice s off fun w =>
    let x := bufOf 0 (sliceDft s w)
    .done { s with spec := x, prev := x, prevValid := true } .ok 0

/-- The command `PRIME off`. -/
def execPrime (off : Nat) (s : State) : Host.Outcome State Fault Refusal := hostUnit (.prime off) (opPrime off) s

/-! ## DECSYM -/

/-- The largest `k` of 7 bits with `k² · r2 ≤ 127² · x2`: `⌊127 · √x2 / √r2⌋` for `0 ≤ x2 ≤ r2`. -/
def softMagnitude (M : Nat) (x2 r2 : Cx) : Nat :=
  [64, 32, 16, 8, 4, 2, 1].foldl (fun (k b : Nat) =>
    if 0 ≤ cxSignRe M (cxSub (cxScale ((Config.softMax * Config.softMax : Nat) : Rat) x2)
      (cxScale (((k + b) * (k + b) : Nat) : Rat) r2)) then k + b else k) 0

/-- `soft(x, r)` (`42_ofdm_decoder.md` R166), `x` real. -/
def softBit (M : Nat) (x r : Cx) : Soft :=
  if cxSignRe M (cxNormSq M r) = 0 then 0
  else -cxSignRe M x * (softMagnitude M (cxMul M x x) (cxNormSq M r) : Int)

/-- The elements at a list of indices. -/
def bufReadAll {α : Type} (b : Buf α) : List Nat → Option (List α)
  | [] => some []
  | a :: r =>
    match bufRead b a, bufReadAll b r with
    | some v, some vs => some (v :: vs)
    | _, _ => none

/-- The bins of logical indices 0, 1, …: `PERM[i] mod T_u`. -/
def carrierBins (m : Mode) : List Nat := m.perm.map (carrierBin m)

/-- The products `r`, one a logical index; `p` holds the elements of `PREV` at the carriers' bins. -/
def products (s : State) (x p : List Cx) : List Cx :=
  List.zipWith (fun b v => cxMul (order s) (x.getD b []) (cxConj (order s) v)) (carrierBins (mode s)) p

/-- `SOFT` from the products: real parts at `i`, imaginary parts at `K + i`. -/
def softVector (M : Nat) (r : List Cx) : List Soft :=
  r.map (fun z => softBit M (cxRe M z) z) ++ r.map (fun z => softBit M (cxIm M z) z)

/-- `DECSYM off` (`42_ofdm_decoder.md` R164, R165). -/
def opDecsym (off : Nat) (s : State) : OpRes :=
  if sliceLeaves s off then .done s .illegal 0
  else if s.prevValid = false then .done s .illegal 0
  else
    match winSlice s off, bufReadAll s.prev (carrierBins (mode s)) with
    | none, _ => .fault (.readUnwritten .win)
    | _, none => .fault (.readUnwritten .prev)
    | some w, some p =>
      let x := sliceDft s w
      .done { s with
        spec := bufOf 0 x, prev := bufOf 0 x, soft := bufOf 0 (softVector (order s) (products s x p)) } .ok 0

/-- The command `DECSYM off`. -/
def execDecsym (off : Nat) (s : State) : Host.Outcome State Fault Refusal := hostUnit (.decsym off) (opDecsym off) s

/-! ## FCORR -/

/-- `FCORR` (`46_sync_controller.md` R291): the guard against the last `T_g` samples of the useful part. -/
def opFcorr (s : State) : OpRes :=
  match bufReadRange s.win (mode s).tU ((mode s).tS - (mode s).tU),
      bufReadRange s.win 0 ((mode s).tS - (mode s).tU) with
  | some tail, some guard =>
    .done { s with freqcorr := cxAdd s.freqcorr (cxSum (conjMul (order s) tail guard)) } .ok 0
  | _, _ => .fault (.readUnwritten .win)

/-- The command `FCORR`. -/
def execFcorr (s : State) : Host.Outcome State Fault Refusal := hostUnit .fcorr opFcorr s

/-! ## FTRACK -/

/-- The fold of `46_sync_controller.md` R293: `FINE` and the change of `COARSE`, from the sum. -/
def foldFine (M cd : Nat) (f : Hertz) : Hertz × Int :=
  if ratLeHertz M ((cd : Rat) / 2) f then (hertzAddRat (-(cd : Rat)) f, 1)
  else if ratLeHertz M (-((cd : Rat) / 2)) f then (f, 0)
  else (hertzAddRat (cd : Rat) f, -1)

/-- `FINE + FINE_GAIN · (arg FREQCORR / 2π) · carrierDiff`. -/
def trackedFine (s : State) : Hertz :=
  hertzAddArg (order s) (scalarScale ((mode s).carrierDiff : Rat) (mode s).fineGain) s.freqcorr s.fine

/-- `FTRACK` (`46_sync_controller.md` R293). -/
def opFtrack (s : State) : OpRes :=
  let r := foldFine (order s) (mode s).carrierDiff (trackedFine s)
  let t := { s with fine := r.1, coarse := sat32 (s.coarse + r.2), freqcorr := [] }
  .done t .ok (word32 (foff t))

/-- The command `FTRACK`. -/
def execFtrack (s : State) : Host.Outcome State Fault Refusal := hostUnit .ftrack opFtrack s

end Sys2Proof.Machine
end

