-- ==== Sys2Proof/Machine/Transform.lean ====
section
/-! DEFINITION. The transform and the phase-reference correlator: `FFT` (`40_fft_engine.md`), `FINDB`, `ESTCO`
(`41_phase_reference.md`). -/

namespace Sys2Proof.Machine

/-! ## FFT -/

/-- `FFT off` (`40_fft_engine.md` R124). -/
def opFft (off : Nat) (s : State) : OpRes :=
  onSlice s off fun w => .done { s with spec := bufOf 0 (sliceDft s w) } .ok 0

/-- The command `FFT off`. -/
def execFft (off : Nat) (s : State) : Host.Outcome State Fault Refusal := hostUnit (.fft off) (opFft off) s

/-! ## The first best of a list -/

/-- The first of the best keys; `lt x y` says that `y` is strictly better than `x`. -/
def firstBest {α β : Type} (lt : β → β → Bool) (best : α × β) : List (α × β) → α × β
  | [] => best
  | p :: ps => firstBest lt (if lt best.2 p.2 then p else best) ps

/-- The same over a list, which has a default where it is empty. -/
def firstBestOf {α β : Type} (lt : β → β → Bool) (dflt : α × β) : List (α × β) → α × β
  | [] => dflt
  | p :: ps => firstBest lt p ps

/-! ## FINDB -/

/-- `c = IDFT_Tu(X · conj REF)` (`41_phase_reference.md` R142). -/
def correlation (s : State) (x : List Cx) : List Cx :=
  idft (order s) (mode s).tU (conjMul (order s) x (mode s).ref)

/-- The search window (`41_phase_reference.md` R143). -/
def searchLags (m : Mode) : List Nat := (List.range (2 * m.searchW + 1)).map fun j => m.tG - m.searchW + j

/-- `nmax`, with the square of its magnitude: the smallest lag of the window at which `|c|` is largest, from the
list of all `|c[n]|²`. -/
def peak (s : State) (sq : List Cx) : Nat × Cx :=
  firstBestOf (fun a b => decide (cxSignRe (order s) (cxSub a b) < 0)) (0, [])
    ((searchLags (mode s)).map fun n => (n, sq.getD n []))

/-- `avg = 0 or m[nmax] < thr * avg`, both sides times `T_u`. -/
def noSync (s : State) (thr : Nat) (sq : List Cx) : Bool :=
  sq.all (fun a => decide (cxSignRe (order s) a = 0)) ||
    magLt (order s) (magScaleRat ((mode s).tU : Rat) (magSqrt (peak s sq).2)) (magScaleRat (thr : Rat) (magSum (sq.map magSqrt)))

/-- `FINDB thr` (`41_phase_reference.md` R142); `thr` is not limited to 16 bits. -/
def opFindb (thr : Nat) (s : State) : OpRes :=
  match winSlice s 0 with
  | none => .fault (.readUnwritten .win)
  | some w =>
    let x := sliceDft s w
    let t := { s with spec := bufOf 0 x }
    let sq := (correlation s x).map (cxNormSq (order s))
    if noSync s thr sq then .done t .fail 0 else .done t .ok (BitVec.ofNat 32 (peak s sq).1)

/-- The command `FINDB thr`. -/
def execFindb (thr : Nat) (s : State) : Host.Outcome State Fault Refusal := hostUnit (.findb thr) (opFindb thr) s

/-! ## ESTCO -/

/-- The trial shifts (`41_phase_reference.md` R148). -/
def trialShifts (m : Mode) : List Int := (List.range (2 * m.coRange + 1)).map fun (j : Nat) => (j : Int) - (m.coRange : Int)

/-- `d[t][j]`. -/
def phaseStep (s : State) (x : List Cx) (t : Int) (j : Nat) : Angle :=
  angleAbsArg (order s)
    (cxMul (order s) (x.getD (carrierBin (mode s) (1 + j + t)) [])
      (cxConj (order s) (x.getD (carrierBin (mode s) (2 + j + t)) [])))

/-- `S0[t]` or `Sp[t]`, by the pattern set. -/
def shiftSum (s : State) (x : List Cx) (pairs : List Nat) (t : Int) : Angle :=
  angleSum (order s) (pairs.map (phaseStep s x t))

/-- The trial shifts with their sums. -/
def shiftSums (s : State) (x : List Cx) (pairs : List Nat) : List (Int × Angle) :=
  (trialShifts (mode s)).map fun t => (t, shiftSum s x pairs t)

/-- `t0`: the smallest shift with the least `S0`. -/
def bestZero (s : State) (x : List Cx) : Int :=
  (firstBestOf (fun a b => angleLt (order s) b a) (0, angleZero) (shiftSums s x (zeroPairs (order s) (mode s)))).1

/-- `tp`: the smallest shift with the greatest `Sp`. -/
def bestPi (s : State) (x : List Cx) : Int :=
  (firstBestOf (fun a b => angleLt (order s) a b) (0, angleZero) (shiftSums s x (piPairs (order s) (mode s)))).1

/-- The result of R148: `Some t`, or `None`. -/
def carrierShift (s : State) (x : List Cx) : Option Int :=
  if zeroPairs (order s) (mode s) = [] ∨ piPairs (order s) (mode s) = [] then none
  else if bestZero s x = bestPi s x then some (bestZero s x) else none

/-- `ESTCO off` (`41_phase_reference.md` R148, R150). -/
def opEstco (off : Nat) (s : State) : OpRes :=
  onSlice s off fun w =>
    let x := sliceDft s w
    let t := { s with spec := bufOf 0 x }
    match carrierShift s x with
    | some k => .done t .ok (word32 k)
    | none => .done t .fail 0

/-- The command `ESTCO off`. -/
def execEstco (off : Nat) (s : State) : Host.Outcome State Fault Refusal := hostUnit (.estco off) (opEstco off) s

end Sys2Proof.Machine
end

