-- ==== Sys2Proof/Machine/Dispatch.lean ====
section
/-! DEFINITION. The execution of a command received from `HOST` (`30_encoding.md` R90, R91): one arm a command. -/

namespace Sys2Proof.Machine

/-- The command's transition. -/
def exec (i : Instr) (s : State) : Host.Outcome State Fault Refusal :=
  match i with
  | .start => Sys2Proof.Machine.execStart s
  | .stop => Sys2Proof.Machine.execStop s
  | .rdcsr a => Sys2Proof.Machine.execRdcsr a s
  | .wrcsr a d => Sys2Proof.Machine.execWrcsr a d s
  | .subscribe sink comp sid len addr => Sys2Proof.Machine.execSubscribe sink comp sid len addr s
  | .unsubscribe comp sid => Sys2Proof.Machine.execUnsubscribe comp sid s
  | .resetSubs => Sys2Proof.Machine.execResetSubs s
  | .level n => Sys2Proof.Machine.execLevel n s
  | .nullscan => Sys2Proof.Machine.execNullscan s
  | .fill off n => Sys2Proof.Machine.execFill off n s
  | .shift n => Sys2Proof.Machine.execShift n s
  | .skipnull => Sys2Proof.Machine.execSkipnull s
  | .fft off => Sys2Proof.Machine.execFft off s
  | .findb thr => Sys2Proof.Machine.execFindb thr s
  | .estco off => Sys2Proof.Machine.execEstco off s
  | .prime off => Sys2Proof.Machine.execPrime off s
  | .fcorr => Sys2Proof.Machine.execFcorr s
  | .decsym off => Sys2Proof.Machine.execDecsym off s
  | .ftrack => Sys2Proof.Machine.execFtrack s
  | .ficpush idx => Sys2Proof.Machine.execFicpush idx s
  | .ficdec => Sys2Proof.Machine.execFicdec s
  | .crc16 f => Sys2Proof.Machine.execCrc16 f s
  | .mscpush sym => Sys2Proof.Machine.execMscpush sym s
  | .cifpop => Sys2Proof.Machine.execCifpop s

end Sys2Proof.Machine
end

