-- ==== Sys2Proof/Machine/Sequencer.lean ====
section
/-! DEFINITION. The sequencer's program (`46_sync_controller.md` R271) and the demultiplexer's step
(`45_msc_demux.md` R247). -/

namespace Sys2Proof.Machine

/-- The next position, with the `SYNC_STATE` it means (`10_state.md` R55). -/
def moveTo (p : SeqStep) (s : State) : State := { s with seqStep := p, syncState := syncOfStep p }

/-- A step that issues `op` and goes on with `k`; `Stopped` goes to `Idle` (`46_sync_controller.md` R301). -/
def seqUnit (op : OpRes) (k : State → Status → Word → State) : Host.Outcome State Fault Refusal :=
  match op with
  | .done s st v => if st = .stopped then .next (goIdle s) else .next (k s st v)
  | .waits s => .next s
  | .fault f => .fault f

/-- A step that issues `op` and moves on whatever it answers. -/
def seqThen (op : OpRes) (p : SeqStep) : Host.Outcome State Fault Refusal := seqUnit op fun s _ _ => moveTo p s

/-- After the `NULLSCAN` of step `N0` (`46_sync_controller.md` R282). -/
def afterScan (s : State) (st : Status) (v : Word) : State :=
  if st = .ok then moveTo .v0 { s with nosigCnt := 0 }
  else if v = 0 then
    if s.nosigCnt + 1 = Config.nNosig then { raiseEvent s .noSignal with nosigCnt := 0 }
    else { s with nosigCnt := s.nosigCnt + 1 }
  else s

/-- After the `FINDB` of step `V1` (`46_sync_controller.md` R285). -/
def afterVerify (s : State) (st : Status) (v : Word) : State :=
  if st = .ok then moveTo .f0 { s with boff := v.toNat } else moveTo .n0 s

/-- After the `ESTCO` of step `F3` (`46_sync_controller.md` R289). -/
def afterEstco (s : State) (st : Status) (v : Word) : State :=
  if st = .ok then { s with coarse := sat32 (s.coarse + v.toInt) } else s

/-- To the first data symbol. -/
def firstSymbol (s : State) : State := moveTo .s0 { s with symIdx := 1 }

/-- The end of step `S4`: the next symbol, or the end of the frame. -/
def nextSymbol (s : State) : State :=
  if (mode s).symbols ≤ s.symIdx + 1 then moveTo .e0 { s with symIdx := 0 }
  else moveTo .s0 { s with symIdx := s.symIdx + 1 }

/-- `SIGNAL_REPR(SLEVEL)` (`93_implementation_defined.md` U5): 0 at 0, and else the free value of the record
(log 8). -/
def signalWord (s : State) : Word :=
  if magSign (order s) s.slevel = 0 then 0
  else
    match Config.reals with
    | some r => r.signalRepr (order s) s.slevel
    | none => 0

/-- After the `FTRACK` of step `E0` (`46_sync_controller.md` R294). -/
def afterTrack (s : State) : State := moveTo .e1 (raiseEvent s (.signalStrength (signalWord s)))

/-- After the `FINDB` of step `E3` (`46_sync_controller.md` R298). -/
def afterReverify (s : State) (st : Status) (v : Word) : State :=
  if st = .ok then moveTo .f0 { s with boff := v.toNat, bfailCnt := 0 }
  else if s.bfailCnt + 1 = Config.nBfail then
    moveTo .n0 (raiseEvent { s with bfailCnt := 0, ficSync := false } .syncLost)
  else moveTo .f0 { s with bfailCnt := s.bfailCnt + 1, boff := (mode s).tG }

/-- Step `F0` (`46_sync_controller.md` R286). -/
def stepF0 (s : State) : Host.Outcome State Fault Refusal :=
  if s.stopreq then .next (goIdle s) else seqThen (opShift s.boff (frameReset s)) .f1

/-- Step `F1`. -/
def stepF1 (s : State) : Host.Outcome State Fault Refusal :=
  if s.boff = 0 then .next (moveTo .f2 s) else seqThen (opFill ((mode s).tU - s.boff) s.boff s) .f2

/-- Step `F3` (`46_sync_controller.md` R289). -/
def stepF3 (s : State) : Host.Outcome State Fault Refusal :=
  if s.ficSync then .next (firstSymbol s)
  else seqUnit (opEstco 0 s) fun t st v => firstSymbol (afterEstco t st v)

/-- Step `S3` (`46_sync_controller.md` R292); a full queue holds it up, and a stop is seen there (R301). -/
def stepS3 (s : State) : Host.Outcome State Fault Refusal :=
  if s.symIdx ≤ Config.ficSyms then seqThen (opFicpush (s.symIdx - 1) s) .s4
  else if fifoFull s then (if s.stopreq then .next (goIdle s) else .next s)
  else seqThen (opMscpush s.symIdx s) .s4

/-- Step `S4` (`46_sync_controller.md` R292); an empty queue holds its `CIFPOP` up (`45_msc_demux.md` R249). -/
def stepS4 (s : State) : Host.Outcome State Fault Refusal :=
  if s.symIdx = Config.ficSyms then seqUnit (opFicdec s) fun t _ _ => nextSymbol t
  else if Config.ficSyms < s.symIdx ∧ dmxAsync s = false then
    (if s.fifo = [] then .next s else seqUnit (opCifpop s) fun t _ _ => nextSymbol t)
  else .next (nextSymbol s)

/-- The program (`46_sync_controller.md` R271). -/
def program (p : SeqStep) (s : State) : Host.Outcome State Fault Refusal :=
  match p with
  | .a0 => seqThen (opLevel (initDiscard (mode s)) s) .n0
  | .n0 => seqUnit (opNullscan s) afterScan
  | .v0 => seqThen (opFill 0 (mode s).tU s) .v1
  | .v1 => seqUnit (opFindb s.thr.toNat s) afterVerify
  | .f0 => stepF0 s
  | .f1 => stepF1 s
  | .f2 => seqThen (opPrime 0 s) .f3
  | .f3 => stepF3 s
  | .s0 => seqThen (opFill 0 (mode s).tS s) .s1
  | .s1 => seqThen (opFcorr s) .s2
  | .s2 => seqThen (opDecsym (mode s).tG s) .s3
  | .s3 => stepS3 s
  | .s4 => stepS4 s
  | .e0 => seqUnit (opFtrack s) fun t _ _ => afterTrack t
  | .e1 => seqThen (opSkipnull s) .e2
  | .e2 => seqThen (opFill 0 (mode s).tU s) .e3
  | .e3 => seqUnit (opFindb (Config.thrMult * s.thr.toNat) s) afterReverify

/-- `SEQ`'s step; it has none while `RUN = 0`. -/
def seqStep (s : State) : Host.Outcome State Fault Refusal := if s.run then program s.seqStep s else .next s

/-- `DMX`'s step (`45_msc_demux.md` R247, `60_exceptions.md` R363); it has none where it is not enabled (log 15). -/
def dmxStep (s : State) : Host.Outcome State Fault Refusal :=
  if dmxAsync s = false ∨ s.fifo = [] then .next s
  else
    match opCifpop s with
    | .done t _ _ => .next t
    | .waits t => .next t
    | .fault f => .fault f

end Sys2Proof.Machine
end

