-- ==== Sys2Proof/Machine/HostPort.lean ====
section
/-! DEFINITION. The command port and the acts of the agents and of the environment (`00_scope.md` R9;
`93_implementation_defined.md` U3, U4, U10; log 5). -/

namespace Sys2Proof.Machine

/-- `HOST`'s next command, in arrival order (`47_host_commands.md` R320): the unit operation that waits in a read
(log 11), else the command at the head of `CMD`; none while its words have not all arrived. -/
def hostStep (s : State) : Host.Outcome State Fault Refusal :=
  match s.hostWait with
  | some i => exec i { s with hostWait := none }
  | none =>
    match decode s.cmd with
    | .command i rest => exec i { s with cmd := rest }
    | .illegal _ rest => .next (respond { s with cmd := rest } .illegal 0)
    | .incomplete => .next s

/-- A sample in the form the block computes with. -/
def arrive (s : State) (z : Cx) : State := { s with src := s.src ++ [.sample (cxNorm (order s) z)] }

/-- One act. -/
def perform (a : Act) (s : State) : Host.Outcome State Fault Refusal :=
  match a with
  | .host => hostStep s
  | .seq => seqStep s
  | .dmx => dmxStep s
  | .command w => .next { s with cmd := s.cmd ++ [w] }
  | .commandBytes b3 b2 b1 b0 => .next { s with cmd := s.cmd ++ [bytesWord b3 b2 b1 b0] }
  | .sample z => .next (arrive s z)
  | .stopped => .next { s with src := s.src ++ [.stopped] }
  | .configChanged => .next (raiseEvent s .configChanged)
  | .tiiResult main sub => .next (raiseEvent s (.tii main sub))

/-- The words of one instruction at the head of `CMD`, and `HOST`'s act next. -/
def placeCommand (s : State) (ws : List Word) : State :=
  { s with cmd := ws ++ s.cmd, plan := .host :: s.plan, hostWait := none }

end Sys2Proof.Machine
end

