-- ==== Sys2Proof/Machine/Step.lean ====
section
/-! DEFINITION. One step of the machine: the next act of the plan, or a free one (log 5). -/

namespace Sys2Proof.Machine

/-- The step. An ill-formed configuration is refused (`70_reset_and_hazards.md` R388; log 22). -/
def step (s : State) : Host.Outcome State Fault Refusal :=
  if cfgWf s.cfg = false then .refused .illFormedCfg
  else
    match s.plan with
    | a :: r => perform a { s with plan := r }
    | [] => perform (Config.freeAct s.tick) { s with tick := s.tick + 1 }

/-- The state with an instruction placed where the next step takes it (log 6). -/
def State.withFetchWord (s : State) (nbits w : Nat) : State := placeCommand s (tableWords nbits w)

end Sys2Proof.Machine
end

