-- ==== Sys2Proof/Safety.lean ====
section
/-! DEFINITION. The terms that statements about the machine are made in: transforms and correlations as real and
complex numbers, the unit operations, the encoder and the metric of the FIC's code, the invariants of the state, and the
safety of a running block (every buffer element `SEQ` reads next is written). -/

namespace Sys2Proof.Machine

/-! ## Values of transforms (`00_scope.md` R16) -/

/-- `trunc`, toward zero (`00_scope.md` R17). -/
noncomputable def truncReal (x : ℝ) : ℤ := if 0 ≤ x then ⌊x⌋ else ⌈x⌉

/-- `∑ₙ x[n] · exp (-2πi·n·k / N)`, the transform of `40_fft_engine.md` R120 at `k`. -/
noncomputable def spectrumAt (M N : Nat) (x : List Cx) (k : Nat) : ℂ :=
  ∑ n ∈ Finset.range N,
    cxVal M (x.getD n []) * Complex.exp (-(2 * Real.pi * Complex.I * (n : ℂ) * (k : ℂ) / (N : ℂ)))

/-- `(1/N) ∑ₖ X[k] · exp (2πi·n·k / N)`, the inverse of `40_fft_engine.md` R121 at `n`. -/
noncomputable def inverseAt (M N : Nat) (X : List Cx) (n : Nat) : ℂ :=
  (1 / (N : ℂ)) * ∑ k ∈ Finset.range N,
    cxVal M (X.getD k []) * Complex.exp (2 * Real.pi * Complex.I * (n : ℂ) * (k : ℂ) / (N : ℂ))

/-- The list `X` holds the transform of the list `w`. -/
def IsSpectrum (s : State) (w X : List Cx) : Prop :=
  X.length = (mode s).tU ∧ ∀ k, k < (mode s).tU → cxVal (order s) (X.getD k []) = spectrumAt (order s) (mode s).tU w k

/-! ## The correlations (`41_phase_reference.md` R142, R148) -/

/-- `k` is the smallest number of `[lo, hi]` at which `f` is largest. -/
def IsFirstMax (lo hi : Int) (f : Int → ℝ) (k : Int) : Prop :=
  (lo ≤ k ∧ k ≤ hi) ∧ ∀ j, lo ≤ j → j ≤ hi → f j ≤ f k ∧ (j < k → f j < f k)

/-- `m[n] = |c[n]|`, `c` the inverse transform of `X[k] · conj REF[k]`, `X` the transform of `w` (R142). -/
noncomputable def correlationAt (s : State) (w : List Cx) (n : Nat) : ℝ :=
  ‖(1 / ((mode s).tU : ℂ)) * ∑ k ∈ Finset.range (mode s).tU,
    spectrumAt (order s) (mode s).tU w k * (starRingEnd ℂ) (cxVal (order s) ((mode s).ref.getD k [])) *
      Complex.exp (2 * Real.pi * Complex.I * (n : ℂ) * (k : ℂ) / ((mode s).tU : ℂ))‖

/-- `avg` (R142). -/
noncomputable def correlationMean (s : State) (w : List Cx) : ℝ :=
  (∑ n ∈ Finset.range (mode s).tU, correlationAt s w n) / ((mode s).tU : ℝ)

/-- `nmax` (R142, R143): the smallest lag of the search window with the largest `m`. -/
def IsPeak (s : State) (w : List Cx) (n : Nat) : Prop :=
  IsFirstMax ((mode s).tG - (mode s).searchW : Nat) ((mode s).tG + (mode s).searchW : Nat)
    (fun j => correlationAt s w j.toNat) n

/-- `d[t][j] = |arg (X[(1 + j + t) mod T_u] · conj X[(2 + j + t) mod T_u])|` (R148). -/
noncomputable def phaseStepAt (s : State) (w : List Cx) (t : Int) (j : Nat) : ℝ :=
  |Complex.arg (spectrumAt (order s) (mode s).tU w (((1 + j + t) % ((mode s).tU : Int)).toNat) *
    (starRingEnd ℂ) (spectrumAt (order s) (mode s).tU w (((2 + j + t) % ((mode s).tU : Int)).toNat)))|

/-- `e[j] = |arg (REF[bin(1 + j)] · conj REF[bin(2 + j)])|` (R149). -/
noncomputable def expectedStep (s : State) (j : Nat) : ℝ :=
  |Complex.arg (cxVal (order s) ((mode s).ref.getD (carrierBin (mode s) (1 + j)) []) *
    (starRingEnd ℂ) (cxVal (order s) ((mode s).ref.getD (carrierBin (mode s) (2 + j)) [])))|

/-- `Z = { j : e[j] < CO_EPS }` (R149). -/
noncomputable def zeroSet (s : State) : Finset Nat :=
  (Finset.range (mode s).coLen).filter fun j => expectedStep s j < scalarVal (mode s).coEps

/-- `P = { j : e[j] > π - CO_EPS }` (R149). -/
noncomputable def piSet (s : State) : Finset Nat :=
  (Finset.range (mode s).coLen).filter fun j => Real.pi - scalarVal (mode s).coEps < expectedStep s j

/-- The carrier shift that both patterns agree on (R148): the smallest `t` that makes the sum over `Z` least and the
smallest that makes the sum over `P` greatest, where neither set is empty. -/
def IsShift (s : State) (w : List Cx) (t : Int) : Prop :=
  (zeroSet s).Nonempty ∧ (piSet s).Nonempty ∧
  IsFirstMax (-((mode s).coRange : Int)) (mode s).coRange (fun k => -∑ j ∈ zeroSet s, phaseStepAt s w k j) t ∧
  IsFirstMax (-((mode s).coRange : Int)) (mode s).coRange (fun k => ∑ j ∈ piSet s, phaseStepAt s w k j) t

/-! ## The null scan (`46_sync_controller.md` R276, R279, R280, R283) -/

/-- `|z|` of the `j`-th sample. -/
noncomputable def magnitudeAt (s : State) (zs : List Cx) (j : Nat) : ℝ := ‖cxVal (order s) (zs.getD j [])‖

/-- `cur` after `n` samples: the mean of the last `DIP_WINDOW` magnitudes (R279). -/
noncomputable def curAt (s : State) (zs : List Cx) (n : Nat) : ℝ :=
  (∑ j ∈ Finset.range (mode s).dipWindow, magnitudeAt s zs (n - (mode s).dipWindow + j)) / ((mode s).dipWindow : ℝ)

/-- `SLEVEL` after `n` samples (R276). -/
noncomputable def levelAt (s : State) (zs : List Cx) : Nat → ℝ
  | 0 => magVal (order s) s.slevel
  | n + 1 => (1 - scalarVal (mode s).levelAlpha) * levelAt s zs n + scalarVal (mode s).levelAlpha * magnitudeAt s zs n

/-- `dip_start` after `n` samples (R280). -/
def DipStarts (s : State) (zs : List Cx) (n : Nat) : Prop := curAt s zs n < scalarVal (mode s).dipLow * levelAt s zs n

/-- `dip_end` after `n` samples (R283). -/
def DipEnds (s : State) (zs : List Cx) (n : Nat) : Prop := scalarVal (mode s).dipHigh * levelAt s zs n < curAt s zs n

/-- The first number of samples, `DIP_WINDOW` or more, after which a dip starts. -/
def FirstStart (s : State) (zs : List Cx) (c : Nat) : Prop :=
  (mode s).dipWindow ≤ c ∧ c ≤ (mode s).tF ∧ DipStarts s zs c ∧ ∀ n, (mode s).dipWindow ≤ n → n < c → ¬ DipStarts s zs n

/-- How R279 ends, and after how many samples: `Found`, `NoDip` or `NoDipEnd`. (`Found` of `2^32` samples or more answers
the low 32 bits of their number: DESIGN CHOICE, log 34.) -/
def ScanEnds (s : State) (zs : List Cx) (k : Nat) (st : Status) (v : Word) : Prop :=
  (∃ c, FirstStart s zs c ∧ c ≤ k ∧ k ≤ c + (mode s).tNull + (mode s).dipWindow ∧
    DipEnds s zs k ∧ (∀ n, c ≤ n → n < k → ¬ DipEnds s zs n) ∧ st = .ok ∧ v = BitVec.ofNat 32 k) ∨
  ((∀ n, (mode s).dipWindow ≤ n → n ≤ (mode s).tF → ¬ DipStarts s zs n) ∧ k = (mode s).tF ∧ st = .fail ∧ v = 0) ∨
  (∃ c, FirstStart s zs c ∧ k = c + (mode s).tNull + (mode s).dipWindow ∧
    (∀ n, c ≤ n → n ≤ k → ¬ DipEnds s zs n) ∧ st = .fail ∧ v = 1)

/-! ## The FIC's code (`43_fic_decoder.md` R189, R192) -/

/-- `u[t - d]`, zero before the word and in its tail. -/
def wordBit (u : List Bool) (t d : Nat) : Bool := if d ≤ t then u.getD (t - d) false else false

/-- `x(u)`, the codeword of an information word (R189). -/
def codeword (m : Mode) (u : List Bool) : List Bool :=
  (List.range (m.blkOut + m.convK - 1)).flatMap fun t =>
    m.convTaps.map fun ds => ds.foldl (fun b d => xor b (wordBit u t d)) false

/-- `M(u)` (R192). -/
def wordMetric (m : Mode) (u : List Bool) (y : List Soft) : Int :=
  (List.zipWith (fun (x : Bool) (v : Soft) => (2 * (if x then 1 else 0) - 1) * v) (codeword m u) y).sum

/-- One bit of a sequence turned over. -/
def flipBit : Nat → List Bool → List Bool
  | _, [] => []
  | 0, b :: bs => (!b) :: bs
  | j + 1, b :: bs => b :: flipBit j bs

/-! ## Samples that `SRC` holds -/

/-- Samples ready at the port. -/
def sampleItems (zs : List Cx) : List SrcItem := zs.map .sample

/-- The state after a read that took the samples `zs` and left `rest` (`46_sync_controller.md` R273). -/
def sampledState (s : State) (zs : List Cx) (rest : List SrcItem) : State :=
  { s with
    src := rest, srcTaken := s.srcTaken + zs.length, srcReq := s.srcReq ++ [⟨zs.length, foff s⟩],
    slevel := zs.foldl (levelUpdate (order s) (mode s).levelAlpha) s.slevel }

/-- The state after a read of `n` that a `Stopped` cut off after `k` samples. -/
def stoppedState (s : State) (n k : Nat) (rest : List SrcItem) : State :=
  { s with src := rest, srcTaken := s.srcTaken + k, srcReq := s.srcReq ++ [⟨n, foff s⟩] }

/-- The elements `off, …, off + n - 1` of a buffer are written. -/
def Written {α : Type} (b : Buf α) (off n : Nat) : Prop := ∀ j, j < n → (bufRead b (off + j)).isSome = true

/-- The buffer holds the list `v` from `off` on. -/
def Holds {α : Type} (b : Buf α) (off : Nat) (v : List α) : Prop := ∀ j, j < v.length → bufRead b (off + j) = v[j]?

/-! ## Commands -/

/-- The opcodes of `30_encoding.md` R94 with the must-be-zero bits of word 0 and the number of words (R93). -/
def opcodeRows : List (Nat × Word × Nat) :=
  [(0x01, 0x00FFFFFF, 1), (0x02, 0x00FFFFFF, 1), (0x03, 0x00FF0000, 1), (0x04, 0x00FF0000, 2), (0x05, 0, 3),
   (0x06, 0x00FF0000, 2), (0x07, 0x00FFFFFF, 1), (0x10, 0x00FF0000, 1), (0x11, 0x00FFFFFF, 1), (0x12, 0x00FF0000, 2),
   (0x13, 0x00FF0000, 1), (0x14, 0x00FFFFFF, 1), (0x18, 0x00FF0000, 1), (0x19, 0x00FF0000, 1), (0x1A, 0x00FF0000, 1),
   (0x20, 0x00FF0000, 1), (0x21, 0x00FFFFFF, 1), (0x22, 0x00FF0000, 1), (0x23, 0x00FFFFFF, 1), (0x28, 0x00FF0000, 1),
   (0x29, 0x00FFFFFF, 1), (0x2A, 0x00FF0000, 1), (0x30, 0x00FF0000, 1), (0x31, 0x00FFFFFF, 1)]

/-- The unit operations (`30_encoding.md` R90). -/
def isUnit : Instr → Bool
  | .start => false
  | .stop => false
  | .rdcsr _ => false
  | .wrcsr _ _ => false
  | .subscribe _ _ _ _ _ => false
  | .unsubscribe _ _ => false
  | .resetSubs => false
  | .level _ => true
  | .nullscan => true
  | .fill _ _ => true
  | .shift _ => true
  | .skipnull => true
  | .fft _ => true
  | .findb _ => true
  | .estco _ => true
  | .prime _ => true
  | .fcorr => true
  | .decsym _ => true
  | .ftrack => true
  | .ficpush _ => true
  | .ficdec => true
  | .crc16 _ => true
  | .mscpush _ => true
  | .cifpop => true

/-- The operation that a unit command names, whoever issues it (`30_encoding.md` R90, R91); a control command names
none. -/
def unitOp : Instr → State → Option OpRes
  | .start, _ => none
  | .stop, _ => none
  | .rdcsr _, _ => none
  | .wrcsr _ _, _ => none
  | .subscribe _ _ _ _ _, _ => none
  | .unsubscribe _ _, _ => none
  | .resetSubs, _ => none
  | .level n, s => some (opLevel n s)
  | .nullscan, s => some (opNullscan s)
  | .fill off n, s => some (opFill off n s)
  | .shift n, s => some (opShift n s)
  | .skipnull, s => some (opSkipnull s)
  | .fft off, s => some (opFft off s)
  | .findb thr, s => some (opFindb thr s)
  | .estco off, s => some (opEstco off s)
  | .prime off, s => some (opPrime off s)
  | .fcorr, s => some (opFcorr s)
  | .decsym off, s => some (opDecsym off s)
  | .ftrack, s => some (opFtrack s)
  | .ficpush idx, s => some (opFicpush idx s)
  | .ficdec, s => some (opFicdec s)
  | .crc16 f, s => some (opCrc16 f s)
  | .mscpush n, s => some (opMscpush n s)
  | .cifpop, s => some (opCifpop s)

/-- The unit operations that read samples (`46_sync_controller.md` R273). -/
def readsSamples : Instr → Bool
  | .start => false
  | .stop => false
  | .rdcsr _ => false
  | .wrcsr _ _ => false
  | .subscribe _ _ _ _ _ => false
  | .unsubscribe _ _ => false
  | .resetSubs => false
  | .level _ => true
  | .nullscan => true
  | .fill _ _ => true
  | .shift _ => false
  | .skipnull => true
  | .fft _ => false
  | .findb _ => false
  | .estco _ => false
  | .prime _ => false
  | .fcorr => false
  | .decsym _ => false
  | .ftrack => false
  | .ficpush _ => false
  | .ficdec => false
  | .crc16 _ => false
  | .mscpush _ => false
  | .cifpop => false

/-- The addresses of the register map (`10_state.md` R45). -/
def csrAddresses : List Nat :=
  [0x00, 0x01, 0x02, 0x03, 0x04, 0x05, 0x06, 0x07, 0x08, 0x09, 0x0A, 0x0B, 0x0C, 0x0D, 0x0E, 0x0F, 0x10, 0x11, 0x12,
   0x1F, 0x20, 0x21, 0x22, 0x23, 0x24, 0x25, 0x26, 0x27]

/-- The act the next step performs. -/
def nextAct (s : State) : Act :=
  match s.plan with
  | a :: _ => a
  | [] => Config.freeAct s.tick

/-- The command that `HOST`'s next act executes. -/
def hostCommand (s : State) : Option Instr :=
  match s.hostWait with
  | some i => some i
  | none =>
    match decode s.cmd with
    | .command i _ => some i
    | .illegal _ _ => none
    | .incomplete => none

/-! ## Invariants -/

/-- The configuration is well-formed and `MODE_SEL` selects one of its modes (`10_state.md` R48,
`70_reset_and_hazards.md` R388). -/
def ModeOk (s : State) : Prop := cfgWf s.cfg = true ∧ s.modeSel.toNat < s.cfg.modes.length

/-- `SYNC_STATE` is a function of `SEQ_STEP` while `RUN = 1`, and an idle block is at `A0` with no stop pending
(`10_state.md` R22, R24, R55). -/
def ControlOk (s : State) : Prop :=
  (s.run = true → s.syncState = syncOfStep s.seqStep) ∧
  (s.run = false → s.syncState = .idle ∧ s.seqStep = .a0 ∧ s.stopreq = false)

/-- The ranges of `48_arithmetic_and_control.md` R330; those that depend on the mode hold while it is locked. -/
def CountersOk (s : State) : Prop :=
  s.nosigCnt < Config.nNosig ∧ s.bfailCnt < Config.nBfail ∧ s.ficIdx ≤ Config.ficSyms ∧
  (s.run = true → s.symIdx < (mode s).symbols ∧ s.boff < (mode s).tU ∧ s.fifo.length ≤ fifoDepth (mode s) ∧
    s.ficFill = s.ficIdx * nSoft (mode s))

/-- Every index of a buffer is below a bound. -/
def Below {α : Type} (n : Nat) (b : Buf α) : Prop := ∀ t ∈ b, t.1 < n

/-- Every buffer has its canonical form and stays in its index range (`20_memory.md` R60). -/
def BuffersOk (s : State) : Prop :=
  bufWf s.win = true ∧ Below (mode s).tS s.win ∧ bufWf s.spec = true ∧ Below (mode s).tU s.spec ∧
  bufWf s.prev = true ∧ Below (mode s).tU s.prev ∧ bufWf s.soft = true ∧ Below (nSoft (mode s)) s.soft ∧
  accWf s.ficAccZeroed s.ficAcc = true ∧ Below ((mode s).nBlk * motherLen (mode s)) s.ficAcc ∧
  bufWf s.ficOut = true ∧ Below ((mode s).nBlk * (mode s).blkOut) s.ficOut ∧
  bufWf s.cif = true ∧ Below (mode s).cifBits s.cif

/-- A soft bit in its range (`42_ofdm_decoder.md` R166). -/
def InSoftRange (v : Soft) : Prop := -127 ≤ v ∧ v ≤ 127

/-- Every soft bit of the state is in range (`48_arithmetic_and_control.md` R330). -/
def SoftOk (s : State) : Prop :=
  (∀ t ∈ s.soft, InSoftRange t.2) ∧ (∀ t ∈ s.ficAcc, InSoftRange t.2) ∧ (∀ t ∈ s.cif, InSoftRange t.2) ∧
  (∀ e ∈ s.fifo, ∀ v ∈ e.bits, InSoftRange v) ∧ ∀ r ∈ s.cuOut, ∀ v ∈ r.bits, InSoftRange v

/-- `FINE` in `[-carrierDiff/2, carrierDiff/2)` (`10_state.md` R28). -/
def FineInRange (s : State) : Prop :=
  -(((mode s).carrierDiff : ℝ) / 2) ≤ hertzVal (order s) s.fine ∧
  hertzVal (order s) s.fine < ((mode s).carrierDiff : ℝ) / 2

/-- At most one subscription a key, at most `MAX_SUBS` of them (`10_state.md` R42). -/
def SubsOk (s : State) : Prop :=
  s.subs.Pairwise (fun a b => ¬ (a.sid = b.sid ∧ a.comp = b.comp)) ∧ s.subs.length ≤ s.cfg.maxSubs

/-! ## Safety of a running block (`70_reset_and_hazards.md` R390, hazard Z6; `93_implementation_defined.md` U1) -/

/-- How many leading elements of `WIN` a step of the sequencer's program relies on. -/
def winNeeded (m : Mode) (boff : Nat) : SeqStep → Nat
  | .a0 => 0
  | .n0 => 0
  | .v0 => 0
  | .v1 => m.tU
  | .f0 => m.tU
  | .f1 => m.tU - boff
  | .f2 => m.tU
  | .f3 => m.tU
  | .s0 => 0
  | .s1 => m.tS
  | .s2 => m.tS
  | .s3 => 0
  | .s4 => 0
  | .e0 => 0
  | .e1 => 0
  | .e2 => 0
  | .e3 => m.tU

/-- Whether a step stands between a frame's `PRIME` and its last `DECSYM`. -/
def prevNeeded : SeqStep → Bool
  | .a0 => false
  | .n0 => false
  | .v0 => false
  | .v1 => false
  | .f0 => false
  | .f1 => false
  | .f2 => false
  | .f3 => true
  | .s0 => true
  | .s1 => true
  | .s2 => true
  | .s3 => true
  | .s4 => true
  | .e0 => false
  | .e1 => false
  | .e2 => false
  | .e3 => false

/-- While the block runs, every element that its next steps read is written. -/
def Ready (s : State) : Prop :=
  s.run = true →
    s.boff < (mode s).tU ∧
    Written s.win 0 (winNeeded (mode s) s.boff s.seqStep) ∧
    (prevNeeded s.seqStep = true → s.prevValid = true ∧ Written s.prev 0 (mode s).tU) ∧
    (s.seqStep = .s3 → Written s.soft 0 (nSoft (mode s))) ∧
    s.ficAccZeroed = true ∧
    (∀ e ∈ s.fifo, e.bits.length = nSoft (mode s)) ∧
    ∀ p ∈ s.cifValid, Written s.cif (p * nSoft (mode s)) (nSoft (mode s))

/-- Every subscription lies in the CIF of the selected mode (`45_msc_demux.md` R243; log 27). -/
def SubsFit (s : State) : Prop := ∀ e ∈ s.subs, e.start + e.len ≤ cifCus (mode s)

end Sys2Proof.Machine
end

