-- ==== Sys2Proof/Certificates/Slice0/Obligations.lean ====
section
/-! DEFINITION. The statements for the provers. -/

open Sys2Proof Sys2Proof.Machine

/-! ## Encoding (`30_encoding.md`) -/

/-- R92 to R95: decoding the words of a well-formed command gives that command and leaves what follows. -/
def Obligations.DecodeEncode : Prop :=
  ∀ (i : Instr) (rest : List Word), i.wellFormed = true → decode (encode i ++ rest) = .command i rest

/-- R92 to R95: the words that decode to a command are that command's words; no bit of a format is ignored. -/
def Obligations.EncodeDecode : Prop :=
  ∀ (ws rest : List Word) (i : Instr), decode ws = .command i rest → i.wellFormed = true ∧ ws = encode i ++ rest

/-- R92, R93, R94, R98: every word 0 is one of the 24 commands or illegal; the opcode alone gives the length, and a
must-be-zero bit that is set makes the command illegal. -/
def Obligations.OpcodeRows : Prop :=
  (∀ op mask n (w : Word) (ws : List Word), (op, mask, n) ∈ opcodeRows → (opcodeOf w).toNat = op →
    (ws.length + 1 < n → decode (w :: ws) = .incomplete) ∧
    (n ≤ ws.length + 1 → w &&& mask ≠ 0 →
      decode (w :: ws) = .illegal (.mbz (opcodeOf w)) (ws.drop (n - 1))) ∧
    (n ≤ ws.length + 1 → w &&& mask = 0 → ∃ i, decode (w :: ws) = .command i (ws.drop (n - 1)))) ∧
  ∀ (w : Word) (ws : List Word), (opcodeOf w).toNat ∉ opcodeRows.map (fun r => r.1) →
    decode (w :: ws) = .illegal (.opcode (opcodeOf w)) ws

/-- R101: the worked encodings, word for word. -/
def Obligations.WorkedEncodings : Prop :=
  decode [0x01000000] = .command .start [] ∧
  decode [0x19000003] = .command (.findb 3) [] ∧
  decode [0x12000000, 0x00000800] = .command (.fill 0 2048) [] ∧
  decode [0x04000004, 0x00000003] = .command (.wrcsr 4 3) [] ∧
  decode [0x06000000, 0xE1C00098] = .command (.unsubscribe 0 0xE1C00098) [] ∧
  decode [0x05010000, 0xE1C00098, 0x00540000] = .command (.subscribe 1 0 0xE1C00098 84 0) [] ∧
  decode [0x19010003] = .illegal (.mbz 0x19) [] ∧
  decode [0x08000000] = .illegal (.opcode 0x08) []

/-! ## The step -/

/-- What a step does (the order of the acts is the model's, log 5: the head of the plan, or a free act where the plan is
empty). At `HOST`'s act the command at the head of `CMD` is executed by `exec`, or the unit operation that waits in a read
(the model's own choice, log 11); an illegal command changes nothing and answers `resp(ILLEGAL, 0)`, its words consumed
(R97); while the words of a command have not all arrived nothing changes. At an act of `SEQ` or `DMX` that agent's step is
taken; `SEQ` has none while `RUN = 0`. A word arrives whole, or in bytes, the most significant first (R66). A sample
becomes ready at `SRC` as a form of the same number, and so does a `Stopped` (R63). The external agents raise
`CONFIG_CHANGED`, bit 2 of `EVENT`, and `TII`, bit 5, with its payload (R341, R345; at any time, log 21). -/
def Obligations.StepPerforms : Prop :=
  (∀ (s : State) (i : Instr) (rest : List Word) (r : List Act),
    cfgWf s.cfg = true → s.plan = .host :: r → s.hostWait = none → decode s.cmd = .command i rest →
    step s = exec i { s with plan := r, cmd := rest }) ∧
  (∀ (s : State) (why : Illegal) (rest : List Word) (r : List Act),
    cfgWf s.cfg = true → s.plan = .host :: r → s.hostWait = none → decode s.cmd = .illegal why rest →
    step s = .next { s with plan := r, cmd := rest, rsp := s.rsp ++ [⟨.illegal, 0⟩] }) ∧
  (∀ (s : State) (r : List Act),
    cfgWf s.cfg = true → s.plan = .host :: r → s.hostWait = none → decode s.cmd = .incomplete →
    step s = .next { s with plan := r }) ∧
  (∀ (s : State) (i : Instr) (r : List Act), cfgWf s.cfg = true → s.plan = .host :: r → s.hostWait = some i →
    step s = exec i { s with plan := r, hostWait := none }) ∧
  (∀ (s : State) (r : List Act), cfgWf s.cfg = true → s.plan = .seq :: r →
    (s.run = true → step s = program s.seqStep { s with plan := r }) ∧
    (s.run = false → step s = .next { s with plan := r })) ∧
  (∀ (s : State) (r : List Act), cfgWf s.cfg = true → s.plan = .dmx :: r →
    step s = dmxStep { s with plan := r }) ∧
  (∀ (s : State) (w : Word) (r : List Act), cfgWf s.cfg = true → s.plan = .command w :: r →
    step s = .next { s with plan := r, cmd := s.cmd ++ [w] }) ∧
  (∀ (s : State) (b3 b2 b1 b0 : BitVec 8) (r : List Act), cfgWf s.cfg = true → s.plan = .commandBytes b3 b2 b1 b0 :: r →
    ∃ w : Word, w.toNat = ((b3.toNat * 256 + b2.toNat) * 256 + b1.toNat) * 256 + b0.toNat ∧
      wordBytes w = [b3, b2, b1, b0] ∧ step s = .next { s with plan := r, cmd := s.cmd ++ [w] }) ∧
  (∀ (s : State) (z : Cx) (r : List Act), cfgWf s.cfg = true → s.plan = .sample z :: r →
    ∃ w : Cx, cxVal (order s) w = cxVal (order s) z ∧
      step s = .next { s with plan := r, src := s.src ++ [.sample w] }) ∧
  (∀ (s : State) (r : List Act), cfgWf s.cfg = true → s.plan = .stopped :: r →
    step s = .next { s with plan := r, src := s.src ++ [.stopped] }) ∧
  (∀ (s : State) (r : List Act), cfgWf s.cfg = true → s.plan = .configChanged :: r →
    step s = .next { s with plan := r, event := s.event ||| 0b000100, evt := s.evt ++ [.configChanged] }) ∧
  (∀ (s : State) (main sub : BitVec 8) (r : List Act), cfgWf s.cfg = true → s.plan = .tiiResult main sub :: r →
    ∃ v : BitVec 16, v.toNat = main.toNat * 256 + sub.toNat ∧
      step s = .next { s with
        plan := r, tii := v, event := s.event ||| 0b100000, evt := s.evt ++ [.tii main sub] }) ∧
  (∀ s : State, cfgWf s.cfg = true → s.plan = [] →
    step s = step { s with plan := [Config.freeAct s.tick], tick := s.tick + 1 }) ∧
  ∀ r : Resp, respBytes r = wordBytes (BitVec.ofNat 32 (statusCode r.status)) ++ wordBytes r.value

/-- R380, R45: after power-on reset every register of the map reads 0 and the mirrors read the fields of mode 0. That the
mirror of a field of `2^32` or more (R388 bounds none of `T_null`, `T_F`, `L`, `K`, `carrierDiff`) reads as its low 32
bits is the model's choice (log 32). -/
def Obligations.PowerOnRegisters : Prop :=
  ∀ (m : Mode) (ms : List Mode) (n d : Nat),
    let s := State.por ⟨m :: ms, n, d⟩
    (∀ a, a ≤ 0x12 → csrRead s a = some 0) ∧ csrRead s 0x1F = some 0 ∧
    csrRead s 0x20 = some (BitVec.ofNat 32 m.tU) ∧ csrRead s 0x21 = some (BitVec.ofNat 32 m.tG) ∧
    csrRead s 0x22 = some (BitVec.ofNat 32 m.tS) ∧ csrRead s 0x23 = some (BitVec.ofNat 32 m.tNull) ∧
    csrRead s 0x24 = some (BitVec.ofNat 32 m.tF) ∧ csrRead s 0x25 = some (BitVec.ofNat 32 m.symbols) ∧
    csrRead s 0x26 = some (BitVec.ofNat 32 m.carriers) ∧ csrRead s 0x27 = some (BitVec.ofNat 32 m.carrierDiff)

/-! ## Control commands (`47_host_commands.md`) -/

/-- R321, R381: an accepted `START` writes the `START` column and keeps everything else; the samples queued are
gone. The model's choices in it: the buffers the spec leaves unspecified at `START` are unwritten (log 7), a null scan
in progress ends (log 12), and the `Stopped` marks at the port stay (log 13). -/
def Obligations.StartResult : Prop :=
  ∀ s : State, s.run = false →
    exec .start s = .next { s with
      run := true, syncState := .acquiringLevel, seqStep := .a0, stopreq := false, symIdx := 0, nosigCnt := 0,
      bfailCnt := 0, boff := 0, slevel := [], coarse := 0, fine := ⟨[], []⟩, freqcorr := [], scan := none,
      prevValid := false, ficState := .idle, ficIdx := 0, ficAcc := [], ficAccZeroed := true, ficFill := 0,
      fibGood := 0, fibBad := 0, badFrames := 0, ficSync := false, fifo := [], cifValid := [],
      win := [], spec := [], prev := [], soft := [], cif := [], ficOut := [],
      src := s.src.filter (fun i => decide (i = .stopped)), rsp := s.rsp ++ [⟨.ok, 0⟩] }

/-- R322: `STOP` sets `STOPREQ` while the block runs, and does nothing while it does not; its word. -/
def Obligations.StopResult : Prop :=
  decode [0x02000000] = .command .stop [] ∧
  ∀ s : State,
    (s.run = false → exec .stop s = .next { s with rsp := s.rsp ++ [⟨.ok, 0⟩] }) ∧
    (s.run = true → exec .stop s = .next { s with stopreq := true, rsp := s.rsp ++ [⟨.ok, 1⟩] })

/-- R325, R45, R50: a read of an address of the map answers `OK` with the register and changes nothing; a read of any
other address answers `ILLEGAL`. Each register holds the state that R45 names; the fields of `STATUS` are where R45
puts them. That a value too wide for its field reads as its low bits is the model's choice (log 32). -/
def Obligations.ReadRegister : Prop :=
  (∀ (a : Nat) (s : State),
    (a ∈ csrAddresses → ∃ v, csrRead s a = some v ∧
      exec (.rdcsr a) s = .next { s with rsp := s.rsp ++ [⟨.ok, v⟩] }) ∧
    (a ∉ csrAddresses → exec (.rdcsr a) s = .next { s with rsp := s.rsp ++ [⟨.illegal, 0⟩] })) ∧
  (∀ s : State, ∃ v : Word, csrRead s 0x01 = some v ∧
    (v.extractLsb' 0 3).toNat = syncCode s.syncState ∧ v.getLsbD 3 = s.run ∧ v.getLsbD 4 = s.stopreq ∧
    v.getLsbD 5 = s.ficSync ∧ (v.extractLsb' 6 3).toNat = ficCode s.ficState ∧ v.getLsbD 9 = s.prevValid ∧
    v.extractLsb' 10 22 = 0) ∧
  ∀ (s : State) (r : Nat → Nat), (∀ a v, csrRead s a = some v → r a = v.toNat) →
    r 0x00 = s.ctrl.toNat ∧ r 0x02 = s.event.toNat ∧ r 0x03 = s.evmask.toNat ∧ r 0x04 = s.thr.toNat ∧
    r 0x05 = s.symIdx % 2 ^ 16 ∧ r 0x06 = s.nosigCnt % 2 ^ 8 ∧ r 0x07 = s.bfailCnt % 2 ^ 8 ∧
    (r 0x08 : Int) = s.coarse % 2 ^ 32 ∧ (r 0x09 : Int) = hertzTrunc (order s) s.fine % 2 ^ 32 ∧
    (r 0x0A : Int) = foff s % 2 ^ 32 ∧ r 0x0B = s.fibGood.toNat ∧ r 0x0C = s.fibBad.toNat ∧
    r 0x0D = s.badFrames.toNat ∧ r 0x0E = s.signal.toNat ∧ r 0x0F = s.tii.toNat ∧
    r 0x10 = s.fifo.length % 2 ^ 16 ∧ r 0x11 = s.subs.length % 2 ^ 16 ∧ r 0x12 = s.ficIdx % 2 ^ 8 ∧
    r 0x1F = s.modeSel.toNat ∧ r 0x20 = (mode s).tU % 2 ^ 32 ∧ r 0x21 = (mode s).tG % 2 ^ 32 ∧
    r 0x22 = (mode s).tS % 2 ^ 32 ∧ r 0x23 = (mode s).tNull % 2 ^ 32 ∧ r 0x24 = (mode s).tF % 2 ^ 32 ∧
    r 0x25 = (mode s).symbols % 2 ^ 32 ∧ r 0x26 = (mode s).carriers % 2 ^ 32 ∧
    r 0x27 = (mode s).carrierDiff % 2 ^ 32

/-- R326: the writable registers, with the new value in the response; the locked ones while `RUN = 1`; every other
address. The model's choices in the change of `MODE_SEL`: the buffers become unwritten in the model's way (log 7, R386),
the entries of `FIFO` stay without their bits (log 30), the slots of `CIF_VALID` stay (log 31), the control items whose
ranges depend on the mode stay (log 33), and a write of the value it has leaves the buffers written (log 25). -/
def Obligations.WriteRegister : Prop :=
  ∀ (d : Word) (s : State),
    (s.run = false → exec (.wrcsr 0x00 d) s =
      .next { s with ctrl := d.setWidth 2, rsp := s.rsp ++ [⟨.ok, d &&& 0x00000003⟩] }) ∧
    (s.run = true → exec (.wrcsr 0x00 d) s = .next { s with rsp := s.rsp ++ [⟨.busy, 0⟩] }) ∧
    (∃ e : BitVec 6, (∀ j, j < 6 → e.getLsbD j = (s.event.getLsbD j && !d.getLsbD j)) ∧
      exec (.wrcsr 0x02 d) s = .next { s with event := e, rsp := s.rsp ++ [⟨.ok, e.setWidth 32⟩] }) ∧
    exec (.wrcsr 0x03 d) s = .next { s with evmask := d.setWidth 6, rsp := s.rsp ++ [⟨.ok, d &&& 0x0000003F⟩] } ∧
    exec (.wrcsr 0x04 d) s = .next { s with thr := d.setWidth 16, rsp := s.rsp ++ [⟨.ok, d &&& 0x0000FFFF⟩] } ∧
    (s.run = true → exec (.wrcsr 0x1F d) s = .next { s with rsp := s.rsp ++ [⟨.busy, 0⟩] }) ∧
    (s.run = false → s.cfg.modes.length ≤ (d &&& 0xFF).toNat →
      exec (.wrcsr 0x1F d) s = .next { s with rsp := s.rsp ++ [⟨.illegal, 0⟩] }) ∧
    (s.run = false → (d &&& 0xFF).toNat < s.cfg.modes.length →
      (d.setWidth 8 = s.modeSel →
        exec (.wrcsr 0x1F d) s = .next { s with rsp := s.rsp ++ [⟨.ok, d &&& 0xFF⟩] }) ∧
      (d.setWidth 8 ≠ s.modeSel →
        exec (.wrcsr 0x1F d) s = .next { s with
          modeSel := d.setWidth 8, win := [], spec := [], prev := [], soft := [], cif := [], ficOut := [],
          ficAcc := [], ficAccZeroed := false, fifo := s.fifo.map (fun e => { e with bits := [] }),
          rsp := s.rsp ++ [⟨.ok, d &&& 0xFF⟩] })) ∧
    ∀ a, a ∉ [0x00, 0x02, 0x03, 0x04, 0x1F] →
      exec (.wrcsr a d) s = .next { s with rsp := s.rsp ++ [⟨.illegal, 0⟩] }

/-- R91, R323: while `RUN = 1` every unit operation and `START` answer `BUSY` and change nothing. -/
def Obligations.BusyWhileRunning : Prop :=
  ∀ (i : Instr) (s : State), s.run = true → isUnit i = true ∨ i = .start →
    exec i s = .next { s with rsp := s.rsp ++ [⟨.busy, 0⟩] }

/-- R349: a command that answers `ILLEGAL` or `BUSY` has changed nothing. -/
def Obligations.RefusedChangesNothing : Prop :=
  ∀ (i : Instr) (s t : State) (st : Status) (v : Word), st = .illegal ∨ st = .busy →
    exec i s = .next t → t.rsp = s.rsp ++ [⟨st, v⟩] → v = 0 ∧ t = { s with rsp := s.rsp ++ [⟨st, 0⟩] }

/-- R96: a command that ends gives exactly one response; a unit operation that waits in a read gives none yet and
is kept (the model's choice, log 11). Executed again when more has arrived, it ends as it would have ended with all of
it there at once; a null scan goes on where it stopped (log 12). -/
def Obligations.OneResponse : Prop :=
  (∀ (i : Instr) (s t : State), exec i s = .next t →
    (∃ r, t.rsp = s.rsp ++ [r] ∧ t.hostWait = s.hostWait) ∨
    (t.rsp = s.rsp ∧ t.hostWait = some i ∧ isUnit i = true ∧ s.run = false)) ∧
  ∀ (i : Instr) (s t : State) (more : List SrcItem), s.hostWait = none → exec i s = .next t → t.hostWait = some i →
    exec i { t with src := t.src ++ more, hostWait := none } = exec i { s with src := s.src ++ more }

/-! ## Subscriptions (`45_msc_demux.md`) -/

/-- R243: `SUBSCRIBE`, its three refusals in order and its effect. -/
def Obligations.SubscribeResult : Prop :=
  ∀ (sink : BitVec 8) (comp : BitVec 16) (sid : Word) (len addr : Nat) (s : State),
    ((∃ e ∈ s.subs, e.sid = sid ∧ e.comp = comp) →
      exec (.subscribe sink comp sid len addr) s = .next { s with rsp := s.rsp ++ [⟨.fail, 1⟩] }) ∧
    ((∀ e ∈ s.subs, ¬ (e.sid = sid ∧ e.comp = comp)) →
      (len = 0 ∨ cifCus (mode s) < addr + len →
        exec (.subscribe sink comp sid len addr) s = .next { s with rsp := s.rsp ++ [⟨.illegal, 0⟩] }) ∧
      (len ≠ 0 → addr + len ≤ cifCus (mode s) →
        (s.cfg.maxSubs ≤ s.subs.length →
          exec (.subscribe sink comp sid len addr) s = .next { s with rsp := s.rsp ++ [⟨.fail, 2⟩] }) ∧
        (s.subs.length < s.cfg.maxSubs →
          exec (.subscribe sink comp sid len addr) s = .next { s with
            subs := s.subs ++ [{ sid := sid, comp := comp, start := addr, len := len, sink := sink }],
            rsp := s.rsp ++ [⟨.ok, BitVec.ofNat 32 (s.subs.length + 1)⟩] })))

/-- R246: after an accepted subscription the table has exactly one entry of its pair, and a second one answers
`FAIL` 1 and leaves the table as it is. -/
def Obligations.SubscribeTwice : Prop :=
  ∀ (sink sink' : BitVec 8) (comp : BitVec 16) (sid : Word) (len addr len' addr' : Nat) (s t : State) (v : Word),
    exec (.subscribe sink comp sid len addr) s = .next t → t.rsp = s.rsp ++ [⟨.ok, v⟩] →
    t.subs.length = s.subs.length + 1 ∧
    (t.subs.filter fun e => decide (e.sid = sid ∧ e.comp = comp)).length = 1 ∧
    exec (.subscribe sink' comp sid len' addr') t = .next { t with rsp := t.rsp ++ [⟨.fail, 1⟩] }

/-- R244, R245: `UNSUBSCRIBE` removes the entry of its key and keeps the order of the others; a missing key is a
no-op; `RESET_SUBS` empties the table; their words. -/
def Obligations.UnsubscribeResult : Prop :=
  (∀ (comp : BitVec 16) (sid : Word),
    decode [0x06000000 ||| comp.setWidth 32, sid] = .command (.unsubscribe comp sid) []) ∧
  decode [0x07000000] = .command .resetSubs [] ∧
  (∀ (comp : BitVec 16) (sid : Word) (s : State) (a b : List Sub) (e : Sub),
    s.subs = a ++ e :: b → e.sid = sid ∧ e.comp = comp → (∀ x ∈ a ++ b, ¬ (x.sid = sid ∧ x.comp = comp)) →
    exec (.unsubscribe comp sid) s = .next { s with
      subs := a ++ b, rsp := s.rsp ++ [⟨.ok, BitVec.ofNat 32 (a.length + b.length)⟩] }) ∧
  (∀ (comp : BitVec 16) (sid : Word) (s : State), (∀ x ∈ s.subs, ¬ (x.sid = sid ∧ x.comp = comp)) →
    exec (.unsubscribe comp sid) s = .next { s with rsp := s.rsp ++ [⟨.fail, 0⟩] }) ∧
  ∀ s : State, exec .resetSubs s = .next { s with subs := [], rsp := s.rsp ++ [⟨.ok, 0⟩] }

/-! ## Samples (`46_sync_controller.md`) -/

/-- R275: `LEVEL n` takes `n` samples and sets the level to the mean of their magnitudes; `LEVEL 0` is `ILLEGAL`. -/
def Obligations.LevelResult : Prop :=
  (∀ (s : State) (n : Nat) (zs : List Cx) (rest : List SrcItem), ModeOk s → s.run = false → n ≠ 0 →
    s.src = sampleItems zs ++ rest → zs.length = n →
    ∃ lvl : Mag, magVal (order s) lvl = (∑ j ∈ Finset.range n, ‖cxVal (order s) (zs.getD j [])‖) / (n : ℝ) ∧
      exec (.level n) s = .next { sampledState s zs rest with
        slevel := lvl, rsp := s.rsp ++ [⟨.ok, BitVec.ofNat 32 n⟩] }) ∧
  ∀ s : State, s.run = false → exec (.level 0) s = .next { s with rsp := s.rsp ++ [⟨.illegal, 0⟩] }

/-- R277: `FILL off, n` takes `n` samples into `WIN[off .. off + n)` and leaves the rest of `WIN`; an operand out of
range is `ILLEGAL`. -/
def Obligations.FillResult : Prop :=
  (∀ (s : State) (off n : Nat) (zs : List Cx) (rest : List SrcItem), s.run = false → n ≠ 0 → off + n ≤ (mode s).tS →
    s.src = sampleItems zs ++ rest → zs.length = n →
    ∃ w : Buf Cx, Holds w off zs ∧ (∀ a, a < off ∨ off + n ≤ a → bufRead w a = bufRead s.win a) ∧
      exec (.fill off n) s = .next { sampledState s zs rest with
        win := w, rsp := s.rsp ++ [⟨.ok, BitVec.ofNat 32 n⟩] }) ∧
  ∀ (s : State) (off n : Nat), s.run = false → n = 0 ∨ (mode s).tS < off + n →
    exec (.fill off n) s = .next { s with rsp := s.rsp ++ [⟨.illegal, 0⟩] }

/-- R287: `SHIFT n` moves `WIN[n .. T_u)` to the front and leaves the rest of `WIN`; an operand above `T_u` is
`ILLEGAL`. -/
def Obligations.ShiftResult : Prop :=
  (∀ (s : State) (n : Nat), s.run = false → (mode s).tU < n →
    exec (.shift n) s = .next { s with rsp := s.rsp ++ [⟨.illegal, 0⟩] }) ∧
  ∀ (s : State) (n : Nat), s.run = false → n ≤ (mode s).tU → Written s.win n ((mode s).tU - n) →
    ∃ w : Buf Cx, (∀ j, j < (mode s).tU - n → bufRead w j = bufRead s.win (j + n)) ∧
      (∀ a, (mode s).tU - n ≤ a → bufRead w a = bufRead s.win a) ∧
      exec (.shift n) s = .next { s with
        win := w, rsp := s.rsp ++ [⟨.ok, BitVec.ofNat 32 ((mode s).tU - n)⟩] }

/-- R295, R296: `SKIPNULL` takes `T_null` samples and puts them on `TIIOUT` exactly when `TII_EN = 1`. That the response
carries the low 32 bits of a `T_null` of `2^32` or more is the model's choice (log 34). -/
def Obligations.SkipnullResult : Prop :=
  ∀ (s : State) (zs : List Cx) (rest : List SrcItem), s.run = false → s.src = sampleItems zs ++ rest →
    zs.length = (mode s).tNull →
    exec .skipnull s = .next { sampledState s zs rest with
      tiiOut := s.tiiOut ++ (if s.ctrl.getLsbD 1 then [zs] else [])
      rsp := s.rsp ++ [⟨.ok, BitVec.ofNat 32 (mode s).tNull⟩] }

/-- R63, R273, R279, R349: an operation that meets `Stopped` answers `STOPPED`, has lost the samples it took, and has
changed no buffer. The second part: a null scan that has taken its window and waits (the model's `scan`, log 12). -/
def Obligations.StoppedReads : Prop :=
  (∀ (s t : State) (sc : Scan) (rest : List SrcItem), s.hostWait = none → exec .nullscan s = .next t →
    t.hostWait = some .nullscan → t.scan = some sc →
    exec .nullscan { t with src := .stopped :: rest, hostWait := none } = .next { t with
      src := rest, srcReq := t.srcReq ++ [⟨1, foff t⟩], scan := none, hostWait := none,
      rsp := t.rsp ++ [⟨.stopped, 0⟩] }) ∧
  ∀ (s : State) (zs : List Cx) (rest : List SrcItem), s.run = false → s.src = sampleItems zs ++ .stopped :: rest →
    (∀ n, zs.length < n → exec (.level n) s =
      .next { stoppedState s n zs.length rest with rsp := s.rsp ++ [⟨.stopped, 0⟩] }) ∧
    (∀ off n, zs.length < n → off + n ≤ (mode s).tS → exec (.fill off n) s =
      .next { stoppedState s n zs.length rest with rsp := s.rsp ++ [⟨.stopped, 0⟩] }) ∧
    (zs.length < (mode s).tNull → exec .skipnull s =
      .next { stoppedState s (mode s).tNull zs.length rest with rsp := s.rsp ++ [⟨.stopped, 0⟩] }) ∧
    (s.scan = none → zs.length < (mode s).dipWindow → exec .nullscan s =
      .next { stoppedState s (mode s).dipWindow zs.length rest with rsp := s.rsp ++ [⟨.stopped, 0⟩] })

/-- R276, R279, R280, R281, R283: a null scan with samples enough takes the first `k` of them, each a read of its own
after the window's, and ends as its pseudocode does (`ScanEnds`): `Found` after the first sample that ends the first
dip, `NoDip` where none starts within `T_F`, `NoDipEnd` where it does not end within its budget. It writes nothing else
but the level. That the response carries the low 32 bits of a `cnt + cnt2` of `2^32` or more is the model's choice
(log 34). -/
def Obligations.NullscanResult : Prop :=
  ∀ (s : State) (zs : List Cx) (rest : List SrcItem), ModeOk s → s.run = false → s.scan = none →
    s.src = sampleItems zs ++ rest → (mode s).tF + (mode s).tNull + (mode s).dipWindow ≤ zs.length →
    ∃ (k : Nat) (st : Status) (v : Word) (lvl : Mag),
      (mode s).dipWindow ≤ k ∧ k ≤ (mode s).tF + (mode s).tNull + (mode s).dipWindow ∧ ScanEnds s zs k st v ∧
      magVal (order s) lvl = levelAt s zs k ∧
      exec .nullscan s = .next { s with
        src := sampleItems (zs.drop k) ++ rest
        srcTaken := s.srcTaken + k
        srcReq := s.srcReq ++ ⟨(mode s).dipWindow, foff s⟩ :: List.replicate (k - (mode s).dipWindow) ⟨1, foff s⟩
        slevel := lvl
        rsp := s.rsp ++ [⟨st, v⟩] }

/-- R280, R282, R300: on an all-zero stream with the level at 0 a scan consumes exactly `T_F` samples and ends
`NoDip`; the sequencer counts it, stays at `N0`, and raises `NO_SIGNAL` on the eighth. -/
def Obligations.AllZeroScan : Prop :=
  ∀ (s : State) (rest : List SrcItem), ModeOk s → s.run = true → s.stopreq = false → s.seqStep = .n0 →
    s.scan = none → s.slevel = [] → s.src = sampleItems (List.replicate (mode s).tF []) ++ rest →
    ∃ q : List SrcRead,
      (s.nosigCnt + 1 < 8 → seqStep s = .next { s with
        src := rest, srcTaken := s.srcTaken + (mode s).tF, srcReq := s.srcReq ++ q, nosigCnt := s.nosigCnt + 1 }) ∧
      (s.nosigCnt + 1 = 8 → seqStep s = .next { s with
        src := rest, srcTaken := s.srcTaken + (mode s).tF, srcReq := s.srcReq ++ q, nosigCnt := 0,
        event := s.event ||| 1, evt := s.evt ++ [.noSignal] })

/-! ## Transforms (`40_fft_engine.md`, `41_phase_reference.md`) -/

/-- R122: the exact numbers' sum, product, conjugate and squared modulus are those of the complex numbers they
stand for. -/
def Obligations.ExactArithmetic : Prop :=
  ∀ (M : Nat) (a b : Cx), 0 < M →
    cxVal M (cxAdd a b) = cxVal M a + cxVal M b ∧ cxVal M (cxMul M a b) = cxVal M a * cxVal M b ∧
    cxVal M (cxConj M a) = (starRingEnd ℂ) (cxVal M a) ∧ cxVal M (cxNormSq M a) = ((‖cxVal M a‖ ^ 2 : ℝ) : ℂ)

/-- R120, R121, on the exact numbers of the model (log 3): the lists that `dft` and `idft` compute stand for the two
transforms, and each undoes the other, exactly. -/
def Obligations.TransformsDenote : Prop :=
  (∀ (M N : Nat) (x : List Cx), 0 < M → 0 < N → M % N = 0 → x.length = N →
    (dft M N x).length = N ∧ ∀ k, k < N → cxVal M ((dft M N x).getD k []) = spectrumAt M N x k) ∧
  ∀ (M N : Nat) (x : List Cx), 0 < M → 0 < N → M % N = 0 → x.length = N →
    (idft M N x).length = N ∧
    ∀ n, n < N →
      cxVal M ((idft M N x).getD n []) = inverseAt M N x n ∧
      cxVal M ((idft M N (dft M N x)).getD n []) = cxVal M (x.getD n []) ∧
      cxVal M ((dft M N (idft M N x)).getD n []) = cxVal M (x.getD n [])

/-- R124: `FFT off` leaves the transform of the slice in `SPEC` and changes nothing else; a slice that leaves `WIN`
is `ILLEGAL`. -/
def Obligations.FftResult : Prop :=
  ∀ (s : State) (off : Nat), ModeOk s → s.run = false →
    (∀ w : List Cx, off + (mode s).tU ≤ (mode s).tS → w.length = (mode s).tU → Holds s.win off w →
      ∃ X : List Cx, IsSpectrum s w X ∧
        exec (.fft off) s = .next { s with spec := bufOf 0 X, rsp := s.rsp ++ [⟨.ok, 0⟩] }) ∧
    ((mode s).tS < off + (mode s).tU → exec (.fft off) s = .next { s with rsp := s.rsp ++ [⟨.illegal, 0⟩] })

/-- R142, R143: `FINDB thr` leaves the transform in `SPEC` and changes nothing else. With `n` the smallest lag of the
search window at which `m` is largest, it answers `FAIL` exactly when `avg = 0` or `m[n] < thr · avg`, and else `n`. -/
def Obligations.FindbResult : Prop :=
  ∀ (s : State) (thr : Nat) (w : List Cx), ModeOk s → s.run = false → w.length = (mode s).tU → Holds s.win 0 w →
    ∃ (X : List Cx) (n : Nat), IsSpectrum s w X ∧ IsPeak s w n ∧
      (correlationMean s w = 0 ∨ correlationAt s w n < (thr : ℝ) * correlationMean s w →
        exec (.findb thr) s = .next { s with spec := bufOf 0 X, rsp := s.rsp ++ [⟨.fail, 0⟩] }) ∧
      (correlationMean s w ≠ 0 → (thr : ℝ) * correlationMean s w ≤ correlationAt s w n →
        exec (.findb thr) s =
          .next { s with spec := bufOf 0 X, rsp := s.rsp ++ [⟨.ok, BitVec.ofNat 32 n⟩] })

/-- R147: on an all-zero window the spectrum, its product with the reference and their correlation are all zero,
and `FINDB` answers `NoSync` for every threshold. -/
def Obligations.FindbAllZero : Prop :=
  ∀ (s : State) (thr : Nat), ModeOk s → s.run = false → Holds s.win 0 (List.replicate (mode s).tU ([] : Cx)) →
    let zero : List Cx := List.replicate (mode s).tU []
    conjMul (order s) zero (mode s).ref = zero ∧ correlation s zero = zero ∧
    (zero.map (cxNormSq (order s))) = zero ∧
    exec (.findb thr) s = .next { s with spec := bufOf 0 zero, rsp := s.rsp ++ [⟨.fail, 0⟩] }

/-- R148, R150: `ESTCO off` leaves the transform in `SPEC` and changes nothing else. It answers `Some k` exactly where
`k` is the shift that both patterns agree on (`IsShift`), and `None` where there is none, as with an empty pattern set;
an operand out of range is `ILLEGAL`. The patterns are the sets of R149 themselves (`zeroSet`, `piSet`: `|arg| < CO_EPS`
and `|arg| > π - CO_EPS`), for every `CO_EPS` of a mode that is not refused; that no mode is refused because its model
cannot tell a rational `CO_EPS` from an angle rests on log 4 (PRESUMED). -/
def Obligations.EstcoResult : Prop :=
  ∀ (s : State) (off : Nat), ModeOk s → s.run = false →
    (∀ w : List Cx, off + (mode s).tU ≤ (mode s).tS → w.length = (mode s).tU → Holds s.win off w →
      ∃ X : List Cx, IsSpectrum s w X ∧
        (∀ k, IsShift s w k → exec (.estco off) s =
          .next { s with spec := bufOf 0 X, rsp := s.rsp ++ [⟨.ok, BitVec.ofInt 32 k⟩] }) ∧
        ((∀ k, ¬ IsShift s w k) → exec (.estco off) s =
          .next { s with spec := bufOf 0 X, rsp := s.rsp ++ [⟨.fail, 0⟩] })) ∧
    ((mode s).tS < off + (mode s).tU → exec (.estco off) s = .next { s with rsp := s.rsp ++ [⟨.illegal, 0⟩] })

/-! ## The symbol decoder and the tracking loop (`42_ofdm_decoder.md`, `46_sync_controller.md`) -/

/-- R163: `PRIME off` leaves the transform of the slice in `SPEC` and in `PREV`, sets `PREV_VALID` and changes
nothing else; an operand out of range is `ILLEGAL`. -/
def Obligations.PrimeResult : Prop :=
  ∀ (s : State) (off : Nat), ModeOk s → s.run = false →
    (∀ w : List Cx, off + (mode s).tU ≤ (mode s).tS → w.length = (mode s).tU → Holds s.win off w →
      ∃ X : List Cx, IsSpectrum s w X ∧
        exec (.prime off) s = .next { s with
          spec := bufOf 0 X, prev := bufOf 0 X, prevValid := true, rsp := s.rsp ++ [⟨.ok, 0⟩] }) ∧
    ((mode s).tS < off + (mode s).tU → exec (.prime off) s = .next { s with rsp := s.rsp ++ [⟨.illegal, 0⟩] })

/-- R164, R165: `DECSYM off`, its two guards and its effect: soft bits of the products with the previous spectrum,
real parts at `i` and imaginary parts at `K + i`. -/
def Obligations.DecsymResult : Prop :=
  ∀ (s : State) (off : Nat), ModeOk s → s.run = false →
    (∀ w p : List Cx, off + (mode s).tU ≤ (mode s).tS → s.prevValid = true → w.length = (mode s).tU →
      Holds s.win off w → p.length = (mode s).tU → Holds s.prev 0 p →
      ∃ (X r : List Cx) (v : List Soft), IsSpectrum s w X ∧ r.length = (mode s).carriers ∧
        v.length = 2 * (mode s).carriers ∧
        (∀ i, i < (mode s).carriers →
          let b := carrierBin (mode s) ((mode s).perm.getD i 0)
          r.getD i [] = cxMul (order s) (X.getD b []) (cxConj (order s) (p.getD b [])) ∧
          v.getD i 0 = softBit (order s) (cxRe (order s) (r.getD i [])) (r.getD i []) ∧
          v.getD ((mode s).carriers + i) 0 = softBit (order s) (cxIm (order s) (r.getD i [])) (r.getD i [])) ∧
        exec (.decsym off) s = .next { s with
          spec := bufOf 0 X, prev := bufOf 0 X, soft := bufOf 0 v, rsp := s.rsp ++ [⟨.ok, 0⟩] }) ∧
    ((mode s).tS < off + (mode s).tU ∨ s.prevValid = false →
      exec (.decsym off) s = .next { s with rsp := s.rsp ++ [⟨.illegal, 0⟩] })

/-- R166, R168 (c), (d), (e): the two soft bits of a product are `trunc (-127 · x / |r|)` of its real and of its
imaginary part, and 0 for a product of 0. They are in `[-127, 127]` and their squares add up to at most `127²`. A
product on an axis gives `(∓127, 0)` or `(0, ∓127)`, one halfway between two `(∓89, ∓89)`. -/
def Obligations.SoftBitValues : Prop :=
  (∀ (M : Nat) (x r : Cx), InSoftRange (softBit M x r) ∧ softBit M x [] = 0) ∧
  ∀ (M : Nat) (r : Cx), 0 < M → M % 4 = 0 →
    let z := cxVal M r
    let a := softBit M (cxRe M r) r
    let b := softBit M (cxIm M r) r
    (z = 0 → a = 0 ∧ b = 0) ∧
    (z ≠ 0 → a = truncReal (-127 * z.re / ‖z‖) ∧ b = truncReal (-127 * z.im / ‖z‖)) ∧
    a ^ 2 + b ^ 2 ≤ 127 ^ 2 ∧
    (0 < z.re → z.im = 0 → a = -127 ∧ b = 0) ∧ (z.re < 0 → z.im = 0 → a = 127 ∧ b = 0) ∧
    (z.re = 0 → 0 < z.im → a = 0 ∧ b = -127) ∧ (z.re = 0 → z.im < 0 → a = 0 ∧ b = 127) ∧
    (0 < z.re → z.im = z.re → a = -89 ∧ b = -89) ∧ (z.re < 0 → z.im = -z.re → a = 89 ∧ b = -89) ∧
    (z.re < 0 → z.im = z.re → a = 89 ∧ b = 89) ∧ (0 < z.re → z.im = -z.re → a = -89 ∧ b = 89)

/-- R291: `FCORR` adds the products of the guard's end and the guard, and changes nothing else. -/
def Obligations.FcorrResult : Prop :=
  ∀ (s : State) (g u : List Cx), ModeOk s → s.run = false → g.length = (mode s).tG → u.length = (mode s).tG →
    Holds s.win 0 g → Holds s.win (mode s).tU u →
    ∃ c : Cx, cxVal (order s) c = cxVal (order s) s.freqcorr +
        ∑ j ∈ Finset.range (mode s).tG,
          cxVal (order s) (u.getD j []) * (starRingEnd ℂ) (cxVal (order s) (g.getD j [])) ∧
      exec .fcorr s = .next { s with freqcorr := c, rsp := s.rsp ++ [⟨.ok, 0⟩] }

/-- R293, R28: `FTRACK` adds `FINE_GAIN · (arg FREQCORR / 2π) · carrierDiff` to `FINE` and folds the sum at most once,
which leaves `COARSE · carrierDiff + FINE` as it was; it clears `FREQCORR`, answers `FOFF` and changes nothing else. `FOFF`
is `COARSE · carrierDiff + trunc FINE` (R29, log 28); that `COARSE` and `FOFF` saturate is the model's choice (log 10). A
`FINE` that was in its range is in it again; a frame with `FREQCORR = 0` and a `FINE` in range moves nothing. -/
def Obligations.FtrackResult : Prop :=
  (∀ s : State, ModeOk s → s.run = false →
    ∃ (f : Hertz) (k : Int) (x : ℝ),
      x = hertzVal (order s) s.fine + scalarVal (mode s).fineGain *
        (Complex.arg (cxVal (order s) s.freqcorr) / (2 * Real.pi)) * ((mode s).carrierDiff : ℝ) ∧
      hertzVal (order s) f = x - (k : ℝ) * ((mode s).carrierDiff : ℝ) ∧
      (((mode s).carrierDiff : ℝ) / 2 ≤ x → k = 1) ∧ (x < -(((mode s).carrierDiff : ℝ) / 2) → k = -1) ∧
      (-(((mode s).carrierDiff : ℝ) / 2) ≤ x → x < ((mode s).carrierDiff : ℝ) / 2 → k = 0) ∧
      exec .ftrack s =
        (let t := { s with fine := f, coarse := sat32 (s.coarse + k), freqcorr := [] }
         .next { t with rsp := s.rsp ++ [⟨.ok, word32 (foff t)⟩] })) ∧
  (∀ s : State, ModeOk s →
    foff s = sat32 (s.coarse * (mode s).carrierDiff + truncReal (hertzVal (order s) s.fine))) ∧
  (∀ s : State, ModeOk s → s.run = false → FineInRange s →
    ∃ t, exec .ftrack s = .next t ∧ FineInRange t ∧ t.freqcorr = []) ∧
  ∀ s : State, ModeOk s → s.run = false → s.freqcorr = [] → FineInRange s → -2 ^ 31 ≤ s.coarse → s.coarse < 2 ^ 31 →
    ∃ f : Hertz, hertzVal (order s) f = hertzVal (order s) s.fine ∧
      exec .ftrack s = .next { s with fine := f, rsp := s.rsp ++ [⟨.ok, word32 (foff s)⟩] }

/-! ## The FIC decoder (`43_fic_decoder.md`) -/

/-- R183, R185, R187: an accepted `FICPUSH` puts each soft bit of the symbol at its mother-code position, leaves every
other element of `FIC_ACC`, counts the bits and the symbol, and changes nothing else; index 0 zeroes `FIC_ACC`,
`FIC_FILL`, `FIC_IDX`, `FIB_GOOD` and `FIB_BAD` first. An index that is not the next one is `ILLEGAL`. -/
def Obligations.FicpushResult : Prop :=
  (∀ (s : State) (idx : Nat), s.run = false →
    4 ≤ idx ∨ idx ≠ 0 ∧ (s.ficState ≠ .accumulating ∨ s.ficIdx ≠ idx) →
    exec (.ficpush idx) s = .next { s with rsp := s.rsp ++ [⟨.illegal, 0⟩] }) ∧
  ∀ (s : State) (idx : Nat) (v : List Soft), ModeOk s → s.run = false → idx < 4 →
    idx = 0 ∨ s.ficState = .accumulating ∧ s.ficIdx = idx → v.length = nSoft (mode s) → Holds s.soft 0 v →
    ∃ (z : State) (acc : Buf Soft),
      z = (if idx = 0 then
        { s with ficAcc := [], ficAccZeroed := true, ficFill := 0, ficIdx := 0, fibGood := 0, fibBad := 0 } else s) ∧
      (∀ j, j < nSoft (mode s) →
        accRead z.ficAccZeroed acc (ficAddress (mode s) (idx * nSoft (mode s) + j)) = v[j]?) ∧
      (∀ a, (∀ j, j < nSoft (mode s) → a ≠ ficAddress (mode s) (idx * nSoft (mode s) + j)) →
        accRead z.ficAccZeroed acc a = accRead z.ficAccZeroed z.ficAcc a) ∧
      exec (.ficpush idx) s = .next { z with
        ficAcc := acc, ficFill := z.ficFill + nSoft (mode s), ficIdx := idx + 1, ficState := .accumulating,
        rsp := s.rsp ++ [⟨.ok, BitVec.ofNat 32 (z.ficFill + nSoft (mode s))⟩] }

/-- R190, R193, R194, R196: `FICDEC` on a full accumulator leaves in `FIC_OUT` the decoded bits of every block (`viterbi`,
of which `ViterbiMaximises` speaks) xor the dispersal sequence `p`, restarted at the block's start; it forwards exactly the
FIBs that pass the check (`crcOk`, of which `CrcResult` speaks), in order, counts both kinds, and says `Valid` or
`Invalid`; on one that is not full it is `ILLEGAL` (R183). `p[t]` is the xor over `PRBS_TAPS` of `p[t - d]`; that
`PRBS_INIT` gives the bits before `p[0]` latest first is the model's choice (log 16), and so is the response's low 32
bits where `FIB_BAD` is `2^16` or more (log 34). -/
def Obligations.FicdecResult : Prop :=
  (∀ s : State, s.run = false → s.ficState ≠ .accumulating ∨ s.ficIdx ≠ 4 →
    exec .ficdec s = .next { s with rsp := s.rsp ++ [⟨.illegal, 0⟩] }) ∧
  ∀ s : State, ModeOk s → s.run = false → s.ficState = .accumulating → s.ficIdx = 4 → s.ficAccZeroed = true →
    s.fibGood = 0 → s.fibBad = 0 →
    ∃ (ys : List (List Soft)) (p : Int → Bool) (out : List Bool) (fibs : List (List Bool)) (g b : Word),
      ys.length = (mode s).nBlk ∧
      (∀ n q, n < (mode s).nBlk → q < motherLen (mode s) →
        (ys.getD n [])[q]? = accRead true s.ficAcc (n * motherLen (mode s) + q)) ∧
      (∀ j, j < (mode s).prbsInit.length → p (-1 - j) = (mode s).prbsInit.getD j false) ∧
      (∀ t : Nat, p t = (mode s).prbsTaps.foldl (fun (b : Bool) (d : Nat) => xor b (p (t - d))) false) ∧
      out.length = (mode s).nBlk * (mode s).blkOut ∧
      (∀ n t, n < (mode s).nBlk → t < (mode s).blkOut →
        out.getD (n * (mode s).blkOut + t) false = xor ((viterbi (mode s) (ys.getD n [])).getD t false) (p t)) ∧
      fibs.length = fibsPerFrame (mode s) ∧
      (∀ f, f < fibsPerFrame (mode s) → fibs.getD f [] = (out.drop (256 * f)).take 256) ∧
      g = BitVec.ofNat 32 (fibs.filter (crcOk (mode s))).length ∧
      g + b = BitVec.ofNat 32 (fibsPerFrame (mode s)) ∧
      exec .ficdec s = .next { s with
        ficOut := bufOf 0 out, fibOut := s.fibOut ++ fibs.filter (crcOk (mode s)), fibGood := g, fibBad := b,
        badFrames := if g = 0 then s.badFrames + 1 else s.badFrames
        ficState := if g = 0 then .invalid else .valid
        ficSync := if g = 0 then s.ficSync else true
        event := s.event ||| 8, evt := s.evt ++ [.ficQuality g b]
        rsp := s.rsp ++ [⟨if g = 0 then .fail else .ok, (b <<< 16) ||| g⟩] }

/-- R191, R192: `viterbi` returns an information word whose metric no other word exceeds, whatever the choices among
equal metrics. -/
def Obligations.ViterbiMaximises : Prop :=
  ∀ (m : Mode) (y : List Soft), 1 ≤ m.convK → m.convTaps.length = 4 → (∀ ds ∈ m.convTaps, ∀ d ∈ ds, d < m.convK) →
    y.length = motherLen m →
    (viterbi m y).length = m.blkOut ∧
    ∀ u : List Bool, u.length = m.blkOut → wordMetric m u y ≤ wordMetric m (viterbi m y) y

/-- R198: a FIB that passes the check fails it with any one bit of the payload or of the CRC field turned over. -/
def Obligations.CrcSingleFlip : Prop :=
  ∀ (m : Mode) (fib : List Bool) (j : Nat), m.crcPoly.getLsbD 0 = true → fib.length = 256 → j < 256 →
    crcOk m fib = true → crcOk m (flipBit j fib) = false

/-- R195, R197: `CRC16 f` answers the field and the computed word of a FIB of `FIC_OUT` and changes nothing; a number out
of range is `ILLEGAL`. The computed word is `reg` after the 240 payload bits, from `CRC_INIT` on, xor `CRC_XOROUT`; the
field is the last 16 bits, the first the most significant; `crcOk` says that they are equal. -/
def Obligations.CrcResult : Prop :=
  ∀ (s : State) (f : Nat), s.run = false →
    (∀ fib : List Bool, f < fibsPerFrame (mode s) → fib.length = 256 → Holds s.ficOut (256 * f) fib →
      ∃ (reg : Nat → BitVec 16) (crc field : BitVec 16),
        reg 0 = (mode s).crcInit ∧
        (∀ j, j < 240 → reg (j + 1) =
          if xor ((reg j).getLsbD 15) (fib.getD j false) then (reg j <<< 1) ^^^ (mode s).crcPoly else reg j <<< 1) ∧
        crc = reg 240 ^^^ (mode s).crcXorout ∧
        field.toNat = ∑ j ∈ Finset.range 16, (fib.getD (240 + j) false).toNat * 2 ^ (15 - j) ∧
        (crcOk (mode s) fib = true ↔ crc = field) ∧
        exec (.crc16 f) s = .next { s with
          rsp := s.rsp ++ [⟨if crc = field then .ok else .fail,
            (field.setWidth 32 <<< 16) ||| crc.setWidth 32⟩] }) ∧
    (fibsPerFrame (mode s) ≤ f → exec (.crc16 f) s = .next { s with rsp := s.rsp ++ [⟨.illegal, 0⟩] })

/-! ## The demultiplexer (`45_msc_demux.md`) -/

/-- R248: `MSCPUSH` appends a copy of `SOFT`; its refusals. That the response carries the low 32 bits of a level of `2^32`
or more is the model's choice (log 34). -/
def Obligations.MscpushResult : Prop :=
  ∀ (s : State) (n : Nat), s.run = false →
    (n < 5 ∨ (mode s).symbols ≤ n → exec (.mscpush n) s = .next { s with rsp := s.rsp ++ [⟨.illegal, 0⟩] }) ∧
    (5 ≤ n → n < (mode s).symbols →
      (s.fifo.length = (mode s).symbols →
        exec (.mscpush n) s = .next { s with rsp := s.rsp ++ [⟨.fail, BitVec.ofNat 32 s.fifo.length⟩] }) ∧
      (∀ v : List Soft, s.fifo.length < (mode s).symbols → v.length = nSoft (mode s) → Holds s.soft 0 v →
        exec (.mscpush n) s = .next { s with
          fifo := s.fifo ++ [⟨n, v⟩], rsp := s.rsp ++ [⟨.ok, BitVec.ofNat 32 (s.fifo.length + 1)⟩] }))

/-- R249, R250, R251: `CIFPOP` puts the head of the queue in its slot and leaves the rest of `CIF`; it slices by the
table, in table order, exactly when the last slot completes the CIF; an empty queue is a `FAIL`. A subscription that
reaches beyond the CIF (log 27) is the fault of `93_implementation_defined.md` U1. The first part, R247: `DMX`'s step is
`CIFPOP` without a response, while `DMX_ASYNC = 1` and the queue is not empty (also at `RUN = 0`, log 15). -/
def Obligations.CifpopResult : Prop :=
  (∀ s : State,
    (s.ctrl.getLsbD 0 = false ∨ s.fifo = [] → dmxStep s = .next s) ∧
    (s.ctrl.getLsbD 0 = true → s.fifo ≠ [] →
      (∀ t, exec .cifpop { s with run := false } = .next t → dmxStep s = .next { t with run := s.run, rsp := s.rsp }) ∧
      ∀ f, exec .cifpop { s with run := false } = .fault f → dmxStep s = .fault f)) ∧
  ∀ s : State, ModeOk s → s.run = false →
    (s.fifo = [] → exec .cifpop s = .next { s with rsp := s.rsp ++ [⟨.fail, 0⟩] }) ∧
    ∀ (e : FifoEntry) (q : List FifoEntry), s.fifo = e :: q → e.bits.length = nSoft (mode s) →
      ∃ (p : Nat) (c : Buf Soft) (valid : List Nat),
        p = (e.sym - 5) % symsPerCif (mode s) ∧ Holds c (p * nSoft (mode s)) e.bits ∧
        (∀ a, a < p * nSoft (mode s) ∨ (p + 1) * nSoft (mode s) ≤ a → bufRead c a = bufRead s.cif a) ∧
        (∀ k, k ∈ valid ↔ k = p ∨ p ≠ 0 ∧ k ∈ s.cifValid) ∧
        (p + 1 < symsPerCif (mode s) →
          exec .cifpop s = .next { s with fifo := q, cif := c, cifValid := valid, rsp := s.rsp ++ [⟨.ok, 0⟩] }) ∧
        (p + 1 = symsPerCif (mode s) → ¬ (∀ k, k < symsPerCif (mode s) → k ∈ valid) →
          exec .cifpop s = .next { s with fifo := q, cif := c, cifValid := [], rsp := s.rsp ++ [⟨.ok, 0⟩] }) ∧
        (p + 1 = symsPerCif (mode s) → (∀ k, k < symsPerCif (mode s) → k ∈ valid) →
          ¬ (∀ x ∈ s.subs, Written c (x.start * (mode s).cuBits) (x.len * (mode s).cuBits)) →
          exec .cifpop s = .fault (.readUnwritten .cif)) ∧
        (p + 1 = symsPerCif (mode s) → (∀ k, k < symsPerCif (mode s) → k ∈ valid) →
          (∀ x ∈ s.subs, Written c (x.start * (mode s).cuBits) (x.len * (mode s).cuBits)) →
          ∃ rs : List CuRecord,
            List.Forall₂ (fun (x : Sub) (r : CuRecord) => r.sink = x.sink ∧ r.sid = x.sid ∧ r.comp = x.comp ∧
              r.bits.length = x.len * (mode s).cuBits ∧ Holds c (x.start * (mode s).cuBits) r.bits) s.subs rs ∧
            exec .cifpop s = .next { s with
              fifo := q, cif := c, cifValid := [], cuOut := s.cuOut ++ rs,
              rsp := s.rsp ++ [⟨.ok, BitVec.ofNat 32 s.subs.length⟩] })

/-! ## Unwritten elements (`93_implementation_defined.md` U1) -/

/-- U1, hazard Z6 of R390: an operation of `HOST` that reads an element of a buffer which nothing has written is the
model's fault, whichever the operation and the buffer; it is the one stop of the model. The clauses on `FIC_ACC` and on
an entry of `FIFO` whose soft bits are not of the mode's number are the model's choice (log 7). -/
def Obligations.UnwrittenFaults : Prop :=
  ∀ s : State, ModeOk s → s.run = false →
    (∀ off, off + (mode s).tU ≤ (mode s).tS → ¬ Written s.win off (mode s).tU →
      exec (.fft off) s = .fault (.readUnwritten .win) ∧ exec (.estco off) s = .fault (.readUnwritten .win) ∧
      exec (.prime off) s = .fault (.readUnwritten .win) ∧
      (s.prevValid = true → exec (.decsym off) s = .fault (.readUnwritten .win))) ∧
    (∀ off i, off + (mode s).tU ≤ (mode s).tS → Written s.win off (mode s).tU → s.prevValid = true →
      i < (mode s).carriers → bufRead s.prev (carrierBin (mode s) ((mode s).perm.getD i 0)) = none →
      exec (.decsym off) s = .fault (.readUnwritten .prev)) ∧
    (∀ thr, ¬ Written s.win 0 (mode s).tU → exec (.findb thr) s = .fault (.readUnwritten .win)) ∧
    (∀ n, 0 < n → n ≤ (mode s).tU → ¬ Written s.win n ((mode s).tU - n) →
      exec (.shift n) s = .fault (.readUnwritten .win)) ∧
    (¬ (Written s.win 0 (mode s).tG ∧ Written s.win (mode s).tU (mode s).tG) →
      exec .fcorr s = .fault (.readUnwritten .win)) ∧
    (¬ Written s.soft 0 (nSoft (mode s)) →
      exec (.ficpush 0) s = .fault (.readUnwritten .soft) ∧
      (∀ idx, idx < 4 → s.ficState = .accumulating → s.ficIdx = idx →
        exec (.ficpush idx) s = .fault (.readUnwritten .soft)) ∧
      ∀ n, 5 ≤ n → n < (mode s).symbols → s.fifo.length < (mode s).symbols →
        exec (.mscpush n) s = .fault (.readUnwritten .soft)) ∧
    (s.ficState = .accumulating → s.ficIdx = 4 → s.ficAccZeroed = false →
      ¬ Written s.ficAcc 0 ((mode s).nBlk * motherLen (mode s)) → exec .ficdec s = .fault (.readUnwritten .ficAcc)) ∧
    (∀ f, f < fibsPerFrame (mode s) → ¬ Written s.ficOut (256 * f) 256 →
      exec (.crc16 f) s = .fault (.readUnwritten .ficOut)) ∧
    ∀ e q, s.fifo = e :: q → e.bits.length ≠ nSoft (mode s) → exec .cifpop s = .fault (.readUnwritten .fifo)

/-! ## The sequencer (`46_sync_controller.md`) -/

/-- R286, R301, R383: step `F0` goes to `Idle` where a stop is pending; else it applies the `FRAME` reset, shifts the
window by `BOFF` and goes to `F1`. -/
def Obligations.FrameStart : Prop :=
  ∀ s : State, s.run = true → s.seqStep = .f0 →
    (s.stopreq = true → seqStep s = .next { s with
      run := false, stopreq := false, syncState := .idle, seqStep := .a0, fifo := [], cifValid := [], scan := none }) ∧
    (s.stopreq = false → s.boff ≤ (mode s).tU → Written s.win s.boff ((mode s).tU - s.boff) →
      ∃ w : Buf Cx, (∀ j, j < (mode s).tU - s.boff → bufRead w j = bufRead s.win (j + s.boff)) ∧
        (∀ a, (mode s).tU - s.boff ≤ a → bufRead w a = bufRead s.win a) ∧
        seqStep s = .next { s with
          symIdx := 0, freqcorr := [], ficState := .idle, ficIdx := 0, ficFill := 0, ficAcc := [],
          ficAccZeroed := true, fibGood := 0, fibBad := 0, win := w, seqStep := .f1, syncState := .synchronized })

/-- R90, R91: an operation that `SEQ` or `DMX` issues acts on the same state with the same semantics as the command of
`HOST`, which differs in its response, or, where it waits in a read, in being kept (the model's choice, log 11). (With a
stop pending the sequencer's reads end before they begin: `SequencerStops`.) -/
def Obligations.OperationsAlike : Prop :=
  ∀ (i : Instr) (s : State) (op : OpRes), unitOp i s = some op → s.stopreq = false ∨ readsSamples i = false →
    (∀ t st v, op = .done t st v →
      exec i { s with run := false } = .next { t with run := false, rsp := t.rsp ++ [⟨st, v⟩] } ∧
      t.run = s.run ∧ t.rsp = s.rsp ∧ t.seqStep = s.seqStep ∧ t.syncState = s.syncState) ∧
    (∀ t, op = .waits t → exec i { s with run := false } = .next { t with run := false, hostWait := some i } ∧
      t.run = s.run ∧ t.hostWait = s.hostWait) ∧
    ∀ f, op = .fault f → exec i { s with run := false } = .fault f

/-- R285, R298: the steps that look for the boundary. `V1`: `Ok(n)` keeps it and enters the frame loop, `NoSync`
searches again. `E3`, with three times `THR`: the third failure in a row drops back to `SearchingNull` with
`SYNC_LOST`, the others coast on `T_g`. -/
def Obligations.BoundarySteps : Prop :=
  (∀ (s t : State) (st : Status) (v : Word), s.run = true → s.seqStep = .v1 → opFindb s.thr.toNat s = .done t st v →
    (st = .ok → seqStep s = .next { t with boff := v.toNat, syncState := .synchronized, seqStep := .f0 }) ∧
    (st = .fail → seqStep s = .next { t with syncState := .searchingNull, seqStep := .n0 })) ∧
  ∀ (s t : State) (st : Status) (v : Word), s.run = true → s.seqStep = .e3 →
    opFindb (3 * s.thr.toNat) s = .done t st v →
    (st = .ok → seqStep s =
      .next { t with boff := v.toNat, bfailCnt := 0, syncState := .synchronized, seqStep := .f0 }) ∧
    (st = .fail → s.bfailCnt + 1 = 3 → seqStep s = .next { t with
      bfailCnt := 0, ficSync := false, event := t.event ||| 2, evt := t.evt ++ [.syncLost],
      syncState := .searchingNull, seqStep := .n0 }) ∧
    (st = .fail → s.bfailCnt + 1 < 3 → seqStep s = .next { t with
      bfailCnt := s.bfailCnt + 1, boff := (mode s).tG, syncState := .synchronized, seqStep := .f0 })

/-- R271, R274, R282, R284, R288, R289, R292, R294, R295, R297, R301: the steps of the program that `FrameStart` and
`BoundarySteps` leave out, from what their operations answer (`OperationsAlike` says that these are the commands').
`Stopped` goes to `Idle`; a step whose operation waits stays. `N0` acts on the scan's end, `F3` adds a shift to `COARSE`
(saturated, log 10), `S3` and `S4` route the symbol by its index, `E0` writes `SIGNAL` and raises `SIGNAL_STRENGTH` (its
word a free value, 0 where the level is 0, log 8). -/
def Obligations.SequencerSteps : Prop :=
  (∀ (s : State) (op : OpRes), s.run = true →
    (s.seqStep = .a0 ∧ op = opLevel ((mode s).tF / 5) s ∨ s.seqStep = .n0 ∧ op = opNullscan s ∨
      s.seqStep = .v0 ∧ op = opFill 0 (mode s).tU s ∨
      s.seqStep = .f1 ∧ s.boff ≠ 0 ∧ op = opFill ((mode s).tU - s.boff) s.boff s ∨
      s.seqStep = .s0 ∧ op = opFill 0 (mode s).tS s ∨ s.seqStep = .e1 ∧ op = opSkipnull s ∨
      s.seqStep = .e2 ∧ op = opFill 0 (mode s).tU s) →
    (∀ t, op = .waits t → seqStep s = .next t) ∧
    ∀ t v, op = .done t .stopped v → seqStep s = .next { t with
      run := false, stopreq := false, syncState := .idle, seqStep := .a0, fifo := [], cifValid := [], scan := none }) ∧
  (∀ (s t : State) (st : Status) (v : Word), s.run = true → st ≠ .stopped →
    (s.seqStep = .a0 → opLevel ((mode s).tF / 5) s = .done t st v →
      seqStep s = .next { t with syncState := .searchingNull, seqStep := .n0 }) ∧
    (s.seqStep = .n0 → opNullscan s = .done t st v →
      (st = .ok → seqStep s = .next { t with nosigCnt := 0, syncState := .verifyingNull, seqStep := .v0 }) ∧
      (st = .fail → v = 0 → t.nosigCnt + 1 ≠ 8 → seqStep s = .next { t with nosigCnt := t.nosigCnt + 1 }) ∧
      (st = .fail → v = 0 → t.nosigCnt + 1 = 8 → seqStep s = .next { t with
        nosigCnt := 0, event := t.event ||| 1, evt := t.evt ++ [.noSignal] }) ∧
      (st = .fail → v ≠ 0 → seqStep s = .next t)) ∧
    (s.seqStep = .v0 → opFill 0 (mode s).tU s = .done t st v →
      seqStep s = .next { t with syncState := .verifyingNull, seqStep := .v1 }) ∧
    (s.seqStep = .f1 → s.boff ≠ 0 → opFill ((mode s).tU - s.boff) s.boff s = .done t st v →
      seqStep s = .next { t with syncState := .synchronized, seqStep := .f2 }) ∧
    (s.seqStep = .f2 → opPrime 0 s = .done t st v →
      seqStep s = .next { t with syncState := .synchronized, seqStep := .f3 }) ∧
    (s.seqStep = .f3 → s.ficSync = false → opEstco 0 s = .done t st v →
      (st = .ok → seqStep s = .next { t with
        coarse := sat32 (t.coarse + v.toInt), symIdx := 1, syncState := .synchronized, seqStep := .s0 }) ∧
      (st = .fail → seqStep s = .next { t with symIdx := 1, syncState := .synchronized, seqStep := .s0 })) ∧
    (s.seqStep = .s0 → opFill 0 (mode s).tS s = .done t st v →
      seqStep s = .next { t with syncState := .synchronized, seqStep := .s1 }) ∧
    (s.seqStep = .s1 → opFcorr s = .done t st v →
      seqStep s = .next { t with syncState := .synchronized, seqStep := .s2 }) ∧
    (s.seqStep = .s2 → opDecsym (mode s).tG s = .done t st v →
      seqStep s = .next { t with syncState := .synchronized, seqStep := .s3 }) ∧
    (s.seqStep = .s3 → s.symIdx ≤ 4 → opFicpush (s.symIdx - 1) s = .done t st v →
      seqStep s = .next { t with syncState := .synchronized, seqStep := .s4 }) ∧
    (s.seqStep = .s3 → 4 < s.symIdx → s.fifo.length < (mode s).symbols → opMscpush s.symIdx s = .done t st v →
      seqStep s = .next { t with syncState := .synchronized, seqStep := .s4 }) ∧
    (s.seqStep = .e0 → opFtrack s = .done t st v → ∃ w : Word, (t.slevel = [] ∨ ModeOk t ∧ magVal (order t) t.slevel = 0 → w = 0) ∧
      seqStep s = .next { t with
        signal := w, event := t.event ||| 16, evt := t.evt ++ [.signalStrength w],
        syncState := .synchronized, seqStep := .e1 }) ∧
    (s.seqStep = .e1 → opSkipnull s = .done t st v →
      seqStep s = .next { t with syncState := .synchronized, seqStep := .e2 }) ∧
    (s.seqStep = .e2 → opFill 0 (mode s).tU s = .done t st v →
      seqStep s = .next { t with syncState := .synchronized, seqStep := .e3 })) ∧
  (∀ s : State, s.run = true → s.seqStep = .f1 → s.boff = 0 →
    seqStep s = .next { s with syncState := .synchronized, seqStep := .f2 }) ∧
  (∀ s : State, s.run = true → s.seqStep = .f3 → s.ficSync = true →
    seqStep s = .next { s with symIdx := 1, syncState := .synchronized, seqStep := .s0 }) ∧
  ∀ s t : State, s.run = true → s.seqStep = .s4 →
    s.symIdx = 4 ∧ (∃ st v, opFicdec s = .done t st v ∧ st ≠ .stopped) ∨
    4 < s.symIdx ∧ s.ctrl.getLsbD 0 = false ∧ s.fifo ≠ [] ∧ (∃ st v, opCifpop s = .done t st v ∧ st ≠ .stopped) ∨
    (s.symIdx < 4 ∨ 4 < s.symIdx ∧ s.ctrl.getLsbD 0 = true) ∧ t = s →
    (t.symIdx + 1 < (mode t).symbols →
      seqStep s = .next { t with symIdx := t.symIdx + 1, syncState := .synchronized, seqStep := .s0 }) ∧
    ((mode t).symbols ≤ t.symIdx + 1 →
      seqStep s = .next { t with symIdx := 0, syncState := .synchronized, seqStep := .e0 })

/-- R273, R301, R74, R248: a pending stop is observed at every read, before it, and at the wait on a full queue: the
sequencer goes to `Idle` and takes no sample; without one the push of a data symbol waits there, changing
nothing. -/
def Obligations.SequencerStops : Prop :=
  (∀ s : State, ModeOk s → s.run = true → s.stopreq = true →
    s.seqStep ∈ [SeqStep.a0, .n0, .v0, .s0, .e1, .e2] ∨
      s.seqStep = .f1 ∧ s.boff ≠ 0 ∧ s.boff ≤ (mode s).tU ∨
      s.seqStep = .s3 ∧ 4 < s.symIdx ∧ (mode s).symbols ≤ s.fifo.length →
    seqStep s = .next { s with
      run := false, stopreq := false, syncState := .idle, seqStep := .a0, fifo := [], cifValid := [],
      scan := none }) ∧
  ∀ s : State, s.run = true → s.stopreq = false → s.seqStep = .s3 → 4 < s.symIdx →
    (mode s).symbols ≤ s.fifo.length → seqStep s = .next s

/-- R345: `raise` sets the event's bit, writes its payload registers, appends one record, and changes nothing else. -/
def Obligations.RaiseResult : Prop :=
  ∀ (s : State) (e : EvtRecord),
    (raiseEvent s e).event.getLsbD (eventBit e) = true ∧
    (∀ j, j ≠ eventBit e → (raiseEvent s e).event.getLsbD j = s.event.getLsbD j) ∧
    raiseEvent s e = { s with
      event := (raiseEvent s e).event, evt := s.evt ++ [e]
      fibGood := (match e with | .ficQuality good _ => good | _ => s.fibGood)
      fibBad := (match e with | .ficQuality _ bad => bad | _ => s.fibBad)
      signal := (match e with | .signalStrength v => v | _ => s.signal)
      tii := (match e with | .tii main sub => main ++ sub | _ => s.tii) }

/-! ## What every step keeps -/

/-- R22, R24, R55, R42: `SYNC_STATE` is a function of `SEQ_STEP` while the block runs, and an idle block is at `A0` in
`Idle` with no stop pending; at most one subscription a key and at most `MAX_SUBS` of them: each kept by every
step. -/
def Obligations.ControlAndTableKept : Prop :=
  ∀ s t : State, step s = .next t → (ControlOk s → ControlOk t) ∧ (SubsOk s → SubsOk t)

/-- R330: the counters stay in their ranges: kept by every step. -/
def Obligations.CountersKept : Prop :=
  ∀ s t : State, ModeOk s → CountersOk s → step s = .next t → ModeOk t ∧ CountersOk t

/-- R28: `FINE` stays in `[-carrierDiff/2, carrierDiff/2)` at every step that leaves `MODE_SEL` as it is, and a session
starts with it there. A step that changes `MODE_SEL` is the exception, of which this says nothing: it keeps `FINE` as it
is, also outside the new mode's range (the model's choice, log 33; `WriteRegister` says so). -/
def Obligations.FineKept : Prop :=
  ∀ s t : State, ModeOk s → step s = .next t →
    (FineInRange s → t.modeSel = s.modeSel → FineInRange t) ∧ (s.run = false → t.run = true → FineInRange t)

/-- R60: every buffer keeps its canonical form and its index range at every step. -/
def Obligations.BuffersKept : Prop :=
  ∀ s t : State, ModeOk s → BuffersOk s → step s = .next t → BuffersOk t

/-- R166, R330: every soft bit of the state stays in `[-127, 127]` at every step. -/
def Obligations.SoftBitsKept : Prop := ∀ s t : State, SoftOk s → step s = .next t → SoftOk t

/-- Hazard Z6 of R390: what a running block needs to be written stays written at every step. -/
def Obligations.ReadyKept : Prop := ∀ s t : State, ModeOk s → Ready s → step s = .next t → Ready t

/-- `93_implementation_defined.md` U1, R390: a running block whose subscriptions lie in its CIF (`SubsFit`, the model's
premise, log 27) never reads an element that nothing has written: no step of it, of any agent, is a fault. -/
def Obligations.RunningNeverFaults : Prop :=
  ∀ (s : State) (f : Fault), ModeOk s → Ready s → s.run = true → SubsFit s → step s ≠ .fault f

/-- The invariants hold after power-on reset, in every well-formed configuration. -/
def Obligations.InvariantsAtReset : Prop :=
  ∀ c : Cfg, cfgWf c = true →
    ModeOk (State.por c) ∧ ControlOk (State.por c) ∧ CountersOk (State.por c) ∧ BuffersOk (State.por c) ∧
    SoftOk (State.por c) ∧ SubsOk (State.por c) ∧ FineInRange (State.por c) ∧ Ready (State.por c)

/-- R33: `SPEC` is read by no operation and no command: two states that differ in it only take steps that differ in
it only. -/
def Obligations.SpecNotRead : Prop :=
  ∀ (s : State) (b : Buf Cx),
    (∀ t, step s = .next t → ∃ b' : Buf Cx, step { s with spec := b } = .next { t with spec := b' }) ∧
    (∀ f, step s = .fault f → step { s with spec := b } = .fault f)

/-- R49, R346: a pending event bit is cleared only by a `WRCSR` of `HOST` to `EVENT`; the notification line is 1 exactly
when an event is pending whose mask bit is 1. -/
def Obligations.EventsSticky : Prop :=
  (∀ (s t : State) (j : Nat), step s = .next t → s.event.getLsbD j = true → t.event.getLsbD j = false →
    nextAct s = .host ∧ ∃ d : Word, hostCommand s = some (.wrcsr 0x02 d) ∧ d.getLsbD j = true) ∧
  ∀ s : State, notifyLine s = true ↔ ∃ j, s.event.getLsbD j = true ∧ s.evmask.getLsbD j = true

/-- R46, R48, R350: while `RUN = 1` no step changes `MODE_SEL` or `CTRL`, and no step ever changes the configuration;
after the return to `Idle` only `START` makes the sequencer run again, from `A0`. -/
def Obligations.RunGuards : Prop :=
  ∀ s t : State, step s = .next t →
    t.cfg = s.cfg ∧ (s.run = true → t.modeSel = s.modeSel ∧ t.ctrl = s.ctrl) ∧
    (s.run = false → t.run = true →
      nextAct s = .host ∧ hostCommand s = some .start ∧ t.seqStep = .a0 ∧ t.syncState = .acquiringLevel)

/-- R75, R96: every step extends each of the output streams at its end. That a stream is the list of all that has been
sent, from which nothing is removed, is the model's choice (log 18). -/
def Obligations.OutputsExtend : Prop :=
  ∀ s t : State, step s = .next t →
    s.rsp <+: t.rsp ∧ s.fibOut <+: t.fibOut ∧ s.cuOut <+: t.cuOut ∧ s.tiiOut <+: t.tiiOut ∧ s.evt <+: t.evt
end

