-- ==== Sys2Proof/Laws/Buffers.lean ====
section
/-! SUPPORT. The laws of buffers: reads after writes, and the canonical form that every write keeps. -/

namespace Sys2Proof.Machine

/-! ## Reads -/

@[simp] theorem bufRead_nil {α : Type} (a : Nat) : bufRead ([] : Buf α) a = none := rfl

theorem bufRead_cons {α : Type} (k : Nat) (v : α) (b : Buf α) (a : Nat) :
    bufRead ((k, v) :: b) a = if a = k then some v else bufRead b a := rfl

theorem bufRead_append {α : Type} (b c : Buf α) (a : Nat) :
    bufRead (b ++ c) a = (bufRead b a).or (bufRead c a) := by
  induction b with
  | nil => simp
  | cons t b ih =>
    obtain ⟨k, v⟩ := t
    by_cases h : a = k <;> simp [bufRead_cons, h, ih]

/-- A read through a filter that keeps the address. -/
theorem bufRead_filter_keep {α : Type} (p : Nat → Bool) (b : Buf α) (a : Nat) (h : p a = true) :
    bufRead (b.filter fun t => p t.1) a = bufRead b a := by
  induction b with
  | nil => rfl
  | cons t b ih =>
    obtain ⟨k, v⟩ := t
    rw [List.filter_cons]
    by_cases hk : p k = true
    · simp [hk, bufRead_cons, ih]
    · have : a ≠ k := fun e => hk (e ▸ h)
      simp [hk, bufRead_cons, ih, this]

/-- A read through a filter that drops the address. -/
theorem bufRead_filter_drop {α : Type} (p : Nat → Bool) (b : Buf α) (a : Nat) (h : p a = false) :
    bufRead (b.filter fun t => p t.1) a = none := by
  induction b with
  | nil => rfl
  | cons t b ih =>
    obtain ⟨k, v⟩ := t
    rw [List.filter_cons]
    by_cases hk : p k = true
    · have : a ≠ k := fun e => by simp [e, hk] at h
      simp [hk, bufRead_cons, ih, this]
    · simp [hk, ih]

theorem bufRead_bufOf {α : Type} (vs : List α) (off a : Nat) :
    bufRead (bufOf off vs) a = if off ≤ a then vs[a - off]? else none := by
  induction vs generalizing off with
  | nil => simp [bufOf]
  | cons v vs ih =>
    rw [bufOf, bufRead_cons, ih]
    by_cases h : a = off
    · simp [h]
    · by_cases h' : off ≤ a
      · have e : a - off = (a - (off + 1)) + 1 := by omega
        have : off + 1 ≤ a := by omega
        simp [h, h', this, e]
      · have : ¬ off + 1 ≤ a := by omega
        simp [h, h', this]

/-- Every read after a write of a range. -/
theorem bufRead_writeRange {α : Type} (b : Buf α) (off : Nat) (vs : List α) (a : Nat) :
    bufRead (bufWriteRange b off vs) a =
      if off ≤ a ∧ a < off + vs.length then vs[a - off]? else bufRead b a := by
  unfold bufWriteRange
  rw [bufRead_append, bufRead_append, bufRead_bufOf]
  by_cases h1 : a < off
  · rw [bufRead_filter_keep (fun k => decide (k < off)) b a (by simpa using h1),
      bufRead_filter_drop (fun k => decide (off + vs.length ≤ k)) b a (by simp; omega)]
    have : ¬ off ≤ a := by omega
    simp [this]
  · rw [bufRead_filter_drop (fun k => decide (k < off)) b a (by simpa using h1)]
    have ho : off ≤ a := by omega
    by_cases h2 : a < off + vs.length
    · have : a - off < vs.length := by omega
      simp [ho, h2, this]
    · rw [bufRead_filter_keep (fun k => decide (off + vs.length ≤ k)) b a (by simp; omega)]
      have : vs.length ≤ a - off := by omega
      simp [h2, this]

theorem bufRead_write_same {α : Type} (b : Buf α) (a : Nat) (v : α) : bufRead (bufWrite b a v) a = some v := by
  simp [bufWrite, bufRead_writeRange]

theorem bufRead_write_other {α : Type} (b : Buf α) (a k : Nat) (v : α) (h : k ≠ a) :
    bufRead (bufWrite b a v) k = bufRead b k := by
  rw [bufWrite, bufRead_writeRange, if_neg]
  simp only [List.length_singleton]
  omega

/-- A range read gives a list exactly when every element is written. -/
theorem bufReadRange_eq_some {α : Type} (b : Buf α) (off n : Nat) (vs : List α) :
    bufReadRange b off n = some vs ↔ vs.length = n ∧ Holds b off vs := by
  induction n generalizing off vs with
  | zero =>
    constructor
    · intro h
      simp only [bufReadRange, Option.some.injEq] at h
      subst h
      exact ⟨rfl, by intro j hj; simp at hj⟩
    · rintro ⟨h, -⟩
      rw [List.length_eq_zero_iff] at h
      simp [bufReadRange, h]
  | succ n ih =>
    rw [bufReadRange]
    constructor
    · intro h
      split at h
      · rename_i v ws hv hws
        cases h
        obtain ⟨hl, hh⟩ := (ih _ _).1 hws
        refine ⟨by simp [hl], ?_⟩
        intro j hj
        cases j with
        | zero => simpa using hv
        | succ j =>
          have := hh j (by simpa using hj)
          simpa [Nat.add_assoc, Nat.add_comm 1 j] using this
      · cases h
    · rintro ⟨hl, hh⟩
      cases vs with
      | nil => simp at hl
      | cons v vs =>
        have h0 : bufRead b off = some v := by simpa using hh 0 (by simp)
        have h1 : bufReadRange b (off + 1) n = some vs := by
          refine (ih _ _).2 ⟨by simpa using hl, ?_⟩
          intro j hj
          have := hh (j + 1) (by simpa using hj)
          simpa [Nat.add_assoc, Nat.add_comm 1 j] using this
        simp [h0, h1]

/-- A range read gives nothing exactly when an element is not written. -/
theorem bufReadRange_eq_none {α : Type} (b : Buf α) (off n : Nat) :
    bufReadRange b off n = none ↔ ¬ Written b off n := by
  induction n generalizing off with
  | zero => simp [bufReadRange, Written]
  | succ n ih =>
    have key : Written b off (n + 1) ↔ (bufRead b off).isSome = true ∧ Written b (off + 1) n := by
      constructor
      · intro h
        refine ⟨by simpa using h 0 (by omega), ?_⟩
        intro j hj
        have := h (j + 1) (by omega)
        simpa [Nat.add_assoc, Nat.add_comm 1 j] using this
      · rintro ⟨h0, h1⟩ j hj
        cases j with
        | zero => simpa using h0
        | succ j =>
          have := h1 j (by omega)
          simpa [Nat.add_assoc, Nat.add_comm 1 j] using this
    rw [bufReadRange, key]
    cases hv : bufRead b off with
    | none => simp
    | some v =>
      cases hw : bufReadRange b (off + 1) n with
      | none => simpa using (ih _).1 hw
      | some vs =>
        have : Written b (off + 1) n := by
          by_contra hc
          rw [(ih _).2 hc] at hw
          cases hw
        simp [this]

/-! ## The canonical form -/

theorem bufWf_cons {α : Type} (t : Nat × α) (b : Buf α) :
    bufWf (t :: b) = true ↔ (∀ u ∈ b, t.1 < u.1) ∧ bufWf b = true := by
  obtain ⟨k, v⟩ := t
  simp [bufWf]

theorem bufWf_iff {α : Type} (b : Buf α) : bufWf b = true ↔ b.Pairwise fun t u => t.1 < u.1 := by
  induction b with
  | nil => simp [bufWf]
  | cons t b ih => rw [bufWf_cons, List.pairwise_cons, ih]

theorem mem_bufOf {α : Type} (off : Nat) (vs : List α) (t : Nat × α) (h : t ∈ bufOf off vs) :
    off ≤ t.1 ∧ t.1 < off + vs.length ∧ t.2 ∈ vs := by
  induction vs generalizing off with
  | nil => simp [bufOf] at h
  | cons v vs ih =>
    rw [bufOf, List.mem_cons] at h
    rcases h with h | h
    · subst h; simp
    · have := ih _ h
      simp only [List.length_cons, List.mem_cons]
      exact ⟨by omega, by omega, .inr this.2.2⟩

theorem bufWf_bufOf {α : Type} (off : Nat) (vs : List α) : bufWf (bufOf off vs) = true := by
  induction vs generalizing off with
  | nil => rfl
  | cons v vs ih =>
    rw [bufOf, bufWf_cons]
    exact ⟨fun u hu => by have := mem_bufOf _ _ _ hu; simp only; omega, ih _⟩

/-- What a written range adds and keeps. -/
theorem mem_bufWriteRange {α : Type} (b : Buf α) (off : Nat) (vs : List α) (t : Nat × α)
    (h : t ∈ bufWriteRange b off vs) : t ∈ b ∨ t ∈ bufOf off vs := by
  simp only [bufWriteRange, List.mem_append, List.mem_filter] at h
  tauto

theorem bufWf_writeRange {α : Type} (b : Buf α) (off : Nat) (vs : List α) (h : bufWf b = true) :
    bufWf (bufWriteRange b off vs) = true := by
  rw [bufWf_iff] at h ⊢
  have hv : (bufOf off vs).Pairwise fun t u => t.1 < u.1 := (bufWf_iff _).1 (bufWf_bufOf off vs)
  unfold bufWriteRange
  refine List.pairwise_append.2 ⟨List.pairwise_append.2 ⟨h.filter _, hv, ?_⟩, h.filter _, ?_⟩
  · intro t ht u hu
    have := (List.mem_filter.1 ht).2
    have hu := mem_bufOf _ _ _ hu
    simp only [decide_eq_true_eq] at this
    omega
  · intro t ht u hu
    have hu := (List.mem_filter.1 hu).2
    simp only [decide_eq_true_eq] at hu
    rcases List.mem_append.1 ht with ht | ht
    · have := (List.mem_filter.1 ht).2
      simp only [decide_eq_true_eq] at this
      omega
    · have := mem_bufOf _ _ _ ht
      omega

theorem bufWf_write {α : Type} (b : Buf α) (a : Nat) (v : α) (h : bufWf b = true) :
    bufWf (bufWrite b a v) = true := bufWf_writeRange b a [v] h

theorem bufWf_filter {α : Type} (b : Buf α) (p : Nat × α → Bool) (h : bufWf b = true) :
    bufWf (b.filter p) = true := by
  rw [bufWf_iff] at h ⊢
  exact h.filter _

/-! ## FIC_ACC -/

theorem accWf_nil (zeroed : Bool) : accWf zeroed [] = true := by cases zeroed <;> rfl

theorem accWf_write (zeroed : Bool) (b : Buf Soft) (a : Nat) (v : Soft) (h : accWf zeroed b = true) :
    accWf zeroed (accWrite zeroed b a v) = true := by
  simp only [accWf, Bool.and_eq_true, Bool.or_eq_true, List.all_eq_true, Bool.not_eq_true'] at h ⊢
  unfold accWrite
  split
  · exact ⟨bufWf_filter _ _ h.1, h.2.imp id fun hb t ht => hb t (List.mem_filter.1 ht).1⟩
  · rename_i hc
    refine ⟨bufWf_write _ _ _ h.1, ?_⟩
    rcases h.2 with hz | hb
    · exact .inl hz
    · rcases Bool.eq_false_or_eq_true zeroed with hz | hz
      · refine .inr fun t ht => ?_
        rcases mem_bufWriteRange _ _ _ _ ht with ht | ht
        · exact hb t ht
        · simp only [bufOf, List.mem_singleton] at ht
          subst ht
          simp only [decide_eq_true_eq, ne_eq]
          exact fun e => hc ⟨hz, e⟩
      · exact .inl hz

theorem accRead_write_same (zeroed : Bool) (b : Buf Soft) (a : Nat) (v : Soft) :
    accRead zeroed (accWrite zeroed b a v) a = some v := by
  by_cases h : zeroed = true ∧ v = 0
  · have : bufRead (b.filter fun t => decide (t.1 ≠ a)) a = none :=
      bufRead_filter_drop (fun k => decide (k ≠ a)) b a (by simp)
    rw [accRead, accWrite, if_pos h, this, h.1, h.2]
    rfl
  · rw [accRead, accWrite, if_neg h, bufRead_write_same]

theorem accRead_write_other (zeroed : Bool) (b : Buf Soft) (a k : Nat) (v : Soft) (h : k ≠ a) :
    accRead zeroed (accWrite zeroed b a v) k = accRead zeroed b k := by
  by_cases hc : zeroed = true ∧ v = 0
  · have : bufRead (b.filter fun t => decide (t.1 ≠ a)) k = bufRead b k :=
      bufRead_filter_keep (fun j => decide (j ≠ a)) b k (by simpa using h)
    rw [accRead, accRead, accWrite, if_pos hc, this]
  · rw [accRead, accRead, accWrite, if_neg hc, bufRead_write_other _ _ _ _ h]

end Sys2Proof.Machine
end

