-- ==== Sys2Proof/Laws/Conjugates.lean ====
section
/-! SUPPORT. The bounds `cycBits` and `surdBits` hold (log 4): a real part, or a sum of roots, that is not 0 is at least
so far from it (`cyc_gap`, `surd_gap`), because the product of the conjugates of an algebraic integer is an integer. -/

open Sys2Proof Sys2Proof.Machine Polynomial

namespace Sys2Proof.Laws

/-- A non-zero algebraic integer whose conjugates lie in a finite set and are no larger than `B` is at least
`B ^ -card` in magnitude: the product of its conjugates is a non-zero integer. -/
theorem conj_gap {L : Type} [Field L] [Algebra ℚ L] [Algebra.IsAlgebraic ℚ L] (ι : L →ₐ[ℚ] ℂ) (α : L)
    (hα : IsIntegral ℤ α) (h0 : α ≠ 0) (T : Finset ℂ) (B : ℝ) (hB : 1 ≤ B)
    (hT : ∀ τ : L →ₐ[ℚ] ℂ, τ α ∈ T ∧ ‖τ α‖ ≤ B) : 1 ≤ ‖ι α‖ * B ^ T.card := by
  have hαQ : IsIntegral ℚ α := hα.tower_top
  set g := (minpoly ℚ α).map (algebraMap ℚ ℂ) with hg
  have hmonic : g.Monic := (minpoly.monic hαQ).map _
  have hroots : ∀ β ∈ g.roots.toFinset, ∃ τ : L →ₐ[ℚ] ℂ, τ α = β := fun β hβ => by
    have h := Algebra.IsAlgebraic.range_eval_eq_rootSet_minpoly (F := ℚ) ℂ α
    have : β ∈ (minpoly ℚ α).rootSet ℂ := by rw [rootSet_def]; exact hβ
    rw [← h] at this
    exact this
  have hmem : ι α ∈ g.roots.toFinset := by
    have h := Algebra.IsAlgebraic.range_eval_eq_rootSet_minpoly (F := ℚ) ℂ α
    have : ι α ∈ (minpoly ℚ α).rootSet ℂ := by rw [← h]; exact ⟨ι, rfl⟩
    rw [rootSet_def] at this; exact this
  have hsub : g.roots.toFinset ⊆ T := fun β hβ => by
    obtain ⟨τ, rfl⟩ := hroots β hβ
    exact (hT τ).1
  have hnodup : g.roots.Nodup := nodup_roots ((minpoly.irreducible hαQ).separable.map)
  have hprod : 1 ≤ ‖∏ β ∈ g.roots.toFinset, β‖ := by
    have e : ∏ β ∈ g.roots.toFinset, β = g.roots.prod := by
      rw [Finset.prod_eq_multiset_prod, Multiset.toFinset_val, hnodup.dedup]; simp
    have hs : g.Splits := IsAlgClosed.splits g
    have hc := hs.coeff_zero_eq_prod_roots_of_monic hmonic
    have hn : ‖g.coeff 0‖ = ‖g.roots.prod‖ := by rw [hc]; simp
    rw [e, ← hn, hg, minpoly.isIntegrallyClosed_eq_field_fractions' ℚ hα, coeff_map, coeff_map]
    have hne : (minpoly ℤ α).coeff 0 ≠ 0 := fun hz => by
      apply minpoly.coeff_zero_ne_zero hαQ h0
      rw [minpoly.isIntegrallyClosed_eq_field_fractions' ℚ hα, coeff_map, hz, map_zero]
    have : (1 : ℝ) ≤ |((minpoly ℤ α).coeff 0 : ℝ)| := by exact_mod_cast Int.one_le_abs hne
    simpa using this
  rw [← Finset.mul_prod_erase _ _ hmem, norm_mul, norm_prod] at hprod
  refine hprod.trans (mul_le_mul_of_nonneg_left ?_ (norm_nonneg _))
  calc ∏ β ∈ g.roots.toFinset.erase (ι α), ‖β‖ ≤ ∏ _β ∈ g.roots.toFinset.erase (ι α), B :=
        Finset.prod_le_prod (fun _ _ => norm_nonneg _) fun β hβ => by
          obtain ⟨τ, rfl⟩ := hroots β (Finset.mem_of_mem_erase hβ)
          exact (hT τ).2
    _ = B ^ (g.roots.toFinset.erase (ι α)).card := by simp
    _ ≤ B ^ T.card := pow_le_pow_right₀ hB (Finset.card_le_card ((Finset.erase_subset _ _).trans hsub))

/-! ## The conjugates of a real part -/

/-- The real part of a `Cyc`, with `z` in the place of the root of unity. -/
noncomputable def reAt {K : Type} [Field K] (z : K) (a : Cyc) : K :=
  (a.map fun t => (t.2 : K) / 2 * (z ^ t.1 + z⁻¹ ^ t.1)).sum

theorem reAt_cons {K : Type} [Field K] (z : K) (t : Nat × Rat) (a : Cyc) :
    reAt z (t :: a) = (t.2 : K) / 2 * (z ^ t.1 + z⁻¹ ^ t.1) + reAt z a := rfl

theorem map_reAt {K F : Type} [Field K] [Field F] (τ : K →+* F) (z : K) (a : Cyc) : τ (reAt z a) = reAt (τ z) a := by
  induction a with
  | nil => simp [reAt]
  | cons t a ih => simp [reAt_cons, ih, map_ofNat τ 2]

/-- The root of unity of the order. -/
noncomputable def zeta (M : Nat) : ℂ := Complex.exp (2 * Real.pi * Complex.I / M)

theorem reAt_zeta (M : Nat) (a : Cyc) : reAt (zeta M) a = ((cycVal M a).re : ℂ) := by
  induction a with
  | nil => simp [reAt, cycVal]
  | cons t a ih =>
    rw [reAt_cons, ih]
    simp only [cycVal, List.map_cons, List.sum_cons, Complex.add_re, Complex.ofReal_add]
    congr 1
    have e : zeta M ^ t.1 = Complex.exp (2 * Real.pi * Complex.I * (t.1 : ℂ) / (M : ℂ)) := by
      rw [zeta, ← Complex.exp_nat_mul]; congr 1; ring
    have e' : (zeta M)⁻¹ ^ t.1 = (starRingEnd ℂ) (zeta M ^ t.1) := by
      rw [inv_pow, e, ← Complex.exp_neg, ← Complex.exp_conj]
      congr 1
      simp [Complex.conj_I, Complex.conj_ofNat]; ring
    rw [e', Complex.add_conj, ← Complex.ofReal_ratCast, Complex.re_ofReal_mul, e]
    push_cast; ring

theorem dvd_cycDen (a : Cyc) : ∀ t ∈ a, t.2.den ∣ cycDen a := by
  induction a with
  | nil => simp
  | cons u a ih =>
    intro t ht
    rcases List.mem_cons.1 ht with rfl | h
    · exact Nat.dvd_lcm_left _ _
    · exact (ih t h).trans (Nat.dvd_lcm_right _ _)

theorem cycDen_pos (a : Cyc) : 0 < cycDen a := by
  induction a with
  | nil => simp [cycDen]
  | cons u a ih => exact Nat.lcm_pos u.2.pos ih

/-- A multiple of the denominator clears a fraction. -/
theorem clear_den {K : Type} [Field K] [CharZero K] (q : Rat) (d : Nat) (h : q.den ∣ d) :
    (d : K) * (q : K) = ((q.num * (d / q.den : Nat) : Int) : K) := by
  obtain ⟨k, rfl⟩ := h
  have hd : (q.den : K) ≠ 0 := by exact_mod_cast q.den_ne_zero
  rw [Nat.mul_div_cancel_left _ q.pos]
  rw [Rat.cast_def]
  push_cast; field_simp

theorem reAt_integral {K : Type} [Field K] [CharZero K] (z : K) (M : Nat) (hM : 0 < M) (hz : z ^ M = 1) (d : Nat)
    (a : Cyc) (hd : ∀ t ∈ a, t.2.den ∣ d) : IsIntegral ℤ ((2 * d : K) * reAt z a) := by
  have hi : IsIntegral ℤ z := IsIntegral.of_pow hM (by rw [hz]; exact isIntegral_one)
  have hi' : IsIntegral ℤ z⁻¹ := IsIntegral.of_pow hM (by rw [inv_pow, hz, inv_one]; exact isIntegral_one)
  induction a with
  | nil => simp [reAt]; exact isIntegral_zero
  | cons t a ih =>
    have e : (2 * d : K) * reAt z (t :: a) =
        ((t.2.num * (d / t.2.den : Nat) : Int) : K) * (z ^ t.1 + z⁻¹ ^ t.1) + (2 * d : K) * reAt z a := by
      rw [reAt_cons, ← clear_den t.2 d (hd t (by simp))]; ring
    rw [e]
    exact ((isIntegral_algebraMap (R := ℤ) (A := K) (x := _)).mul ((hi.pow _).add (hi'.pow _))).add
      (ih fun u hu => hd u (List.mem_cons_of_mem _ hu))

/-- The numerators of a sum over the denominator `d`. -/
def cycSizeOver (d : Nat) (a : Cyc) : Nat := a.foldr (fun t s => t.2.num.natAbs * (d / t.2.den) + s) 0

theorem cycSize_eq (a : Cyc) : cycSize a = cycSizeOver (cycDen a) a + 1 := by
  unfold cycSize cycSizeOver
  generalize cycDen a = d
  induction a with
  | nil => rfl
  | cons t a ih => simp only [List.foldr_cons, ih]; ring

theorem reAt_norm (z : ℂ) (M : Nat) (hM : 0 < M) (hz : z ^ M = 1) (d : Nat) (a : Cyc) (hd : ∀ t ∈ a, t.2.den ∣ d) :
    ‖(d : ℂ) * reAt z a‖ ≤ cycSizeOver d a := by
  have hn : ‖z‖ = 1 := Complex.norm_eq_one_of_pow_eq_one hz hM.ne'
  induction a with
  | nil => simp [reAt, cycSizeOver]
  | cons t a ih =>
    have e : (d : ℂ) * reAt z (t :: a) =
        ((t.2.num * (d / t.2.den : Nat) : Int) : ℂ) * ((z ^ t.1 + z⁻¹ ^ t.1) / 2) + (d : ℂ) * reAt z a := by
      rw [reAt_cons, ← clear_den t.2 d (hd t (by simp))]; ring
    have h2 : ‖(z ^ t.1 + z⁻¹ ^ t.1) / 2‖ ≤ 1 := by
      rw [norm_div]
      have := norm_add_le (z ^ t.1) (z⁻¹ ^ t.1)
      simp only [norm_pow, norm_inv, hn, inv_one, one_pow] at this
      simp only [Complex.norm_ofNat]; linarith
    have ih := ih fun u hu => hd u (List.mem_cons_of_mem _ hu)
    rw [e]
    refine (norm_add_le _ _).trans ?_
    rw [norm_mul, Complex.norm_intCast]
    have h3 : |((t.2.num * (d / t.2.den : Nat) : Int) : ℝ)| = ((t.2.num.natAbs * (d / t.2.den) : Nat) : ℝ) := by
      rw [Int.cast_mul, abs_mul, Int.cast_natCast, Nat.abs_cast, Nat.cast_mul, Nat.cast_natAbs, Int.cast_abs]
    rw [h3]
    have h4 : ((t.2.num.natAbs * (d / t.2.den) : Nat) : ℝ) * ‖(z ^ t.1 + z⁻¹ ^ t.1) / 2‖ ≤
        ((t.2.num.natAbs * (d / t.2.den) : Nat) : ℝ) * 1 :=
      mul_le_mul_of_nonneg_left h2 (by positivity)
    simp only [cycSizeOver, List.foldr_cons] at *
    push_cast at *; linarith

/-- The algebraic numbers. -/
abbrev Alg : Type := algebraicClosure ℚ ℂ

theorem exists_alg (x : ℂ) (h : IsAlgebraic ℚ x) : ∃ y : Alg, (algebraicClosure ℚ ℂ).val y = x :=
  ⟨⟨x, mem_algebraicClosure_iff.2 h⟩, rfl⟩

theorem zeta_pow (M : Nat) (hM : 0 < M) : zeta M ^ M = 1 := (Complex.isPrimitiveRoot_exp M hM.ne').pow_eq_one

theorem root_eq (M : Nat) (hM : 0 < M) (z : ℂ) (hz : z ^ M = 1) : ∃ k < M, zeta M ^ k = z := by
  have : NeZero M := ⟨hM.ne'⟩
  exact (Complex.isPrimitiveRoot_exp M hM.ne').eq_pow_of_pow_eq_one hz

theorem exists_zeta (M : Nat) (hM : 0 < M) : ∃ y : Alg, (algebraicClosure ℚ ℂ).val y = zeta M ∧ y ^ M = 1 := by
  obtain ⟨y, hy⟩ := exists_alg (zeta M) (IsAlgebraic.of_pow hM (by rw [zeta_pow M hM]; exact isAlgebraic_one))
  have hy' : (y : ℂ) = zeta M := hy
  exact ⟨y, hy, Subtype.ext (by push_cast; rw [hy', zeta_pow M hM])⟩

/-- A real part that is not 0 is at least `2^-cycBits` in magnitude. -/
theorem cyc_gap (M : Nat) (hM : 0 < M) (a : Cyc) (h : (cycVal M a).re ≠ 0) : 1 ≤ |(cycVal M a).re| * 2 ^ cycBits M a := by
  obtain ⟨y, hy, hyM⟩ := exists_zeta M hM
  have hv : (algebraicClosure ℚ ℂ).val ((2 * cycDen a : Alg) * reAt y a) = ((2 * cycDen a : ℝ) * (cycVal M a).re : ℝ) := by
    have := map_reAt (algebraicClosure ℚ ℂ).val.toRingHom y a
    simp only [AlgHom.toRingHom_eq_coe, RingHom.coe_coe] at this
    rw [map_mul, map_mul, this, hy, reAt_zeta, map_ofNat, map_natCast]; push_cast; rfl
  have hd : (0 : ℝ) < cycDen a := by exact_mod_cast cycDen_pos a
  have g := conj_gap (algebraicClosure ℚ ℂ).val ((2 * cycDen a : Alg) * reAt y a)
    (reAt_integral y M hM hyM _ a (dvd_cycDen a))
    (fun h0 => by
      rw [h0, map_zero] at hv
      have : (2 * cycDen a : ℝ) * (cycVal M a).re = 0 := by exact_mod_cast hv.symm
      rcases mul_eq_zero.1 this with h1 | h1
      · linarith
      · exact h h1)
    ((Finset.range M).image fun k => (2 * cycDen a : ℂ) * reAt (zeta M ^ k) a) (2 * cycSize a : Nat)
    (by exact_mod_cast (by rw [cycSize_eq]; omega : 1 ≤ 2 * cycSize a))
    (fun τ => by
      have hz : (τ y) ^ M = 1 := by rw [← map_pow, hyM, map_one]
      have e : τ ((2 * cycDen a : Alg) * reAt y a) = (2 * cycDen a : ℂ) * reAt (τ y) a := by
        have := map_reAt τ.toRingHom y a
        simp only [AlgHom.toRingHom_eq_coe, RingHom.coe_coe] at this
        rw [map_mul, map_mul, this, map_ofNat, map_natCast]
      rw [e]
      constructor
      · obtain ⟨k, hk, hk'⟩ := root_eq M hM _ hz
        rw [← hk']
        exact Finset.mem_image_of_mem (fun k => (2 * cycDen a : ℂ) * reAt (zeta M ^ k) a) (Finset.mem_range.2 hk)
      · have := reAt_norm (τ y) M hM hz (cycDen a) a (dvd_cycDen a)
        rw [mul_assoc, norm_mul, cycSize_eq]
        simp only [Complex.norm_ofNat]; push_cast; linarith)
  rw [hv, Complex.norm_real, Real.norm_eq_abs, abs_mul, abs_of_pos (by positivity : (0 : ℝ) < 2 * cycDen a)] at g
  have hcard : (((Finset.range M).image fun k => (2 * cycDen a : ℂ) * reAt (zeta M ^ k) a)).card ≤ M :=
    Finset.card_image_le.trans_eq (Finset.card_range M)
  have hB : (1 : ℝ) ≤ ((2 * cycSize a : Nat) : ℝ) := by exact_mod_cast (by rw [cycSize_eq]; omega : 1 ≤ 2 * cycSize a)
  have g2 := pow_le_pow_right₀ hB hcard
  have g3 : ((2 * cycSize a : Nat) : ℝ) ^ M ≤ 2 ^ (M * (Nat.log2 (2 * cycSize a) + 1)) := by
    rw [mul_comm M, pow_mul]
    exact pow_le_pow_left₀ (by positivity) (by exact_mod_cast Nat.lt_log2_self.le) _
  have g4 : (2 * cycDen a : ℝ) ≤ 2 ^ (Nat.log2 (2 * cycDen a) + 1) := by exact_mod_cast Nat.lt_log2_self.le
  calc (1 : ℝ) ≤ _ := g
    _ ≤ 2 ^ (Nat.log2 (2 * cycDen a) + 1) * |(cycVal M a).re| * 2 ^ (M * (Nat.log2 (2 * cycSize a) + 1)) :=
        mul_le_mul (mul_le_mul_of_nonneg_right g4 (abs_nonneg _)) (g2.trans g3) (by positivity) (by positivity)
    _ = _ := by rw [cycBits, pow_add]; ring

/-! ## The conjugates of a sum of roots -/

/-- `√a` among the algebraic numbers. -/
theorem exists_sqrt (M : Nat) (hM : 0 < M) (a : Cyc) :
    ∃ s : Alg, (algebraicClosure ℚ ℂ).val s = (Real.sqrt (cycVal M a).re : ℂ) := by
  apply exists_alg
  by_cases h : 0 ≤ (cycVal M a).re
  · refine IsAlgebraic.of_pow (n := 2) (by norm_num) ?_
    have e : ((Real.sqrt (cycVal M a).re : ℝ) : ℂ) ^ 2 = ((cycVal M a).re : ℂ) := by
      rw [← Complex.ofReal_pow, Real.sq_sqrt h]
    obtain ⟨y, hy, -⟩ := exists_zeta M hM
    have := map_reAt (algebraicClosure ℚ ℂ).val.toRingHom y a
    simp only [AlgHom.toRingHom_eq_coe, RingHom.coe_coe] at this
    rw [e, ← reAt_zeta, ← hy, ← this]
    exact mem_algebraicClosure_iff.1 (reAt y a).2
  · rw [Real.sqrt_eq_zero_of_nonpos (not_le.1 h).le]
    exact isAlgebraic_zero

/-- A square root, of a radicand that is not negative. -/
noncomputable def rootAt (M : Nat) (z : ℂ) (a : Cyc) : ℂ :=
  if 0 ≤ (cycVal M a).re then reAt z a ^ ((2 : ℂ)⁻¹) else 0

/-- The values that a sum of roots can take with `z` in the place of the root of unity, times `c`. -/
noncomputable def rootSums (M : Nat) (c : ℂ) (z : ℂ) : Surds → Finset ℂ
  | [] => {0}
  | (q, a) :: x => ((rootSums M c z x).image fun v => c * q * rootAt M z a + v) ∪
      (rootSums M c z x).image fun v => c * q * -rootAt M z a + v

theorem rootSums_card (M : Nat) (c z : ℂ) (x : Surds) : (rootSums M c z x).card ≤ 2 ^ x.length := by
  induction x with
  | nil => simp [rootSums]
  | cons t x ih =>
    refine (Finset.card_union_le _ _).trans ?_
    have := Finset.card_image_le (s := rootSums M c z x) (f := fun v => c * t.1 * rootAt M z t.2 + v)
    have := Finset.card_image_le (s := rootSums M c z x) (f := fun v => c * t.1 * -rootAt M z t.2 + v)
    rw [List.length_cons, pow_succ]; omega

/-- A sum of roots, with given roots. -/
def sumAt {K : Type} [Field K] (s : Cyc → K) (x : Surds) : K := (x.map fun t => (t.1 : K) * s t.2).sum

theorem sumAt_cons {K : Type} [Field K] (s : Cyc → K) (t : Rat × Cyc) (x : Surds) :
    sumAt s (t :: x) = (t.1 : K) * s t.2 + sumAt s x := rfl

theorem map_sumAt {K F : Type} [Field K] [Field F] (τ : K →+* F) (s : Cyc → K) (x : Surds) :
    τ (sumAt s x) = sumAt (fun a => τ (s a)) x := by
  induction x with
  | nil => simp [sumAt]
  | cons t x ih => simp [sumAt_cons, ih]

/-- What a conjugate of `√a` is: a root of the conjugate of `a`. -/
def IsRootAt (M : Nat) (z : ℂ) (s : Cyc → ℂ) : Prop :=
  ∀ a, s a ^ 2 = if 0 ≤ (cycVal M a).re then reAt z a else 0

theorem rootAt_cases {M : Nat} {z : ℂ} {s : Cyc → ℂ} (h : IsRootAt M z s) (a : Cyc) :
    s a = rootAt M z a ∨ s a = -rootAt M z a := by
  have h := h a
  unfold rootAt
  split at h
  · next hp => rw [if_pos hp, ← sq_eq_sq_iff_eq_or_eq_neg, h]; exact (Complex.cpow_ofNat_inv_pow _ 2).symm
  · next hp => rw [if_neg hp]; left; exact pow_eq_zero_iff (two_ne_zero) |>.1 h

theorem sumAt_mem {M : Nat} {z : ℂ} {s : Cyc → ℂ} (h : IsRootAt M z s) (c : ℂ) (x : Surds) :
    c * sumAt s x ∈ rootSums M c z x := by
  induction x with
  | nil => simp [sumAt, rootSums]
  | cons t x ih =>
    rw [sumAt_cons, rootSums, Finset.mem_union, Finset.mem_image, Finset.mem_image]
    rcases rootAt_cases h t.2 with e | e
    · left; exact ⟨_, ih, by rw [e]; ring⟩
    · right; exact ⟨_, ih, by rw [e]; ring⟩

theorem dvd_surdDen (x : Surds) : ∀ t ∈ x, t.1.den * cycDen t.2 ∣ surdDen x := by
  induction x with
  | nil => simp
  | cons u x ih =>
    intro t ht
    rcases List.mem_cons.1 ht with rfl | h
    · exact Nat.dvd_lcm_left _ _
    · exact (ih t h).trans (Nat.dvd_lcm_right _ _)

theorem surdDen_pos (x : Surds) : 0 < surdDen x := by
  induction x with
  | nil => simp [surdDen]
  | cons u x ih => exact Nat.lcm_pos (Nat.mul_pos u.1.pos (cycDen_pos _)) ih

/-- The size of a sum of roots over the denominator `D`. -/
def surdSizeOver (D : Nat) (x : Surds) : Nat := x.foldr (fun t s => t.1.num.natAbs * D * (1 + cycSize t.2) + s) 0

theorem surdSize_eq (x : Surds) : surdSize x = surdSizeOver (surdDen x) x + 1 := by
  unfold surdSize surdSizeOver
  generalize surdDen x = d
  induction x with
  | nil => rfl
  | cons t x ih => simp only [List.foldr_cons, ih]; ring

theorem sumAt_integral {K : Type} [Field K] [CharZero K] (z : K) (M : Nat) (hM : 0 < M) (hz : z ^ M = 1) (D : Nat)
    (s : Cyc → K) (hs : ∀ a, s a ^ 2 = reAt z a ∨ s a = 0) (x : Surds) (hd : ∀ t ∈ x, t.1.den * cycDen t.2 ∣ D) :
    IsIntegral ℤ ((2 * D : K) * sumAt s x) := by
  induction x with
  | nil => simp [sumAt]; exact isIntegral_zero
  | cons t x ih =>
    obtain ⟨k, hk⟩ := hd t (by simp)
    have hr : IsIntegral ℤ ((2 * cycDen t.2 : K) * s t.2) := by
      rcases hs t.2 with h | h
      · refine IsIntegral.of_pow (n := 2) (by norm_num) ?_
        have e : ((2 * cycDen t.2 : K) * s t.2) ^ 2 =
            ((2 * cycDen t.2 : Nat) : K) * ((2 * cycDen t.2 : K) * reAt z t.2) := by
          rw [mul_pow, h]; push_cast; ring
        rw [e]
        have hi := isIntegral_algebraMap (R := ℤ) (A := K) (x := ((2 * cycDen t.2 : Nat) : ℤ))
        rw [eq_intCast, Int.cast_natCast] at hi
        exact hi.mul (reAt_integral z M hM hz _ _ (dvd_cycDen _))
      · rw [h, mul_zero]; exact isIntegral_zero
    have e : (2 * D : K) * sumAt s (t :: x) =
        ((t.1.num * k : Int) : K) * ((2 * cycDen t.2 : K) * s t.2) + (2 * D : K) * sumAt s x := by
      have hq : (t.1.den : K) ≠ 0 := by exact_mod_cast t.1.den_ne_zero
      rw [sumAt_cons, hk, Rat.cast_def]
      push_cast; field_simp
    rw [e]
    exact ((isIntegral_algebraMap (R := ℤ) (A := K) (x :=
        _)).mul hr).add (ih fun u hu => hd u (List.mem_cons_of_mem _ hu))

theorem sumAt_norm (z : ℂ) (M : Nat) (hM : 0 < M) (hz : z ^ M = 1) (D : Nat) (s : Cyc → ℂ) (hs : IsRootAt M z s)
    (x : Surds) : ‖(D : ℂ) * sumAt s x‖ ≤ surdSizeOver D x := by
  induction x with
  | nil => simp [sumAt, surdSizeOver]
  | cons t x ih =>
    have hr : ‖s t.2‖ ≤ 1 + cycSize t.2 := by
      have h1 : ‖s t.2‖ ^ 2 ≤ cycSize t.2 := by
        rw [← norm_pow, hs t.2]
        split
        · have hn := reAt_norm z M hM hz (cycDen t.2) t.2 (dvd_cycDen _)
          have hd : (1 : ℝ) ≤ cycDen t.2 := by exact_mod_cast cycDen_pos t.2
          rw [norm_mul, Complex.norm_natCast] at hn
          rw [cycSize_eq]; push_cast
          nlinarith [norm_nonneg (reAt z t.2)]
        · simp
      nlinarith [norm_nonneg (s t.2)]
    have hq : ‖((t.1 : ℚ) : ℂ)‖ ≤ t.1.num.natAbs := by
      have hd : (1 : ℝ) ≤ t.1.den := by exact_mod_cast t.1.pos
      rw [Rat.cast_def, norm_div, Complex.norm_intCast, Complex.norm_natCast, Nat.cast_natAbs, Int.cast_abs]
      exact div_le_self (abs_nonneg _) hd
    have e : (D : ℂ) * sumAt s (t :: x) = (t.1 : ℂ) * D * s t.2 + (D : ℂ) * sumAt s x := by rw [sumAt_cons]; ring
    rw [e]
    refine (norm_add_le _ _).trans ?_
    rw [norm_mul, norm_mul, Complex.norm_natCast]
    have h3 : ‖((t.1 : ℚ) : ℂ)‖ * D * ‖s t.2‖ ≤ t.1.num.natAbs * D * (1 + cycSize t.2) :=
      mul_le_mul (mul_le_mul_of_nonneg_right hq (by positivity)) hr (norm_nonneg _) (by positivity)
    simp only [surdSizeOver, List.foldr_cons] at *
    push_cast at *; linarith

/-- A sum of roots that is not 0 is at least `2^-surdBits` in magnitude. -/
theorem surd_gap_in {L : Type} [Field L] [CharZero L] [Algebra ℚ L] [Algebra.IsAlgebraic ℚ L] (ι : L →ₐ[ℚ] ℂ) (M : Nat)
    (hM : 0 < M) (y : L) (hy : ι y = zeta M) (hyM : y ^ M = 1) (s : Cyc → L)
    (hs : ∀ a, ι (s a) = (Real.sqrt (cycVal M a).re : ℂ)) (x : Surds) (h : surdVal M x ≠ 0) :
    1 ≤ |surdVal M x| * 2 ^ surdBits M x := by
  have hmap : ∀ (τ : L →ₐ[ℚ] ℂ) (a : Cyc), τ (reAt y a) = reAt (τ y) a := fun τ a => by
    have := map_reAt τ.toRingHom y a
    simpa only [AlgHom.toRingHom_eq_coe, RingHom.coe_coe] using this
  have hsq : ∀ a, s a ^ 2 = if 0 ≤ (cycVal M a).re then reAt y a else 0 := fun a => by
    apply ι.toRingHom.injective
    simp only [AlgHom.toRingHom_eq_coe, RingHom.coe_coe]
    rw [map_pow, hs]
    split
    · next hp => rw [hmap, hy, reAt_zeta, ← Complex.ofReal_pow, Real.sq_sqrt hp]
    · next hp => rw [Real.sqrt_eq_zero_of_nonpos (not_le.1 hp).le]; simp
  have hroot : ∀ τ : L →ₐ[ℚ] ℂ, IsRootAt M (τ y) fun a => τ (s a) := fun τ a => by
    dsimp only
    rw [← map_pow, hsq]
    split
    · rw [hmap]
    · rw [map_zero]
  have hsum : ∀ τ : L →ₐ[ℚ] ℂ, τ ((2 * surdDen x : L) * sumAt s x) = (2 * surdDen x : ℂ) * sumAt (fun a => τ (s a)) x :=
    fun τ => by
      have := map_sumAt τ.toRingHom s x
      simp only [AlgHom.toRingHom_eq_coe, RingHom.coe_coe] at this
      rw [map_mul, map_mul, this, map_ofNat, map_natCast]
  have hv : ι ((2 * surdDen x : L) * sumAt s x) = ((2 * surdDen x : ℝ) * surdVal M x : ℝ) := by
    rw [hsum]
    have : sumAt (fun a => ι (s a)) x = (surdVal M x : ℂ) := by
      simp only [hs]
      clear h hsum
      induction x with
      | nil => simp [sumAt, surdVal]
      | cons t x ih =>
        rw [sumAt_cons, ih]
        simp [surdVal]
    rw [this]; push_cast; rfl
  have hd : (0 : ℝ) < surdDen x := by exact_mod_cast surdDen_pos x
  set T := (Finset.range M).biUnion fun k => rootSums M (2 * surdDen x) (zeta M ^ k) x with hT
  have hcard : T.card ≤ M * 2 ^ x.length := by
    refine Finset.card_biUnion_le.trans ((Finset.sum_le_sum fun k _ => rootSums_card M _ _ x).trans ?_)
    simp
  have hB : (1 : ℝ) ≤ ((2 * surdSize x : Nat) : ℝ) := by exact_mod_cast (by rw [surdSize_eq]; omega : 1 ≤ 2 * surdSize x)
  have g := conj_gap ι ((2 * surdDen x : L) * sumAt s x)
    (sumAt_integral y M hM hyM _ s (fun a => by
      have := hsq a
      split at this
      · exact .inl this
      · exact .inr (pow_eq_zero_iff two_ne_zero |>.1 this)) x (dvd_surdDen x))
    (fun h0 => by
      rw [h0, map_zero] at hv
      have : (2 * surdDen x : ℝ) * surdVal M x = 0 := by exact_mod_cast hv.symm
      rcases mul_eq_zero.1 this with h1 | h1
      · linarith
      · exact h h1)
    T (2 * surdSize x : Nat) hB
    (fun τ => by
      have hz : (τ y) ^ M = 1 := by rw [← map_pow, hyM, map_one]
      rw [hsum]
      constructor
      · obtain ⟨k, hk, hk'⟩ := root_eq M hM _ hz
        rw [hT, Finset.mem_biUnion]
        refine ⟨k, Finset.mem_range.2 hk, ?_⟩
        rw [hk']
        exact sumAt_mem (hroot τ) _ x
      · have := sumAt_norm (τ y) M hM hz (surdDen x) _ (hroot τ) x
        rw [mul_assoc, norm_mul, surdSize_eq]
        simp only [Complex.norm_ofNat]; push_cast; linarith)
  rw [hv, Complex.norm_real, Real.norm_eq_abs, abs_mul, abs_of_pos (by positivity : (0 : ℝ) < 2 * surdDen x)] at g
  have g2 := pow_le_pow_right₀ hB hcard
  have g3 : ((2 * surdSize x : Nat) : ℝ) ^ (M * 2 ^ x.length) ≤ 2 ^ (M * 2 ^ x.length * (Nat.log2 (2 * surdSize x) +
      1)) := by
    rw [mul_comm (M * 2 ^ x.length), pow_mul 2]
    exact pow_le_pow_left₀ (by positivity) (by exact_mod_cast Nat.lt_log2_self.le) _
  have g4 : (2 * surdDen x : ℝ) ≤ 2 ^ (Nat.log2 (2 * surdDen x) + 1) := by exact_mod_cast Nat.lt_log2_self.le
  calc (1 : ℝ) ≤ _ := g
    _ ≤ 2 ^ (Nat.log2 (2 * surdDen x) + 1) * |surdVal M x| * 2 ^ (M * 2 ^ x.length * (Nat.log2 (2 * surdSize x) + 1)) :=
        mul_le_mul (mul_le_mul_of_nonneg_right g4 (abs_nonneg _)) (g2.trans g3) (by positivity) (by positivity)
    _ = _ := by rw [surdBits, pow_add]; ring

/-- The same, with the algebraic numbers in hand. -/
theorem surd_gap (M : Nat) (hM : 0 < M) (x : Surds) (h : surdVal M x ≠ 0) : 1 ≤ |surdVal M x| * 2 ^ surdBits M x := by
  obtain ⟨y, hy, hyM⟩ := exists_zeta M hM
  choose s hs using exists_sqrt M hM
  exact surd_gap_in (algebraicClosure ℚ ℂ).val M hM y hy hyM s hs x h

end Sys2Proof.Laws
end

