-- ==== Sys2Proof/Laws/Enclosures.lean ====
section
/-! SUPPORT. The enclosures of `Machine/Approx.lean` and `Machine/Roots.lean` hold the numbers they are made for, and
are narrow: `cycReBounds_enc`, `cycReBounds_width`, `surdBounds_enc`, `surdBounds_width`. A search over them finds the sign
of a number that is further from 0 than its bound: `refine_gap`. -/

open Sys2Proof Sys2Proof.Machine

namespace Sys2Proof.Laws

/-! ## divisions -/

/-- `r` encloses `x` at the scale `2^p`. -/
def Enc (p : Nat) (x : ℝ) (r : Int × Int) : Prop := (r.1 : ℝ) ≤ x * 2 ^ p ∧ x * 2 ^ p ≤ (r.2 : ℝ)

/-- The same for natural bounds. -/
def EncN (p : Nat) (x : ℝ) (r : Nat × Nat) : Prop := (r.1 : ℝ) ≤ x * 2 ^ p ∧ x * 2 ^ p ≤ (r.2 : ℝ)

theorem le_ceilDiv (a b : Nat) (hb : 0 < b) : (a : ℝ) / b ≤ (ceilDiv a b : ℝ) := by
  rw [div_le_iff₀ (by positivity)]
  have := Nat.div_add_mod (a + (b - 1)) b
  have h2 := Nat.mod_lt (a + (b - 1)) hb
  have : a ≤ ceilDiv a b * b := by
    unfold ceilDiv; rw [Nat.mul_comm]; omega
  exact_mod_cast this

theorem ceilDiv_le (a b : Nat) (hb : 0 < b) : (ceilDiv a b : ℝ) ≤ (a : ℝ) / b + 1 := by
  have h : (ceilDiv a b : ℝ) * b ≤ a + b := by
    have : ceilDiv a b * b ≤ a + b := by
      unfold ceilDiv; have := Nat.div_mul_le_self (a + (b - 1)) b; omega
    exact_mod_cast this
  have hb' : (0 : ℝ) < b := by positivity
  rw [← sub_le_iff_le_add, le_div_iff₀ hb']; linarith

theorem floorDiv_le (a b : Nat) : ((a / b : Nat) : ℝ) ≤ (a : ℝ) / b := Nat.cast_div_le

theorem le_floorDiv (a b : Nat) (hb : 0 < b) : (a : ℝ) / b - 1 ≤ ((a / b : Nat) : ℝ) := by
  have hb' : (0 : ℝ) < b := by positivity
  rw [sub_le_iff_le_add, div_le_iff₀ hb']
  have h : a ≤ (a / b + 1) * b := by
    have := Nat.div_add_mod a b; have h2 := Nat.mod_lt a hb; rw [Nat.add_mul, Nat.mul_comm]; omega
  exact_mod_cast h

theorem sub_le_natSub (a b : Nat) : (a : ℝ) - b ≤ ((a - b : Nat) : ℝ) := by
  rw [sub_le_iff_le_add]; exact_mod_cast (by omega : a ≤ a - b + b)

theorem natSub_le {a b : Nat} {x : ℝ} (hx : 0 ≤ x) (h : (a : ℝ) - b ≤ x) : ((a - b : Nat) : ℝ) ≤ x := by
  rcases Nat.le_total b a with hab | hab
  · rwa [Nat.cast_sub hab]
  · simpa [Nat.sub_eq_zero_of_le hab] using hx

/-! ## arctan -/

/-- The tail of the series of `arctan (1/m)`. -/
noncomputable def atanTail (m n : Nat) : ℝ := ∫ t in (0 : ℝ)..1, t ^ (2 * n) / (1 + t ^ 2 / (m : ℝ) ^ 2)

theorem atanTail_integrable (m n : Nat) :
    IntervalIntegrable (fun t : ℝ => t ^ (2 * n) / (1 + t ^ 2 / (m : ℝ) ^ 2)) MeasureTheory.volume 0 1 := by
  apply Continuous.intervalIntegrable
  refine Continuous.div (by fun_prop) (by fun_prop) fun t => ?_
  positivity

theorem atanTail_bounds (m n : Nat) : 0 ≤ atanTail m n ∧ atanTail m n ≤ 1 := by
  refine ⟨intervalIntegral.integral_nonneg zero_le_one fun t ht => div_nonneg (pow_nonneg ht.1 _) (by positivity), ?_⟩
  have h : atanTail m n ≤ ∫ t in (0 : ℝ)..1, (1 : ℝ) := by
    refine intervalIntegral.integral_mono_on zero_le_one (atanTail_integrable m n) (by simp) fun t ht => ?_
    rw [div_le_one (by positivity)]
    have := pow_le_one₀ (n := 2 * n) ht.1 ht.2
    have : (0 : ℝ) ≤ t ^ 2 / (m : ℝ) ^ 2 := by positivity
    linarith
  simpa using h

theorem atanTail_step (m n : Nat) :
    atanTail m n = 1 / (2 * n + 1) - atanTail m (n + 1) / (m : ℝ) ^ 2 := by
  have h : ∫ t in (0 : ℝ)..1, (t ^ (2 * n) / (1 + t ^ 2 / (m : ℝ) ^ 2) + (t ^ (2 * (n + 1)) / (1 +
      t ^ 2 / (m : ℝ) ^ 2)) / (m : ℝ) ^ 2) = ∫ t in (0 : ℝ)..1, t ^ (2 * n) := by
    refine intervalIntegral.integral_congr fun t _ => ?_
    have : (0 : ℝ) < 1 + t ^ 2 / (m : ℝ) ^ 2 := by positivity
    rw [show 2 * (n + 1) = 2 * n + 2 by ring, pow_add]
    field_simp
  rw [intervalIntegral.integral_add (atanTail_integrable m n) ((atanTail_integrable m (n + 1)).div_const _),
    intervalIntegral.integral_div] at h
  simp only [integral_pow] at h
  unfold atanTail
  push_cast at h
  rw [eq_sub_iff_add_eq, h]; simp

theorem atanTail_zero (m : Nat) (hm : 0 < m) : atanTail m 0 = m * Real.arctan (1 / m) := by
  have hm' : (m : ℝ) ≠ 0 := by positivity
  have := intervalIntegral.integral_comp_div (a := (0 : ℝ)) (b := 1) (fun x : ℝ => (1 + x ^ 2)⁻¹) hm'
  rw [integral_inv_one_add_sq] at this
  unfold atanTail
  simpa [div_pow, one_div] using this

theorem atanSeries_enc (p m : Nat) (hm : 0 < m) (depth n : Nat) : EncN p (atanTail m n) (atanSeries p m depth n) := by
  induction depth generalizing n with
  | zero =>
    have := atanTail_bounds m n
    constructor <;> simp [atanSeries]
    · exact this.1
    · exact this.2
  | succ d ih =>
    obtain ⟨h1, h2⟩ := ih (n + 1)
    have hb := atanTail_bounds m n
    have e : atanTail m n * 2 ^ p = 2 ^ p / ((2 * n + 1 : Nat) : ℝ) - atanTail m (n +
        1) * 2 ^ p / ((m * m : Nat) : ℝ) := by
      rw [atanTail_step]; push_cast; ring
    have hmm : (0 : ℝ) < ((m * m : Nat) : ℝ) := by positivity
    constructor <;> simp only [atanSeries]
    · refine natSub_le (by have := hb.1; positivity) ?_
      have a := floorDiv_le (2 ^ p) (2 * n + 1)
      have b := le_ceilDiv (atanSeries p m d (n + 1)).2 (m * m) (by positivity)
      have c := div_le_div_of_nonneg_right h2 hmm.le
      rw [e]; push_cast at *; linarith
    · refine le_trans ?_ (sub_le_natSub _ _)
      have a := le_ceilDiv (2 ^ p) (2 * n + 1) (by positivity)
      have b := floorDiv_le (atanSeries p m d (n + 1)).1 (m * m)
      have c := div_le_div_of_nonneg_right h1 hmm.le
      rw [e]; push_cast at *; linarith


theorem natSub_width {a b c d : Nat} {w : ℝ} (hw : 0 ≤ w) (h : ((a : ℝ) - b) - ((c : ℝ) - d) ≤ w) :
    ((a - b : Nat) : ℝ) - ((c - d : Nat) : ℝ) ≤ w := by
  rcases Nat.le_total b a with hab | hab
  · rw [Nat.cast_sub hab]; have := sub_le_natSub c d; linarith
  · rw [Nat.sub_eq_zero_of_le hab]; have : (0 : ℝ) ≤ ((c - d : Nat) : ℝ) := by positivity
    push_cast; linarith

theorem atanSeries_width (p m : Nat) (hm : 5 ≤ m) (depth n : Nat) :
    ((atanSeries p m depth n).2 : ℝ) - (atanSeries p m depth n).1 ≤ 2 ^ p / 25 ^ depth + 5 := by
  induction depth generalizing n with
  | zero => simp [atanSeries]
  | succ d ih =>
    have ih := ih (n + 1)
    have hmm : (25 : ℝ) ≤ ((m * m : Nat) : ℝ) := by exact_mod_cast Nat.mul_le_mul hm hm
    simp only [atanSeries]
    refine natSub_width (by positivity) ?_
    have a := ceilDiv_le (2 ^ p) (2 * n + 1) (by positivity)
    have b := le_floorDiv (2 ^ p) (2 * n + 1) (by positivity)
    have c := ceilDiv_le (atanSeries p m d (n + 1)).2 (m * m) (by positivity)
    have e := le_floorDiv (atanSeries p m d (n + 1)).1 (m * m) (by positivity)
    have f : ((atanSeries p m d (n + 1)).2 : ℝ) / ((m * m : Nat) : ℝ) - (atanSeries p m d (n +
        1)).1 / ((m * m : Nat) : ℝ)
        ≤ (2 ^ p / 25 ^ d + 5) / 25 := by
      rw [← sub_div]
      exact (div_le_div_of_nonneg_right ih (by positivity)).trans (div_le_div_of_nonneg_left (by positivity) (by norm_num) hmm)
    have g : (2 : ℝ) ^ p / 25 ^ (d + 1) = 2 ^ p / 25 ^ d / 25 := by rw [pow_succ]; field_simp
    rw [g]; linarith

theorem atanInv_enc (p m : Nat) (hm : 0 < m) : EncN p (Real.arctan (1 / m)) (atanInv p m) := by
  obtain ⟨h1, h2⟩ := atanSeries_enc p m hm (p / 2 + 4) 0
  have hm' : (0 : ℝ) < m := by positivity
  have e : Real.arctan (1 / m) * 2 ^ p = atanTail m 0 * 2 ^ p / m := by rw [atanTail_zero m hm]; field_simp
  constructor <;> simp only [atanInv] <;> rw [e]
  · exact (floorDiv_le _ _).trans (div_le_div_of_nonneg_right h1 hm'.le)
  · exact (div_le_div_of_nonneg_right h2 hm'.le).trans (le_ceilDiv _ _ hm)

theorem atanInv_width (p m : Nat) (hm : 5 ≤ m) : ((atanInv p m).2 : ℝ) - (atanInv p m).1 ≤ 4 := by
  have h := atanSeries_width p m hm (p / 2 + 4) 0
  have hp : (2 : ℝ) ^ p / 25 ^ (p / 2 + 4) ≤ 1 := by
    rw [div_le_one (by positivity)]
    have : (2 : ℝ) ^ p ≤ 4 ^ (p / 2 + 4) := by
      rw [show (4 : ℝ) = 2 ^ 2 by norm_num, ← pow_mul]
      exact pow_le_pow_right₀ (by norm_num) (by omega)
    exact this.trans (pow_le_pow_left₀ (by norm_num) (by norm_num) _)
  have hm' : (5 : ℝ) ≤ m := by exact_mod_cast hm
  simp only [atanInv]
  have a := ceilDiv_le (atanSeries p m (p / 2 + 4) 0).2 m (by omega)
  have b := le_floorDiv (atanSeries p m (p / 2 + 4) 0).1 m (by omega)
  have c : ((atanSeries p m (p / 2 + 4) 0).2 : ℝ) / m - (atanSeries p m (p / 2 + 4) 0).1 / m ≤ 6 / 5 := by
    rw [← sub_div]
    exact (div_le_div_of_nonneg_right (by linarith) (by positivity)).trans
      (div_le_div_of_nonneg_left (by norm_num) (by norm_num) hm')
  linarith

theorem piBounds_enc (p : Nat) : EncN p Real.pi (piBounds p) := by
  obtain ⟨a1, a2⟩ := atanInv_enc p 5 (by norm_num)
  obtain ⟨b1, b2⟩ := atanInv_enc p 239 (by norm_num)
  have e := Real.four_mul_arctan_inv_5_sub_arctan_inv_239
  push_cast [one_div] at a1 a2 b1 b2
  have e' : Real.pi * 2 ^ p = 16 * (Real.arctan 5⁻¹ * 2 ^ p) - 4 * (Real.arctan 239⁻¹ * 2 ^ p) := by
    rw [show Real.pi = 4 * (4 * Real.arctan 5⁻¹ - Real.arctan 239⁻¹) by rw [e]; ring]; ring
  constructor <;> simp only [piBounds]
  · refine natSub_le (by positivity) ?_
    rw [e']; push_cast; linarith
  · refine le_trans ?_ (sub_le_natSub _ _)
    rw [e']; push_cast; linarith

theorem piBounds_width (p : Nat) : ((piBounds p).2 : ℝ) - (piBounds p).1 ≤ 80 := by
  have a := atanInv_width p 5 (by norm_num)
  have b := atanInv_width p 239 (by norm_num)
  simp only [piBounds]
  refine natSub_width (by norm_num) ?_
  push_cast; linarith

/-! ## cosine -/

/-- The tail of the cosine's series: `cosTail θ 0 = cos θ`. -/
noncomputable def cosTail (θ : ℝ) : Nat → ℝ
  | 0 => Real.cos θ
  | n + 1 => ∫ t in (0 : ℝ)..1, (2 * n + 2) * (1 - t) ^ (2 * n + 1) * Real.cos (θ * t)

theorem cosTail_bounds (θ : ℝ) (h0 : 0 ≤ θ) (h1 : θ ≤ Real.pi / 2) (n : Nat) : 0 ≤ cosTail θ n ∧ cosTail θ n ≤ 1 := by
  have hc : ∀ t ∈ Set.Icc (0 : ℝ) 1, 0 ≤ Real.cos (θ * t) := fun t ht => by
    apply Real.cos_nonneg_of_mem_Icc
    constructor <;> nlinarith [ht.1, ht.2, Real.pi_pos]
  cases n with
  | zero => exact ⟨by simpa [cosTail] using hc 1 (by simp), Real.cos_le_one θ⟩
  | succ n =>
    refine ⟨intervalIntegral.integral_nonneg zero_le_one fun t ht => ?_, ?_⟩
    · have := hc t ht
      have : (0 : ℝ) ≤ 1 - t := by linarith [ht.2]
      positivity
    · have e : ∫ t in (0 : ℝ)..1, (2 * (n : ℝ) + 2) * (1 - t) ^ (2 * n + 1) = 1 := by
        rw [intervalIntegral.integral_const_mul, intervalIntegral.integral_comp_sub_left (fun t : ℝ => t ^ (2 * n +
            1)) 1]
        simp only [sub_self, sub_zero, integral_pow]
        push_cast; field_simp; ring_nf
      rw [← e]
      simp only [cosTail]
      refine intervalIntegral.integral_mono_on zero_le_one ?_ ?_ fun t ht => ?_
      · exact Continuous.intervalIntegrable (by fun_prop) _ _
      · exact Continuous.intervalIntegrable (by fun_prop) _ _
      · have : (0 : ℝ) ≤ 1 - t := by linarith [ht.2]
        exact mul_le_of_le_one_right (by positivity) (Real.cos_le_one _)

theorem cosTail_step (θ : ℝ) (n : Nat) :
    cosTail θ n = 1 - θ ^ 2 * cosTail θ (n + 1) / ((2 * n + 1) * (2 * n + 2)) := by
  have hp : ∀ (j : Nat) (t : ℝ), HasDerivAt (fun t : ℝ => (1 - t) ^ (j + 1)) (-((j + 1) * (1 - t) ^ j)) t :=
      fun j t => by
    simpa using ((hasDerivAt_id t).const_sub 1).fun_pow (j + 1)
  have hs : ∀ t : ℝ, HasDerivAt (fun t : ℝ => Real.sin (θ * t)) (Real.cos (θ * t) * θ) t := fun t => by
    simpa using ((hasDerivAt_id t).const_mul θ).sin
  have hc : ∀ t : ℝ, HasDerivAt (fun t : ℝ => Real.cos (θ * t)) (-Real.sin (θ * t) * θ) t := fun t => by
    simpa using ((hasDerivAt_id t).const_mul θ).cos
  have hn : (2 * (n : ℝ) + 1) ≠ 0 := by positivity
  have hn2 : (2 * (n : ℝ) + 2) ≠ 0 := by positivity
  have hI : IntervalIntegrable (fun t : ℝ => (2 * n + 2) * (1 - t) ^ (2 * n +
      1) * Real.cos (θ * t)) MeasureTheory.volume 0 1 :=
    Continuous.intervalIntegrable (by fun_prop) _ _
  have step : ∫ t in (0 : ℝ)..1, (θ / (2 * n + 1) * ((2 * n + 1) * (1 - t) ^ (2 * n) * Real.sin (θ * t)))
      = θ ^ 2 * cosTail θ (n + 1) / ((2 * n + 1) * (2 * n + 2)) := by
    have h := intervalIntegral.integral_eq_sub_of_hasDerivAt (a := 0) (b := 1)
      (f := fun t => -((1 - t) ^ (2 * n + 1) * Real.sin (θ * t)))
      (f' := fun t => (2 * n + 1) * (1 - t) ^ (2 * n) * Real.sin (θ * t) -
        θ / (2 * n + 2) * ((2 * n + 2) * (1 - t) ^ (2 * n + 1) * Real.cos (θ * t)))
      (fun t _ => by
        convert ((hp (2 * n) t).fun_mul (hs t)).fun_neg using 1
        push_cast; field_simp; ring)
      (Continuous.intervalIntegrable (by fun_prop) _ _)
    rw [intervalIntegral.integral_sub (Continuous.intervalIntegrable (by fun_prop) _ _) (hI.const_mul _),
      intervalIntegral.integral_const_mul (θ / (2 * n + 2))] at h
    rw [intervalIntegral.integral_const_mul]
    simp only [cosTail]
    have h' := sub_eq_iff_eq_add.1 h
    rw [h']; simp; field_simp
  rw [← step]
  cases n with
  | zero =>
    have h := intervalIntegral.integral_eq_sub_of_hasDerivAt (a := 0) (b := 1)
      (f := fun t => -Real.cos (θ * t)) (f' := fun t => θ * Real.sin (θ * t))
      (fun t _ => by convert (hc t).fun_neg using 1; ring) (Continuous.intervalIntegrable (by fun_prop) _ _)
    simp [cosTail] at h ⊢
  | succ k =>
    have h := intervalIntegral.integral_eq_sub_of_hasDerivAt (a := 0) (b := 1)
      (f := fun t => -((1 - t) ^ (2 * k + 2) * Real.cos (θ * t)))
      (f' := fun t => (2 * k + 2) * (1 - t) ^ (2 * k + 1) * Real.cos (θ * t) +
        θ / (2 * (k + 1 : Nat) + 1) * ((2 * (k + 1 : Nat) + 1) * (1 - t) ^ (2 * (k + 1)) * Real.sin (θ * t)))
      (fun t _ => by
        convert ((hp (2 * k + 1) t).fun_mul (hc t)).fun_neg using 1
        push_cast; field_simp; ring)
      (Continuous.intervalIntegrable (by fun_prop) _ _)
    rw [intervalIntegral.integral_add (Continuous.intervalIntegrable (by fun_prop) _ _)
      (Continuous.intervalIntegrable (by fun_prop) _ _)] at h
    rw [eq_sub_iff_add_eq]
    simp only [cosTail]
    rw [h]; simp

theorem cosSeries_enc (p xl xh : Nat) (θ : ℝ) (h0 : 0 ≤ θ) (h1 : θ ≤ Real.pi / 2) (hx : EncN p (θ ^ 2) (xl, xh))
    (depth n : Nat) : EncN p (cosTail θ n) (cosSeries p xl xh depth n) := by
  induction depth generalizing n with
  | zero =>
    have := cosTail_bounds θ h0 h1 n
    constructor <;> simp [cosSeries]
    · exact this.1
    · exact this.2
  | succ d ih =>
    obtain ⟨r1, r2⟩ := ih (n + 1)
    obtain ⟨x1, x2⟩ := hx
    have hb := cosTail_bounds θ h0 h1 n
    have hb1 := cosTail_bounds θ h0 h1 (n + 1)
    have hd : (0 : ℝ) < ((2 ^ p * ((2 * n + 1) * (2 * n + 2)) : Nat) : ℝ) := by positivity
    have e : cosTail θ n * 2 ^ p =
        2 ^ p - (θ ^ 2 * 2 ^ p) * (cosTail θ (n + 1) * 2 ^ p) / ((2 ^ p * ((2 * n + 1) * (2 * n + 2)) : Nat) : ℝ) := by
      rw [cosTail_step]; push_cast; field_simp
    constructor <;> simp only [cosSeries]
    · refine natSub_le (by have := hb.1; positivity) ?_
      have b := le_ceilDiv (xh * (cosSeries p xl xh d (n + 1)).2) (2 ^ p * ((2 * n + 1) * (2 * n + 2))) (by positivity)
      have c := div_le_div_of_nonneg_right (mul_le_mul x2 r2 (by have := hb1.1; positivity) (by positivity)) hd.le
      rw [e]; push_cast at *; linarith
    · refine le_trans ?_ (sub_le_natSub _ _)
      have b := floorDiv_le (xl * (cosSeries p xl xh d (n + 1)).1) (2 ^ p * ((2 * n + 1) * (2 * n + 2)))
      have c := div_le_div_of_nonneg_right (mul_le_mul x1 r1 (by positivity) (by positivity)) hd.le
      rw [e]; push_cast at *; linarith

theorem cosSeries_lo_le (p xl xh depth n : Nat) : (cosSeries p xl xh depth n).1 ≤ 2 ^ p := by
  cases depth <;> simp [cosSeries]

/-- One step of the cosine's series widens an enclosure by at most this. -/
theorem cosSeries_width_step (p xl xh d n : Nat) (w D : ℝ) (hw : 0 ≤ w) (hD : 0 ≤ D) (hx3 : (xh : ℝ) ≤ 3 * 2 ^ p)
    (hxw : (xh : ℝ) - xl ≤ D)
    (h : ((cosSeries p xl xh d (n + 1)).2 : ℝ) - (cosSeries p xl xh d (n + 1)).1 ≤ w) :
    ((cosSeries p xl xh (d + 1) n).2 : ℝ) - (cosSeries p xl xh (d + 1) n).1 ≤
      (3 * w + D) / ((2 * n + 1) * (2 * n + 2)) + 2 := by
  have hl : ((cosSeries p xl xh d (n + 1)).1 : ℝ) ≤ 2 ^ p := by exact_mod_cast cosSeries_lo_le p xl xh d (n + 1)
  have hd : (0 : ℝ) < ((2 ^ p * ((2 * n + 1) * (2 * n + 2)) : Nat) : ℝ) := by positivity
  simp only [cosSeries]
  refine natSub_width (by positivity) ?_
  have a := ceilDiv_le (xh * (cosSeries p xl xh d (n + 1)).2) (2 ^ p * ((2 * n + 1) * (2 * n + 2))) (by positivity)
  have b := le_floorDiv (xl * (cosSeries p xl xh d (n + 1)).1) (2 ^ p * ((2 * n + 1) * (2 * n + 2))) (by positivity)
  have c : ((xh * (cosSeries p xl xh d (n + 1)).2 : Nat) : ℝ) - (xl * (cosSeries p xl xh d (n + 1)).1 : Nat)
      ≤ (3 * w + D) * 2 ^ p := by
    push_cast
    have e1 : (xh : ℝ) * ((cosSeries p xl xh d (n + 1)).2 - (cosSeries p xl xh d (n + 1)).1) ≤ 3 * 2 ^ p * w :=
      (mul_le_mul_of_nonneg_left h (by positivity)).trans (mul_le_mul_of_nonneg_right hx3 hw)
    have e2 : ((xh : ℝ) - xl) * (cosSeries p xl xh d (n + 1)).1 ≤ D * 2 ^ p :=
      (mul_le_mul_of_nonneg_right hxw (by positivity)).trans (mul_le_mul_of_nonneg_left hl hD)
    nlinarith
  have c' := div_le_div_of_nonneg_right c hd.le
  rw [sub_div] at c'
  have e : (3 * w + D) * 2 ^ p / ((2 ^ p * ((2 * n + 1) * (2 * n + 2)) : Nat) : ℝ) = (3 * w + D) / ((2 * n +
      1) * (2 * n + 2)) := by
    push_cast; field_simp
  rw [e] at c'
  push_cast at *; linarith

theorem cosSeries_width_succ (p xl xh : Nat) (D : ℝ) (hD : 0 ≤ D) (hx3 : (xh : ℝ) ≤ 3 * 2 ^ p) (hxw : (xh : ℝ) - xl ≤ D)
    (depth n : Nat) :
    ((cosSeries p xl xh depth (n + 1)).2 : ℝ) - (cosSeries p xl xh depth (n + 1)).1 ≤ 2 ^ p / 4 ^ depth + (D + 3) := by
  induction depth generalizing n with
  | zero => simp [cosSeries]; positivity
  | succ d ih =>
    refine (cosSeries_width_step p xl xh d (n + 1) _ D (by positivity) hD hx3 hxw (ih (n + 1))).trans ?_
    have hn : (12 : ℝ) ≤ (2 * ((n + 1 : Nat) : ℝ) + 1) * (2 * ((n + 1 : Nat) : ℝ) + 2) := by
      push_cast; nlinarith [Nat.cast_nonneg (α := ℝ) n]
    have := div_le_div_of_nonneg_left (a := 3 * (2 ^ p / 4 ^ d + (D + 3)) + D) (by positivity) (by norm_num) hn
    have g : (2 : ℝ) ^ p / 4 ^ (d + 1) = 2 ^ p / 4 ^ d / 4 := by rw [pow_succ]; field_simp
    rw [g]; linarith

theorem cosBetween_enc (p tl th : Nat) (θ : ℝ) (h0 : 0 ≤ θ) (h1 : θ ≤ Real.pi / 2) (ht : EncN p θ (tl, th)) :
    EncN p (Real.cos θ) (cosBetween p tl th) := by
  refine cosSeries_enc p _ _ θ h0 h1 ?_ _ 0
  obtain ⟨a, b⟩ := ht
  have e : θ ^ 2 * 2 ^ p = (θ * 2 ^ p) * (θ * 2 ^ p) / ((2 ^ p : Nat) : ℝ) := by push_cast; field_simp
  have hp : (0 : ℝ) ≤ ((2 ^ p : Nat) : ℝ) := by positivity
  constructor <;> simp only <;> rw [e]
  · refine (floorDiv_le _ _).trans (div_le_div_of_nonneg_right ?_ hp)
    push_cast; exact mul_le_mul a a (by positivity) (by positivity)
  · refine le_trans (div_le_div_of_nonneg_right ?_ hp) (le_ceilDiv _ _ (by positivity))
    push_cast; exact mul_le_mul b b (by positivity) (by positivity)

/-- The width of the cosine's enclosure from that of the angle's. -/
theorem cosBetween_width (p tl th : Nat) (hp : 32 ≤ p) (hth : (th : ℝ) ≤ 17 / 10 * 2 ^ p) (hle : tl ≤ th)
    (hw : (th : ℝ) - tl ≤ 50) :
    ((cosBetween p tl th).2 : ℝ) - (cosBetween p tl th).1 ≤ 2 ^ p / 4 ^ (p / 4 + 6) + 500 := by
  have h2p : (1 : ℝ) ≤ 2 ^ p := one_le_pow₀ (by norm_num)
  have h32 : (2 : ℝ) ^ 32 ≤ 2 ^ p := pow_le_pow_right₀ (by norm_num) hp
  have hp0 : (0 : ℝ) < ((2 ^ p : Nat) : ℝ) := by positivity
  have hle' : (tl : ℝ) ≤ th := by exact_mod_cast hle
  have a := ceilDiv_le (th * th) (2 ^ p) (by positivity)
  have b := le_floorDiv (tl * tl) (2 ^ p) (by positivity)
  have c : ((th * th : Nat) : ℝ) / ((2 ^ p : Nat) : ℝ) ≤ 289 / 100 * 2 ^ p := by
    rw [div_le_iff₀ hp0]; push_cast
    nlinarith [mul_le_mul hth hth (by positivity) (by positivity)]
  have hxw : ((ceilDiv (th * th) (2 ^ p) : Nat) : ℝ) - ((tl * tl / 2 ^ p : Nat) : ℝ) ≤ 172 := by
    have e : ((th * th : Nat) : ℝ) / ((2 ^ p : Nat) : ℝ) - ((tl * tl : Nat) : ℝ) / ((2 ^ p : Nat) : ℝ) ≤ 170 := by
      rw [← sub_div, div_le_iff₀ hp0]; push_cast
      have : ((th : ℝ) * th - tl * tl) = (th - tl) * (th + tl) := by ring
      rw [this]
      refine (mul_le_mul hw (by linarith : (th : ℝ) + tl ≤ 34 / 10 * 2 ^ p) (by positivity) (by norm_num)).trans ?_
      linarith
    linarith
  have hx3 : ((ceilDiv (th * th) (2 ^ p) : Nat) : ℝ) ≤ 3 * 2 ^ p := by
    norm_num at h32; linarith
  unfold cosBetween
  rw [show p / 4 + 8 = (p / 4 + 7) + 1 by ring]
  refine (cosSeries_width_step p _ _ (p / 4 + 7) 0 _ 172 (by positivity) (by norm_num) hx3 hxw
    (cosSeries_width_succ p _ _ 172 (by norm_num) hx3 hxw (p / 4 + 7) 0)).trans ?_
  have g : (2 : ℝ) ^ p / 4 ^ (p / 4 + 7) = 2 ^ p / 4 ^ (p / 4 + 6) / 4 := by rw [pow_succ]; field_simp
  rw [g]
  have : (0 : ℝ) ≤ 2 ^ p / 4 ^ (p / 4 + 6) := by positivity
  push_cast; norm_num; linarith

theorem cosTurn_enc (p num den : Nat) (hd : 0 < den) (h : 4 * num ≤ den) :
    EncN p (Real.cos (2 * Real.pi * num / den)) (cosTurn p num den) := by
  have hd' : (0 : ℝ) < den := by positivity
  have h' : 4 * (num : ℝ) ≤ den := by exact_mod_cast h
  obtain ⟨q1, q2⟩ := piBounds_enc p
  refine cosBetween_enc p _ _ _ (by positivity) ?_ ?_
  · rw [div_le_div_iff₀ hd' (by norm_num)]; nlinarith [Real.pi_pos]
  · have e : 2 * Real.pi * num / den * 2 ^ p = 2 * (Real.pi * 2 ^ p) * num / den := by ring
    constructor <;> simp only <;> rw [e]
    · refine (floorDiv_le _ _).trans (div_le_div_of_nonneg_right ?_ hd'.le)
      push_cast; exact mul_le_mul_of_nonneg_right (by linarith) (by positivity)
    · refine le_trans (div_le_div_of_nonneg_right ?_ hd'.le) (le_ceilDiv _ _ hd)
      push_cast; exact mul_le_mul_of_nonneg_right (by linarith) (by positivity)

theorem cosTurn_width (p num den : Nat) (hp : 32 ≤ p) (hd : 0 < den) (h : 4 * num ≤ den) :
    ((cosTurn p num den).2 : ℝ) - (cosTurn p num den).1 ≤ 2 ^ p / 4 ^ (p / 4 + 6) + 500 := by
  have hd' : (0 : ℝ) < den := by positivity
  have h' : 4 * (num : ℝ) ≤ den := by exact_mod_cast h
  obtain ⟨q1, q2⟩ := piBounds_enc p
  have qw := piBounds_width p
  have h32 : (2 : ℝ) ^ 32 ≤ 2 ^ p := pow_le_pow_right₀ (by norm_num) hp
  norm_num at h32
  have a := ceilDiv_le (2 * (piBounds p).2 * num) den hd
  have b := le_floorDiv (2 * (piBounds p).1 * num) den hd
  have hq : (num : ℝ) / den ≤ 1 / 4 := by rw [div_le_div_iff₀ hd' (by norm_num)]; linarith
  have ea : ((2 * (piBounds p).2 * num : Nat) : ℝ) / den = 2 * (piBounds p).2 * (num / den) := by push_cast; ring
  have eb : ((2 * (piBounds p).1 * num : Nat) : ℝ) / den = 2 * (piBounds p).1 * (num / den) := by push_cast; ring
  have hq0 : (0 : ℝ) ≤ (num : ℝ) / den := by positivity
  have hpi : Real.pi * 2 ^ p ≤ 315 / 100 * 2 ^ p :=
      mul_le_mul_of_nonneg_right (by linarith [Real.pi_lt_d2]) (by positivity)
  have hm : 2 * ((piBounds p).2 : ℝ) * (num / den) ≤ 2 * (piBounds p).2 * (1 / 4) :=
    mul_le_mul_of_nonneg_left hq (by positivity)
  have hm2 : 2 * (((piBounds p).2 : ℝ) - (piBounds p).1) * (num / den) ≤ 2 * 80 * (1 / 4) :=
    mul_le_mul (by linarith) hq hq0 (by norm_num)
  refine cosBetween_width p _ _ hp ?_ ?_ ?_
  · rw [ea] at a; linarith
  · have hle : (((2 * (piBounds p).1 * num / den : Nat)) : ℝ) ≤ (ceilDiv (2 * (piBounds p).2 * num) den : Nat) := by
      have l := le_ceilDiv (2 * (piBounds p).2 * num) den hd
      have k := floorDiv_le (2 * (piBounds p).1 * num) den
      have : 2 * ((piBounds p).1 : ℝ) * (num / den) ≤ 2 * (piBounds p).2 * (num / den) :=
        mul_le_mul_of_nonneg_right (by linarith) hq0
      rw [ea] at l; rw [eb] at k; linarith
    exact_mod_cast hle
  · rw [ea] at a; rw [eb] at b; linarith

theorem exp_turn_re (M e : Nat) :
    (Complex.exp (2 * Real.pi * Complex.I * (e : ℂ) / (M : ℂ))).re = Real.cos (2 * Real.pi * e / M) := by
  rw [show 2 * (Real.pi : ℂ) * Complex.I * (e : ℂ) / (M : ℂ) =
      ((2 * Real.pi * e / M : ℝ) : ℂ) * Complex.I by push_cast; ring,
    Complex.exp_ofReal_mul_I_re]

theorem cos_mod (M e : Nat) (hM : 0 < M) : Real.cos (2 * Real.pi * e / M) =
    Real.cos (2 * Real.pi * (e % M : Nat) / M) := by
  have hM' : (M : ℝ) ≠ 0 := by positivity
  have h : (e : ℝ) = (e % M : Nat) + (M : ℝ) * (e / M : Nat) := by exact_mod_cast (Nat.mod_add_div e M).symm
  rw [h, show 2 * Real.pi * ((e % M : Nat) + (M : ℝ) * (e / M : Nat)) / M
    = 2 * Real.pi * (e % M : Nat) / M + (e / M : Nat) * (2 * Real.pi) by field_simp, Real.cos_add_nat_mul_two_pi]

theorem cos_reflect (M e : Nat) (hM : 0 < M) (he : e ≤ M) :
    Real.cos (2 * Real.pi * e / M) = Real.cos (2 * Real.pi * (M - e : Nat) / M) := by
  have hM' : (M : ℝ) ≠ 0 := by positivity
  rw [Nat.cast_sub he, show 2 * Real.pi * ((M : ℝ) - e) / M = 2 * Real.pi - 2 * Real.pi * e / M by field_simp,
    Real.cos_two_pi_sub]

theorem cosRoot_spec (p M e : Nat) (hM : 0 < M) :
    Enc p (Real.cos (2 * Real.pi * e / M)) (cosRoot p M e) ∧
    (32 ≤ p → ((cosRoot p M e).2 : ℝ) - (cosRoot p M e).1 ≤ 2 ^ p / 4 ^ (p / 4 + 6) + 500) := by
  have hM' : (M : ℝ) ≠ 0 := by positivity
  have key : ∃ f, 2 * f ≤ M ∧ Real.cos (2 * Real.pi * e / M) = Real.cos (2 * Real.pi * f / M) ∧
      cosRoot p M e = if M < 4 * f then
        (-((cosTurn p (M - 2 * f) (2 * M)).2 : Int), -((cosTurn p (M - 2 * f) (2 * M)).1 : Int))
        else (((cosTurn p f M).1 : Int), ((cosTurn p f M).2 : Int)) := by
    have hlt := Nat.mod_lt e hM
    refine ⟨if M < 2 * (e % M) then M - e % M else e % M, ?_, ?_, rfl⟩
    · split <;> omega
    · rw [cos_mod M e hM]
      split
      · exact cos_reflect M _ hM hlt.le
      · rfl
  obtain ⟨f, hf, hc, hr⟩ := key
  rw [hc, hr]
  split
  · next h4 =>
    have hle : 2 * f ≤ M := hf
    have e1 : Real.cos (2 * Real.pi * f / M) = -Real.cos (2 * Real.pi * (M - 2 * f : Nat) / (2 * M : Nat)) := by
      rw [Nat.cast_sub hle, ← Real.cos_pi_sub]
      congr 1; push_cast; field_simp; ring
    obtain ⟨a, b⟩ := cosTurn_enc p (M - 2 * f) (2 * M) (by omega) (by omega)
    refine ⟨⟨?_, ?_⟩, fun hp => ?_⟩
    · rw [e1]; push_cast at *; linarith
    · rw [e1]; push_cast at *; linarith
    · have := cosTurn_width p (M - 2 * f) (2 * M) hp (by omega) (by omega)
      push_cast at *; linarith
  · next h4 =>
    obtain ⟨a, b⟩ := cosTurn_enc p f M hM (by omega)
    refine ⟨⟨by exact_mod_cast a, by exact_mod_cast b⟩, fun hp => ?_⟩
    have := cosTurn_width p f M hp hM (by omega)
    push_cast; exact this

theorem cosRoot_width (p M e : Nat) (hM : 0 < M) (hp : 32 ≤ p) :
    ((cosRoot p M e).2 : ℝ) - (cosRoot p M e).1 + 2 ≤ 2 ^ (p / 2) := by
  have h := (cosRoot_spec p M e hM).2 hp
  have a : (2 : ℝ) ^ p / 4 ^ (p / 4 + 6) ≤ 2 ^ (p / 2) / 256 := by
    rw [div_le_div_iff₀ (by positivity) (by norm_num), show (4 : ℝ) = 2 ^ 2 by norm_num, ← pow_mul,
      show (256 : ℝ) = 2 ^ 8 by norm_num, ← pow_add, ← pow_add]
    exact pow_le_pow_right₀ (by norm_num) (by omega)
  have b : (2 : ℝ) ^ 16 ≤ 2 ^ (p / 2) := pow_le_pow_right₀ (by norm_num) (by omega)
  norm_num at b
  linarith

/-! ## sums -/

theorem intFloorDiv_le (a : Int) (b : Nat) (hb : 0 < b) : ((a / (b : Int) : Int) : ℝ) ≤ (a : ℝ) / b := by
  rw [le_div_iff₀ (by positivity)]; exact_mod_cast Int.ediv_mul_le a (by omega)

theorem le_intFloorDiv (a : Int) (b : Nat) (hb : 0 < b) : (a : ℝ) / b - 1 ≤ ((a / (b : Int) : Int) : ℝ) := by
  rw [sub_le_iff_le_add, div_le_iff₀ (by positivity)]
  exact_mod_cast (Int.lt_ediv_add_one_mul_self a (by omega : (0 : Int) < b)).le

theorem le_intCeilDiv (a : Int) (b : Nat) (hb : 0 < b) : (a : ℝ) / b ≤ (intCeilDiv a b : ℝ) := by
  have := intFloorDiv_le (-a) b hb
  unfold intCeilDiv; push_cast at *; rw [neg_div] at this; linarith

theorem intCeilDiv_le (a : Int) (b : Nat) (hb : 0 < b) : (intCeilDiv a b : ℝ) ≤ (a : ℝ) / b + 1 := by
  have := le_intFloorDiv (-a) b hb
  unfold intCeilDiv; push_cast at *; rw [neg_div] at this; linarith

theorem addBounds_enc {p : Nat} {x y : ℝ} {r t : Int × Int} (hr : Enc p x r) (ht : Enc p y t) :
    Enc p (x + y) (addBounds r t) := by
  obtain ⟨a, b⟩ := hr; obtain ⟨c, d⟩ := ht
  constructor <;> simp only [addBounds] <;> push_cast <;> linarith

theorem scaleBounds_enc {p : Nat} {x : ℝ} {r : Int × Int} (q : Rat) (hr : Enc p x r) : Enc p (q * x) (scaleBounds q r) := by
  obtain ⟨a, b⟩ := hr
  have hd : (0 : ℝ) < q.den := by exact_mod_cast q.pos
  have e : (q : ℝ) * x * 2 ^ p = q.num * (x * 2 ^ p) / q.den := by
    rw [show (q : ℝ) = q.num / q.den from by exact_mod_cast (Rat.num_div_den q).symm]; ring
  unfold scaleBounds
  split
  · next h =>
    have hn : (0 : ℝ) ≤ q.num := by exact_mod_cast Rat.num_nonneg.2 h
    constructor <;> simp only <;> rw [e]
    · refine (intFloorDiv_le _ _ q.pos).trans (div_le_div_of_nonneg_right ?_ hd.le)
      push_cast; exact mul_le_mul_of_nonneg_left a hn
    · refine le_trans (div_le_div_of_nonneg_right ?_ hd.le) (le_intCeilDiv _ _ q.pos)
      push_cast; exact mul_le_mul_of_nonneg_left b hn
  · next h =>
    have hn : (q.num : ℝ) ≤ 0 := by exact_mod_cast (Rat.num_neg.2 (not_le.1 h)).le
    constructor <;> simp only <;> rw [e]
    · refine (intFloorDiv_le _ _ q.pos).trans (div_le_div_of_nonneg_right ?_ hd.le)
      push_cast; exact mul_le_mul_of_nonpos_left b hn
    · refine le_trans (div_le_div_of_nonneg_right ?_ hd.le) (le_intCeilDiv _ _ q.pos)
      push_cast; exact mul_le_mul_of_nonpos_left a hn

/-- A multiple widens an enclosure by at most the numerator, and leaves none of an enclosure at 0. -/
theorem scaleBounds_width {r : Int × Int} {w : ℝ} (q : Rat) (hr : (r.2 : ℝ) - r.1 + 2 ≤ w) (h0 : r.1 ≤ r.2) :
    ((scaleBounds q r).2 : ℝ) - (scaleBounds q r).1 ≤ q.num.natAbs * w := by
  have h0' : (r.1 : ℝ) ≤ r.2 := by exact_mod_cast h0
  by_cases hq : q = 0
  · subst hq; simp [scaleBounds, intCeilDiv]
  have hd : (1 : ℝ) ≤ q.den := by exact_mod_cast q.pos
  have hN : (1 : ℝ) ≤ (q.num.natAbs : ℝ) := by
    have : q.num ≠ 0 := Rat.num_ne_zero.2 hq
    exact_mod_cast (by omega : 1 ≤ q.num.natAbs)
  have key : ∀ N : ℝ, 1 ≤ N → N * ((r.2 : ℝ) - r.1) / q.den + 2 ≤ N * w := fun N hN1 => by
    have a : N * ((r.2 : ℝ) - r.1) / q.den ≤ N * ((r.2 : ℝ) - r.1) :=
        div_le_self (mul_nonneg (by linarith) (by linarith)) hd
    nlinarith
  have := key _ hN
  unfold scaleBounds
  split
  · next h =>
    have hn : (q.num.natAbs : ℝ) = q.num := by
      rw [Nat.cast_natAbs, abs_of_nonneg (Rat.num_nonneg.2 h)]
    rw [hn] at this ⊢
    have a := intCeilDiv_le (q.num * r.2) q.den q.pos
    have b := le_intFloorDiv (q.num * r.1) q.den q.pos
    push_cast at *
    rw [mul_sub, sub_div] at this; linarith
  · next h =>
    have hn : (q.num.natAbs : ℝ) = -q.num := by
      rw [Nat.cast_natAbs, abs_of_neg (Rat.num_neg.2 (not_le.1 h))]; push_cast; rfl
    rw [hn] at this ⊢
    have a := intCeilDiv_le (q.num * r.1) q.den q.pos
    have b := le_intFloorDiv (q.num * r.2) q.den q.pos
    push_cast at *
    rw [mul_sub, sub_div, neg_mul, neg_mul, neg_div, neg_div] at this; linarith

theorem enc_le {p : Nat} {x : ℝ} {r : Int × Int} (h : Enc p x r) : r.1 ≤ r.2 := by exact_mod_cast h.1.trans h.2

theorem cycVal_re_cons (M : Nat) (t : Nat × Rat) (a : Cyc) :
    (cycVal M (t :: a)).re = (t.2 : ℝ) * Real.cos (2 * Real.pi * t.1 / M) + (cycVal M a).re := by
  simp only [cycVal, List.map_cons, List.sum_cons, Complex.add_re]
  rw [← Complex.ofReal_ratCast, Complex.re_ofReal_mul, exp_turn_re]

theorem cycReBounds_enc (p M : Nat) (hM : 0 < M) (a : Cyc) : Enc p (cycVal M a).re (cycReBounds p M a) := by
  induction a with
  | nil => simp [cycVal, cycReBounds, Enc]
  | cons t a ih =>
    rw [cycVal_re_cons]
    exact addBounds_enc (scaleBounds_enc t.2 (cosRoot_spec p M t.1 hM).1) ih

/-- The sum of the numerators. -/
def cycNums (a : Cyc) : Nat := a.foldr (fun t s => t.2.num.natAbs + s) 0

theorem cycReBounds_width (p M : Nat) (hM : 0 < M) (hp : 32 ≤ p) (a : Cyc) :
    ((cycReBounds p M a).2 : ℝ) - (cycReBounds p M a).1 ≤ cycNums a * 2 ^ (p / 2) := by
  induction a with
  | nil => simp [cycReBounds, cycNums]
  | cons t a ih =>
    have h := scaleBounds_width t.2 (cosRoot_width p M t.1 hM hp) (enc_le (cosRoot_spec p M t.1 hM).1)
    simp only [cycReBounds, List.foldr_cons, addBounds, cycNums] at *
    push_cast; linarith


/-! ## square roots -/

theorem isqrtFuel_spec (fuel n : Nat) (h : n < 4 ^ fuel) :
    isqrtFuel fuel n * isqrtFuel fuel n ≤ n ∧ n < (isqrtFuel fuel n + 1) * (isqrtFuel fuel n + 1) := by
  induction fuel generalizing n with
  | zero => simp at h; subst h; simp [isqrtFuel]
  | succ f ih =>
    obtain ⟨a, b⟩ := ih (n / 4) (by rw [pow_succ] at h; omega)
    simp only [isqrtFuel]
    generalize isqrtFuel f (n / 4) = r at *
    have e := Nat.div_add_mod n 4
    have m := Nat.mod_lt n (show 0 < 4 by norm_num)
    split
    · next h1 => exact ⟨h1, by nlinarith⟩
    · next h1 =>
      have : 2 * r * (2 * r) = 4 * (r * r) := by ring
      exact ⟨by omega, by omega⟩

theorem isqrt_eq_sqrt (n : Nat) : isqrt n = Nat.sqrt n := by
  have h := isqrtFuel_spec (Nat.log2 n / 2 + 1) n (by
    have := Nat.lt_log2_self (n := n)
    refine this.trans_le ?_
    rw [show (4 : Nat) = 2 ^ 2 by norm_num, ← pow_mul]
    exact Nat.pow_le_pow_right (by norm_num) (by omega))
  exact (Nat.eq_sqrt.2 h)

theorem sqrt_toNat (z : Int) : Real.sqrt ((z.toNat : Nat) : ℝ) = Real.sqrt (z : ℝ) := by
  rcases le_total 0 z with h | h
  · rw [show ((z.toNat : Nat) : ℝ) = (z : ℝ) by exact_mod_cast Int.toNat_of_nonneg h]
  · rw [Int.toNat_of_nonpos h, Nat.cast_zero, Real.sqrt_zero, Real.sqrt_eq_zero_of_nonpos (by exact_mod_cast h)]

theorem sqrtBounds_enc (p M : Nat) (hM : 0 < M) (a : Cyc) : Enc p (Real.sqrt (cycVal M a).re) (sqrtBounds p M a) := by
  obtain ⟨h1, h2⟩ := cycReBounds_enc (2 * p) M hM a
  have e : Real.sqrt (cycVal M a).re * 2 ^ p = Real.sqrt ((cycVal M a).re * 2 ^ (2 * p)) := by
    rw [Real.sqrt_mul' _ (by positivity), show (2 : ℝ) ^ (2 * p) = (2 ^ p) ^ 2 by rw [← pow_mul, mul_comm],
        Real.sqrt_sq (by positivity)]
  constructor <;> simp only [sqrtBounds, isqrt_eq_sqrt] <;> rw [e] <;> push_cast
  · exact Real.nat_sqrt_le_real_sqrt.trans ((sqrt_toNat _).trans_le (Real.sqrt_le_sqrt h1))
  · exact ((Real.sqrt_le_sqrt h2).trans_eq (sqrt_toNat _).symm).trans Real.real_sqrt_le_nat_sqrt_succ

theorem sqrtBounds_width (p M : Nat) (hM : 0 < M) (hp : 32 ≤ p) (a : Cyc) :
    ((sqrtBounds p M a).2 : ℝ) - (sqrtBounds p M a).1 + 2 ≤ (1 + cycNums a : Nat) * 2 ^ (p / 2 + 1) := by
  have hw := cycReBounds_width (2 * p) M hM (by omega) a
  have hle := enc_le (cycReBounds_enc (2 * p) M hM a)
  rw [show 2 * p / 2 = p by omega] at hw
  have h4 : (4 : ℝ) ≤ 2 ^ (p / 2 + 1) := by
    calc (4 : ℝ) = 2 ^ 2 := by norm_num
      _ ≤ _ := pow_le_pow_right₀ (by norm_num) (by omega)
  simp only [sqrtBounds, isqrt_eq_sqrt]
  generalize cycReBounds (2 * p) M a = r at *
  have a1 : Real.sqrt ((r.2.toNat : Nat) : ℝ) ≤ Real.sqrt ((r.1.toNat : Nat) : ℝ) + cycNums a * 2 ^ (p / 2 + 1) := by
    rw [Real.sqrt_le_left (by positivity)]
    have n1 : ((r.2.toNat : Nat) : ℝ) ≤ ((r.1.toNat : Nat) : ℝ) + cycNums a * 2 ^ p := by
      have : (r.2.toNat : ℝ) - r.1.toNat ≤ (r.2 : ℝ) - r.1 := by
        exact_mod_cast (by omega : (r.2.toNat : Int) - r.1.toNat ≤ r.2 - r.1)
      linarith
    have n2 : (cycNums a : ℝ) * 2 ^ p ≤ (cycNums a * 2 ^ (p / 2 + 1)) ^ 2 := by
      rw [mul_pow, ← pow_mul]
      refine mul_le_mul ?_ (pow_le_pow_right₀ (by norm_num) (by omega)) (by positivity) (by positivity)
      exact_mod_cast Nat.le_self_pow (by norm_num) _
    have n3 := Real.sq_sqrt (x := ((r.1.toNat : Nat) : ℝ)) (by positivity)
    have n4 : 0 ≤ Real.sqrt ((r.1.toNat : Nat) : ℝ) * (cycNums a * 2 ^ (p / 2 + 1)) := by positivity
    nlinarith
  have b1 := Real.nat_sqrt_le_real_sqrt (a := r.2.toNat)
  have b2 := Real.real_sqrt_le_nat_sqrt_succ (a := r.1.toNat)
  push_cast
  linarith

theorem surdBounds_enc (p M : Nat) (hM : 0 < M) (x : Surds) : Enc p (surdVal M x) (surdBounds p M x) := by
  induction x with
  | nil => simp [surdVal, surdBounds, Enc]
  | cons t x ih =>
    simp only [surdVal, List.map_cons, List.sum_cons] at *
    exact addBounds_enc (scaleBounds_enc t.1 (sqrtBounds_enc p M hM t.2)) ih

/-- The sum of the numerators of a sum of roots. -/
def surdNums (x : Surds) : Nat := x.foldr (fun t s => t.1.num.natAbs * (1 + cycNums t.2) + s) 0

theorem surdBounds_width (p M : Nat) (hM : 0 < M) (hp : 32 ≤ p) (x : Surds) :
    ((surdBounds p M x).2 : ℝ) - (surdBounds p M x).1 ≤ surdNums x * 2 ^ (p / 2 + 1) := by
  induction x with
  | nil => simp [surdBounds, surdNums]
  | cons t x ih =>
    have h := scaleBounds_width t.1 (sqrtBounds_width p M hM hp t.2) (enc_le (sqrtBounds_enc p M hM t.2))
    simp only [surdBounds, List.foldr_cons, addBounds, surdNums] at *
    push_cast at *; linarith

/-! ## refinement -/

/-- A sign that a search finds is right. -/
theorem refine_sound (bounds : Nat → Int × Int) (x : ℝ) (hx : ∀ p, Enc p x (bounds p)) (fuel p : Nat) :
    (Machine.refine bounds fuel p = 1 → 0 < x) ∧ (Machine.refine bounds fuel p = -1 → x < 0) := by
  induction fuel generalizing p with
  | zero => simp [Machine.refine]
  | succ f ih =>
    rw [Machine.refine]
    split
    · next h =>
      refine ⟨fun _ => ?_, by simp⟩
      have h' : (0 : ℝ) < ((bounds p).1 : ℝ) := by exact_mod_cast h
      exact pos_of_mul_pos_left (h'.trans_le (hx p).1) (by positivity)
    split
    · next h =>
      refine ⟨by simp, fun _ => ?_⟩
      have h' : ((bounds p).2 : ℝ) < 0 := by exact_mod_cast h
      by_contra hn
      have : 0 ≤ x * 2 ^ p := mul_nonneg (not_lt.1 hn) (by positivity)
      linarith [(hx p).2]
    · exact ih _

/-- A search that ends at a precision where a number that is not 0 leaves 0 out finds its sign. -/
theorem refine_spec (bounds : Nat → Int × Int) (x : ℝ) (hx : ∀ p, Enc p x (bounds p)) (fuel p : Nat)
    (hend : x ≠ 0 → ((bounds (p * 2 ^ fuel)).2 : ℝ) - (bounds (p * 2 ^ fuel)).1 < |x| * 2 ^ (p * 2 ^ fuel)) :
    refine bounds (fuel + 1) p = SignType.sign x := by
  have pos : ∀ p, 0 < (bounds p).1 → 0 < x := fun p h => by
    have h1 := (hx p).1
    have : (0 : ℝ) < ((bounds p).1 : ℝ) := by exact_mod_cast h
    by_contra hn
    have : x * 2 ^ p ≤ 0 := mul_nonpos_of_nonpos_of_nonneg (not_lt.1 hn) (by positivity)
    linarith
  have neg : ∀ p, (bounds p).2 < 0 → x < 0 := fun p h => by
    have h1 := (hx p).2
    have : ((bounds p).2 : ℝ) < 0 := by exact_mod_cast h
    by_contra hn
    have : 0 ≤ x * 2 ^ p := mul_nonneg (not_lt.1 hn) (by positivity)
    linarith
  induction fuel generalizing p with
  | zero =>
    simp only [refine]
    split
    · next h => rw [sign_pos (pos p h)]; rfl
    split
    · next h => rw [sign_neg (neg p h)]; rfl
    · next h1 h2 =>
      suffices h : x = 0 by rw [h, sign_zero]; rfl
      by_contra hne
      have hw := hend hne
      simp only [pow_zero, mul_one] at hw
      obtain ⟨a, b⟩ := hx p
      have h1' : ((bounds p).1 : ℝ) ≤ 0 := by exact_mod_cast not_lt.1 h1
      have h2' : (0 : ℝ) ≤ ((bounds p).2 : ℝ) := by exact_mod_cast not_lt.1 h2
      have : |x| * 2 ^ p = |x * 2 ^ p| := by rw [abs_mul, abs_of_pos (by positivity : (0 : ℝ) < 2 ^ p)]
      rw [this] at hw
      rcases abs_cases (x * 2 ^ p) with ⟨e, _⟩ | ⟨e, _⟩ <;> rw [e] at hw <;> linarith
  | succ f ih =>
    rw [refine]
    split
    · next h => rw [sign_pos (pos p h)]; rfl
    split
    · next h => rw [sign_neg (neg p h)]; rfl
    · refine ih (2 * p) ?_
      have e : 2 * p * 2 ^ f = p * 2 ^ (f + 1) := by ring
      rw [e]; exact hend

/-- The precision that `doublings` reaches is far above the bound. -/
theorem refine_gap (bounds : Nat → Int × Int) (x : ℝ) (bits S : Nat) (hx : ∀ p, Enc p x (bounds p))
    (hw : ∀ p, 32 ≤ p → ((bounds p).2 : ℝ) - (bounds p).1 ≤ S * 2 ^ (p / 2 + 1)) (hS : S < 2 ^ bits)
    (hgap : x ≠ 0 → 1 ≤ |x| * 2 ^ bits) : Machine.refine bounds (doublings bits) 32 = SignType.sign x := by
  refine refine_spec bounds x hx (Nat.log2 (bits + 128)) 32 fun hne => ?_
  set P := 32 * 2 ^ Nat.log2 (bits + 128) with hP
  have hbig : 16 * (bits + 128) < P := by
    have := Nat.lt_log2_self (n := bits + 128)
    rw [pow_succ] at this; omega
  refine (hw P (by omega)).trans_lt ?_
  have hS' : (S : ℝ) < 2 ^ bits := by exact_mod_cast hS
  have a : (S : ℝ) * 2 ^ (P / 2 + 1) < 2 ^ (bits + (P / 2 + 1)) := by
    rw [pow_add 2 bits]; exact mul_lt_mul_of_pos_right hS' (pow_pos two_pos _)
  have b : (2 : ℝ) ^ (bits + (P / 2 + 1)) ≤ 2 ^ (P - bits) := pow_le_pow_right₀ (by norm_num) (by omega)
  have c : (2 : ℝ) ^ (P - bits) ≤ |x| * 2 ^ P := by
    have : (2 : ℝ) ^ P = 2 ^ bits * 2 ^ (P - bits) := by rw [← pow_add]; congr 1; omega
    rw [this, ← mul_assoc]
    exact le_mul_of_one_le_left (by positivity) (hgap hne)
  linarith

end Sys2Proof.Laws
end

