-- ==== Sys2Proof/Laws/Signs.lean ====
section
/-! SUPPORT. The two sign functions are exact (`00_scope.md` R16, log 4): `cycSign_eq`, `surdSign_eq`. -/

open Sys2Proof Sys2Proof.Machine

namespace Sys2Proof.Laws

theorem ratSign_eq (q : Rat) : ratSign q = SignType.sign (q : ℝ) := by
  unfold ratSign
  split
  · next h => rw [sign_pos (by exact_mod_cast h)]; rfl
  split
  · next h => rw [sign_neg (by exact_mod_cast h)]; rfl
  · next h1 h2 => rw [show q = 0 by linarith, Rat.cast_zero, sign_zero]; rfl

theorem cycRat_re {w : Cyc} {q : Rat} (M : Nat) (h : cycRat? w = some q) : (cycVal M w).re = q := by
  unfold cycRat? at h
  split at h
  · cases h; simp [cycVal]
  · cases h; simp [cycVal]
  · cases h

theorem cycNums_le_over (d : Nat) (a : Cyc) (hd : 0 < d) (h : ∀ t ∈ a, t.2.den ∣ d) : cycNums a ≤ cycSizeOver d a := by
  induction a with
  | nil => exact le_rfl
  | cons t a ih =>
    have h1 : 1 ≤ d / t.2.den := Nat.div_pos (Nat.le_of_dvd hd (h t (by simp))) t.2.pos
    have h2 := ih fun u hu => h u (List.mem_cons_of_mem _ hu)
    have h3 := Nat.mul_le_mul_left t.2.num.natAbs h1
    simp only [cycNums, cycSizeOver, List.foldr_cons] at *
    omega

theorem cycNums_lt (a : Cyc) : cycNums a < cycSize a := by
  have := cycNums_le_over (cycDen a) a (cycDen_pos a) (dvd_cycDen a)
  rw [cycSize_eq]; omega

/-- The sign of the real part is exact. -/
theorem cycSign_eq (M : Nat) (hM : 0 < M) (w : Cyc) : cycSign M w = SignType.sign (cycVal M w).re := by
  unfold cycSign
  split
  · next q h => rw [ratSign_eq, cycRat_re M h]
  · refine refine_gap _ _ (cycBits M w) (cycNums w) (fun p => cycReBounds_enc p M hM w) (fun p hp => ?_) ?_ (cyc_gap M hM w)
    · refine (cycReBounds_width p M hM hp w).trans (mul_le_mul_of_nonneg_left ?_ (by positivity))
      exact pow_le_pow_right₀ (by norm_num) (by omega)
    · have h1 := cycNums_lt w
      have h2 := Nat.lt_log2_self (n := 2 * cycSize w)
      have h3 : Nat.log2 (2 * cycSize w) + 1 ≤ cycBits M w := by
        have := Nat.le_mul_of_pos_left (Nat.log2 (2 * cycSize w) + 1) hM
        unfold cycBits; omega
      have h4 := Nat.pow_le_pow_right (show 0 < 2 by norm_num) h3
      omega

theorem surdNums_le_over (D : Nat) (x : Surds) (hD : 0 < D) : surdNums x ≤ surdSizeOver D x := by
  induction x with
  | nil => exact le_rfl
  | cons t x ih =>
    have h1 : t.1.num.natAbs * (1 + cycNums t.2) ≤ t.1.num.natAbs * D * (1 + cycSize t.2) :=
      Nat.mul_le_mul (Nat.le_mul_of_pos_right _ hD) (by have := cycNums_lt t.2; omega)
    simp only [surdNums, surdSizeOver, List.foldr_cons] at *
    omega

/-- The sign of a sum of roots is exact. -/
theorem surdSign_eq (M : Nat) (hM : 0 < M) (x : Surds) : surdSign M x = SignType.sign (surdVal M x) := by
  unfold surdSign
  split
  · simp [surdVal]
  · next c a =>
    have e : surdVal M [(c, a)] = (c : ℝ) * Real.sqrt (cycVal M a).re := by simp [surdVal]
    rw [e, sign_mul, ratSign_eq, cycSign_eq M hM]
    rcases lt_trichotomy 0 (cycVal M a).re with h | h | h
    · rw [sign_pos h, sign_pos (Real.sqrt_pos.2 h)]; simp
    · rw [← h]; simp
    · rw [sign_neg h, Real.sqrt_eq_zero_of_nonpos h.le]; simp
  · refine refine_gap _ _ (surdBits M x) (surdNums x) (fun p => surdBounds_enc p M hM x)
      (fun p hp => surdBounds_width p M hM hp x) ?_ (surd_gap M hM x)
    have h1 := surdNums_le_over (surdDen x) x (surdDen_pos x)
    have h2 := Nat.lt_log2_self (n := 2 * surdSize x)
    have h3 : Nat.log2 (2 * surdSize x) + 1 ≤ surdBits M x := by
      have := Nat.le_mul_of_pos_left (Nat.log2 (2 * surdSize x) + 1) (Nat.mul_pos hM (Nat.two_pow_pos x.length))
      unfold surdBits; omega
    have h4 := Nat.pow_le_pow_right (show 0 < 2 by norm_num) h3
    have h5 := surdSize_eq x
    omega

end Sys2Proof.Laws
end

