-- ==== Sys2Proof/Laws/Cyclotomic.lean ====
section
/-! SUPPORT. What the operations on combinations of roots of unity stand for (`00_scope.md` R16). -/

open Sys2Proof Sys2Proof.Machine

namespace Sys2Proof.Laws

/-- The complex number one term stands for. -/
noncomputable def termVal (M : Nat) (t : Nat × Rat) : ℂ := (t.2 : ℂ) * zeta M ^ t.1

theorem exp_turn (M e : Nat) : Complex.exp (2 * Real.pi * Complex.I * (e : ℂ) / (M : ℂ)) = zeta M ^ e := by
  rw [zeta, ← Complex.exp_nat_mul]; congr 1; ring

theorem cycVal_eq (M : Nat) (a : Cyc) : cycVal M a = (a.map (termVal M)).sum := by
  unfold cycVal termVal; congr 1; apply List.map_congr_left; intro t _; rw [exp_turn]

theorem cycVal_nil (M) : cycVal M [] = 0 := by simp [cycVal]

theorem cycVal_cons (M t a) : cycVal M (t :: a) = termVal M t + cycVal M a := by simp [cycVal_eq]

theorem cycVal_addTerm (M e : Nat) (q : Rat) (a : Cyc) : cycVal M (cycAddTerm e q a) = termVal M (e, q) + cycVal M a := by
  induction a with
  | nil => simp only [cycAddTerm]; split <;> simp_all [cycVal_eq, termVal]
  | cons t a ih =>
    simp only [cycAddTerm]
    split
    · split <;> simp_all [cycVal_eq, termVal]
    split
    · next h =>
      split
      · next h2 =>
        have : ((q + t.2 : ℚ) : ℂ) = 0 := by rw [h2]; simp
        subst h; simp only [cycVal_cons, termVal]; push_cast at this
        linear_combination (-zeta M ^ t.1) * this
      · subst h; simp only [cycVal_cons, termVal]; push_cast; ring
    · simp only [cycVal_cons, ih]; ring

theorem cycVal_foldl (M : Nat) (l : List (Nat × Rat)) (b : Cyc) :
    cycVal M (l.foldl (fun acc t => cycAddTerm t.1 t.2 acc) b) = cycVal M l + cycVal M b := by
  induction l generalizing b with
  | nil => simp [cycVal_nil]
  | cons t l ih => rw [List.foldl_cons, ih, cycVal_addTerm, cycVal_cons]; ring

theorem cycVal_add (M a b) : cycVal M (cycAdd a b) = cycVal M a + cycVal M b := cycVal_foldl M a b

theorem cycVal_collect (M l) : cycVal M (cycCollect l) = cycVal M l := by rw [cycCollect, cycVal_foldl, cycVal_nil, add_zero]

/-- A rational multiple. -/
theorem cycVal_scale (M q a) : cycVal M (cycScale q a) = (q : ℂ) * cycVal M a := by
  unfold cycScale; split
  · next h => subst h; simp [cycVal_nil]
  · induction a with
    | nil => simp [cycVal_nil]
    | cons t a ih => simp only [List.map_cons, cycVal_cons, ih, termVal]; push_cast; ring

theorem zeta_mod (M : Nat) (hM : 0 < M) (e : Nat) : zeta M ^ (e % M) = zeta M ^ e := by
  conv_rhs => rw [← Nat.mod_add_div e M, pow_add, pow_mul, zeta_pow M hM, one_pow, mul_one]

theorem cycVal_append (M a b) : cycVal M (a ++ b) = cycVal M a + cycVal M b := by simp [cycVal_eq]

theorem zeta_geom (M p : Nat) (hM : 0 < M) (hp : 2 ≤ p) (hd : p ∣ M) : ∑ j ∈ Finset.range p,
    zeta M ^ (j * (M / p)) = 0 := by
  obtain ⟨k, rfl⟩ := hd
  rw [Nat.mul_div_cancel_left _ (by omega : 0 < p)]
  have hprim : IsPrimitiveRoot (zeta (p * k) ^ k) p := (Complex.isPrimitiveRoot_exp _ hM.ne').pow hM (by ring)
  have := hprim.geom_sum_eq_zero (by omega)
  rw [← this]; apply Finset.sum_congr rfl; intro j _; rw [← pow_mul]; congr 1; ring

theorem sum_range_map (n : Nat) (f : Nat → ℂ) : ((List.range n).map f).sum = ∑ j ∈ Finset.range n, f j := by
  induction n with
  | zero => rfl
  | succ n ih => rw [List.range_succ, List.map_append, List.sum_append, ih, Finset.sum_range_succ]; simp

theorem rewriteTerm_val (M p : Nat) (hM : 0 < M) (hp : 2 ≤ p) (hd : p ∣ M) (t : Nat × Rat) :
    cycVal M (rewriteTerm M p t) = termVal M t := by
  unfold rewriteTerm
  dsimp only
  split
  · have h := zeta_geom M p hM hp hd
    have e : cycVal M ((List.range (p - 1)).map fun j => ((t.1 + (j + 1) * (M / p)) % M, -t.2)) =
        ∑ j ∈ Finset.range (p - 1), -(t.2 : ℂ) * zeta M ^ t.1 * zeta M ^ ((j + 1) * (M / p)) := by
      rw [cycVal_eq, List.map_map, sum_range_map]
      apply Finset.sum_congr rfl; intro j _
      simp only [Function.comp, termVal, zeta_mod M hM, pow_add]; push_cast; ring
    rw [e, ← Finset.mul_sum]
    rw [show p = (p - 1) + 1 by omega, Finset.sum_range_succ'] at h
    simp only [show p - 1 + 1 = p by omega] at h
    simp at h
    simp only [termVal]
    linear_combination (-(t.2 : ℂ) * zeta M ^ t.1) * h
  · simp [cycVal_cons, cycVal_nil]

theorem primesOf_spec (M p : Nat) (h : p ∈ primesOf M) : 2 ≤ p ∧ p ∣ M := by
  simp [primesOf] at h
  exact ⟨h.2.1.1, Nat.dvd_of_mod_eq_zero h.2.1.2⟩

/-- A sum in the basis stands for what the sum of its terms stands for. -/
theorem cycVal_norm (M : Nat) (hM : 0 < M) (l) : cycVal M (cycNorm M l) = cycVal M l := by
  unfold cycNorm
  rw [cycVal_collect]
  have : ∀ (ps : List Nat) (l : List (Nat × Rat)), (∀ p ∈ ps, 2 ≤ p ∧ p ∣ M) →
      cycVal M (ps.foldl (fun l p => l.flatMap (rewriteTerm M p)) l) = cycVal M l := by
    intro ps
    induction ps with
    | nil => intros; rfl
    | cons p ps ih =>
      intro l h
      rw [List.foldl_cons, ih _ fun q hq => h q (List.mem_cons_of_mem _ hq)]
      have hp := h p (by simp)
      induction l with
      | nil => rfl
      | cons t l ih2 => rw [List.flatMap_cons, cycVal_append, ih2, rewriteTerm_val M p hM hp.1 hp.2, cycVal_cons]
  rw [this _ _ fun p hp => primesOf_spec M p hp]
  induction l with
  | nil => rfl
  | cons t l ih => simp only [List.map_cons, cycVal_cons, ih, termVal, zeta_mod M hM]

/-- `ζ^k · a`. -/
theorem cycVal_rot (M k : Nat) (hM : 0 < M) (a) : cycVal M (cycRot M k a) = zeta M ^ k * cycVal M a := by
  rw [cycRot, cycVal_norm M hM]
  induction a with
  | nil => simp [cycVal_nil]
  | cons t a ih => simp only [List.map_cons, cycVal_cons, ih, termVal, pow_add]; ring

theorem zeta_quarter (M : Nat) (hM : 0 < M) (h4 : M % 4 = 0) : zeta M ^ (M - M / 4) = -Complex.I := by
  have h : zeta M ^ (M / 4) = Complex.I := by
    rw [← exp_turn]
    have : ((M / 4 : Nat) : ℂ) = M / 4 := by rw [Nat.cast_div (by omega) (by norm_num)]; norm_num
    rw [this]
    have hM' : (M : ℂ) ≠ 0 := by exact_mod_cast hM.ne'
    rw [show 2 * (Real.pi : ℂ) * Complex.I * ((M : ℂ) / 4) / M = Real.pi / 2 * Complex.I by field_simp; ring]
    exact Complex.exp_pi_div_two_mul_I
  have h2 : zeta M ^ (M - M / 4) * Complex.I = 1 := by
    rw [← h, ← pow_add, show M - M / 4 + M / 4 = M by omega, zeta_pow M hM]
  have := congrArg (· * (-Complex.I)) h2
  simp only [mul_assoc] at this
  simpa using this

end Sys2Proof.Laws
end

