-- ==== Sys2Proof/Laws/Numbers.lean ====
section
/-! SUPPORT. What the operations on exact numbers stand for (`00_scope.md` R16): polynomials in the real constants, real
and complex numbers, and magnitudes; and the comparisons of them, which are exact (log 4). -/

open Sys2Proof Sys2Proof.Machine

namespace Sys2Proof.Laws

/-! ## Products of constants -/

theorem monoAt_insert (c : Nat → ℝ) (k m) : monoAt c (monoInsert k m) = c k * monoAt c m := by
  induction m with
  | nil => simp [monoInsert, monoAt]
  | cons j m ih =>
    simp only [monoInsert]; split
    · simp [monoAt]
    · simp only [monoAt, List.map_cons, List.prod_cons] at *; rw [ih]; ring

theorem monoAt_mul (c : Nat → ℝ) (a b) : monoAt c (monoMul a b) = monoAt c a * monoAt c b := by
  induction a with
  | nil => simp [monoMul, monoAt]
  | cons k a ih =>
    simp only [monoMul, List.foldr_cons] at *
    rw [monoAt_insert, ih]; simp [monoAt]; ring

theorem monoAt_zero (c : Nat → ℝ) (h : ∀ k, c k = 0) (m : Mono) (hm : m ≠ []) : monoAt c m = 0 := by
  obtain ⟨k, m, rfl⟩ := List.exists_cons_of_ne_nil hm
  simp [monoAt, h]

/-! ## Real numbers -/

section

variable (c : Nat → ℝ)

theorem scalarAt_cons (t a) : scalarAt c (t :: a) = (t.coef : ℝ) * monoAt c t.mono + scalarAt c a := by simp [scalarAt]

@[simp] theorem scalarAt_nil : scalarAt c [] = 0 := by simp [scalarAt]

@[simp] theorem scalarAt_ofRat (q) : scalarAt c (scalarOfRat q) = q := by
  unfold scalarOfRat; split
  · next h => simp [h]
  · simp [scalarAt_cons, monoAt]

theorem scalarAt_addTerm (m q a) : scalarAt c (scalarAddTerm m q a) = (q : ℝ) * monoAt c m + scalarAt c a := by
  induction a with
  | nil => simp only [scalarAddTerm]; split <;> simp_all [scalarAt_cons]
  | cons t a ih =>
    simp only [scalarAddTerm]
    split
    · next h =>
      split
      · next hz =>
        have hz' : (q : ℝ) + t.coef = 0 := by exact_mod_cast hz
        rw [scalarAt_cons, h]; linear_combination (-monoAt c t.mono) * hz'
      · rw [scalarAt_cons, scalarAt_cons, h]; push_cast; ring
    split
    · split
      · next h => rw [h]; simp
      · rw [scalarAt_cons]
    · rw [scalarAt_cons, scalarAt_cons, ih]; ring

@[simp] theorem scalarAt_add (a b) : scalarAt c (scalarAdd a b) = scalarAt c a + scalarAt c b := by
  unfold scalarAdd
  induction a generalizing b with
  | nil => simp
  | cons t a ih => rw [List.foldl_cons, ih, scalarAt_addTerm, scalarAt_cons]; ring

@[simp] theorem scalarAt_scale (q a) : scalarAt c (scalarScale q a) = q * scalarAt c a := by
  unfold scalarScale; split
  · next h => simp [h]
  · induction a with
    | nil => simp
    | cons t a ih => rw [List.map_cons, scalarAt_cons, scalarAt_cons, ih]; push_cast; ring

theorem scalarAt_append (a b) : scalarAt c (a ++ b) = scalarAt c a + scalarAt c b := by simp [scalarAt]

@[simp] theorem scalarAt_mul (a b) : scalarAt c (scalarMul a b) = scalarAt c a * scalarAt c b := by
  have row : ∀ (x : ScalarTerm) (b : Scalar),
      scalarAt c (b.map fun y => ⟨monoMul x.mono y.mono, x.coef * y.coef⟩) =
        (x.coef : ℝ) * monoAt c x.mono * scalarAt c b := by
    intro x b
    induction b with
    | nil => simp
    | cons y b ih => rw [List.map_cons, scalarAt_cons, scalarAt_cons, ih, monoAt_mul]; push_cast; ring
  rw [scalarMul, scalarAt_add, scalarAt_nil, add_zero]
  induction a with
  | nil => simp
  | cons x a ih => rw [List.flatMap_cons, scalarAt_append, ih, row, scalarAt_cons]; ring

@[simp] theorem scalarAt_sub (a b) : scalarAt c (scalarSub a b) = scalarAt c a - scalarAt c b := by
  simp [scalarSub]; ring

/-- A number without constants, and one whose constants are 0. -/
theorem scalarAt_atZero (a) (h : scalarPure a = true ∨ ∀ k, c k = 0) : scalarAt c a = scalarAtZero a := by
  induction a with
  | nil => simp [scalarAtZero]
  | cons t a ih =>
    have ha : scalarPure a = true ∨ ∀ k, c k = 0 := h.imp (fun h => by simp_all [scalarPure]) id
    rw [scalarAt_cons, ih ha]
    simp only [scalarAtZero, List.foldr_cons]
    split
    · next e => rw [e]; simp [monoAt]
    · next e =>
      rcases h with h | h
      · simp [scalarPure, e] at h
      · rw [monoAt_zero c h _ e]; simp

/-! ## Complex numbers -/

variable (M : Nat)

theorem cxAt_cons (t a) : cxAt c M (t :: a) = cycVal M t.coef * ((monoAt c t.mono : ℝ) : ℂ) + cxAt c M a := by
  simp [cxAt]

@[simp] theorem cxAt_nil : cxAt c M [] = 0 := by simp [cxAt]

theorem cxAt_map (f : Cyc → Cyc) (k : ℂ) (hf : ∀ a, cycVal M (f a) = k * cycVal M a) (a : Cx) :
    cxAt c M (a.map fun t => ⟨t.mono, f t.coef⟩) = k * cxAt c M a := by
  induction a with
  | nil => simp
  | cons t a ih => rw [List.map_cons, cxAt_cons, cxAt_cons, ih, hf]; ring

@[simp] theorem cxAt_one : cxAt c M cxOne = 1 := by simp [cxAt, cxOne, monoAt, cycVal_cons, cycVal_nil, termVal]

@[simp] theorem cxAt_ofCyc (a) : cxAt c M (cxOfCyc a) = cycVal M a := by
  unfold cxOfCyc; split
  · next h => simp [h, cycVal_nil]
  · simp [cxAt, monoAt]

theorem cxAt_addTerm (m a p) : cxAt c M (cxAddTerm m a p) = cycVal M a * ((monoAt c m : ℝ) : ℂ) + cxAt c M p := by
  induction p with
  | nil =>
    simp only [cxAddTerm]; split
    · next h => simp [h, cycVal_nil]
    · simp [cxAt_cons]
  | cons t p ih =>
    simp only [cxAddTerm]
    split
    · next h =>
      have e := cycVal_add M a t.coef
      split
      · next hz =>
        rw [hz, cycVal_nil] at e
        rw [cxAt_cons, h]; linear_combination ((monoAt c t.mono : ℝ) : ℂ) * e
      · rw [cxAt_cons, cxAt_cons, e, h]; ring
    split
    · split
      · next h => rw [h, cycVal_nil]; ring
      · rw [cxAt_cons]
    · rw [cxAt_cons, cxAt_cons, ih]; ring

@[simp] theorem cxAt_add (a b) : cxAt c M (cxAdd a b) = cxAt c M a + cxAt c M b := by
  unfold cxAdd
  induction a generalizing b with
  | nil => simp
  | cons t a ih => rw [List.foldl_cons, ih, cxAt_addTerm, cxAt_cons]; ring

/-- A rational multiple. -/
@[simp] theorem cxAt_scale (q a) : cxAt c M (cxScale q a) = (q : ℂ) * cxAt c M a := by
  unfold cxScale; split
  · next h => simp [h]
  · exact cxAt_map c M _ q (cycVal_scale M q) a

/-- `ζ^k · a`. -/
theorem cxAt_rot (k : Nat) (hM : 0 < M) (a) : cxAt c M (cxRot M k a) = zeta M ^ k * cxAt c M a :=
  cxAt_map c M _ _ (cycVal_rot M k hM) a

/-- A product, where that of its coefficients is exact. -/
theorem cxAt_mul_of (h : ∀ a b, cycVal M (cycMul M a b) = cycVal M a * cycVal M b) (a b) :
    cxAt c M (cxMul M a b) = cxAt c M a * cxAt c M b := by
  have app : ∀ a b : Cx, cxAt c M (a ++ b) = cxAt c M a + cxAt c M b := fun a b => by simp [cxAt]
  have row : ∀ (x : CxTerm) (b : Cx),
      cxAt c M (b.map fun y => ⟨monoMul x.mono y.mono, cycMul M x.coef y.coef⟩) =
        cycVal M x.coef * ((monoAt c x.mono : ℝ) : ℂ) * cxAt c M b := by
    intro x b
    induction b with
    | nil => simp
    | cons y b ih => rw [List.map_cons, cxAt_cons, cxAt_cons, ih, monoAt_mul, h]; push_cast; ring
  rw [cxMul, cxAt_add, cxAt_nil, add_zero]
  induction a with
  | nil => simp
  | cons x a ih => rw [List.flatMap_cons, app, ih, row, cxAt_cons]; ring

/-- A conjugate, where that of its coefficients is exact. -/
theorem cxAt_conj_of (h : ∀ a, cycVal M (cycConj M a) = (starRingEnd ℂ) (cycVal M a)) (a) :
    cxAt c M (cxConj M a) = (starRingEnd ℂ) (cxAt c M a) := by
  unfold cxConj
  induction a with
  | nil => simp
  | cons x a ih => rw [List.map_cons, cxAt_cons, ih, cxAt_cons, map_add, map_mul, h]; simp

@[simp] theorem cxAt_neg (a) : cxAt c M (cxNeg a) = -cxAt c M a := by simp [cxNeg]

@[simp] theorem cxAt_sub (a b) : cxAt c M (cxSub a b) = cxAt c M a - cxAt c M b := by simp [cxSub]; ring

/-- The same number in its normal form. -/
theorem cxAt_norm (hM : 0 < M) (a) : cxAt c M (cxNorm M a) = cxAt c M a := by
  rw [cxNorm, cxAt_add, cxAt_nil, add_zero, cxAt_map c M _ 1 (fun a => by rw [cycVal_norm M hM, one_mul]), one_mul]

theorem cxAt_ofScalar (a) : cxAt c M (cxOfScalar a) = ((scalarAt c a : ℝ) : ℂ) := by
  unfold cxOfScalar
  induction a with
  | nil => simp
  | cons t a ih =>
    have e : cycVal M (if t.coef = 0 then [] else [(0, t.coef)]) = ((t.coef : ℚ) : ℂ) := by
      split
      · next h => rw [h, cycVal_nil]; simp
      · simp [cycVal_cons, cycVal_nil, termVal]
    rw [List.map_cons, cxAt_cons, scalarAt_cons, ih, e]; push_cast; ring

/-- Every complex number has a form, for the constants that are its parts. -/
theorem cxAt_constants (h4 : M % 4 = 0) (hM : 0 < M) :
    cxAt c M [⟨[0], [(0, 1)]⟩, ⟨[1], [(M / 4, 1)]⟩] = (c 0 : ℂ) + (c 1 : ℂ) * Complex.I := by
  have h : zeta M ^ (M / 4) = Complex.I := by
    have h1 := zeta_quarter M hM h4
    have h2 : zeta M ^ (M - M / 4) * zeta M ^ (M / 4) = 1 := by
      rw [← pow_add, show M - M / 4 + M / 4 = M by omega, zeta_pow M hM]
    rw [h1] at h2
    linear_combination Complex.I * h2 + zeta M ^ (M / 4) * Complex.I_mul_I
  simp [cxAt, monoAt, cycVal_cons, cycVal_nil, termVal, h]; ring

/-- A number without constants, and one whose constants are 0. -/
theorem cxAt_atZero (a) (h : cxPure a = true ∨ ∀ k, c k = 0) : cxAt c M a = cycVal M (cxAtZero a) := by
  induction a with
  | nil => simp [cxAtZero, cycVal_nil]
  | cons t a ih =>
    have ha : cxPure a = true ∨ ∀ k, c k = 0 := h.imp (fun h => by simp_all [cxPure]) id
    rw [cxAt_cons, ih ha]
    simp only [cxAtZero, List.foldr_cons]
    split
    · next e => rw [e, cycVal_add]; simp [monoAt]
    · next e =>
      rcases h with h | h
      · simp [cxPure, e] at h
      · rw [monoAt_zero c h _ e]; simp

theorem cxRat_re {z : Cx} {q : Rat} (h : cxRat? z = some q) : (cxAt c M z).re = q := by
  unfold cxRat? at h
  split at h
  · cases h; simp
  · cases h; simp [cxAt, monoAt, cycVal_cons, cycVal_nil, termVal]
  · cases h

/-! ## Magnitudes -/

theorem magAt_cons (t x) : magAt c M (t :: x) =
    scalarAt c t.coef * Real.sqrt (cxAt c M t.radicand).re + magAt c M x := by simp [magAt]

@[simp] theorem magAt_nil : magAt c M [] = 0 := by simp [magAt]

theorem ratSqrt_spec {q s : Rat} (h : ratSqrt? q = some s) : 0 ≤ s ∧ s * s = q := by
  unfold ratSqrt? at h
  dsimp only at h
  split at h
  · next hc =>
    cases h
    refine ⟨by positivity, ?_⟩
    have hb : (isqrt q.den : ℚ) * isqrt q.den = q.den := by exact_mod_cast hc.2.2
    have ha : (isqrt q.num.natAbs : ℚ) * isqrt q.num.natAbs = q.num := by
      have : (isqrt q.num.natAbs : ℚ) * isqrt q.num.natAbs = (q.num.natAbs : ℚ) := by exact_mod_cast hc.2.1
      rw [this, Nat.cast_natAbs, abs_of_nonneg (Rat.num_nonneg.2 hc.1)]
    rw [div_mul_div_comm, ha, hb, Rat.num_div_den]
  · cases h

theorem cxRatio_spec {a b : Cx} {r : Rat} (h : cxRatio? a b = some r) : cxScale r b = a := by
  unfold cxRatio? at h
  split at h
  · split at h
    · next hc => cases h; exact hc
    · cases h
  · cases h

theorem sqrt_ratio {a b : Cx} {r s : Rat} (h : cxRatio? a b = some r) (h2 : ratSqrt? r = some s) :
    Real.sqrt (cxAt c M a).re = s * Real.sqrt (cxAt c M b).re := by
  obtain ⟨h3, h4⟩ := ratSqrt_spec h2
  rw [← cxRatio_spec h, cxAt_scale, ← Complex.ofReal_ratCast, Complex.re_ofReal_mul, ← h4]
  have : (0 : ℝ) ≤ s := by exact_mod_cast h3
  push_cast
  rw [Real.sqrt_mul (by positivity), Real.sqrt_mul_self this]

theorem magAt_addTerm (k a x) : magAt c M (magAddTerm k a x) =
    scalarAt c k * Real.sqrt (cxAt c M a).re + magAt c M x := by
  induction x with
  | nil => simp [magAddTerm, magAt_cons]
  | cons t x ih =>
    simp only [magAddTerm]
    split
    · next s hs =>
      obtain ⟨r, h1, h2⟩ := Option.bind_eq_some_iff.1 hs
      have e := sqrt_ratio c M h1 h2
      have e2 : scalarAt c (scalarAdd t.coef (scalarScale s k)) = scalarAt c t.coef + s * scalarAt c k := by simp
      split
      · next h0 =>
        rw [h0] at e2
        have h0' : (0 : ℝ) = scalarAt c t.coef + s * scalarAt c k := by rw [← e2]; simp [scalarAt]
        rw [magAt_cons, e]; linear_combination (Real.sqrt (cxAt c M t.radicand).re) * h0'
      · rw [magAt_cons, magAt_cons, e, e2]; ring
    · rw [magAt_cons, magAt_cons, ih]; ring

/-- A sum of magnitudes. -/
@[simp] theorem magAt_add (x y) : magAt c M (magAdd x y) = magAt c M x + magAt c M y := by
  unfold magAdd
  induction x generalizing y with
  | nil => simp
  | cons t x ih => rw [List.foldl_cons, ih, magAt_addTerm, magAt_cons]; ring

/-- A real multiple of a magnitude. -/
@[simp] theorem magAt_scale (r x) : magAt c M (magScale r x) = scalarAt c r * magAt c M x := by
  unfold magScale; split
  · next h => simp [h, scalarAt]
  · induction x with
    | nil => simp
    | cons t x ih => rw [List.map_cons, magAt_cons, magAt_cons, ih]; simp; ring

/-- A rational multiple of a magnitude. -/
@[simp] theorem magAt_scaleRat (q x) : magAt c M (magScaleRat q x) = q * magAt c M x := by simp [magScaleRat]

/-- A difference of magnitudes. -/
@[simp] theorem magAt_sub (x y) : magAt c M (magSub x y) = magAt c M x - magAt c M y := by simp [magSub]; ring

/-- A sum of a list of magnitudes. -/
theorem magAt_sum (l) : magAt c M (magSum l) = (l.map (magAt c M)).sum := by
  induction l with
  | nil => simp [magSum]
  | cons a l ih => simp only [magSum, List.foldr_cons] at *; rw [magAt_add, ih]; simp

/-- A square root. -/
theorem magAt_sqrt (a) : magAt c M (magSqrt a) = Real.sqrt (cxAt c M a).re := by
  have h1 : magAt c M [⟨scalarOfRat 1, a⟩] = Real.sqrt (cxAt c M a).re := by simp [magAt_cons]
  unfold magSqrt
  split
  · next q h =>
    split
    · next r hr =>
      obtain ⟨h3, h4⟩ := ratSqrt_spec hr
      rw [cxRat_re c M h, ← h4]
      have : (0 : ℝ) ≤ r := by exact_mod_cast h3
      push_cast; rw [Real.sqrt_mul_self this]
      split
      · next h0 => simp [h0]
      · simp [magAt_cons]
    · exact h1
  · exact h1

theorem magAt_atZero (x) (h : magPure x = true ∨ ∀ k, c k = 0) : magAt c M x = surdVal M (magAtZero x) := by
  induction x with
  | nil => simp [magAtZero, surdVal]
  | cons t x ih =>
    have h1 : (scalarPure t.coef = true ∧ cxPure t.radicand = true ∧ magPure x = true) ∨ ∀ k, c k = 0 := by
      refine h.imp (fun h => ?_) id
      simp only [magPure, List.all_cons, Bool.and_eq_true] at h ⊢
      exact ⟨h.1.1, h.1.2, h.2⟩
    rw [magAt_cons, ih (h1.imp (·.2.2) id), scalarAt_atZero c _ (h1.imp (·.1) id),
      cxAt_atZero c M _ (h1.imp (·.2.1) id)]
    simp [magAtZero, surdVal]

end

/-! ## The comparisons -/

/-- Every sequence of real numbers and every monotone `SIGNAL_REPR` have a record. -/
theorem realRecord_exists (c : Nat → ℝ) (f : ℝ → Word) (hf : ∀ x y, x ≤ y → (f x).toNat ≤ (f y).toNat) :
    ∃ r : RealRecord, r.const = c ∧ ∀ M x, r.signalRepr M x = f (magAt c M x) := by
  classical
  exact ⟨{ const := c
           reSign := fun M z => SignType.sign (cxAt c M z).re
           magSign := fun M x => SignType.sign (magAt c M x)
           hertzSign := fun M f => SignType.sign (hertzAt c M f)
           hertzFloor := fun M f => ⌊hertzAt c M f⌋
           argBelow := fun M z ε => decide (|Complex.arg (cxAt c M z)| < scalarAt c ε)
           belowHalfPi := fun ε => decide (scalarAt c ε < Real.pi / 2)
           signalRepr := fun M x => f (magAt c M x)
           reSign_eq := fun _ _ => rfl
           magSign_eq := fun _ _ => rfl
           hertzSign_eq := fun _ _ => rfl
           hertzFloor_eq := fun _ _ => rfl
           argBelow_iff := fun _ _ _ => by simp
           belowHalfPi_iff := fun _ => by simp
           signalRepr_mono := fun _ _ _ h => hf _ _ h }, rfl, fun _ _ => rfl⟩

/-- What a comparison that is computed without constants, and else by the record, answers: what the record does, if both
ways are right. -/
theorem byRecord {β : Type} {pure : Bool} {z w : β} {f : RealRecord → β} (h1 : pure = true → z = w)
    (h2 : (∀ k, Config.const k = 0) → z = w) (h3 : ∀ r : RealRecord, Config.const = r.const → f r = w) :
    (if pure then z else match Config.reals with | some r => f r | none => z) = w := by
  split
  · next h => exact h1 h
  split
  · next r hr => exact h3 r (by simp [Config.const, hr])
  · next hr => exact h2 fun k => by simp [Config.const, hr]

/-- The sign of the real part is exact. -/
theorem reSign_eq (M : Nat) (hM : 0 < M) (z : Cx) : reSign M z = SignType.sign (cxVal M z).re := by
  have key : ∀ h : cxPure z = true ∨ ∀ k, Config.const k = 0, cycSign M (cxAtZero z) = SignType.sign (cxVal M z).re :=
    fun h => by rw [cycSign_eq M hM, cxVal, cxAt_atZero _ M z h]
  exact byRecord (fun h => key (.inl h)) (fun h => key (.inr h)) fun r h => by rw [r.reSign_eq, cxVal, h]

/-- The sign of a sum of magnitudes is exact. -/
theorem magSign_eq (M : Nat) (hM : 0 < M) (x : Mag) : magSign M x = SignType.sign (magVal M x) := by
  have key : ∀ h : magPure x = true ∨ ∀ k, Config.const k = 0, surdSign M (magAtZero x) = SignType.sign (magVal M x) :=
    fun h => by rw [surdSign_eq M hM, magVal, magAt_atZero _ M x h]
  exact byRecord (fun h => key (.inl h)) (fun h => key (.inr h)) fun r h => by rw [r.magSign_eq, magVal, h]

theorem sign_range (x : ℝ) : (SignType.sign x : Int) ∈ [-1, 0, 1] := by
  rcases lt_trichotomy x 0 with h | h | h
  · rw [sign_neg h]; decide
  · rw [h]; simp
  · rw [sign_pos h]; decide

theorem refine_range (bounds : Nat → Int × Int) (fuel p : Nat) : refine bounds fuel p ∈ [(-1 : Int), 0, 1] := by
  induction fuel generalizing p with
  | zero => simp [refine]
  | succ n ih =>
    simp only [refine]; split
    · decide
    split
    · decide
    · exact ih _

/-- A sign is -1, 0 or 1, whatever the order. -/
theorem reSign_range (M : Nat) (z : Cx) : reSign M z ∈ [(-1 : Int), 0, 1] := by
  have key : cycSign M (cxAtZero z) ∈ [(-1 : Int), 0, 1] := by
    unfold cycSign; split
    · unfold ratSign; split
      · decide
      split <;> decide
    · exact refine_range _ _ _
  unfold reSign
  split
  · exact key
  split
  · next r _ => rw [r.reSign_eq]; exact sign_range _
  · exact key

theorem sgn_zero {x : ℝ} (h : (SignType.sign x : Int) = 0) : x = 0 := by
  rcases lt_trichotomy x 0 with h1 | h1 | h1
  · rw [sign_neg h1] at h; exact absurd h (by decide)
  · exact h1
  · rw [sign_pos h1] at h; exact absurd h (by decide)

theorem sgn_pos {x : ℝ} (h : 0 < (SignType.sign x : Int)) : 0 < x := by
  rcases lt_trichotomy x 0 with h1 | h1 | h1
  · rw [sign_neg h1] at h; exact absurd h (by decide)
  · rw [h1] at h; simp at h
  · exact h1

theorem sgn_neg {x : ℝ} (h : (SignType.sign x : Int) < 0) : x < 0 := by
  rcases lt_trichotomy x 0 with h1 | h1 | h1
  · exact h1
  · rw [h1] at h; simp at h
  · rw [sign_pos h1] at h; exact absurd h (by decide)

theorem sgn_pos_iff {x : ℝ} : 0 < (SignType.sign x : Int) ↔ 0 < x := ⟨sgn_pos, fun h => by rw [sign_pos h]; decide⟩

theorem sgn_neg_iff {x : ℝ} : (SignType.sign x : Int) < 0 ↔ x < 0 := ⟨sgn_neg, fun h => by rw [sign_neg h]; decide⟩

theorem sgn_zero_iff {x : ℝ} : (SignType.sign x : Int) = 0 ↔ x = 0 := ⟨sgn_zero, fun h => by rw [h]; simp⟩

/-- The order of magnitudes. -/
theorem magLt_iff (M : Nat) (hM : 0 < M) (x y : Mag) : magLt M x y = true ↔ magVal M x < magVal M y := by
  rw [magLt, decide_eq_true_iff, magSign_eq M hM, sgn_neg_iff, magVal, magAt_sub, sub_neg]

/-- The sign of a real number. -/
theorem scalarSign_eq (a : Scalar) : scalarSign a = SignType.sign (scalarVal a) := by
  rw [scalarSign, reSign_eq 1 one_pos, cxVal, cxAt_ofScalar]; simp

/-- The order of real numbers. -/
theorem scalarLt_iff (a b : Scalar) : scalarLt a b = true ↔ scalarVal a < scalarVal b := by
  rw [scalarLt, decide_eq_true_iff, scalarSign_eq, sgn_neg_iff, scalarVal, scalarAt_sub, sub_neg]

end Sys2Proof.Laws
end

