-- ==== Sys2Proof/Laws/Denote.lean ====
section
/-! SUPPORT. What the operations on angles and hertz stand for (`00_scope.md` R16), where products and conjugates are
exact (`Exact`), and that their comparisons are exact. -/

open Sys2Proof Sys2Proof.Machine

namespace Sys2Proof.Laws

/-! ## Angles and hertz -/

/-- What the sums of arguments rest on: the order is a multiple of 4, and products and conjugates are those of the
complex numbers. -/
def Exact (M : Nat) : Prop :=
  0 < M ∧ M % 4 = 0 ∧ ∀ a b : Cx,
    cxVal M (cxMul M a b) = cxVal M a * cxVal M b ∧ cxVal M (cxConj M a) = (starRingEnd ℂ) (cxVal M a)

theorem exact_mul {M : Nat} (hE : Exact M) (a b : Cx) : cxVal M (cxMul M a b) = cxVal M a * cxVal M b := (hE.2.2 a b).1

theorem exact_conj {M : Nat} (hE : Exact M) (a : Cx) : cxVal M (cxConj M a) = (starRingEnd ℂ) (cxVal M a) :=
    (hE.2.2 a []).2

/-- The real part. -/
theorem cxVal_re (M : Nat) (hE : Exact M) (a : Cx) : cxVal M (cxRe M a) = ((cxVal M a).re : ℂ) := by
  have h := exact_conj hE a
  rw [cxVal] at h
  rw [cxRe, cxVal, cxAt_scale, cxAt_add, h, Complex.add_conj]; push_cast; ring

/-- The imaginary part. -/
theorem cxVal_im (M : Nat) (hE : Exact M) (a : Cx) : cxVal M (cxIm M a) = ((cxVal M a).im : ℂ) := by
  rw [cxIm, cxVal_re M hE, cxVal, cxAt_rot _ M _ hE.1, zeta_quarter M hE.1 hE.2.1]; simp

/-- The sign of the real part. -/
theorem cxSignRe_eq (M : Nat) (hE : Exact M) (a : Cx) : cxSignRe M a = SignType.sign (cxVal M a).re := by
  rw [cxSignRe, reSign_eq M hE.1, cxVal_re M hE]; simp

/-- The sign of the imaginary part. -/
theorem cxSignIm_eq (M : Nat) (hE : Exact M) (a : Cx) : cxSignIm M a = SignType.sign (cxVal M a).im := by
  rw [cxSignIm, cxSignRe_eq M hE, cxVal, cxAt_rot _ M _ hE.1, zeta_quarter M hE.1 hE.2.1]; simp

/-- The sign of the argument. -/
theorem argSign_eq (M : Nat) (hE : Exact M) (z : Cx) : argSign M z = SignType.sign (Complex.arg (cxVal M z)) := by
  unfold argSign
  simp only [cxSignIm_eq M hE, cxSignRe_eq M hE]
  generalize cxVal M z = w
  rcases lt_trichotomy w.im 0 with h | h | h
  · rw [sign_neg h, sign_neg (Complex.arg_neg_iff.2 h)]; simp
  · rw [h]; simp
    rcases lt_or_ge w.re 0 with h2 | h2
    · rw [sign_neg h2, Complex.arg_of_re_neg_of_im_nonneg h2 h.ge]
      have : Complex.arg w = Real.pi := Complex.arg_eq_pi_iff.2 ⟨h2, h⟩
      rw [Complex.arg_of_re_neg_of_im_nonneg h2 h.ge] at this
      rw [this, sign_pos Real.pi_pos]; rfl
    · have : Complex.arg w = 0 := Complex.arg_eq_zero_iff.2 ⟨h2, h⟩
      rw [this];
      rcases h2.lt_or_eq with h3 | h3
      · rw [sign_pos h3]; simp
      · rw [← h3]; simp
  · have h5 : 0 < Complex.arg w := by
      rcases (Complex.arg_nonneg_iff.2 h.le).lt_or_eq with h3 | h3
      · exact h3
      · have := (Complex.arg_eq_zero_iff.1 h3.symm).2; linarith
    rw [sign_pos h, sign_pos h5]; simp

/-- A direction has the argument of its number. -/
theorem direction_arg (M : Nat) (hE : Exact M) (z : Cx) :
    Complex.arg (cxVal M (direction M z)) = Complex.arg (cxVal M z) := by
  unfold direction
  split
  · next h => rw [argSign_eq M hE, sgn_zero_iff] at h; rw [h]; simp
  split
  · next e q r _ =>
    split
    · rfl
    · next h =>
      rw [cxVal, cxAt_scale]
      have : 0 < (1 / |q| : ℚ) := by positivity
      have h2 : (0 : ℝ) < ((1 / |q| : ℚ) : ℝ) := by exact_mod_cast this
      have := Complex.arg_real_mul (cxVal M [⟨[], (e, q) :: r⟩]) h2
      rw [← this]; congr 2
  · rfl

/-- The argument of a product. -/
theorem arg_mul_windings (x y : ℂ) (h1 : ¬ Complex.arg x = 0) (h2 : ¬ Complex.arg y = 0) :
    Complex.arg x + Complex.arg y = Complex.arg (x * y) + 2 * Real.pi *
      (windings (SignType.sign (Complex.arg x)) (SignType.sign (Complex.arg y))
        (SignType.sign (Complex.arg (x * y))) : ℤ) := by
  have hx0 : x ≠ 0 := fun h => h1 (by rw [h]; simp)
  have hy0 : y ≠ 0 := fun h => h2 (by rw [h]; simp)
  have hc := Complex.arg_mul_coe_angle hx0 hy0
  rw [← Real.Angle.coe_add, Real.Angle.angle_eq_iff_two_pi_dvd_sub] at hc
  obtain ⟨k, hk⟩ := hc
  have b1 := Complex.arg_le_pi x; have b2 := Complex.neg_pi_lt_arg x
  have b3 := Complex.arg_le_pi y; have b4 := Complex.neg_pi_lt_arg y
  have b5 := Complex.arg_le_pi (x*y); have b6 := Complex.neg_pi_lt_arg (x*y)
  have hpi := Real.pi_pos
  unfold windings
  simp only [sgn_pos_iff, sgn_neg_iff]
  have hle : ∀ r : ℝ, ((SignType.sign r : Int) ≤ 0 ↔ r ≤ 0) := fun r => by rw [← not_lt, sgn_pos_iff, not_lt]
  simp only [hle]
  set A := Complex.arg x
  set B := Complex.arg y
  set C := Complex.arg (x*y)
  have hk1 : (-2 : ℝ) < k := by nlinarith
  have hk2 : (k : ℝ) < 2 := by nlinarith
  have hk1' : -2 < k := by exact_mod_cast hk1
  have hk2' : k < 2 := by exact_mod_cast hk2
  have : k = -1 ∨ k = 0 ∨ k = 1 := by omega
  have hA := lt_or_gt_of_ne h1
  have hB := lt_or_gt_of_ne h2
  rcases this with rfl | rfl | rfl <;> push_cast at hk <;> split
  · push_cast; linarith
  · next n1 =>
    exfalso; apply n1
    refine ⟨?_, ?_, ?_⟩
    · rcases hA with h | h
      · linarith
      · exact h
    · rcases hB with h | h
      · linarith
      · exact h
    · linarith
  · next h => exfalso; linarith [h.1, h.2.1, h.2.2]
  · split
    · next h => exfalso; linarith [h.1, h.2.1, h.2.2]
    · push_cast; linarith
  · next h => exfalso; linarith [h.1, h.2.1, h.2.2]
  · split
    · push_cast; linarith
    · next n1 n2 =>
      exfalso; apply n2
      refine ⟨?_, ?_, ?_⟩
      · rcases hA with h | h
        · exact h
        · linarith
      · rcases hB with h | h
        · exact h
        · linarith
      · linarith

/-- A sum of angles. -/
theorem angleAdd_val (M : Nat) (hE : Exact M) (a b : Angle) :
    angleVal M (angleAdd M a b) = angleVal M a + angleVal M b := by
  unfold angleAdd
  simp only [argSign_eq M hE, sgn_zero_iff]
  set x := cxVal M a.dir with hx
  set y := cxVal M b.dir with hy
  split
  · next h => simp only [angleAt, ← hx, ← hy, h]; push_cast; ring
  split
  · next h => simp only [angleAt, ← hx, ← hy, h]; push_cast; ring
  · next h1 h2 =>
    simp only [angleAt, direction_arg M hE, exact_mul hE, ← hx, ← hy]
    have key := arg_mul_windings x y h1 h2
    push_cast; linarith

/-- The opposite angle. -/
theorem angleNeg_val (M : Nat) (hE : Exact M) (a : Angle) : angleVal M (angleNeg M a) = -angleVal M a := by
  unfold angleNeg
  simp only [cxSignIm_eq M hE, cxSignRe_eq M hE, sgn_zero_iff, sgn_neg_iff]
  split
  · next h =>
    have := Complex.arg_eq_pi_iff.2 ⟨h.2, h.1⟩
    simp only [angleAt, this]; push_cast; ring
  · next h =>
    simp only [angleAt, exact_conj hE]
    rw [Complex.arg_conj, if_neg]
    · push_cast; ring
    · intro hp; exact h ((Complex.arg_eq_pi_iff.1 hp).symm)

/-- The sign of an angle. -/
theorem angleSign_eq (M : Nat) (hE : Exact M) (a : Angle) : angleSign M a = SignType.sign (angleVal M a) := by
  unfold angleSign angleVal angleAt
  have b1 := Complex.arg_le_pi (cxVal M a.dir); have b2 := Complex.neg_pi_lt_arg (cxVal M a.dir)
  have hpi := Real.pi_pos
  split
  · next h => rw [argSign_eq M hE, h]; simp
  split
  · next h =>
    have : (1 : ℝ) ≤ a.turns := by exact_mod_cast h
    rw [sign_pos (by nlinarith)]; rfl
  · next h1 h2 =>
    have : (a.turns : ℝ) ≤ -1 := by exact_mod_cast (by omega : a.turns ≤ -1)
    rw [sign_neg (by nlinarith)]; rfl

/-- The order of angles. -/
theorem angleLt_iff (M : Nat) (hE : Exact M) (a b : Angle) : angleLt M a b = true ↔ angleVal M a < angleVal M b := by
  rw [angleLt, decide_eq_true_iff, angleSign_eq M hE, sgn_neg_iff, angleAdd_val M hE, angleNeg_val M hE]
  constructor <;> intro h <;> linarith

theorem angleZero_val (M) : angleVal M angleZero = 0 := by simp [angleZero, angleAt]

/-- A sum of a list of angles. -/
theorem angleSum_val (M : Nat) (hE : Exact M) (l : List Angle) : angleVal M (angleSum M l) =
    (l.map (angleVal M)).sum := by
  induction l with
  | nil => exact angleZero_val M
  | cons a l ih => simp only [angleSum, List.foldr_cons] at *; rw [angleAdd_val M hE, ih]; simp

theorem angleTimes_val (M : Nat) (hE : Exact M) (n : Nat) (a) : angleVal M (angleTimes M n a) = n * angleVal M a := by
  induction n with
  | zero => simp [angleTimes, angleZero_val]
  | succ n ih => rw [angleTimes, angleAdd_val M hE, ih]; push_cast; ring

/-- An integer multiple of an angle. -/
theorem angleTimesInt_val (M : Nat) (hE : Exact M) (n : Int) (a) : angleVal M (angleTimesInt M n a) =
    n * angleVal M a := by
  unfold angleTimesInt; split
  · next h => rw [angleTimes_val M hE]; congr 1; exact_mod_cast Int.toNat_of_nonneg h
  · next h =>
    rw [angleNeg_val M hE, angleTimes_val M hE]
    have : ((-n).toNat : ℝ) = -n := by exact_mod_cast Int.toNat_of_nonneg (by omega : 0 ≤ -n)
    rw [this]; ring
section

variable {M : Nat}

/-- What the angles of a number of hertz stand for. -/
noncomputable def partsVal (M : Nat) (l : List (Scalar × Angle)) : ℝ :=
  (l.map fun t => scalarVal t.1 * (angleVal M t.2 / (2 * Real.pi))).sum

theorem partsVal_cons (t l) : partsVal M (t :: l) = scalarVal t.1 * (angleVal M t.2 / (2 * Real.pi)) + partsVal M l :=
  rfl

theorem hertzVal_eq (f) : hertzVal M f = scalarVal f.base + partsVal M f.parts := rfl

/-- What a number of hertz with rational coefficients stands for. -/
noncomputable def ratHertzVal (M : Nat) (f : RatHertz) : ℝ :=
  f.base + (f.parts.map fun t => ((t.1 : ℚ) : ℝ) * (angleVal M t.2 / (2 * Real.pi))).sum

/-- What its angles stand for. -/
noncomputable def ratPartsVal (M : Nat) (l : List (Rat × Angle)) : ℝ :=
  (l.map fun t => ((t.1 : ℚ) : ℝ) * (angleVal M t.2 / (2 * Real.pi))).sum

theorem ratPartsVal_cons (t l) : ratPartsVal M (t :: l) = ((t.1 : ℚ) : ℝ) * (angleVal M t.2 / (2 * Real.pi)) +
    ratPartsVal M l := rfl

/-- A number of hertz whose coefficients are without constants, or whose constants are 0. -/
theorem hertzVal_atZero (f : Hertz) (h : hertzPure f = true ∨ ∀ k, Config.const k = 0) :
    hertzVal M f = ratHertzVal M (hertzAtZero f) := by
  obtain ⟨b, l⟩ := f
  have h' : (scalarPure b = true ∧ (l.all fun t => scalarPure t.1) = true) ∨ ∀ k, Config.const k = 0 :=
    h.imp (by simp [hertzPure]) id
  have hl : ∀ l : List (Scalar × Angle), ((l.all fun t => scalarPure t.1) = true ∨ ∀ k, Config.const k = 0) →
      partsVal M l = ratPartsVal M (l.map fun t => (scalarAtZero t.1, t.2)) := by
    intro l
    induction l with
    | nil => intro _; rfl
    | cons t l ih =>
      intro h
      have h1 : (scalarPure t.1 = true ∧ (l.all fun t => scalarPure t.1) = true) ∨ ∀ k, Config.const k = 0 :=
        h.imp (by simp) id
      rw [partsVal_cons, List.map_cons, ratPartsVal_cons, ih (h1.imp (·.2) id), scalarVal,
        scalarAt_atZero _ _ (h1.imp (·.1) id)]
  rw [hertzVal_eq, hl l (h'.imp (·.2) id), scalarVal, scalarAt_atZero _ b (h'.imp (·.1) id)]
  rfl

theorem hertzVal_addRat (q f) : hertzVal M (hertzAddRat q f) = q + hertzVal M f := by
  simp [hertzVal_eq, hertzAddRat]; ring

theorem addPart_val (hE : Exact M) (c : Scalar) (θ : Angle) (l) : partsVal M (addPart M c θ l) =
    scalarVal c * (angleVal M θ / (2 * Real.pi)) + partsVal M l := by
  induction l with
  | nil => simp [addPart, partsVal]
  | cons t l ih =>
    simp only [addPart]; split
    · next h => rw [partsVal_cons, partsVal_cons, angleAdd_val M hE, ← h]; dsimp only; ring
    · rw [partsVal_cons, partsVal_cons, ih]; ring

theorem angleVal_dir (z : Cx) : angleVal M ⟨0, z⟩ = Complex.arg (cxVal M z) := by simp [angleAt]

/-- The argument of a multiple of one root of unity, in turns. -/
theorem rootTurn_val (hM : 0 < M) (h2 : M % 2 = 0) (e : Nat) (q : Rat) (hq : q ≠ 0) :
    (rootTurn M e q : ℝ) = Complex.arg (cycVal M [(e, q)]) / (2 * Real.pi) := by
  have hM' : (M : ℝ) ≠ 0 := by positivity
  have hpi := Real.pi_pos
  -- positive case
  have pos : ∀ e : Nat, ((if M < 2 * (e % M) then ((e % M : Nat) : Rat) / (M : Rat) - 1
      else ((e % M : Nat) : Rat) / (M : Rat) : Rat) : ℝ) = Complex.arg (zeta M ^ e) / (2 * Real.pi) := by
    intro e
    rw [← zeta_mod M hM e, ← exp_turn]
    have hlt := Nat.mod_lt e hM
    generalize e % M = f at *
    have hlt' : (f : ℝ) < M := by exact_mod_cast hlt
    rw [show 2 * (Real.pi : ℂ) * Complex.I * (f : ℂ) / (M : ℂ) =
        ((2 * Real.pi * f / M : ℝ) : ℂ) * Complex.I by push_cast; ring]
    rw [Complex.arg_exp_mul_I]
    split
    · next h =>
      have h' : (M : ℝ) < 2 * f := by exact_mod_cast h
      rw [(toIocMod_eq_iff Real.two_pi_pos (c := 2 * Real.pi * f / M - 2 * Real.pi)).2]
      · push_cast; field_simp
      · constructor
        · constructor
          · rw [lt_sub_iff_add_lt, lt_div_iff₀ (by positivity)]; nlinarith
          · have : 2 * Real.pi * f / M ≤ 2 * Real.pi := by rw [div_le_iff₀ (by positivity)]; nlinarith
            linarith
        · exact ⟨1, by simp⟩
    · next h =>
      have h' : 2 * (f : ℝ) ≤ M := by exact_mod_cast not_lt.1 h
      rw [(toIocMod_eq_iff Real.two_pi_pos (c := 2 * Real.pi * f / M)).2]
      · push_cast; field_simp
      · constructor
        · constructor
          · have : (0 : ℝ) ≤ 2 * Real.pi * f / M := by positivity
            linarith
          · rw [← sub_nonneg]
            have : 2 * Real.pi * f / M ≤ Real.pi := by rw [div_le_iff₀ (by positivity)]; nlinarith
            linarith
        · exact ⟨0, by simp⟩
  have neg1 : zeta M ^ (M / 2) = -1 := by
    rw [← exp_turn]
    have : ((M / 2 : Nat) : ℂ) = M / 2 := by rw [Nat.cast_div (by omega) (by norm_num)]; norm_num
    rw [this]
    have hM' : (M : ℂ) ≠ 0 := by exact_mod_cast hM.ne'
    rw [show 2 * (Real.pi : ℂ) * Complex.I * ((M : ℂ) / 2) / M = Real.pi * Complex.I by field_simp]
    exact Complex.exp_pi_mul_I
  unfold rootTurn
  dsimp only
  rw [pos]
  congr 1
  rw [cycVal_cons, cycVal_nil, add_zero, termVal]
  split
  · next h =>
    have : (0 : ℝ) < -q := by exact_mod_cast neg_pos.2 h
    have e1 := Complex.arg_real_mul (zeta M ^ (e + M / 2)) this
    rw [← e1, pow_add, neg1]; congr 1; push_cast; ring
  · next h =>
    have : (0 : ℝ) < q := by exact_mod_cast lt_of_le_of_ne (not_lt.1 h) (Ne.symm hq)
    have e1 := Complex.arg_real_mul (zeta M ^ e) this
    rw [← e1]; congr 1

theorem cxVal_root (e : Nat) (q : Rat) : cxVal M [⟨[], [(e, q)]⟩] = cycVal M [(e, q)] := by simp [cxAt, monoAt]

/-- The drift added to a number of hertz (`46_sync_controller.md` R293). -/
theorem hertzAddArg_val (hE : Exact M) (c : Scalar) (z : Cx) (f) : hertzVal M (hertzAddArg M c z f) = hertzVal M f +
    scalarVal c * (Complex.arg (cxVal M z) / (2 * Real.pi)) := by
  unfold hertzAddArg
  have hd := direction_arg M hE z
  split
  · next e q h =>
    rw [h] at hd
    have : (rootTurn M e q : ℝ) = Complex.arg (cycVal M [(e, q)]) / (2 * Real.pi) := by
      rcases ne_or_eq q 0 with hq | hq
      · exact rootTurn_val hE.1 (by have := hE.2.1; omega) e q hq
      · exfalso
        subst hq
        have h0 : argSign M z = 0 := by
          rw [argSign_eq M hE, sgn_zero_iff, ← hd, cxVal_root, cycVal_cons, cycVal_nil]; simp [termVal]
        unfold direction at h
        rw [if_pos h0] at h
        simp [cxOne] at h
    rw [hertzVal_eq, hertzVal_eq, scalarVal, scalarAt_add, scalarAt_scale, this, ← hd, cxVal_root]; ring
  · rw [hertzVal_eq, addPart_val hE, angleVal_dir, hd, hertzVal_eq]; ring

theorem hertzDen_spec (f : RatHertz) : f.base.den ∣ hertzDen f ∧ (∀ t ∈ f.parts, t.1.den ∣ hertzDen f) ∧
    0 < hertzDen f := by
  obtain ⟨b, l⟩ := f
  simp only [hertzDen]
  induction l with
  | nil => simp [b.pos]
  | cons t l ih =>
    refine ⟨ih.1.trans (Nat.dvd_lcm_right _ _), fun u hu => ?_, Nat.lcm_pos t.1.pos ih.2.2⟩
    rcases List.mem_cons.1 hu with rfl | h
    · exact Nat.dvd_lcm_left _ _
    · exact (ih.2.1 u h).trans (Nat.dvd_lcm_right _ _)

theorem hertzCoeff_val (f : RatHertz) (q : Rat) (h : q.den ∣ hertzDen f) : (hertzCoeff f q : ℝ) = hertzDen f * q := by
  rw [clear_den (K := ℝ) q _ h, hertzCoeff]

theorem hertzGcd_spec (f : RatHertz) : (hertzGcd f : Int) ∣ hertzCoeff f f.base ∧ ∀ t ∈ f.parts,
    (hertzGcd f : Int) ∣ hertzCoeff f t.1 := by
  obtain ⟨b, l⟩ := f
  suffices h : ∀ (c : Rat → Int) (l : List (Rat × Angle)) (g : Nat),
      g = l.foldr (fun t g => Nat.gcd (c t.1).natAbs g) (c b).natAbs → (g : Int) ∣ c b ∧ ∀ t ∈ l, (g : Int) ∣ c t.1 from
    h _ l _ rfl
  intro c l
  induction l with
  | nil => rintro g rfl; simp
  | cons t l ih =>
    rintro g rfl
    obtain ⟨h1, h2⟩ := ih _ rfl
    have hg := Int.natCast_dvd_natCast.2
      (Nat.gcd_dvd_right (c t.1).natAbs (l.foldr (fun t g => Nat.gcd (c t.1).natAbs g) (c b).natAbs))
    refine ⟨hg.trans h1, fun u hu => ?_⟩
    rcases List.mem_cons.1 hu with rfl | h
    · exact (Int.natCast_dvd_natCast.2 (Nat.gcd_dvd_left _ _)).trans (Int.natAbs_dvd_self.trans dvd_rfl)
    · exact hg.trans (h2 u h)

/-- The sign of a number of hertz. -/
theorem ratHertzSign_eq (hE : Exact M) (f) : ratHertzSign M f = SignType.sign (ratHertzVal M f) := by
  unfold ratHertzSign
  split
  · next h => rw [ratSign_eq]; simp [ratHertzVal, h]
  · rw [angleSign_eq M hE, angleAdd_val M hE, angleSum_val M hE]
    obtain ⟨d1, d2, d3⟩ := hertzDen_spec f
    obtain ⟨g1, g2⟩ := hertzGcd_spec f
    set g := hertzGcd f with hg
    have hz : angleVal M ⟨hertzCoeff f f.base / (g : Int), cxOne⟩ =
        2 * Real.pi * ((hertzCoeff f f.base / (g : Int) : Int) : ℝ) := by
      simp [angleAt]
    rw [hz, List.map_map]
    have e : ((f.parts.map (angleVal M ∘ fun t => angleTimesInt M (hertzCoeff f t.1 / (g : Int)) t.2))).sum
        = (f.parts.map fun t => ((hertzCoeff f t.1 / (g : Int) : Int) : ℝ) * angleVal M t.2).sum := by
      congr 1; apply List.map_congr_left; intro t _; simp [angleTimesInt_val M hE]
    rw [e]
    have hD : (0 : ℝ) < hertzDen f := by exact_mod_cast d3
    have tot : (g : ℝ) * (2 * Real.pi * ((hertzCoeff f f.base / (g : Int) : Int) : ℝ) +
        (f.parts.map fun t => ((hertzCoeff f t.1 / (g : Int) : Int) : ℝ) * angleVal M t.2).sum) =
            2 * Real.pi * hertzDen f * ratHertzVal M f := by
      have a : ∀ q : Rat, q.den ∣ hertzDen f → (g : Int) ∣ hertzCoeff f q →
          (g : ℝ) * ((hertzCoeff f q / (g : Int) : Int) : ℝ) = hertzDen f * q := by
        intro q h1 h2
        rw [← hertzCoeff_val f q h1]
        exact_mod_cast Int.mul_ediv_cancel' h2
      have b : ∀ l : List (Rat × Angle), (∀ t ∈ l, t.1.den ∣ hertzDen f) → (∀ t ∈ l, (g : Int) ∣ hertzCoeff f t.1) →
          (g : ℝ) * (l.map fun t => ((hertzCoeff f t.1 / (g : Int) : Int) : ℝ) * angleVal M t.2).sum =
            2 * Real.pi * hertzDen f * ratPartsVal M l := by
        intro l
        induction l with
        | nil => simp [ratPartsVal]
        | cons t l ih =>
          intro h1 h2
          rw [List.map_cons, List.sum_cons, mul_add,
              ih (fun u hu => h1 u (by simp [hu])) (fun u hu => h2 u (by simp [hu])), ratPartsVal_cons, ← mul_assoc,
                  a t.1 (h1 t (by simp)) (h2 t (by simp))]
          have := Real.pi_ne_zero
          field_simp
      have hv : ratHertzVal M f = (f.base : ℝ) + ratPartsVal M f.parts := rfl
      rw [mul_add, b _ d2 g2, hv]
      have := a f.base d1 g1
      linear_combination 2 * Real.pi * this
    have hpi := Real.pi_pos
    rcases Nat.eq_zero_or_pos g with h0 | h0
    · have hv0 : ratHertzVal M f = 0 := by
        rw [h0] at tot; simp at tot
        rcases tot with h | h
        · exact absurd h (by positivity)
        · exact h
      rw [h0, hv0]; simp
    · have hg' : (0 : ℝ) < g := by exact_mod_cast h0
      have s1 := congrArg SignType.sign tot
      rw [sign_mul, sign_mul (2 * Real.pi * _), sign_pos hg',
          sign_pos (by positivity : (0 : ℝ) < 2 * Real.pi * hertzDen f), one_mul, one_mul] at s1
      rw [s1]

/-- The sign of a number of hertz. -/
theorem hertzSign_eq (hE : Exact M) (f) : hertzSign M f = SignType.sign (hertzVal M f) := by
  have key : ∀ h : hertzPure f = true ∨ ∀ k, Config.const k = 0,
      ratHertzSign M (hertzAtZero f) = SignType.sign (hertzVal M f) :=
    fun h => by rw [ratHertzSign_eq hE, hertzVal_atZero f h]
  exact byRecord (fun h => key (.inl h)) (fun h => key (.inr h)) fun r h => by rw [r.hertzSign_eq, hertzVal, h]

/-- A fraction against a number of hertz. -/
theorem ratLeHertz_iff (hE : Exact M) (q f) : ratLeHertz M q f = true ↔ (q : ℝ) ≤ hertzVal M f := by
  rw [ratLeHertz, decide_eq_true_iff, hertzSign_eq hE, hertzVal_addRat]
  rw [← not_lt, sgn_neg_iff]; push_cast; constructor <;> intro h <;> linarith

theorem searchUp_spec (ok : Int → Bool) (x : ℝ) (h : ∀ k, ok k = true ↔ (k : ℝ) ≤
    x) (fuel : Nat) (lo : Int) (h1 : (lo : ℝ) ≤ x) (h2 : x < lo + 2 ^ fuel) :
    searchUp ok fuel lo = ⌊x⌋ := by
  induction fuel generalizing lo with
  | zero => simp at h2; exact (Int.floor_eq_iff.2 ⟨h1, h2⟩).symm
  | succ n ih =>
    simp only [searchUp]; split
    · next hk => rw [h] at hk; refine ih _ hk ?_; push_cast; rw [pow_succ] at h2; linarith
    · next hk => rw [h] at hk; refine ih _ h1 ?_; push_cast at hk; linarith

theorem hertzSpread_spec (b : Rat) (l : List (Rat × Angle)) : |ratPartsVal M l| ≤ hertzSpread ⟨b, l⟩ - 1 := by
  simp only [hertzSpread]
  induction l with
  | nil => simp [ratPartsVal]
  | cons t l ih =>
    rw [ratPartsVal_cons, List.foldr_cons]
    refine (abs_add_le _ _).trans ?_
    have : |((t.1 : ℚ) : ℝ) * (angleVal M t.2 / (2 * Real.pi))| ≤ (⌈|t.1| * (|(t.2.turns : Rat)| + 1)⌉ : Int) := by
      have c : |t.1| * (|(t.2.turns : Rat)| + 1) ≤ (⌈|t.1| * (|(t.2.turns : Rat)| + 1)⌉ : Int) := Int.le_ceil _
      have c' : |((t.1 : ℚ) : ℝ)| * (|(t.2.turns : ℝ)| + 1) ≤ (⌈|t.1| * (|(t.2.turns : Rat)| + 1)⌉ : Int) :=
          by exact_mod_cast c
      refine le_trans ?_ c'
      rw [abs_mul]
      refine mul_le_mul_of_nonneg_left ?_ (abs_nonneg _)
      have hpi := Real.pi_pos
      rw [abs_div, abs_of_pos (by positivity : (0 : ℝ) < 2 * Real.pi), div_le_iff₀ (by positivity), angleVal]
      refine (abs_add_le _ _).trans ?_
      rw [abs_mul, abs_of_pos (by positivity : (0 : ℝ) < 2 * Real.pi)]
      have := Complex.abs_arg_le_pi (cxVal M t.2.dir)
      nlinarith
    push_cast at *
    have e : (|t.1| * (|(t.2.turns : Rat)| + 1)).ceil = ⌈|t.1| * (|(t.2.turns : Rat)| + 1)⌉ :=
        by rw [Rat.ceil_eq_neg_floor_neg]; rfl
    rw [e]; linarith

/-- The floor of a number of hertz. -/
theorem ratHertzFloor_eq (hE : Exact M) (f) : ratHertzFloor M f = ⌊ratHertzVal M f⌋ := by
  unfold ratHertzFloor
  split
  · next h => simp [ratHertzVal, h]; exact (Rat.floor_cast f.base).symm
  · obtain ⟨b, l⟩ := f
    have hs := abs_le.1 (hertzSpread_spec (M := M) b l)
    have hv : ratHertzVal M ⟨b, l⟩ = (b : ℝ) + ratPartsVal M l := rfl
    set sp := hertzSpread ⟨b, l⟩
    have fl := Int.floor_le (b : ℚ)
    have fl2 := Int.lt_floor_add_one (b : ℚ)
    have e : b.floor = ⌊b⌋ := rfl
    have fl' : ((⌊b⌋ : Int) : ℝ) ≤ b := by exact_mod_cast fl
    have fl2' : (b : ℝ) < (⌊b⌋ : Int) + 1 := by exact_mod_cast fl2
    refine searchUp_spec _ _ (fun k => ?_) _ _ ?_ ?_
    · rw [decide_eq_true_iff, ratHertzSign_eq hE, ← not_lt, sgn_neg_iff, not_lt]
      have : ratHertzVal M ⟨b - k, l⟩ = (b : ℝ) + ratPartsVal M l - k := by simp [ratHertzVal, ratPartsVal]; ring
      rw [this, hv, sub_nonneg]
    · rw [e, hv]; push_cast; linarith
    · rw [e, hv]
      have hsp : (1 : ℝ) ≤ sp := by linarith
      have hsp' : 1 ≤ sp := by exact_mod_cast hsp
      have : 2 * sp < 2 ^ (Nat.log2 (2 * sp).toNat + 1) := by
        have := Nat.lt_log2_self (n := (2 * sp).toNat)
        have h2 : ((2 * sp).toNat : Int) = 2 * sp := Int.toNat_of_nonneg (by omega)
        rw [← h2]; exact_mod_cast this
      have h3 : 2 * sp + 1 ≤ 2 ^ (Nat.log2 (2 * sp).toNat + 1) := this
      have h3' : 2 * (sp : ℝ) + 1 ≤ 2 ^ (Nat.log2 (2 * sp).toNat + 1) := by exact_mod_cast h3
      push_cast; linarith

/-- The floor of a number of hertz. -/
theorem hertzFloor_eq (hE : Exact M) (f) : hertzFloor M f = ⌊hertzVal M f⌋ := by
  have key : ∀ h : hertzPure f = true ∨ ∀ k, Config.const k = 0, ratHertzFloor M (hertzAtZero f) = ⌊hertzVal M f⌋ :=
    fun h => by rw [ratHertzFloor_eq hE, hertzVal_atZero f h]
  exact byRecord (fun h => key (.inl h)) (fun h => key (.inr h)) fun r h => by rw [r.hertzFloor_eq, hertzVal, h]

/-- The opposite number of hertz. -/
theorem hertzNeg_val (f) : hertzVal M (hertzNeg f) = -hertzVal M f := by
  obtain ⟨b, l⟩ := f
  simp only [hertzVal_eq, hertzNeg]
  induction l with
  | nil => simp [partsVal]
  | cons t l ih => rw [List.map_cons, partsVal_cons, partsVal_cons]; simp at *; linarith

/-- A number of hertz, truncated. -/
theorem hertzTrunc_eq (hE : Exact M) (f) : hertzTrunc M f = truncReal (hertzVal M f) := by
  unfold hertzTrunc truncReal
  simp only [hertzSign_eq hE, sgn_neg_iff]
  rw [hertzFloor_eq hE, hertzFloor_eq hE, hertzNeg_val]
  by_cases h : 0 ≤ hertzVal M f
  · rw [if_neg (not_lt.2 h), if_pos h]
  · rw [if_pos (not_le.1 h), if_neg h]
    rw [Int.floor_neg]; simp

end

/-! ## The order of a configuration -/

theorem cfgOrder_spec (c : Cfg) (h : cfgWf c = true) : 0 < cfgOrder c ∧ cfgOrder c % 8 = 0 ∧ ∀ m ∈ c.modes,
    m.tU ∣ cfgOrder c := by
  have hf : 0 < c.fieldOrder := by simp [cfgWf] at h; exact h.1.1.1
  have hm : ∀ m ∈ c.modes, 0 < m.tU := fun m hm => by
    simp [cfgWf] at h
    have := h.2 m hm
    simp [modeWf, lengthsWf] at this
    omega
  have key : ∀ l : List Mode, (∀ m ∈ l, 0 < m.tU) →
      0 < l.foldr (fun m n => Nat.lcm m.tU n) (Nat.lcm 8 c.fieldOrder) ∧
      8 ∣ l.foldr (fun m n => Nat.lcm m.tU n) (Nat.lcm 8 c.fieldOrder) ∧
      ∀ m ∈ l, m.tU ∣ l.foldr (fun m n => Nat.lcm m.tU n) (Nat.lcm 8 c.fieldOrder) := by
    intro l
    induction l with
    | nil => exact fun _ => ⟨Nat.lcm_pos (by norm_num) hf, Nat.dvd_lcm_left _ _, by simp⟩
    | cons m l ih =>
      intro h
      obtain ⟨a, b, c⟩ := ih fun u hu => h u (List.mem_cons_of_mem _ hu)
      refine ⟨Nat.lcm_pos (h m (by simp)) a, b.trans (Nat.dvd_lcm_right _ _), fun u hu => ?_⟩
      rcases List.mem_cons.1 hu with rfl | hu
      · exact Nat.dvd_lcm_left _ _
      · exact (c u hu).trans (Nat.dvd_lcm_right _ _)
  obtain ⟨a, b, d⟩ := key c.modes hm
  exact ⟨a, Nat.mod_eq_zero_of_dvd b, d⟩

end Sys2Proof.Laws
end

