-- ==== Sys2Proof/Laws/State.lean ====
section
/-! SUPPORT. One lemma per field per named update of the state, so that no proof unfolds a record update. -/

namespace Sys2Proof.Machine

/-! ## respond -/

@[simp] theorem respond_cfg (s : State) (st : Status) (v : Word) : (respond s st v).cfg = s.cfg := rfl
@[simp] theorem respond_ctrl (s : State) (st : Status) (v : Word) : (respond s st v).ctrl = s.ctrl := rfl
@[simp] theorem respond_event (s : State) (st : Status) (v : Word) : (respond s st v).event = s.event := rfl
@[simp] theorem respond_evmask (s : State) (st : Status) (v : Word) : (respond s st v).evmask = s.evmask := rfl
@[simp] theorem respond_thr (s : State) (st : Status) (v : Word) : (respond s st v).thr = s.thr := rfl
@[simp] theorem respond_signal (s : State) (st : Status) (v : Word) : (respond s st v).signal = s.signal := rfl
@[simp] theorem respond_tii (s : State) (st : Status) (v : Word) : (respond s st v).tii = s.tii := rfl
@[simp] theorem respond_modeSel (s : State) (st : Status) (v : Word) : (respond s st v).modeSel = s.modeSel := rfl
@[simp] theorem respond_run (s : State) (st : Status) (v : Word) : (respond s st v).run = s.run := rfl
@[simp] theorem respond_stopreq (s : State) (st : Status) (v : Word) : (respond s st v).stopreq = s.stopreq := rfl
@[simp] theorem respond_syncState (s : State) (st : Status) (v : Word) : (respond s st v).syncState = s.syncState := rfl
@[simp] theorem respond_seqStep (s : State) (st : Status) (v : Word) : (respond s st v).seqStep = s.seqStep := rfl
@[simp] theorem respond_symIdx (s : State) (st : Status) (v : Word) : (respond s st v).symIdx = s.symIdx := rfl
@[simp] theorem respond_nosigCnt (s : State) (st : Status) (v : Word) : (respond s st v).nosigCnt = s.nosigCnt := rfl
@[simp] theorem respond_bfailCnt (s : State) (st : Status) (v : Word) : (respond s st v).bfailCnt = s.bfailCnt := rfl
@[simp] theorem respond_boff (s : State) (st : Status) (v : Word) : (respond s st v).boff = s.boff := rfl
@[simp] theorem respond_slevel (s : State) (st : Status) (v : Word) : (respond s st v).slevel = s.slevel := rfl
@[simp] theorem respond_coarse (s : State) (st : Status) (v : Word) : (respond s st v).coarse = s.coarse := rfl
@[simp] theorem respond_fine (s : State) (st : Status) (v : Word) : (respond s st v).fine = s.fine := rfl
@[simp] theorem respond_freqcorr (s : State) (st : Status) (v : Word) : (respond s st v).freqcorr = s.freqcorr := rfl
@[simp] theorem respond_scan (s : State) (st : Status) (v : Word) : (respond s st v).scan = s.scan := rfl
@[simp] theorem respond_win (s : State) (st : Status) (v : Word) : (respond s st v).win = s.win := rfl
@[simp] theorem respond_spec (s : State) (st : Status) (v : Word) : (respond s st v).spec = s.spec := rfl
@[simp] theorem respond_prev (s : State) (st : Status) (v : Word) : (respond s st v).prev = s.prev := rfl
@[simp] theorem respond_prevValid (s : State) (st : Status) (v : Word) : (respond s st v).prevValid = s.prevValid := rfl
@[simp] theorem respond_soft (s : State) (st : Status) (v : Word) : (respond s st v).soft = s.soft := rfl
@[simp] theorem respond_ficState (s : State) (st : Status) (v : Word) : (respond s st v).ficState = s.ficState := rfl
@[simp] theorem respond_ficIdx (s : State) (st : Status) (v : Word) : (respond s st v).ficIdx = s.ficIdx := rfl
@[simp] theorem respond_ficFill (s : State) (st : Status) (v : Word) : (respond s st v).ficFill = s.ficFill := rfl
@[simp] theorem respond_ficAcc (s : State) (st : Status) (v : Word) : (respond s st v).ficAcc = s.ficAcc := rfl
@[simp] theorem respond_ficAccZeroed (s : State) (st : Status) (v : Word) : (respond s st v).ficAccZeroed = s.ficAccZeroed := rfl
@[simp] theorem respond_ficOut (s : State) (st : Status) (v : Word) : (respond s st v).ficOut = s.ficOut := rfl
@[simp] theorem respond_fibGood (s : State) (st : Status) (v : Word) : (respond s st v).fibGood = s.fibGood := rfl
@[simp] theorem respond_fibBad (s : State) (st : Status) (v : Word) : (respond s st v).fibBad = s.fibBad := rfl
@[simp] theorem respond_badFrames (s : State) (st : Status) (v : Word) : (respond s st v).badFrames = s.badFrames := rfl
@[simp] theorem respond_ficSync (s : State) (st : Status) (v : Word) : (respond s st v).ficSync = s.ficSync := rfl
@[simp] theorem respond_fifo (s : State) (st : Status) (v : Word) : (respond s st v).fifo = s.fifo := rfl
@[simp] theorem respond_cif (s : State) (st : Status) (v : Word) : (respond s st v).cif = s.cif := rfl
@[simp] theorem respond_cifValid (s : State) (st : Status) (v : Word) : (respond s st v).cifValid = s.cifValid := rfl
@[simp] theorem respond_subs (s : State) (st : Status) (v : Word) : (respond s st v).subs = s.subs := rfl
@[simp] theorem respond_cmd (s : State) (st : Status) (v : Word) : (respond s st v).cmd = s.cmd := rfl
@[simp] theorem respond_hostWait (s : State) (st : Status) (v : Word) : (respond s st v).hostWait = s.hostWait := rfl
@[simp] theorem respond_rsp (s : State) (st : Status) (v : Word) : (respond s st v).rsp = s.rsp ++ [⟨st, v⟩] := rfl
@[simp] theorem respond_src (s : State) (st : Status) (v : Word) : (respond s st v).src = s.src := rfl
@[simp] theorem respond_srcTaken (s : State) (st : Status) (v : Word) : (respond s st v).srcTaken = s.srcTaken := rfl
@[simp] theorem respond_srcReq (s : State) (st : Status) (v : Word) : (respond s st v).srcReq = s.srcReq := rfl
@[simp] theorem respond_fibOut (s : State) (st : Status) (v : Word) : (respond s st v).fibOut = s.fibOut := rfl
@[simp] theorem respond_cuOut (s : State) (st : Status) (v : Word) : (respond s st v).cuOut = s.cuOut := rfl
@[simp] theorem respond_tiiOut (s : State) (st : Status) (v : Word) : (respond s st v).tiiOut = s.tiiOut := rfl
@[simp] theorem respond_evt (s : State) (st : Status) (v : Word) : (respond s st v).evt = s.evt := rfl
@[simp] theorem respond_plan (s : State) (st : Status) (v : Word) : (respond s st v).plan = s.plan := rfl
@[simp] theorem respond_tick (s : State) (st : Status) (v : Word) : (respond s st v).tick = s.tick := rfl

/-! ## moveTo -/

@[simp] theorem moveTo_cfg (p : SeqStep) (s : State) : (moveTo p s).cfg = s.cfg := rfl
@[simp] theorem moveTo_ctrl (p : SeqStep) (s : State) : (moveTo p s).ctrl = s.ctrl := rfl
@[simp] theorem moveTo_event (p : SeqStep) (s : State) : (moveTo p s).event = s.event := rfl
@[simp] theorem moveTo_evmask (p : SeqStep) (s : State) : (moveTo p s).evmask = s.evmask := rfl
@[simp] theorem moveTo_thr (p : SeqStep) (s : State) : (moveTo p s).thr = s.thr := rfl
@[simp] theorem moveTo_signal (p : SeqStep) (s : State) : (moveTo p s).signal = s.signal := rfl
@[simp] theorem moveTo_tii (p : SeqStep) (s : State) : (moveTo p s).tii = s.tii := rfl
@[simp] theorem moveTo_modeSel (p : SeqStep) (s : State) : (moveTo p s).modeSel = s.modeSel := rfl
@[simp] theorem moveTo_run (p : SeqStep) (s : State) : (moveTo p s).run = s.run := rfl
@[simp] theorem moveTo_stopreq (p : SeqStep) (s : State) : (moveTo p s).stopreq = s.stopreq := rfl
@[simp] theorem moveTo_syncState (p : SeqStep) (s : State) : (moveTo p s).syncState = syncOfStep p := rfl
@[simp] theorem moveTo_seqStep (p : SeqStep) (s : State) : (moveTo p s).seqStep = p := rfl
@[simp] theorem moveTo_symIdx (p : SeqStep) (s : State) : (moveTo p s).symIdx = s.symIdx := rfl
@[simp] theorem moveTo_nosigCnt (p : SeqStep) (s : State) : (moveTo p s).nosigCnt = s.nosigCnt := rfl
@[simp] theorem moveTo_bfailCnt (p : SeqStep) (s : State) : (moveTo p s).bfailCnt = s.bfailCnt := rfl
@[simp] theorem moveTo_boff (p : SeqStep) (s : State) : (moveTo p s).boff = s.boff := rfl
@[simp] theorem moveTo_slevel (p : SeqStep) (s : State) : (moveTo p s).slevel = s.slevel := rfl
@[simp] theorem moveTo_coarse (p : SeqStep) (s : State) : (moveTo p s).coarse = s.coarse := rfl
@[simp] theorem moveTo_fine (p : SeqStep) (s : State) : (moveTo p s).fine = s.fine := rfl
@[simp] theorem moveTo_freqcorr (p : SeqStep) (s : State) : (moveTo p s).freqcorr = s.freqcorr := rfl
@[simp] theorem moveTo_scan (p : SeqStep) (s : State) : (moveTo p s).scan = s.scan := rfl
@[simp] theorem moveTo_win (p : SeqStep) (s : State) : (moveTo p s).win = s.win := rfl
@[simp] theorem moveTo_spec (p : SeqStep) (s : State) : (moveTo p s).spec = s.spec := rfl
@[simp] theorem moveTo_prev (p : SeqStep) (s : State) : (moveTo p s).prev = s.prev := rfl
@[simp] theorem moveTo_prevValid (p : SeqStep) (s : State) : (moveTo p s).prevValid = s.prevValid := rfl
@[simp] theorem moveTo_soft (p : SeqStep) (s : State) : (moveTo p s).soft = s.soft := rfl
@[simp] theorem moveTo_ficState (p : SeqStep) (s : State) : (moveTo p s).ficState = s.ficState := rfl
@[simp] theorem moveTo_ficIdx (p : SeqStep) (s : State) : (moveTo p s).ficIdx = s.ficIdx := rfl
@[simp] theorem moveTo_ficFill (p : SeqStep) (s : State) : (moveTo p s).ficFill = s.ficFill := rfl
@[simp] theorem moveTo_ficAcc (p : SeqStep) (s : State) : (moveTo p s).ficAcc = s.ficAcc := rfl
@[simp] theorem moveTo_ficAccZeroed (p : SeqStep) (s : State) : (moveTo p s).ficAccZeroed = s.ficAccZeroed := rfl
@[simp] theorem moveTo_ficOut (p : SeqStep) (s : State) : (moveTo p s).ficOut = s.ficOut := rfl
@[simp] theorem moveTo_fibGood (p : SeqStep) (s : State) : (moveTo p s).fibGood = s.fibGood := rfl
@[simp] theorem moveTo_fibBad (p : SeqStep) (s : State) : (moveTo p s).fibBad = s.fibBad := rfl
@[simp] theorem moveTo_badFrames (p : SeqStep) (s : State) : (moveTo p s).badFrames = s.badFrames := rfl
@[simp] theorem moveTo_ficSync (p : SeqStep) (s : State) : (moveTo p s).ficSync = s.ficSync := rfl
@[simp] theorem moveTo_fifo (p : SeqStep) (s : State) : (moveTo p s).fifo = s.fifo := rfl
@[simp] theorem moveTo_cif (p : SeqStep) (s : State) : (moveTo p s).cif = s.cif := rfl
@[simp] theorem moveTo_cifValid (p : SeqStep) (s : State) : (moveTo p s).cifValid = s.cifValid := rfl
@[simp] theorem moveTo_subs (p : SeqStep) (s : State) : (moveTo p s).subs = s.subs := rfl
@[simp] theorem moveTo_cmd (p : SeqStep) (s : State) : (moveTo p s).cmd = s.cmd := rfl
@[simp] theorem moveTo_hostWait (p : SeqStep) (s : State) : (moveTo p s).hostWait = s.hostWait := rfl
@[simp] theorem moveTo_rsp (p : SeqStep) (s : State) : (moveTo p s).rsp = s.rsp := rfl
@[simp] theorem moveTo_src (p : SeqStep) (s : State) : (moveTo p s).src = s.src := rfl
@[simp] theorem moveTo_srcTaken (p : SeqStep) (s : State) : (moveTo p s).srcTaken = s.srcTaken := rfl
@[simp] theorem moveTo_srcReq (p : SeqStep) (s : State) : (moveTo p s).srcReq = s.srcReq := rfl
@[simp] theorem moveTo_fibOut (p : SeqStep) (s : State) : (moveTo p s).fibOut = s.fibOut := rfl
@[simp] theorem moveTo_cuOut (p : SeqStep) (s : State) : (moveTo p s).cuOut = s.cuOut := rfl
@[simp] theorem moveTo_tiiOut (p : SeqStep) (s : State) : (moveTo p s).tiiOut = s.tiiOut := rfl
@[simp] theorem moveTo_evt (p : SeqStep) (s : State) : (moveTo p s).evt = s.evt := rfl
@[simp] theorem moveTo_plan (p : SeqStep) (s : State) : (moveTo p s).plan = s.plan := rfl
@[simp] theorem moveTo_tick (p : SeqStep) (s : State) : (moveTo p s).tick = s.tick := rfl

/-! ## zeroFic -/

@[simp] theorem zeroFic_cfg (s : State) : (zeroFic s).cfg = s.cfg := rfl
@[simp] theorem zeroFic_ctrl (s : State) : (zeroFic s).ctrl = s.ctrl := rfl
@[simp] theorem zeroFic_event (s : State) : (zeroFic s).event = s.event := rfl
@[simp] theorem zeroFic_evmask (s : State) : (zeroFic s).evmask = s.evmask := rfl
@[simp] theorem zeroFic_thr (s : State) : (zeroFic s).thr = s.thr := rfl
@[simp] theorem zeroFic_signal (s : State) : (zeroFic s).signal = s.signal := rfl
@[simp] theorem zeroFic_tii (s : State) : (zeroFic s).tii = s.tii := rfl
@[simp] theorem zeroFic_modeSel (s : State) : (zeroFic s).modeSel = s.modeSel := rfl
@[simp] theorem zeroFic_run (s : State) : (zeroFic s).run = s.run := rfl
@[simp] theorem zeroFic_stopreq (s : State) : (zeroFic s).stopreq = s.stopreq := rfl
@[simp] theorem zeroFic_syncState (s : State) : (zeroFic s).syncState = s.syncState := rfl
@[simp] theorem zeroFic_seqStep (s : State) : (zeroFic s).seqStep = s.seqStep := rfl
@[simp] theorem zeroFic_symIdx (s : State) : (zeroFic s).symIdx = s.symIdx := rfl
@[simp] theorem zeroFic_nosigCnt (s : State) : (zeroFic s).nosigCnt = s.nosigCnt := rfl
@[simp] theorem zeroFic_bfailCnt (s : State) : (zeroFic s).bfailCnt = s.bfailCnt := rfl
@[simp] theorem zeroFic_boff (s : State) : (zeroFic s).boff = s.boff := rfl
@[simp] theorem zeroFic_slevel (s : State) : (zeroFic s).slevel = s.slevel := rfl
@[simp] theorem zeroFic_coarse (s : State) : (zeroFic s).coarse = s.coarse := rfl
@[simp] theorem zeroFic_fine (s : State) : (zeroFic s).fine = s.fine := rfl
@[simp] theorem zeroFic_freqcorr (s : State) : (zeroFic s).freqcorr = s.freqcorr := rfl
@[simp] theorem zeroFic_scan (s : State) : (zeroFic s).scan = s.scan := rfl
@[simp] theorem zeroFic_win (s : State) : (zeroFic s).win = s.win := rfl
@[simp] theorem zeroFic_spec (s : State) : (zeroFic s).spec = s.spec := rfl
@[simp] theorem zeroFic_prev (s : State) : (zeroFic s).prev = s.prev := rfl
@[simp] theorem zeroFic_prevValid (s : State) : (zeroFic s).prevValid = s.prevValid := rfl
@[simp] theorem zeroFic_soft (s : State) : (zeroFic s).soft = s.soft := rfl
@[simp] theorem zeroFic_ficState (s : State) : (zeroFic s).ficState = s.ficState := rfl
@[simp] theorem zeroFic_ficIdx (s : State) : (zeroFic s).ficIdx = 0 := rfl
@[simp] theorem zeroFic_ficFill (s : State) : (zeroFic s).ficFill = 0 := rfl
@[simp] theorem zeroFic_ficAcc (s : State) : (zeroFic s).ficAcc = [] := rfl
@[simp] theorem zeroFic_ficAccZeroed (s : State) : (zeroFic s).ficAccZeroed = true := rfl
@[simp] theorem zeroFic_ficOut (s : State) : (zeroFic s).ficOut = s.ficOut := rfl
@[simp] theorem zeroFic_fibGood (s : State) : (zeroFic s).fibGood = 0 := rfl
@[simp] theorem zeroFic_fibBad (s : State) : (zeroFic s).fibBad = 0 := rfl
@[simp] theorem zeroFic_badFrames (s : State) : (zeroFic s).badFrames = s.badFrames := rfl
@[simp] theorem zeroFic_ficSync (s : State) : (zeroFic s).ficSync = s.ficSync := rfl
@[simp] theorem zeroFic_fifo (s : State) : (zeroFic s).fifo = s.fifo := rfl
@[simp] theorem zeroFic_cif (s : State) : (zeroFic s).cif = s.cif := rfl
@[simp] theorem zeroFic_cifValid (s : State) : (zeroFic s).cifValid = s.cifValid := rfl
@[simp] theorem zeroFic_subs (s : State) : (zeroFic s).subs = s.subs := rfl
@[simp] theorem zeroFic_cmd (s : State) : (zeroFic s).cmd = s.cmd := rfl
@[simp] theorem zeroFic_hostWait (s : State) : (zeroFic s).hostWait = s.hostWait := rfl
@[simp] theorem zeroFic_rsp (s : State) : (zeroFic s).rsp = s.rsp := rfl
@[simp] theorem zeroFic_src (s : State) : (zeroFic s).src = s.src := rfl
@[simp] theorem zeroFic_srcTaken (s : State) : (zeroFic s).srcTaken = s.srcTaken := rfl
@[simp] theorem zeroFic_srcReq (s : State) : (zeroFic s).srcReq = s.srcReq := rfl
@[simp] theorem zeroFic_fibOut (s : State) : (zeroFic s).fibOut = s.fibOut := rfl
@[simp] theorem zeroFic_cuOut (s : State) : (zeroFic s).cuOut = s.cuOut := rfl
@[simp] theorem zeroFic_tiiOut (s : State) : (zeroFic s).tiiOut = s.tiiOut := rfl
@[simp] theorem zeroFic_evt (s : State) : (zeroFic s).evt = s.evt := rfl
@[simp] theorem zeroFic_plan (s : State) : (zeroFic s).plan = s.plan := rfl
@[simp] theorem zeroFic_tick (s : State) : (zeroFic s).tick = s.tick := rfl

/-! ## frameReset -/

@[simp] theorem frameReset_cfg (s : State) : (frameReset s).cfg = s.cfg := rfl
@[simp] theorem frameReset_ctrl (s : State) : (frameReset s).ctrl = s.ctrl := rfl
@[simp] theorem frameReset_event (s : State) : (frameReset s).event = s.event := rfl
@[simp] theorem frameReset_evmask (s : State) : (frameReset s).evmask = s.evmask := rfl
@[simp] theorem frameReset_thr (s : State) : (frameReset s).thr = s.thr := rfl
@[simp] theorem frameReset_signal (s : State) : (frameReset s).signal = s.signal := rfl
@[simp] theorem frameReset_tii (s : State) : (frameReset s).tii = s.tii := rfl
@[simp] theorem frameReset_modeSel (s : State) : (frameReset s).modeSel = s.modeSel := rfl
@[simp] theorem frameReset_run (s : State) : (frameReset s).run = s.run := rfl
@[simp] theorem frameReset_stopreq (s : State) : (frameReset s).stopreq = s.stopreq := rfl
@[simp] theorem frameReset_syncState (s : State) : (frameReset s).syncState = s.syncState := rfl
@[simp] theorem frameReset_seqStep (s : State) : (frameReset s).seqStep = s.seqStep := rfl
@[simp] theorem frameReset_symIdx (s : State) : (frameReset s).symIdx = 0 := rfl
@[simp] theorem frameReset_nosigCnt (s : State) : (frameReset s).nosigCnt = s.nosigCnt := rfl
@[simp] theorem frameReset_bfailCnt (s : State) : (frameReset s).bfailCnt = s.bfailCnt := rfl
@[simp] theorem frameReset_boff (s : State) : (frameReset s).boff = s.boff := rfl
@[simp] theorem frameReset_slevel (s : State) : (frameReset s).slevel = s.slevel := rfl
@[simp] theorem frameReset_coarse (s : State) : (frameReset s).coarse = s.coarse := rfl
@[simp] theorem frameReset_fine (s : State) : (frameReset s).fine = s.fine := rfl
@[simp] theorem frameReset_freqcorr (s : State) : (frameReset s).freqcorr = [] := rfl
@[simp] theorem frameReset_scan (s : State) : (frameReset s).scan = s.scan := rfl
@[simp] theorem frameReset_win (s : State) : (frameReset s).win = s.win := rfl
@[simp] theorem frameReset_spec (s : State) : (frameReset s).spec = s.spec := rfl
@[simp] theorem frameReset_prev (s : State) : (frameReset s).prev = s.prev := rfl
@[simp] theorem frameReset_prevValid (s : State) : (frameReset s).prevValid = s.prevValid := rfl
@[simp] theorem frameReset_soft (s : State) : (frameReset s).soft = s.soft := rfl
@[simp] theorem frameReset_ficState (s : State) : (frameReset s).ficState = .idle := rfl
@[simp] theorem frameReset_ficIdx (s : State) : (frameReset s).ficIdx = 0 := rfl
@[simp] theorem frameReset_ficFill (s : State) : (frameReset s).ficFill = 0 := rfl
@[simp] theorem frameReset_ficAcc (s : State) : (frameReset s).ficAcc = [] := rfl
@[simp] theorem frameReset_ficAccZeroed (s : State) : (frameReset s).ficAccZeroed = true := rfl
@[simp] theorem frameReset_ficOut (s : State) : (frameReset s).ficOut = s.ficOut := rfl
@[simp] theorem frameReset_fibGood (s : State) : (frameReset s).fibGood = 0 := rfl
@[simp] theorem frameReset_fibBad (s : State) : (frameReset s).fibBad = 0 := rfl
@[simp] theorem frameReset_badFrames (s : State) : (frameReset s).badFrames = s.badFrames := rfl
@[simp] theorem frameReset_ficSync (s : State) : (frameReset s).ficSync = s.ficSync := rfl
@[simp] theorem frameReset_fifo (s : State) : (frameReset s).fifo = s.fifo := rfl
@[simp] theorem frameReset_cif (s : State) : (frameReset s).cif = s.cif := rfl
@[simp] theorem frameReset_cifValid (s : State) : (frameReset s).cifValid = s.cifValid := rfl
@[simp] theorem frameReset_subs (s : State) : (frameReset s).subs = s.subs := rfl
@[simp] theorem frameReset_cmd (s : State) : (frameReset s).cmd = s.cmd := rfl
@[simp] theorem frameReset_hostWait (s : State) : (frameReset s).hostWait = s.hostWait := rfl
@[simp] theorem frameReset_rsp (s : State) : (frameReset s).rsp = s.rsp := rfl
@[simp] theorem frameReset_src (s : State) : (frameReset s).src = s.src := rfl
@[simp] theorem frameReset_srcTaken (s : State) : (frameReset s).srcTaken = s.srcTaken := rfl
@[simp] theorem frameReset_srcReq (s : State) : (frameReset s).srcReq = s.srcReq := rfl
@[simp] theorem frameReset_fibOut (s : State) : (frameReset s).fibOut = s.fibOut := rfl
@[simp] theorem frameReset_cuOut (s : State) : (frameReset s).cuOut = s.cuOut := rfl
@[simp] theorem frameReset_tiiOut (s : State) : (frameReset s).tiiOut = s.tiiOut := rfl
@[simp] theorem frameReset_evt (s : State) : (frameReset s).evt = s.evt := rfl
@[simp] theorem frameReset_plan (s : State) : (frameReset s).plan = s.plan := rfl
@[simp] theorem frameReset_tick (s : State) : (frameReset s).tick = s.tick := rfl

/-! ## startReset -/

@[simp] theorem startReset_cfg (s : State) : (startReset s).cfg = s.cfg := rfl
@[simp] theorem startReset_ctrl (s : State) : (startReset s).ctrl = s.ctrl := rfl
@[simp] theorem startReset_event (s : State) : (startReset s).event = s.event := rfl
@[simp] theorem startReset_evmask (s : State) : (startReset s).evmask = s.evmask := rfl
@[simp] theorem startReset_thr (s : State) : (startReset s).thr = s.thr := rfl
@[simp] theorem startReset_signal (s : State) : (startReset s).signal = s.signal := rfl
@[simp] theorem startReset_tii (s : State) : (startReset s).tii = s.tii := rfl
@[simp] theorem startReset_modeSel (s : State) : (startReset s).modeSel = s.modeSel := rfl
@[simp] theorem startReset_run (s : State) : (startReset s).run = true := rfl
@[simp] theorem startReset_stopreq (s : State) : (startReset s).stopreq = false := rfl
@[simp] theorem startReset_syncState (s : State) : (startReset s).syncState = .acquiringLevel := rfl
@[simp] theorem startReset_seqStep (s : State) : (startReset s).seqStep = .a0 := rfl
@[simp] theorem startReset_symIdx (s : State) : (startReset s).symIdx = 0 := rfl
@[simp] theorem startReset_nosigCnt (s : State) : (startReset s).nosigCnt = 0 := rfl
@[simp] theorem startReset_bfailCnt (s : State) : (startReset s).bfailCnt = 0 := rfl
@[simp] theorem startReset_boff (s : State) : (startReset s).boff = 0 := rfl
@[simp] theorem startReset_slevel (s : State) : (startReset s).slevel = [] := rfl
@[simp] theorem startReset_coarse (s : State) : (startReset s).coarse = 0 := rfl
@[simp] theorem startReset_fine (s : State) : (startReset s).fine = ⟨[], []⟩ := rfl
@[simp] theorem startReset_freqcorr (s : State) : (startReset s).freqcorr = [] := rfl
@[simp] theorem startReset_scan (s : State) : (startReset s).scan = none := rfl
@[simp] theorem startReset_win (s : State) : (startReset s).win = [] := rfl
@[simp] theorem startReset_spec (s : State) : (startReset s).spec = [] := rfl
@[simp] theorem startReset_prev (s : State) : (startReset s).prev = [] := rfl
@[simp] theorem startReset_prevValid (s : State) : (startReset s).prevValid = false := rfl
@[simp] theorem startReset_soft (s : State) : (startReset s).soft = [] := rfl
@[simp] theorem startReset_ficState (s : State) : (startReset s).ficState = .idle := rfl
@[simp] theorem startReset_ficIdx (s : State) : (startReset s).ficIdx = 0 := rfl
@[simp] theorem startReset_ficFill (s : State) : (startReset s).ficFill = 0 := rfl
@[simp] theorem startReset_ficAcc (s : State) : (startReset s).ficAcc = [] := rfl
@[simp] theorem startReset_ficAccZeroed (s : State) : (startReset s).ficAccZeroed = true := rfl
@[simp] theorem startReset_ficOut (s : State) : (startReset s).ficOut = [] := rfl
@[simp] theorem startReset_fibGood (s : State) : (startReset s).fibGood = 0 := rfl
@[simp] theorem startReset_fibBad (s : State) : (startReset s).fibBad = 0 := rfl
@[simp] theorem startReset_badFrames (s : State) : (startReset s).badFrames = 0 := rfl
@[simp] theorem startReset_ficSync (s : State) : (startReset s).ficSync = false := rfl
@[simp] theorem startReset_fifo (s : State) : (startReset s).fifo = [] := rfl
@[simp] theorem startReset_cif (s : State) : (startReset s).cif = [] := rfl
@[simp] theorem startReset_cifValid (s : State) : (startReset s).cifValid = [] := rfl
@[simp] theorem startReset_subs (s : State) : (startReset s).subs = s.subs := rfl
@[simp] theorem startReset_cmd (s : State) : (startReset s).cmd = s.cmd := rfl
@[simp] theorem startReset_hostWait (s : State) : (startReset s).hostWait = s.hostWait := rfl
@[simp] theorem startReset_rsp (s : State) : (startReset s).rsp = s.rsp := rfl
@[simp] theorem startReset_src (s : State) : (startReset s).src = s.src := rfl
@[simp] theorem startReset_srcTaken (s : State) : (startReset s).srcTaken = s.srcTaken := rfl
@[simp] theorem startReset_srcReq (s : State) : (startReset s).srcReq = s.srcReq := rfl
@[simp] theorem startReset_fibOut (s : State) : (startReset s).fibOut = s.fibOut := rfl
@[simp] theorem startReset_cuOut (s : State) : (startReset s).cuOut = s.cuOut := rfl
@[simp] theorem startReset_tiiOut (s : State) : (startReset s).tiiOut = s.tiiOut := rfl
@[simp] theorem startReset_evt (s : State) : (startReset s).evt = s.evt := rfl
@[simp] theorem startReset_plan (s : State) : (startReset s).plan = s.plan := rfl
@[simp] theorem startReset_tick (s : State) : (startReset s).tick = s.tick := rfl

/-! ## goIdle -/

@[simp] theorem goIdle_cfg (s : State) : (goIdle s).cfg = s.cfg := rfl
@[simp] theorem goIdle_ctrl (s : State) : (goIdle s).ctrl = s.ctrl := rfl
@[simp] theorem goIdle_event (s : State) : (goIdle s).event = s.event := rfl
@[simp] theorem goIdle_evmask (s : State) : (goIdle s).evmask = s.evmask := rfl
@[simp] theorem goIdle_thr (s : State) : (goIdle s).thr = s.thr := rfl
@[simp] theorem goIdle_signal (s : State) : (goIdle s).signal = s.signal := rfl
@[simp] theorem goIdle_tii (s : State) : (goIdle s).tii = s.tii := rfl
@[simp] theorem goIdle_modeSel (s : State) : (goIdle s).modeSel = s.modeSel := rfl
@[simp] theorem goIdle_run (s : State) : (goIdle s).run = false := rfl
@[simp] theorem goIdle_stopreq (s : State) : (goIdle s).stopreq = false := rfl
@[simp] theorem goIdle_syncState (s : State) : (goIdle s).syncState = .idle := rfl
@[simp] theorem goIdle_seqStep (s : State) : (goIdle s).seqStep = .a0 := rfl
@[simp] theorem goIdle_symIdx (s : State) : (goIdle s).symIdx = s.symIdx := rfl
@[simp] theorem goIdle_nosigCnt (s : State) : (goIdle s).nosigCnt = s.nosigCnt := rfl
@[simp] theorem goIdle_bfailCnt (s : State) : (goIdle s).bfailCnt = s.bfailCnt := rfl
@[simp] theorem goIdle_boff (s : State) : (goIdle s).boff = s.boff := rfl
@[simp] theorem goIdle_slevel (s : State) : (goIdle s).slevel = s.slevel := rfl
@[simp] theorem goIdle_coarse (s : State) : (goIdle s).coarse = s.coarse := rfl
@[simp] theorem goIdle_fine (s : State) : (goIdle s).fine = s.fine := rfl
@[simp] theorem goIdle_freqcorr (s : State) : (goIdle s).freqcorr = s.freqcorr := rfl
@[simp] theorem goIdle_scan (s : State) : (goIdle s).scan = none := rfl
@[simp] theorem goIdle_win (s : State) : (goIdle s).win = s.win := rfl
@[simp] theorem goIdle_spec (s : State) : (goIdle s).spec = s.spec := rfl
@[simp] theorem goIdle_prev (s : State) : (goIdle s).prev = s.prev := rfl
@[simp] theorem goIdle_prevValid (s : State) : (goIdle s).prevValid = s.prevValid := rfl
@[simp] theorem goIdle_soft (s : State) : (goIdle s).soft = s.soft := rfl
@[simp] theorem goIdle_ficState (s : State) : (goIdle s).ficState = s.ficState := rfl
@[simp] theorem goIdle_ficIdx (s : State) : (goIdle s).ficIdx = s.ficIdx := rfl
@[simp] theorem goIdle_ficFill (s : State) : (goIdle s).ficFill = s.ficFill := rfl
@[simp] theorem goIdle_ficAcc (s : State) : (goIdle s).ficAcc = s.ficAcc := rfl
@[simp] theorem goIdle_ficAccZeroed (s : State) : (goIdle s).ficAccZeroed = s.ficAccZeroed := rfl
@[simp] theorem goIdle_ficOut (s : State) : (goIdle s).ficOut = s.ficOut := rfl
@[simp] theorem goIdle_fibGood (s : State) : (goIdle s).fibGood = s.fibGood := rfl
@[simp] theorem goIdle_fibBad (s : State) : (goIdle s).fibBad = s.fibBad := rfl
@[simp] theorem goIdle_badFrames (s : State) : (goIdle s).badFrames = s.badFrames := rfl
@[simp] theorem goIdle_ficSync (s : State) : (goIdle s).ficSync = s.ficSync := rfl
@[simp] theorem goIdle_fifo (s : State) : (goIdle s).fifo = [] := rfl
@[simp] theorem goIdle_cif (s : State) : (goIdle s).cif = s.cif := rfl
@[simp] theorem goIdle_cifValid (s : State) : (goIdle s).cifValid = [] := rfl
@[simp] theorem goIdle_subs (s : State) : (goIdle s).subs = s.subs := rfl
@[simp] theorem goIdle_cmd (s : State) : (goIdle s).cmd = s.cmd := rfl
@[simp] theorem goIdle_hostWait (s : State) : (goIdle s).hostWait = s.hostWait := rfl
@[simp] theorem goIdle_rsp (s : State) : (goIdle s).rsp = s.rsp := rfl
@[simp] theorem goIdle_src (s : State) : (goIdle s).src = s.src := rfl
@[simp] theorem goIdle_srcTaken (s : State) : (goIdle s).srcTaken = s.srcTaken := rfl
@[simp] theorem goIdle_srcReq (s : State) : (goIdle s).srcReq = s.srcReq := rfl
@[simp] theorem goIdle_fibOut (s : State) : (goIdle s).fibOut = s.fibOut := rfl
@[simp] theorem goIdle_cuOut (s : State) : (goIdle s).cuOut = s.cuOut := rfl
@[simp] theorem goIdle_tiiOut (s : State) : (goIdle s).tiiOut = s.tiiOut := rfl
@[simp] theorem goIdle_evt (s : State) : (goIdle s).evt = s.evt := rfl
@[simp] theorem goIdle_plan (s : State) : (goIdle s).plan = s.plan := rfl
@[simp] theorem goIdle_tick (s : State) : (goIdle s).tick = s.tick := rfl

/-! ## forgetBuffers -/

@[simp] theorem forgetBuffers_cfg (s : State) : (forgetBuffers s).cfg = s.cfg := rfl
@[simp] theorem forgetBuffers_ctrl (s : State) : (forgetBuffers s).ctrl = s.ctrl := rfl
@[simp] theorem forgetBuffers_event (s : State) : (forgetBuffers s).event = s.event := rfl
@[simp] theorem forgetBuffers_evmask (s : State) : (forgetBuffers s).evmask = s.evmask := rfl
@[simp] theorem forgetBuffers_thr (s : State) : (forgetBuffers s).thr = s.thr := rfl
@[simp] theorem forgetBuffers_signal (s : State) : (forgetBuffers s).signal = s.signal := rfl
@[simp] theorem forgetBuffers_tii (s : State) : (forgetBuffers s).tii = s.tii := rfl
@[simp] theorem forgetBuffers_modeSel (s : State) : (forgetBuffers s).modeSel = s.modeSel := rfl
@[simp] theorem forgetBuffers_run (s : State) : (forgetBuffers s).run = s.run := rfl
@[simp] theorem forgetBuffers_stopreq (s : State) : (forgetBuffers s).stopreq = s.stopreq := rfl
@[simp] theorem forgetBuffers_syncState (s : State) : (forgetBuffers s).syncState = s.syncState := rfl
@[simp] theorem forgetBuffers_seqStep (s : State) : (forgetBuffers s).seqStep = s.seqStep := rfl
@[simp] theorem forgetBuffers_symIdx (s : State) : (forgetBuffers s).symIdx = s.symIdx := rfl
@[simp] theorem forgetBuffers_nosigCnt (s : State) : (forgetBuffers s).nosigCnt = s.nosigCnt := rfl
@[simp] theorem forgetBuffers_bfailCnt (s : State) : (forgetBuffers s).bfailCnt = s.bfailCnt := rfl
@[simp] theorem forgetBuffers_boff (s : State) : (forgetBuffers s).boff = s.boff := rfl
@[simp] theorem forgetBuffers_slevel (s : State) : (forgetBuffers s).slevel = s.slevel := rfl
@[simp] theorem forgetBuffers_coarse (s : State) : (forgetBuffers s).coarse = s.coarse := rfl
@[simp] theorem forgetBuffers_fine (s : State) : (forgetBuffers s).fine = s.fine := rfl
@[simp] theorem forgetBuffers_freqcorr (s : State) : (forgetBuffers s).freqcorr = s.freqcorr := rfl
@[simp] theorem forgetBuffers_scan (s : State) : (forgetBuffers s).scan = s.scan := rfl
@[simp] theorem forgetBuffers_win (s : State) : (forgetBuffers s).win = [] := rfl
@[simp] theorem forgetBuffers_spec (s : State) : (forgetBuffers s).spec = [] := rfl
@[simp] theorem forgetBuffers_prev (s : State) : (forgetBuffers s).prev = [] := rfl
@[simp] theorem forgetBuffers_prevValid (s : State) : (forgetBuffers s).prevValid = s.prevValid := rfl
@[simp] theorem forgetBuffers_soft (s : State) : (forgetBuffers s).soft = [] := rfl
@[simp] theorem forgetBuffers_ficState (s : State) : (forgetBuffers s).ficState = s.ficState := rfl
@[simp] theorem forgetBuffers_ficIdx (s : State) : (forgetBuffers s).ficIdx = s.ficIdx := rfl
@[simp] theorem forgetBuffers_ficFill (s : State) : (forgetBuffers s).ficFill = s.ficFill := rfl
@[simp] theorem forgetBuffers_ficAcc (s : State) : (forgetBuffers s).ficAcc = [] := rfl
@[simp] theorem forgetBuffers_ficAccZeroed (s : State) : (forgetBuffers s).ficAccZeroed = false := rfl
@[simp] theorem forgetBuffers_ficOut (s : State) : (forgetBuffers s).ficOut = [] := rfl
@[simp] theorem forgetBuffers_fibGood (s : State) : (forgetBuffers s).fibGood = s.fibGood := rfl
@[simp] theorem forgetBuffers_fibBad (s : State) : (forgetBuffers s).fibBad = s.fibBad := rfl
@[simp] theorem forgetBuffers_badFrames (s : State) : (forgetBuffers s).badFrames = s.badFrames := rfl
@[simp] theorem forgetBuffers_ficSync (s : State) : (forgetBuffers s).ficSync = s.ficSync := rfl
@[simp] theorem forgetBuffers_fifo (s : State) : (forgetBuffers s).fifo = s.fifo.map fun e => { e with bits := [] } := rfl
@[simp] theorem forgetBuffers_cif (s : State) : (forgetBuffers s).cif = [] := rfl
@[simp] theorem forgetBuffers_cifValid (s : State) : (forgetBuffers s).cifValid = s.cifValid := rfl
@[simp] theorem forgetBuffers_subs (s : State) : (forgetBuffers s).subs = s.subs := rfl
@[simp] theorem forgetBuffers_cmd (s : State) : (forgetBuffers s).cmd = s.cmd := rfl
@[simp] theorem forgetBuffers_hostWait (s : State) : (forgetBuffers s).hostWait = s.hostWait := rfl
@[simp] theorem forgetBuffers_rsp (s : State) : (forgetBuffers s).rsp = s.rsp := rfl
@[simp] theorem forgetBuffers_src (s : State) : (forgetBuffers s).src = s.src := rfl
@[simp] theorem forgetBuffers_srcTaken (s : State) : (forgetBuffers s).srcTaken = s.srcTaken := rfl
@[simp] theorem forgetBuffers_srcReq (s : State) : (forgetBuffers s).srcReq = s.srcReq := rfl
@[simp] theorem forgetBuffers_fibOut (s : State) : (forgetBuffers s).fibOut = s.fibOut := rfl
@[simp] theorem forgetBuffers_cuOut (s : State) : (forgetBuffers s).cuOut = s.cuOut := rfl
@[simp] theorem forgetBuffers_tiiOut (s : State) : (forgetBuffers s).tiiOut = s.tiiOut := rfl
@[simp] theorem forgetBuffers_evt (s : State) : (forgetBuffers s).evt = s.evt := rfl
@[simp] theorem forgetBuffers_plan (s : State) : (forgetBuffers s).plan = s.plan := rfl
@[simp] theorem forgetBuffers_tick (s : State) : (forgetBuffers s).tick = s.tick := rfl

/-! ## flushSrc -/

@[simp] theorem flushSrc_cfg (s : State) : (flushSrc s).cfg = s.cfg := rfl
@[simp] theorem flushSrc_ctrl (s : State) : (flushSrc s).ctrl = s.ctrl := rfl
@[simp] theorem flushSrc_event (s : State) : (flushSrc s).event = s.event := rfl
@[simp] theorem flushSrc_evmask (s : State) : (flushSrc s).evmask = s.evmask := rfl
@[simp] theorem flushSrc_thr (s : State) : (flushSrc s).thr = s.thr := rfl
@[simp] theorem flushSrc_signal (s : State) : (flushSrc s).signal = s.signal := rfl
@[simp] theorem flushSrc_tii (s : State) : (flushSrc s).tii = s.tii := rfl
@[simp] theorem flushSrc_modeSel (s : State) : (flushSrc s).modeSel = s.modeSel := rfl
@[simp] theorem flushSrc_run (s : State) : (flushSrc s).run = s.run := rfl
@[simp] theorem flushSrc_stopreq (s : State) : (flushSrc s).stopreq = s.stopreq := rfl
@[simp] theorem flushSrc_syncState (s : State) : (flushSrc s).syncState = s.syncState := rfl
@[simp] theorem flushSrc_seqStep (s : State) : (flushSrc s).seqStep = s.seqStep := rfl
@[simp] theorem flushSrc_symIdx (s : State) : (flushSrc s).symIdx = s.symIdx := rfl
@[simp] theorem flushSrc_nosigCnt (s : State) : (flushSrc s).nosigCnt = s.nosigCnt := rfl
@[simp] theorem flushSrc_bfailCnt (s : State) : (flushSrc s).bfailCnt = s.bfailCnt := rfl
@[simp] theorem flushSrc_boff (s : State) : (flushSrc s).boff = s.boff := rfl
@[simp] theorem flushSrc_slevel (s : State) : (flushSrc s).slevel = s.slevel := rfl
@[simp] theorem flushSrc_coarse (s : State) : (flushSrc s).coarse = s.coarse := rfl
@[simp] theorem flushSrc_fine (s : State) : (flushSrc s).fine = s.fine := rfl
@[simp] theorem flushSrc_freqcorr (s : State) : (flushSrc s).freqcorr = s.freqcorr := rfl
@[simp] theorem flushSrc_scan (s : State) : (flushSrc s).scan = s.scan := rfl
@[simp] theorem flushSrc_win (s : State) : (flushSrc s).win = s.win := rfl
@[simp] theorem flushSrc_spec (s : State) : (flushSrc s).spec = s.spec := rfl
@[simp] theorem flushSrc_prev (s : State) : (flushSrc s).prev = s.prev := rfl
@[simp] theorem flushSrc_prevValid (s : State) : (flushSrc s).prevValid = s.prevValid := rfl
@[simp] theorem flushSrc_soft (s : State) : (flushSrc s).soft = s.soft := rfl
@[simp] theorem flushSrc_ficState (s : State) : (flushSrc s).ficState = s.ficState := rfl
@[simp] theorem flushSrc_ficIdx (s : State) : (flushSrc s).ficIdx = s.ficIdx := rfl
@[simp] theorem flushSrc_ficFill (s : State) : (flushSrc s).ficFill = s.ficFill := rfl
@[simp] theorem flushSrc_ficAcc (s : State) : (flushSrc s).ficAcc = s.ficAcc := rfl
@[simp] theorem flushSrc_ficAccZeroed (s : State) : (flushSrc s).ficAccZeroed = s.ficAccZeroed := rfl
@[simp] theorem flushSrc_ficOut (s : State) : (flushSrc s).ficOut = s.ficOut := rfl
@[simp] theorem flushSrc_fibGood (s : State) : (flushSrc s).fibGood = s.fibGood := rfl
@[simp] theorem flushSrc_fibBad (s : State) : (flushSrc s).fibBad = s.fibBad := rfl
@[simp] theorem flushSrc_badFrames (s : State) : (flushSrc s).badFrames = s.badFrames := rfl
@[simp] theorem flushSrc_ficSync (s : State) : (flushSrc s).ficSync = s.ficSync := rfl
@[simp] theorem flushSrc_fifo (s : State) : (flushSrc s).fifo = s.fifo := rfl
@[simp] theorem flushSrc_cif (s : State) : (flushSrc s).cif = s.cif := rfl
@[simp] theorem flushSrc_cifValid (s : State) : (flushSrc s).cifValid = s.cifValid := rfl
@[simp] theorem flushSrc_subs (s : State) : (flushSrc s).subs = s.subs := rfl
@[simp] theorem flushSrc_cmd (s : State) : (flushSrc s).cmd = s.cmd := rfl
@[simp] theorem flushSrc_hostWait (s : State) : (flushSrc s).hostWait = s.hostWait := rfl
@[simp] theorem flushSrc_rsp (s : State) : (flushSrc s).rsp = s.rsp := rfl
@[simp] theorem flushSrc_src (s : State) : (flushSrc s).src = s.src.filter fun i => decide (i = .stopped) := rfl
@[simp] theorem flushSrc_srcTaken (s : State) : (flushSrc s).srcTaken = s.srcTaken := rfl
@[simp] theorem flushSrc_srcReq (s : State) : (flushSrc s).srcReq = s.srcReq := rfl
@[simp] theorem flushSrc_fibOut (s : State) : (flushSrc s).fibOut = s.fibOut := rfl
@[simp] theorem flushSrc_cuOut (s : State) : (flushSrc s).cuOut = s.cuOut := rfl
@[simp] theorem flushSrc_tiiOut (s : State) : (flushSrc s).tiiOut = s.tiiOut := rfl
@[simp] theorem flushSrc_evt (s : State) : (flushSrc s).evt = s.evt := rfl
@[simp] theorem flushSrc_plan (s : State) : (flushSrc s).plan = s.plan := rfl
@[simp] theorem flushSrc_tick (s : State) : (flushSrc s).tick = s.tick := rfl

/-! ## raiseEvent -/

@[simp] theorem raiseEvent_cfg (s : State) (e : EvtRecord) : (raiseEvent s e).cfg = s.cfg := by cases e <;> rfl
@[simp] theorem raiseEvent_ctrl (s : State) (e : EvtRecord) : (raiseEvent s e).ctrl = s.ctrl := by cases e <;> rfl
@[simp] theorem raiseEvent_event (s : State) (e : EvtRecord) :
    (raiseEvent s e).event = s.event ||| BitVec.ofNat 6 (2 ^ eventBit e) := by cases e <;> rfl
@[simp] theorem raiseEvent_evmask (s : State) (e : EvtRecord) : (raiseEvent s e).evmask = s.evmask := by cases e <;> rfl
@[simp] theorem raiseEvent_thr (s : State) (e : EvtRecord) : (raiseEvent s e).thr = s.thr := by cases e <;> rfl
@[simp] theorem raiseEvent_modeSel (s : State) (e : EvtRecord) : (raiseEvent s e).modeSel = s.modeSel := by cases e <;> rfl
@[simp] theorem raiseEvent_run (s : State) (e : EvtRecord) : (raiseEvent s e).run = s.run := by cases e <;> rfl
@[simp] theorem raiseEvent_stopreq (s : State) (e : EvtRecord) : (raiseEvent s e).stopreq = s.stopreq := by cases e <;> rfl
@[simp] theorem raiseEvent_syncState (s : State) (e : EvtRecord) : (raiseEvent s e).syncState = s.syncState := by cases e <;> rfl
@[simp] theorem raiseEvent_seqStep (s : State) (e : EvtRecord) : (raiseEvent s e).seqStep = s.seqStep := by cases e <;> rfl
@[simp] theorem raiseEvent_symIdx (s : State) (e : EvtRecord) : (raiseEvent s e).symIdx = s.symIdx := by cases e <;> rfl
@[simp] theorem raiseEvent_nosigCnt (s : State) (e : EvtRecord) : (raiseEvent s e).nosigCnt = s.nosigCnt := by cases e <;> rfl
@[simp] theorem raiseEvent_bfailCnt (s : State) (e : EvtRecord) : (raiseEvent s e).bfailCnt = s.bfailCnt := by cases e <;> rfl
@[simp] theorem raiseEvent_boff (s : State) (e : EvtRecord) : (raiseEvent s e).boff = s.boff := by cases e <;> rfl
@[simp] theorem raiseEvent_slevel (s : State) (e : EvtRecord) : (raiseEvent s e).slevel = s.slevel := by cases e <;> rfl
@[simp] theorem raiseEvent_coarse (s : State) (e : EvtRecord) : (raiseEvent s e).coarse = s.coarse := by cases e <;> rfl
@[simp] theorem raiseEvent_fine (s : State) (e : EvtRecord) : (raiseEvent s e).fine = s.fine := by cases e <;> rfl
@[simp] theorem raiseEvent_freqcorr (s : State) (e : EvtRecord) : (raiseEvent s e).freqcorr = s.freqcorr := by cases e <;> rfl
@[simp] theorem raiseEvent_scan (s : State) (e : EvtRecord) : (raiseEvent s e).scan = s.scan := by cases e <;> rfl
@[simp] theorem raiseEvent_win (s : State) (e : EvtRecord) : (raiseEvent s e).win = s.win := by cases e <;> rfl
@[simp] theorem raiseEvent_spec (s : State) (e : EvtRecord) : (raiseEvent s e).spec = s.spec := by cases e <;> rfl
@[simp] theorem raiseEvent_prev (s : State) (e : EvtRecord) : (raiseEvent s e).prev = s.prev := by cases e <;> rfl
@[simp] theorem raiseEvent_prevValid (s : State) (e : EvtRecord) : (raiseEvent s e).prevValid = s.prevValid := by cases e <;> rfl
@[simp] theorem raiseEvent_soft (s : State) (e : EvtRecord) : (raiseEvent s e).soft = s.soft := by cases e <;> rfl
@[simp] theorem raiseEvent_ficState (s : State) (e : EvtRecord) : (raiseEvent s e).ficState = s.ficState := by cases e <;> rfl
@[simp] theorem raiseEvent_ficIdx (s : State) (e : EvtRecord) : (raiseEvent s e).ficIdx = s.ficIdx := by cases e <;> rfl
@[simp] theorem raiseEvent_ficFill (s : State) (e : EvtRecord) : (raiseEvent s e).ficFill = s.ficFill := by cases e <;> rfl
@[simp] theorem raiseEvent_ficAcc (s : State) (e : EvtRecord) : (raiseEvent s e).ficAcc = s.ficAcc := by cases e <;> rfl
@[simp] theorem raiseEvent_ficAccZeroed (s : State) (e : EvtRecord) : (raiseEvent s e).ficAccZeroed = s.ficAccZeroed := by cases e <;> rfl
@[simp] theorem raiseEvent_ficOut (s : State) (e : EvtRecord) : (raiseEvent s e).ficOut = s.ficOut := by cases e <;> rfl
@[simp] theorem raiseEvent_fibGood (s : State) (e : EvtRecord) :
    (raiseEvent s e).fibGood = (match e with | .ficQuality good _ => good | _ => s.fibGood) := by cases e <;> rfl
@[simp] theorem raiseEvent_fibBad (s : State) (e : EvtRecord) :
    (raiseEvent s e).fibBad = (match e with | .ficQuality _ bad => bad | _ => s.fibBad) := by cases e <;> rfl
@[simp] theorem raiseEvent_badFrames (s : State) (e : EvtRecord) : (raiseEvent s e).badFrames = s.badFrames := by cases e <;> rfl
@[simp] theorem raiseEvent_ficSync (s : State) (e : EvtRecord) : (raiseEvent s e).ficSync = s.ficSync := by cases e <;> rfl
@[simp] theorem raiseEvent_fifo (s : State) (e : EvtRecord) : (raiseEvent s e).fifo = s.fifo := by cases e <;> rfl
@[simp] theorem raiseEvent_cif (s : State) (e : EvtRecord) : (raiseEvent s e).cif = s.cif := by cases e <;> rfl
@[simp] theorem raiseEvent_cifValid (s : State) (e : EvtRecord) : (raiseEvent s e).cifValid = s.cifValid := by cases e <;> rfl
@[simp] theorem raiseEvent_subs (s : State) (e : EvtRecord) : (raiseEvent s e).subs = s.subs := by cases e <;> rfl
@[simp] theorem raiseEvent_cmd (s : State) (e : EvtRecord) : (raiseEvent s e).cmd = s.cmd := by cases e <;> rfl
@[simp] theorem raiseEvent_hostWait (s : State) (e : EvtRecord) : (raiseEvent s e).hostWait = s.hostWait := by cases e <;> rfl
@[simp] theorem raiseEvent_rsp (s : State) (e : EvtRecord) : (raiseEvent s e).rsp = s.rsp := by cases e <;> rfl
@[simp] theorem raiseEvent_src (s : State) (e : EvtRecord) : (raiseEvent s e).src = s.src := by cases e <;> rfl
@[simp] theorem raiseEvent_srcTaken (s : State) (e : EvtRecord) : (raiseEvent s e).srcTaken = s.srcTaken := by cases e <;> rfl
@[simp] theorem raiseEvent_srcReq (s : State) (e : EvtRecord) : (raiseEvent s e).srcReq = s.srcReq := by cases e <;> rfl
@[simp] theorem raiseEvent_fibOut (s : State) (e : EvtRecord) : (raiseEvent s e).fibOut = s.fibOut := by cases e <;> rfl
@[simp] theorem raiseEvent_cuOut (s : State) (e : EvtRecord) : (raiseEvent s e).cuOut = s.cuOut := by cases e <;> rfl
@[simp] theorem raiseEvent_tiiOut (s : State) (e : EvtRecord) : (raiseEvent s e).tiiOut = s.tiiOut := by cases e <;> rfl
@[simp] theorem raiseEvent_evt (s : State) (e : EvtRecord) : (raiseEvent s e).evt = s.evt ++ [e] := by cases e <;> rfl
@[simp] theorem raiseEvent_plan (s : State) (e : EvtRecord) : (raiseEvent s e).plan = s.plan := by cases e <;> rfl
@[simp] theorem raiseEvent_tick (s : State) (e : EvtRecord) : (raiseEvent s e).tick = s.tick := by cases e <;> rfl

/-! ## The selected mode -/

@[simp] theorem mode_respond (s : State) (st : Status) (v : Word) : mode (respond s st v) = mode s := rfl
@[simp] theorem order_respond (s : State) (st : Status) (v : Word) : order (respond s st v) = order s := rfl
@[simp] theorem mode_moveTo (p : SeqStep) (s : State) : mode (moveTo p s) = mode s := rfl
@[simp] theorem order_moveTo (p : SeqStep) (s : State) : order (moveTo p s) = order s := rfl
@[simp] theorem mode_zeroFic (s : State) : mode (zeroFic s) = mode s := rfl
@[simp] theorem order_zeroFic (s : State) : order (zeroFic s) = order s := rfl
@[simp] theorem mode_frameReset (s : State) : mode (frameReset s) = mode s := rfl
@[simp] theorem order_frameReset (s : State) : order (frameReset s) = order s := rfl
@[simp] theorem mode_startReset (s : State) : mode (startReset s) = mode s := rfl
@[simp] theorem order_startReset (s : State) : order (startReset s) = order s := rfl
@[simp] theorem mode_goIdle (s : State) : mode (goIdle s) = mode s := rfl
@[simp] theorem order_goIdle (s : State) : order (goIdle s) = order s := rfl
@[simp] theorem mode_forgetBuffers (s : State) : mode (forgetBuffers s) = mode s := rfl
@[simp] theorem order_forgetBuffers (s : State) : order (forgetBuffers s) = order s := rfl
@[simp] theorem mode_flushSrc (s : State) : mode (flushSrc s) = mode s := rfl
@[simp] theorem order_flushSrc (s : State) : order (flushSrc s) = order s := rfl
@[simp] theorem mode_raiseEvent (s : State) (e : EvtRecord) : mode (raiseEvent s e) = mode s := by cases e <;> rfl
@[simp] theorem order_raiseEvent (s : State) (e : EvtRecord) : order (raiseEvent s e) = order s := by cases e <;> rfl

end Sys2Proof.Machine
end

