-- ==== Sys2Proof/Laws/Ops.lean ====
section
/-! SUPPORT. For each shared operation one lemma that says everything it can do. -/

namespace Sys2Proof.Machine

/-! ## The sample port -/

theorem fetchSamples_samples (n : Nat) (src : List SrcItem) (v : List Cx) (r : List SrcItem) :
    fetchSamples n src = .samples v r ↔ v.length = n ∧ src = sampleItems v ++ r := by
  induction n generalizing src v with
  | zero =>
    cases src with
    | nil => cases v <;> cases r <;> simp [fetchSamples, sampleItems]
    | cons i r' => cases v <;> simp [fetchSamples, sampleItems, eq_comm]
  | succ n ih =>
    cases src with
    | nil => cases v <;> simp [fetchSamples, sampleItems]
    | cons i src =>
      cases i with
      | stopped => cases v <;> simp [fetchSamples, sampleItems]
      | sample z =>
        rw [fetchSamples]
        cases v with
        | nil =>
          simp only [List.length_nil, Nat.right_eq_add, Nat.add_eq_zero_iff, one_ne_zero, and_false, false_and,
            iff_false]
          split <;> simp
        | cons z' v =>
          have := ih src v
          simp only [sampleItems] at this ⊢
          split <;> rename_i h <;> rw [h] at this <;> simp at this ⊢
          · rw [and_assoc, this]
            tauto
          · intro e1 e2 e3
            exact this e1 e3
          · intro e1 e2 e3
            exact this e1 e3

theorem fetchSamples_stopped (n : Nat) (src : List SrcItem) (k : Nat) (r : List SrcItem) :
    fetchSamples n src = .stopped k r ↔ k < n ∧ ∃ v : List Cx, v.length = k ∧ src = sampleItems v ++ .stopped :: r := by
  induction n generalizing src k with
  | zero => cases src <;> simp [fetchSamples]
  | succ n ih =>
    cases src with
    | nil => simp [fetchSamples, sampleItems]
    | cons i src =>
      cases i with
      | stopped =>
        simp only [fetchSamples, Fetched.stopped.injEq]
        constructor
        · rintro ⟨rfl, rfl⟩
          exact ⟨by omega, [], rfl, rfl⟩
        · rintro ⟨-, v, hv, h⟩
          cases v with
          | nil => simpa [sampleItems, ← hv] using h
          | cons z v => simp [sampleItems] at h
      | sample z =>
        rw [fetchSamples]
        constructor
        · intro h
          split at h
          · cases h
          · rename_i k' r' hk
            cases h
            obtain ⟨hlt, v, hv, he⟩ := (ih _ _).1 hk
            exact ⟨by omega, z :: v, by simp [hv], by simp [sampleItems, he]⟩
          · cases h
        · rintro ⟨hlt, v, hv, he⟩
          cases v with
          | nil => simp [sampleItems] at he
          | cons z' v =>
            simp only [sampleItems, List.map_cons, List.cons_append, List.cons.injEq, SrcItem.sample.injEq] at he
            have := (ih src v.length).2 ⟨by simp at hv; omega, v, rfl, he.2⟩
            rw [this]
            simp [← hv]

/-- What `take` can do (`46_sync_controller.md` R273). -/
theorem take_cases (n : Nat) (s : State) :
    (s.run = true ∧ s.stopreq = true ∧ take n s = .stopped s) ∨
    (¬ (s.run = true ∧ s.stopreq = true) ∧
      ((∃ v r, v.length = n ∧ s.src = sampleItems v ++ r ∧ take n s = .samples v (sampledState s v r)) ∨
       (∃ v r, v.length < n ∧ s.src = sampleItems v ++ .stopped :: r ∧
          take n s = .stopped (stoppedState s n v.length r)) ∨
       take n s = .waits)) := by
  by_cases h : s.run = true ∧ s.stopreq = true
  · exact .inl ⟨h.1, h.2, by simp [take, h]⟩
  · refine .inr ⟨h, ?_⟩
    cases hf : fetchSamples n s.src with
    | samples v r =>
      obtain ⟨hv, he⟩ := (fetchSamples_samples _ _ _ _).1 hf
      exact .inl ⟨v, r, hv, he, by simp only [take, if_neg h, hf, sampledState, hv]⟩
    | stopped k r =>
      obtain ⟨hk, v, hv, he⟩ := (fetchSamples_stopped _ _ _ _).1 hf
      exact .inr (.inl ⟨v, r, by omega, he, by simp only [take, if_neg h, hf, stoppedState, hv]⟩)
    | waits => exact .inr (.inr (by simp only [take, if_neg h, hf]))

/-- A read that `SRC` can serve. -/
theorem take_samples (n : Nat) (s : State) (v : List Cx) (r : List SrcItem)
    (hs : ¬ (s.run = true ∧ s.stopreq = true)) (hv : v.length = n) (he : s.src = sampleItems v ++ r) :
    take n s = .samples v (sampledState s v r) := by
  have hf : fetchSamples n s.src = .samples v r := (fetchSamples_samples _ _ _ _).2 ⟨hv, he⟩
  simp only [take, if_neg hs, hf, sampledState, hv]

/-! ## Slices -/

/-- What an operation on a slice can do (`48_arithmetic_and_control.md` R333). -/
theorem onSlice_cases (s : State) (off : Nat) (k : List Cx → OpRes) :
    ((mode s).tS < off + (mode s).tU ∧ onSlice s off k = .done s .illegal 0) ∨
    (off + (mode s).tU ≤ (mode s).tS ∧
      ((∃ w, w.length = (mode s).tU ∧ Holds s.win off w ∧ onSlice s off k = k w) ∨
       (¬ Written s.win off (mode s).tU ∧ onSlice s off k = .fault (.readUnwritten .win)))) := by
  by_cases h : (mode s).tS < off + (mode s).tU
  · exact .inl ⟨h, by simp [onSlice, sliceLeaves, h]⟩
  · refine .inr ⟨by omega, ?_⟩
    cases hw : winSlice s off with
    | some w =>
      obtain ⟨hl, hh⟩ := (bufReadRange_eq_some _ _ _ _).1 hw
      exact .inl ⟨w, hl, hh, by simp [onSlice, sliceLeaves, h, hw]⟩
    | none => exact .inr ⟨(bufReadRange_eq_none _ _ _).1 hw, by simp [onSlice, sliceLeaves, h, hw]⟩

/-- A slice that is written. -/
theorem onSlice_written (s : State) (off : Nat) (k : List Cx → OpRes) (w : List Cx)
    (h : off + (mode s).tU ≤ (mode s).tS) (hl : w.length = (mode s).tU) (hh : Holds s.win off w) :
    onSlice s off k = k w := by
  have hw : winSlice s off = some w := (bufReadRange_eq_some _ _ _ _).2 ⟨hl, hh⟩
  have h' : ¬ (mode s).tS < off + (mode s).tU := by omega
  simp [onSlice, sliceLeaves, h', hw]

/-! ## Issuing an operation -/

/-- A unit operation from `HOST` (`30_encoding.md` R91). -/
theorem hostUnit_next (i : Instr) (op : State → OpRes) (s t : State) :
    hostUnit i op s = .next t ↔
      (s.run = true ∧ t = respond s .busy 0) ∨
      (s.run = false ∧ ((∃ u st v, op s = .done u st v ∧ t = respond u st v) ∨
        ∃ u, op s = .waits u ∧ t = { u with hostWait := some i })) := by
  unfold hostUnit hostOutcome
  cases hr : s.run <;> simp only [Bool.false_eq_true, ↓reduceIte, true_and, false_and, or_false, false_or, reduceCtorEq]
  · cases op s <;> simp [eq_comm]
  · simp [eq_comm]

theorem hostUnit_running (i : Instr) (op : State → OpRes) (s : State) (h : s.run = true) :
    hostUnit i op s = .next (respond s .busy 0) := by simp [hostUnit, h]

theorem hostUnit_done (i : Instr) (op : State → OpRes) (s u : State) (st : Status) (v : Word) (h : s.run = false)
    (ho : op s = .done u st v) : hostUnit i op s = .next (respond u st v) := by simp [hostUnit, hostOutcome, h, ho]

/-- A step of the sequencer that issues an operation (`46_sync_controller.md` R271, R301). -/
theorem seqUnit_next (op : OpRes) (k : State → Status → Word → State) (t : State) :
    seqUnit op k = .next t ↔
      (∃ u v, op = .done u .stopped v ∧ t = goIdle u) ∨
      (∃ u st v, st ≠ .stopped ∧ op = .done u st v ∧ t = k u st v) ∨ op = .waits t := by
  unfold seqUnit
  cases op with
  | done u st v =>
    by_cases h : st = .stopped
    · subst h; simp [eq_comm]
    · simp [h, eq_comm]
  | waits u => simp
  | fault f => simp

theorem seqUnit_fault (op : OpRes) (k : State → Status → Word → State) (f : Fault) :
    seqUnit op k = .fault f ↔ op = .fault f := by
  unfold seqUnit
  cases op with
  | done u st v => by_cases h : st = .stopped <;> simp [h]
  | waits u => simp
  | fault g => simp

/-- The act of a step (log 5). -/
theorem step_eq (s : State) (h : cfgWf s.cfg = true) :
    ∃ u, (u = { s with plan := s.plan.tail } ∨ u = { s with tick := s.tick + 1 }) ∧ step s = perform (nextAct s) u := by
  unfold step nextAct
  rw [h]
  cases hp : s.plan with
  | nil => exact ⟨_, .inr rfl, rfl⟩
  | cons a r => exact ⟨_, .inl rfl, rfl⟩

theorem step_illFormed (s : State) (h : cfgWf s.cfg = false) : step s = .refused .illFormedCfg := by simp [step, h]

/-! ## Registers -/

/-- What `WRCSR` can do to a register (`47_host_commands.md` R326). -/
theorem csrWrite_cases (s : State) (a : Nat) (d : Word) :
    ((csrWrite s a d).1 = s ∧ ((csrWrite s a d).2 = .busy ∨ (csrWrite s a d).2 = .illegal)) ∨
    ((csrWrite s a d).2 = .ok ∧
      (a = 0x00 ∧ s.run = false ∧ (csrWrite s a d).1 = { s with ctrl := d.setWidth 2 } ∨
       a = 0x02 ∧ (csrWrite s a d).1 = { s with event := s.event &&& ~~~(d.setWidth 6) } ∨
       a = 0x03 ∧ (csrWrite s a d).1 = { s with evmask := d.setWidth 6 } ∨
       a = 0x04 ∧ (csrWrite s a d).1 = { s with thr := d.setWidth 16 } ∨
       a = 0x1F ∧ s.run = false ∧ (d.setWidth 8).toNat < s.cfg.modes.length ∧
         ((csrWrite s a d).1 = s ∧ d.setWidth 8 = s.modeSel ∨
          (csrWrite s a d).1 = { forgetBuffers s with modeSel := d.setWidth 8 }))) := by
  unfold csrWrite
  split
  · cases hr : s.run <;> simp
  · simp
  · simp
  · simp
  · by_cases hr : s.run = true
    · rw [if_pos hr]
      exact .inl ⟨rfl, .inl rfl⟩
    · have hr' : s.run = false := by simpa using hr
      rw [if_neg hr]
      by_cases h1 : s.cfg.modes.length ≤ (d.setWidth 8).toNat
      · rw [if_pos h1]
        exact .inl ⟨rfl, .inr rfl⟩
      · rw [if_neg h1]
        refine .inr ?_
        by_cases h2 : d.setWidth 8 = s.modeSel
        · rw [if_pos h2]
          exact ⟨rfl, .inr (.inr (.inr (.inr ⟨rfl, hr', by omega, .inl ⟨rfl, h2⟩⟩)))⟩
        · rw [if_neg h2]
          exact ⟨rfl, .inr (.inr (.inr (.inr ⟨rfl, hr', by omega, .inr rfl⟩)))⟩
  · exact .inl ⟨rfl, .inr rfl⟩

end Sys2Proof.Machine
end

