-- ==== Sys2Proof/Laws/Patterns.lean ====
section
/-! SUPPORT. The pattern sets of `ESTCO` are those of `41_phase_reference.md` R149 in every well-formed mode
(`mem_zeroPairs`, `mem_piPairs`), where products and conjugates are exact (`Exact`). -/

open Sys2Proof Sys2Proof.Machine

namespace Sys2Proof.Laws

/-! ## Comparisons with radians -/

/-- The sign of `Re z - cos ε` that is found is right. -/
theorem argCompare_sound (M : Nat) (hM : 0 < M) (z : Cyc) (eps : Rat) (h0 : 0 < eps) (h1 : (eps : ℝ) ≤ Real.pi / 2) :
    (argCompare M z eps = 1 → Real.cos eps < (cycVal M z).re) ∧
    (argCompare M z eps = -1 → (cycVal M z).re < Real.cos eps) := by
  have key := refine_sound (fun p =>
    let c := cosBetween p (eps.num.toNat * 2 ^ p / eps.den) (ceilDiv (eps.num.toNat * 2 ^ p) eps.den)
    addBounds (cycReBounds p M z) (-(c.2 : Int), -(c.1 : Int))) ((cycVal M z).re - Real.cos eps) (fun p => by
      have e : (eps : ℝ) * 2 ^ p = ((eps.num.toNat * 2 ^ p : Nat) : ℝ) / (eps.den : ℝ) := by
        have hn : ((eps.num.toNat : Nat) : ℝ) = (eps.num : ℝ) := by
          exact_mod_cast Int.toNat_of_nonneg (Rat.num_pos.2 h0).le
        have hq : (eps : ℝ) = eps.num / eps.den := by exact_mod_cast (Rat.num_div_den eps).symm
        rw [hq]; push_cast; rw [hn]; ring
      obtain ⟨a, b⟩ := cosBetween_enc p (eps.num.toNat * 2 ^ p / eps.den) (ceilDiv (eps.num.toNat * 2 ^ p) eps.den)
        eps (by exact_mod_cast h0.le) h1 ⟨by rw [e]; exact floorDiv_le _ _, by rw [e]; exact le_ceilDiv _ _ eps.pos⟩
      rw [sub_eq_add_neg]
      refine addBounds_enc (cycReBounds_enc p M hM z) ⟨?_, ?_⟩ <;> push_cast <;> linarith)
    (doublings (argBits M z eps)) 32
  exact ⟨fun h => by linarith [key.1 h], fun h => by linarith [key.2 h]⟩

theorem argCompare_range (M : Nat) (z : Cyc) (eps : Rat) : argCompare M z eps ∈ [(-1 : Int), 0, 1] := refine_range _ _ _

/-- A `CO_EPS` that is accepted is below `π/2`. -/
theorem belowHalfPi_sound (eps : Scalar) (h : belowHalfPi eps = true) : scalarVal eps < Real.pi / 2 := by
  have key : ∀ q : Rat, ratBelowHalfPi q = true → (q : ℝ) < Real.pi / 2 := fun q h => by
    have := (refine_sound (fun p => addBounds (((piBounds p).1 : Int), ((piBounds p).2 : Int))
      (scaleBounds (-(2 * q)) (2 ^ p, 2 ^ p))) (Real.pi + ((-(2 * q) : Rat) : ℝ) * 1) (fun p =>
        addBounds_enc (by simpa [Enc, EncN] using piBounds_enc p) (scaleBounds_enc _ (by simp [Enc])))
      (doublings (piBits (2 * q).den)) 32).1 (of_decide_eq_true h)
    push_cast at this; linarith
  unfold belowHalfPi at h
  split at h
  · next hp => rw [scalarVal, scalarAt_atZero _ _ (.inl hp)]; exact key _ h
  split at h
  · next r hr =>
    have hc : Config.const = r.const := by simp [Config.const, hr]
    rw [scalarVal, hc]; exact (r.belowHalfPi_iff eps).1 h
  · next hr =>
    rw [scalarVal, scalarAt_atZero _ _ (.inr fun k => by simp [Config.const, hr])]; exact key _ h

/-- For numbers of modulus 1 the order of arguments is that of real parts. -/
theorem abs_arg_lt_iff {z : ℂ} (hz : ‖z‖ = 1) {e : ℝ} (h0 : 0 ≤ e) (h1 : e ≤ Real.pi) :
    (|Complex.arg z| < e ↔ Real.cos e < z.re) ∧ (e < |Complex.arg z| ↔ z.re < Real.cos e) := by
  have hc : Real.cos |Complex.arg z| = z.re := by
    rw [Real.cos_abs, Complex.cos_arg (by intro h; simp [h] at hz), hz, div_one]
  rw [← hc]
  have ha : |Complex.arg z| ∈ Set.Icc 0 Real.pi := ⟨abs_nonneg _, Complex.abs_arg_le_pi z⟩
  exact ⟨(Real.strictAntiOn_cos.lt_iff_gt ⟨h0, h1⟩ ha).symm, (Real.strictAntiOn_cos.lt_iff_gt ha ⟨h0, h1⟩).symm⟩

/-- A decided comparison of an argument with a number of radians is exact. -/
theorem argBelow_iff (M : Nat) (hM : 0 < M) (z : Cx) (eps : Scalar) (hz : ‖cxVal M z‖ = 1) (h0 : 0 < scalarVal eps)
    (h1 : scalarVal eps < Real.pi / 2) (hd : argDecided M z eps = true) :
    argBelow M z eps = true ↔ |Complex.arg (cxVal M z)| < scalarVal eps := by
  have key : ∀ h : cxPure z = true ∧ scalarPure eps = true ∨ ∀ k, Config.const k = 0,
      argCompare M (cxAtZero z) (scalarAtZero eps) ≠ 0 →
      (argCompare M (cxAtZero z) (scalarAtZero eps) = 1 ↔ |Complex.arg (cxVal M z)| < scalarVal eps) := by
    intro h hne
    have e1 : cxVal M z = cycVal M (cxAtZero z) := cxAt_atZero _ M z (h.imp_left And.left)
    have e2 : scalarVal eps = scalarAtZero eps := scalarAt_atZero _ _ (h.imp_left And.right)
    have hp : 0 < scalarAtZero eps := by rw [e2] at h0; exact_mod_cast h0
    rw [(abs_arg_lt_iff hz h0.le (by linarith [Real.pi_pos])).1, e1, e2]
    rw [e2] at h1
    have hs := argCompare_sound M hM (cxAtZero z) (scalarAtZero eps) hp h1.le
    refine ⟨hs.1, fun h => ?_⟩
    have hr := argCompare_range M (cxAtZero z) (scalarAtZero eps)
    simp only [List.mem_cons, List.not_mem_nil, or_false] at hr
    rcases hr with hr | hr | hr
    · exact absurd (hs.2 hr) (not_lt.2 h.le)
    · exact absurd hr hne
    · exact hr
  unfold argBelow; unfold argDecided at hd
  split
  · next h =>
    rw [if_pos h] at hd
    rw [decide_eq_true_iff]; exact key (.inl (by simpa using h)) (by simpa using hd)
  · next h =>
    rw [if_neg h] at hd
    split
    · next r hr =>
      have hc : Config.const = r.const := by simp [Config.const, hr]
      rw [scalarVal, cxVal, hc]; exact r.argBelow_iff M z eps
    · next hr =>
      rw [hr] at hd
      rw [decide_eq_true_iff]
      exact key (.inr fun k => by simp [Config.const, hr]) (by simpa using hd)

/-! ## The pattern sets -/

/-- The carriers `1, …, K/2` of `REF` have modulus 1. -/
theorem ref_norm (M : Nat) (hE : Exact M) (m : Mode) (h : refWf M m = true) (hl : m.carriers < m.tU) (k : Nat) (h0 : 0 < k)
    (hk : k ≤ m.carriers / 2) : ‖cxVal M (m.ref.getD (carrierBin m k) [])‖ = 1 := by
  have hb : carrierBin m k = k := by
    unfold carrierBin
    rw [Int.emod_eq_of_lt (by omega) (by omega)]; rfl
  rw [hb]
  simp only [refWf, Bool.and_eq_true, List.all_eq_true, List.mem_range] at h
  have h2 := h.2 k (by omega)
  have hany : ((offsets m).any fun j => decide (carrierBin m j = k)) = true := by
    rw [List.any_eq_true]
    refine ⟨(k : Int), ?_, by simp [hb]⟩
    unfold offsets
    rw [List.mem_append]; left
    rw [List.mem_map]
    exact ⟨k - 1, List.mem_range.2 (by omega), by omega⟩
  rw [if_pos hany, decide_eq_true_iff, cxSignRe_eq M hE, sgn_zero_iff] at h2
  rw [cxVal, cxAt_sub, cxAt_one, cxNormSq] at h2
  have h3 := exact_mul hE (m.ref.getD k []) (cxConj M (m.ref.getD k []))
  rw [exact_conj hE, Complex.mul_conj] at h3
  rw [cxVal] at h3
  rw [h3] at h2
  simp only [Complex.sub_re, Complex.ofReal_re, Complex.one_re, Complex.normSq_eq_norm_sq] at h2
  nlinarith [norm_nonneg (cxAt Config.const M (m.ref.getD k [])), h2]

/-- What the pattern sets hold. -/
theorem pairs_spec (s : State) (hs : ModeOk s) (hE : Exact (order s)) :
    (∀ j, j ∈ zeroPairs (order s) (mode s) ↔ j ∈ zeroSet s) ∧ (∀ j, j ∈ piPairs (order s) (mode s) ↔ j ∈ piSet s) := by
  have hm : modeWf (order s) (mode s) = true := by
    obtain ⟨hc, hi⟩ := hs
    simp only [cfgWf, Bool.and_eq_true, List.all_eq_true] at hc
    refine hc.2 _ ?_
    rw [mode, List.getD_eq_getElem?_getD, List.getElem?_eq_getElem hi]
    exact List.getElem_mem hi
  simp only [modeWf, Bool.and_eq_true] at hm
  obtain ⟨⟨⟨⟨⟨⟨⟨hlen, -⟩, href⟩, hsearch⟩, hpat⟩, -⟩, -⟩, -⟩ := hm
  simp only [searchWf, Bool.and_eq_true, decide_eq_true_iff] at hsearch
  simp only [lengthsWf, Bool.and_eq_true, decide_eq_true_iff] at hlen
  simp only [patternsWf, Bool.and_eq_true, List.all_eq_true, List.mem_range] at hpat
  have e0 : 0 < scalarVal (mode s).coEps := by
    have := hsearch.1.1.2; rw [scalarSign_eq] at this; exact sgn_pos this
  have e1 := belowHalfPi_sound _ hsearch.1.2
  have hval : ∀ j, cxVal (order s) (refStep (order s) (mode s) j) =
      cxVal (order s) ((mode s).ref.getD (carrierBin (mode s) (1 + j)) []) *
      (starRingEnd ℂ) (cxVal (order s) ((mode s).ref.getD (carrierBin (mode s) (2 + j)) [])) := fun j => by
    rw [refStep, exact_mul hE, exact_conj hE]
  have hnorm : ∀ j, j < (mode s).coLen → ‖cxVal (order s) (refStep (order s) (mode s) j)‖ = 1 := fun j hj => by
    have hK := hsearch.1.1.1.2
    have hT := hlen.1.2
    rw [hval, norm_mul, RCLike.norm_conj]
    have a := ref_norm _ hE (mode s) href hT.2.2 (1 + j) (by omega) (by omega)
    have b := ref_norm _ hE (mode s) href hT.2.2 (2 + j) (by omega) (by omega)
    push_cast at a b
    rw [a, b, one_mul]
  constructor <;> intro j
  · simp only [zeroPairs, zeroSet, List.mem_filter, List.mem_range, Finset.mem_filter, Finset.mem_range]
    refine and_congr_right fun hj => ?_
    rw [argBelow_iff _ hE.1 _ _ (hnorm j hj) e0 e1 (hpat j hj).1, expectedStep, hval]
  · simp only [piPairs, piSet, List.mem_filter, List.mem_range, Finset.mem_filter, Finset.mem_range]
    refine and_congr_right fun hj => ?_
    have hn : cxVal (order s) (cxNeg (refStep (order s) (mode s) j)) = -cxVal (order s) (refStep (order s) (mode s) j) :=
      cxAt_neg _ _ _
    rw [argBelow_iff _ hE.1 _ _ (by rw [hn, norm_neg]; exact hnorm j hj) e0 e1 (hpat j hj).2, hn,
      (abs_arg_lt_iff (by rw [norm_neg]; exact hnorm j hj) e0.le (by linarith [Real.pi_pos])).1, expectedStep, ← hval,
      (abs_arg_lt_iff (hnorm j hj) (by linarith [Real.pi_pos]) (by linarith)).2, Real.cos_pi_sub, Complex.neg_re]
    constructor <;> intro h <;> linarith

/-- `Z` of `ESTCO` is that of R149. -/
theorem mem_zeroPairs (s : State) (hs : ModeOk s) (hE : Exact (order s)) (j : Nat) :
    j ∈ zeroPairs (order s) (mode s) ↔ j ∈ zeroSet s := (pairs_spec s hs hE).1 j

/-- `P` of `ESTCO` is that of R149. -/
theorem mem_piPairs (s : State) (hs : ModeOk s) (hE : Exact (order s)) (j : Nat) :
    j ∈ piPairs (order s) (mode s) ↔ j ∈ piSet s := (pairs_spec s hs hE).2 j

end Sys2Proof.Laws
end

