-- ==== Sys2Proof/Laws/PerInstr.lean ====
section
/-! SUPPORT. Statements for all commands, made one command at a time. -/

namespace Sys2Proof.Laws

open Sys2Proof

theorem opcodeOf_word0 (op : Nat) (b : BitVec 8) (h : BitVec 16) : opcodeOf (word0 op b h) = BitVec.ofNat 8 op := by
  ext j hj
  simp only [opcodeOf, word0, BitVec.getElem_extractLsb', BitVec.getLsbD_append]
  simp [hj, show ¬ (24 + j < 16) by omega, show ¬ (24 + j - 16 < 8) by omega, show 24 + j - 16 - 8 = j by omega]

theorem lowHalf_word0 (op : Nat) (b : BitVec 8) (h : BitVec 16) : lowHalf (word0 op b h) = h := by
  ext j hj
  simp only [lowHalf, word0, BitVec.getElem_extractLsb', BitVec.getLsbD_append]
  simp [hj]

theorem thirdByte_word0 (op : Nat) (b : BitVec 8) (h : BitVec 16) : thirdByte (word0 op b h) = b := by
  ext j hj
  simp only [thirdByte, word0, BitVec.getElem_extractLsb', BitVec.getLsbD_append]
  simp [hj, show ¬ (16 + j < 16) by omega, show 16 + j - 16 = j by omega]

/-- The opcode and the length of a command's encoding agree: its first word's opcode is one of the table's, whose
format has as many words as the encoding, and its must-be-zero field is clear (`30_encoding.md` R92, R93). -/
def EncodeFormat.Statement (i : Instr) : Prop :=
  ∃ f, formatOf (opcodeOf ((encode i).headD 0)) = some f ∧ (encode i).length = f.words ∧
    mbzClear f ((encode i).headD 0) = true

theorem EncodeFormat.start : EncodeFormat.Statement .start :=
  ⟨.N, by simp [encode, immWord, opcodeOf_word0, formatOf], rfl, by
    simp [encode, immWord, mbzClear, thirdByte_word0, lowHalf_word0]⟩

theorem EncodeFormat.stop : EncodeFormat.Statement .stop :=
  ⟨.N, by simp [encode, immWord, opcodeOf_word0, formatOf], rfl, by
    simp [encode, immWord, mbzClear, thirdByte_word0, lowHalf_word0]⟩

theorem EncodeFormat.rdcsr (a : Nat) : EncodeFormat.Statement (.rdcsr a) :=
  ⟨.I, by simp [encode, immWord, opcodeOf_word0, formatOf], rfl, by
    simp [encode, immWord, mbzClear, thirdByte_word0]⟩

theorem EncodeFormat.wrcsr (a : Nat) (d : Word) : EncodeFormat.Statement (.wrcsr a d) :=
  ⟨.W, by simp [encode, immWord, opcodeOf_word0, formatOf], rfl, by
    simp [encode, immWord, mbzClear, thirdByte_word0]⟩

theorem EncodeFormat.subscribe (sink : BitVec 8) (comp : BitVec 16) (sid : Word) (len addr : Nat) : EncodeFormat.Statement (.subscribe sink comp sid len addr) :=
  ⟨.S, by simp [encode, opcodeOf_word0, formatOf], rfl, by
    simp [mbzClear]⟩

theorem EncodeFormat.unsubscribe (comp : BitVec 16) (sid : Word) : EncodeFormat.Statement (.unsubscribe comp sid) :=
  ⟨.U, by simp [encode, opcodeOf_word0, formatOf], rfl, by
    simp [encode, mbzClear, thirdByte_word0]⟩

theorem EncodeFormat.resetSubs : EncodeFormat.Statement .resetSubs :=
  ⟨.N, by simp [encode, immWord, opcodeOf_word0, formatOf], rfl, by
    simp [encode, immWord, mbzClear, thirdByte_word0, lowHalf_word0]⟩

theorem EncodeFormat.level (n : Nat) : EncodeFormat.Statement (.level n) :=
  ⟨.I, by simp [encode, immWord, opcodeOf_word0, formatOf], rfl, by
    simp [encode, immWord, mbzClear, thirdByte_word0]⟩

theorem EncodeFormat.nullscan : EncodeFormat.Statement .nullscan :=
  ⟨.N, by simp [encode, immWord, opcodeOf_word0, formatOf], rfl, by
    simp [encode, immWord, mbzClear, thirdByte_word0, lowHalf_word0]⟩

theorem EncodeFormat.fill (off n : Nat) : EncodeFormat.Statement (.fill off n) :=
  ⟨.W, by simp [encode, immWord, opcodeOf_word0, formatOf], rfl, by
    simp [encode, immWord, mbzClear, thirdByte_word0]⟩

theorem EncodeFormat.shift (n : Nat) : EncodeFormat.Statement (.shift n) :=
  ⟨.I, by simp [encode, immWord, opcodeOf_word0, formatOf], rfl, by
    simp [encode, immWord, mbzClear, thirdByte_word0]⟩

theorem EncodeFormat.skipnull : EncodeFormat.Statement .skipnull :=
  ⟨.N, by simp [encode, immWord, opcodeOf_word0, formatOf], rfl, by
    simp [encode, immWord, mbzClear, thirdByte_word0, lowHalf_word0]⟩

theorem EncodeFormat.fft (off : Nat) : EncodeFormat.Statement (.fft off) :=
  ⟨.I, by simp [encode, immWord, opcodeOf_word0, formatOf], rfl, by
    simp [encode, immWord, mbzClear, thirdByte_word0]⟩

theorem EncodeFormat.findb (thr : Nat) : EncodeFormat.Statement (.findb thr) :=
  ⟨.I, by simp [encode, immWord, opcodeOf_word0, formatOf], rfl, by
    simp [encode, immWord, mbzClear, thirdByte_word0]⟩

theorem EncodeFormat.estco (off : Nat) : EncodeFormat.Statement (.estco off) :=
  ⟨.I, by simp [encode, immWord, opcodeOf_word0, formatOf], rfl, by
    simp [encode, immWord, mbzClear, thirdByte_word0]⟩

theorem EncodeFormat.prime (off : Nat) : EncodeFormat.Statement (.prime off) :=
  ⟨.I, by simp [encode, immWord, opcodeOf_word0, formatOf], rfl, by
    simp [encode, immWord, mbzClear, thirdByte_word0]⟩

theorem EncodeFormat.fcorr : EncodeFormat.Statement .fcorr :=
  ⟨.N, by simp [encode, immWord, opcodeOf_word0, formatOf], rfl, by
    simp [encode, immWord, mbzClear, thirdByte_word0, lowHalf_word0]⟩

theorem EncodeFormat.decsym (off : Nat) : EncodeFormat.Statement (.decsym off) :=
  ⟨.I, by simp [encode, immWord, opcodeOf_word0, formatOf], rfl, by
    simp [encode, immWord, mbzClear, thirdByte_word0]⟩

theorem EncodeFormat.ftrack : EncodeFormat.Statement .ftrack :=
  ⟨.N, by simp [encode, immWord, opcodeOf_word0, formatOf], rfl, by
    simp [encode, immWord, mbzClear, thirdByte_word0, lowHalf_word0]⟩

theorem EncodeFormat.ficpush (idx : Nat) : EncodeFormat.Statement (.ficpush idx) :=
  ⟨.I, by simp [encode, immWord, opcodeOf_word0, formatOf], rfl, by
    simp [encode, immWord, mbzClear, thirdByte_word0]⟩

theorem EncodeFormat.ficdec : EncodeFormat.Statement .ficdec :=
  ⟨.N, by simp [encode, immWord, opcodeOf_word0, formatOf], rfl, by
    simp [encode, immWord, mbzClear, thirdByte_word0, lowHalf_word0]⟩

theorem EncodeFormat.crc16 (f : Nat) : EncodeFormat.Statement (.crc16 f) :=
  ⟨.I, by simp [encode, immWord, opcodeOf_word0, formatOf], rfl, by
    simp [encode, immWord, mbzClear, thirdByte_word0]⟩

theorem EncodeFormat.mscpush (s : Nat) : EncodeFormat.Statement (.mscpush s) :=
  ⟨.I, by simp [encode, immWord, opcodeOf_word0, formatOf], rfl, by
    simp [encode, immWord, mbzClear, thirdByte_word0]⟩

theorem EncodeFormat.cifpop : EncodeFormat.Statement .cifpop :=
  ⟨.N, by simp [encode, immWord, opcodeOf_word0, formatOf], rfl, by
    simp [encode, immWord, mbzClear, thirdByte_word0, lowHalf_word0]⟩

end Sys2Proof.Laws
end

