-- ==== Sys2Proof/Tests/Slice0.lean ====
section
/-! SUPPORT. Tests. The words are written out from `30_encoding.md` R93 and R94, the results are those of the worked
examples in the rules and of `95_test_vectors.md`; each test names its source. The `test_wit_` theorems show that the
hypotheses of the statements can be met. -/

namespace Sys2Proof.Tests

-- One theorem at a time: each waits for the kernel, and a thread for each is too many.
set_option Elab.async false

open Sys2Proof Sys2Proof.Machine

/-! ## Helpers -/

/-- The block after power-on reset, in TOY. -/
def idle : State := State.reset

/-- The same with a session running, at a step. -/
def running (p : SeqStep) : State := { idle with run := true, seqStep := p, syncState := syncOfStep p }

def after : Host.Outcome State Fault Refusal → Option State
  | .next t => some t
  | .fault _ => none
  | .refused _ => none

/-- The last response, as (status, value). -/
def answer (o : Host.Outcome State Fault Refusal) : Option (Status × Nat) :=
  (after o).bind fun t => t.rsp.getLast?.map fun r => (r.status, r.value.toNat)

/-- One field of the next state. -/
def get {α : Type} (f : State → α) (o : Host.Outcome State Fault Refusal) : Option α := (after o).map f

/-- `re + i·im`, in the order of TOY. -/
def c (re im : Rat) : Cx := cxOf 8 re im

/-- A state whose window holds a list. -/
def withWin (w : List Cx) : State := { idle with win := bufOf 0 w }

def withSrc (zs : List Cx) : State := { idle with src := sampleItems zs }

def done? (r : OpRes) (st : Status) : Bool :=
  match r with
  | .done _ st' _ => decide (st' = st)
  | .waits _ => false
  | .fault _ => false

/-! ## Decoding: one word or more for every constructor -/

theorem test_decode_start : decode [0x01000000] = .command .start [] := by decide
theorem test_decode_stop : decode [0x02000000] = .command .stop [] := by decide
theorem test_decode_rdcsr : decode [0x03000024] = .command (.rdcsr 0x24) [] := by decide
theorem test_decode_wrcsr : decode [0x04000004, 0x00012345] = .command (.wrcsr 4 0x12345) [] := by decide
theorem test_decode_subscribe :
    decode [0x0503FFFE, 0xFFFFFFFD, 0x00020001] = .command (.subscribe 3 0xFFFE 0xFFFFFFFD 2 1) [] := by decide
theorem test_decode_unsubscribe : decode [0x0600000A, 0x00000007] = .command (.unsubscribe 0xA 7) [] := by decide
theorem test_decode_resetSubs : decode [0x07000000] = .command .resetSubs [] := by decide
theorem test_decode_level : decode [0x10000004] = .command (.level 4) [] := by decide
theorem test_decode_nullscan : decode [0x11000000] = .command .nullscan [] := by decide
theorem test_decode_fill : decode [0x12000003, 0x00000001] = .command (.fill 3 1) [] := by decide
theorem test_decode_shift : decode [0x13000001] = .command (.shift 1) [] := by decide
theorem test_decode_skipnull : decode [0x14000000] = .command .skipnull [] := by decide
theorem test_decode_fft : decode [0x18000001] = .command (.fft 1) [] := by decide
theorem test_decode_findb : decode [0x19000003] = .command (.findb 3) [] := by decide
theorem test_decode_estco : decode [0x1A000002] = .command (.estco 2) [] := by decide
theorem test_decode_prime : decode [0x20000001] = .command (.prime 1) [] := by decide
theorem test_decode_fcorr : decode [0x21000000] = .command .fcorr [] := by decide
theorem test_decode_decsym : decode [0x22000001] = .command (.decsym 1) [] := by decide
theorem test_decode_ftrack : decode [0x23000000] = .command .ftrack [] := by decide
theorem test_decode_ficpush : decode [0x28000002] = .command (.ficpush 2) [] := by decide
theorem test_decode_ficdec : decode [0x29000000] = .command .ficdec [] := by decide
theorem test_decode_crc16 : decode [0x2A00FFFF] = .command (.crc16 65535) [] := by decide
theorem test_decode_mscpush : decode [0x30000005] = .command (.mscpush 5) [] := by decide
theorem test_decode_cifpop : decode [0x31000000, 7] = .command .cifpop [7] := by decide

/-- V-30.1 to V-30.6: illegal words, and how many each consumes. -/
theorem test_decode_illegal :
    decode [0x00000000, 5] = .illegal (.opcode 0) [5] ∧ decode [0xFFFFFFFF] = .illegal (.opcode 0xFF) [] ∧
    decode [0x08000000] = .illegal (.opcode 8) [] ∧ decode [0x01000001] = .illegal (.mbz 1) [] ∧
    decode [0x12010000, 4, 9] = .illegal (.mbz 0x12) [9] ∧ decode [0x19010003] = .illegal (.mbz 0x19) [] ∧
    decode [0x12000000] = .incomplete := by decide

/-- The numbering of the opcode table: bit 0 is the least significant of word 0. -/
theorem test_decodeTableWord :
    decodeTableWord 32 0x19000003 = some (.findb 3) ∧ decodeTableWord 64 0x0000000312000007 = some (.fill 7 3) ∧
    decodeTableWord 96 0x00540000E1C0009805010000 = some (.subscribe 1 0 0xE1C00098 84 0) ∧
    decodeTableWord 32 0x08000000 = none := by decide

/-- R101, encoded. -/
theorem test_encode :
    encode .start = [0x01000000] ∧ encode (.fill 0 2048) = [0x12000000, 0x00000800] ∧
    encode (.subscribe 1 0 0xE1C00098 84 0) = [0x05010000, 0xE1C00098, 0x00540000] := by decide

/-- R66: on a serial transport the most significant byte comes first. -/
theorem test_bytes : wordBytes 0x05010002 = [0x05, 0x01, 0x00, 0x02] ∧ bytesWord 0x05 0x01 0x00 0x02 = 0x05010002 ∧
    respBytes ⟨.illegal, 0x2EC⟩ = [0, 0, 0, 2, 0, 0, 2, 0xEC] := by decide

/-! ## WellFormed: each check refuses a term -/

theorem test_wellFormed_refuses_rdcsr : (Instr.rdcsr 65536).wellFormed = false := by decide
theorem test_wellFormed_refuses_wrcsr : (Instr.wrcsr 65536 0).wellFormed = false := by decide
theorem test_wellFormed_refuses_len : (Instr.subscribe 0 0 0 65536 0).wellFormed = false := by decide
theorem test_wellFormed_refuses_addr : (Instr.subscribe 0 0 0 0 65536).wellFormed = false := by decide
theorem test_wellFormed_refuses_level : (Instr.level 65536).wellFormed = false := by decide
theorem test_wellFormed_refuses_off : (Instr.fill 65536 0).wellFormed = false := by decide
theorem test_wellFormed_refuses_n : (Instr.fill 0 4294967296).wellFormed = false := by decide
theorem test_wellFormed_refuses_shift : (Instr.shift 65536).wellFormed = false := by decide
theorem test_wellFormed_refuses_fft : (Instr.fft 65536).wellFormed = false := by decide
theorem test_wellFormed_refuses_findb : (Instr.findb 65536).wellFormed = false := by decide
theorem test_wellFormed_refuses_estco : (Instr.estco 65536).wellFormed = false := by decide
theorem test_wellFormed_refuses_prime : (Instr.prime 65536).wellFormed = false := by decide
theorem test_wellFormed_refuses_decsym : (Instr.decsym 65536).wellFormed = false := by decide
theorem test_wellFormed_refuses_ficpush : (Instr.ficpush 65536).wellFormed = false := by decide
theorem test_wellFormed_refuses_crc16 : (Instr.crc16 65536).wellFormed = false := by decide
theorem test_wellFormed_refuses_mscpush : (Instr.mscpush 65536).wellFormed = false := by decide

/-! ## The configuration (`95_test_vectors.md` section 0, V-A1) -/

theorem test_cfg_toy : cfgWf Config.toy = true := by decide +kernel
/-- R149, log 4: `CO_EPS` just below `π/2 = 1.57079632679489661923…`, and just above. -/
theorem test_cfg_halfPi : belowHalfPi (scalarOfRat (157079632679489661923132 / 100000000000000000000000)) = true ∧
    belowHalfPi (scalarOfRat (157079632679489661923133 / 100000000000000000000000)) = false := by
  decide +kernel
theorem test_cfg_refuses_length : cfgWf ⟨[{ Config.toyMode with tS := 6 }], 2, 1⟩ = false := by decide +kernel
theorem test_cfg_refuses_perm : cfgWf ⟨[{ Config.toyMode with perm := [1, 1] }], 2, 1⟩ = false := by decide +kernel
theorem test_cfg_refuses_ref : cfgWf ⟨[{ Config.toyMode with ref := [[], c 2 0, [], c 0 1] }], 2, 1⟩ = false := by
  decide +kernel

/-! ## Meanings -/

/-- V-47.14: `START` clears `COARSE` and `BAD_FRAMES`, keeps `EVENT`; `STATUS` reads 9. -/
theorem test_start :
    let s := { idle with coarse := 5, badFrames := 9, event := 1 }
    answer (exec .start s) = some (.ok, 0) ∧ get (fun t => (t.coarse, t.badFrames, t.event)) (exec .start s) =
      some (0, 0, 1) ∧ get (fun t => csrRead t 1) (exec .start s) = some (some 9) := by decide +kernel
/-- V-47.11, V-47.12. -/
theorem test_stop : answer (exec .stop idle) = some (.ok, 0) ∧ answer (exec .stop (running .n0)) = some (.ok, 1) ∧
    get (fun t => csrRead t 1) (exec .stop (running .n0)) = some (some 0x1A) := by decide +kernel
/-- V-47.1 to V-47.3. -/
theorem test_rdcsr : answer (exec (.rdcsr 1) idle) = some (.ok, 0) ∧ answer (exec (.rdcsr 0x24) idle) = some (.ok, 41) ∧
    answer (exec (.rdcsr 0x13) idle) = some (.illegal, 0) := by decide +kernel
/-- R325: the frame loop with the FIC valid reads 0x2EC. -/
theorem test_rdcsr_status :
    csrRead { running .s0 with ficSync := true, ficState := .valid, prevValid := true } 1 = some 0x2EC := by decide
/-- V-47.4 to V-47.8. -/
theorem test_wrcsr : answer (exec (.wrcsr 1 1) idle) = some (.illegal, 0) ∧
    answer (exec (.wrcsr 4 0x12345) idle) = some (.ok, 0x2345) ∧
    answer (exec (.wrcsr 0 0xFFFFFFFF) idle) = some (.ok, 3) ∧
    answer (exec (.wrcsr 0 1) (running .s0)) = some (.busy, 0) ∧
    answer (exec (.wrcsr 0x1F 1) idle) = some (.illegal, 0) := by decide +kernel
/-- V-47.9. -/
theorem test_wrcsr_event : answer (exec (.wrcsr 2 9) { idle with event := 0x19 }) = some (.ok, 0x10) := by
  decide +kernel
/-- V-45.1, V-45.4, V-45.5. -/
theorem test_subscribe : get State.subs (exec (.subscribe 3 0 0xA 2 1) idle) = some [⟨0xA, 0, 1, 2, 3⟩] ∧
    answer (exec (.subscribe 3 1 0xA 4 1) idle) = some (.illegal, 0) ∧
    answer (exec (.subscribe 3 1 0xA 0 0) idle) = some (.illegal, 0) := by decide +kernel
/-- V-45.7, V-45.8. -/
theorem test_subscribe_order :
    let s := { idle with subs := [⟨0xA, 0, 1, 2, 3⟩, ⟨0xA, 1, 0, 4, 4⟩] }
    answer (exec (.subscribe 5 0 0xB 1 0) s) = some (.fail, 2) ∧
    answer (exec (.subscribe 5 0 0xA 9 9) s) = some (.fail, 1) := by decide +kernel
/-- V-45.9, V-45.10. -/
theorem test_unsubscribe :
    let s := { idle with subs := [⟨0xA, 0, 1, 2, 3⟩, ⟨0xA, 1, 0, 4, 4⟩] }
    answer (exec (.unsubscribe 0 0xA) s) = some (.ok, 1) ∧
    get State.subs (exec (.unsubscribe 0 0xA) s) = some [⟨0xA, 1, 0, 4, 4⟩] ∧
    answer (exec (.unsubscribe 0 0xA) idle) = some (.fail, 0) := by decide +kernel
/-- V-45.11. -/
theorem test_resetSubs : get State.subs (exec .resetSubs { idle with subs := [⟨0xA, 1, 0, 4, 4⟩] }) = some [] := by
  decide +kernel
/-- V-46.1. -/
theorem test_level : get State.slevel (exec (.level 4) (withSrc [c 1 0, c 0 1, c (-1) 0, c 3 4])) =
    some [⟨scalarOfRat 2, cxOne⟩] ∧ answer (exec (.level 0) idle) = some (.illegal, 0) := by decide +kernel
/-- V-46.3. -/
theorem test_nullscan_found :
    let s := { withSrc [c 1 0, c 1 0, [], [], c 1 0, c 1 0, c 1 0] with slevel := [⟨scalarOfRat 1, cxOne⟩] }
    answer (exec .nullscan s) = some (.ok, 6) ∧
    get State.slevel (exec .nullscan s) = some [⟨scalarOfRat (3361 / 4096), cxOne⟩] := by decide +kernel
/-- V-46.6, V-46.7: a stale level, and an all-zero stream. -/
theorem test_nullscan_noDip :
    answer (exec .nullscan { withSrc (List.replicate 10 []) with slevel := [⟨scalarOfRat 1, cxOne⟩] }) = some (.fail, 1) ∧
    answer (exec .nullscan (withSrc (List.replicate 41 []))) = some (.fail, 0) := by decide +kernel
/-- V-46.8. -/
theorem test_fill : get State.win (exec (.fill 3 1) { withWin [c 2 0, c 3 0, c 4 0, c 4 0] with
      src := sampleItems [c 5 0] }) = some (bufOf 0 [c 2 0, c 3 0, c 4 0, c 5 0]) ∧
    answer (exec (.fill 2 4) idle) = some (.illegal, 0) ∧ answer (exec (.fill 0 0) idle) = some (.illegal, 0) := by
  decide +kernel
/-- V-46.12. -/
theorem test_fill_stopped :
    answer (exec (.fill 0 4) { idle with src := [.sample [], .stopped] }) = some (.stopped, 0) := by decide +kernel
/-- V-46.8. -/
theorem test_shift :
    let s := withWin [c 1 0, c 2 0, c 3 0, c 4 0]
    get State.win (exec (.shift 1) s) = some (bufOf 0 [c 2 0, c 3 0, c 4 0, c 4 0]) ∧
    answer (exec (.shift 1) s) = some (.ok, 3) ∧ answer (exec (.shift 0) s) = some (.ok, 4) ∧
    answer (exec (.shift 4) s) = some (.ok, 0) ∧ answer (exec (.shift 5) s) = some (.illegal, 0) := by decide +kernel
/-- V-46.11. -/
theorem test_skipnull :
    let s := withSrc (List.replicate 6 (c 1 0))
    answer (exec .skipnull s) = some (.ok, 6) ∧ get State.tiiOut (exec .skipnull s) = some [] ∧
    get State.tiiOut (exec .skipnull { s with ctrl := 2 }) = some [List.replicate 6 (c 1 0)] := by decide +kernel
/-- `40_fft_engine.md` section 3.2 of the vectors: `WIN = [9, 1, i, -1, -i]`. -/
theorem test_fft :
    let s := withWin [c 9 0, c 1 0, c 0 1, c (-1) 0, c 0 (-1)]
    get State.spec (exec (.fft 1) s) = some (bufOf 0 [[], c 4 0, [], []]) ∧
    answer (exec (.fft 2) s) = some (.illegal, 0) := by decide +kernel
/-- V-40.6. -/
theorem test_dft : dft 8 4 [[], [], [], c 2 (-3)] = [c 2 (-3), c 3 2, c (-2) 3, c (-3) (-2)] := by decide +kernel
/-- R153. -/
theorem test_findb :
    let s := withWin [c (-1) (-1), c 1 1, c 1 1, c (-1) (-1)]
    answer (exec (.findb 2) s) = some (.ok, 1) ∧ answer (exec (.findb 3) s) = some (.fail, 0) := by decide +kernel
/-- V-41.2 and V-41.5. -/
theorem test_findb_ties :
    answer (exec (.findb 2) (withWin [c 1 1, c 1 1, c (-1) (-1), c (-1) (-1)])) = some (.ok, 0) ∧
    answer (exec (.findb 1) (withWin [c 1 0, [], [], []])) = some (.ok, 0) ∧
    answer (exec (.findb 2) (withWin [c 1 0, [], [], []])) = some (.fail, 0) := by decide +kernel
/-- TOY16 of `95_test_vectors.md`, with the rest of its parameters made to fit. -/
def mode16 : Mode :=
  { Config.toyMode with
    tU := 16, tS := 17, tF := 125, carriers := 8, coLen := 3, coRange := 2, perm := [1, 2, 3, 4, -1, -2, -3, -4]
    pm := List.replicate 64 true ++ List.replicate 984 false, cifBits := 32
    ref := [0, 1, 1, -1, -1, 0, 0, 0, 0, 0, 0, 0, 1, 1, 1, 1].map fun q => c q 0 }
theorem test_cfg_mode16 : cfgWf ⟨[mode16], 2, 3⟩ = true := by decide +kernel
/-- V-41.8 (R152), V-41.10 and V-41.13: the reference moved by one carrier, over a floor of `i` and of 0. -/
theorem test_estco_shift :
    let s := State.por ⟨[mode16], 2, 1⟩
    let r (fl : Cx) (l : List Rat) := l.map fun q => if q = 0 then fl else c q 0
    carrierShift s (r (cxOfCyc [(4, 1)]) [0, 0, 1, 1, -1, -1, 0, 0, 0, 0, 0, 0, 0, 1, 1, 1]) = none ∧
    carrierShift s (r (cxOfCyc [(4, 1)]) [1, 0, 1, 1, -1, -1, 0, 0, 0, 0, 0, 0, 0, 1, 1, 1]) = some 1 ∧
    carrierShift s (r (cxOfCyc [(4, 1)]) [1, 1, -1, -1, 0, 0, 0, 0, 0, 0, 0, 1, 1, 1, 1, 0]) = some (-1) ∧
    carrierShift s (r [] [1, 0, 1, 1, -1, -1, 0, 0, 0, 0, 0, 0, 0, 1, 1, 1]) = none := by decide +kernel
/-- In TOY the pattern sets are empty. -/
theorem test_estco_empty : answer (exec (.estco 0) (withWin [c 1 0, [], [], []])) = some (.fail, 0) ∧
    answer (exec (.estco 2) idle) = some (.illegal, 0) := by decide +kernel
/-- R163. -/
theorem test_prime :
    get (fun t => (t.prev, t.prevValid)) (exec (.prime 0) (withWin [c 3 1, c (-1) (-1), c (-3) (-1), c 1 1])) =
      some (bufOf 0 [[], c 4 4, [], c 8 0], true) := by decide +kernel
/-- R170. -/
theorem test_decsym :
    let s := { withWin [c 0 (-5), c (-1) 0, c 0 5, c 1 0, c 0 (-5)] with
      prev := bufOf 0 [[], c 4 4, [], c 8 0], prevValid := true }
    get (fun t => (t.soft, t.prev)) (exec (.decsym 1) s) =
      some (bufOf 0 [-89, 127, 89, 0], bufOf 0 [[], c 8 0, [], c (-12) 0]) := by decide +kernel
/-- V-42.5, and the product `3 + 4i` of section 3.4. -/
theorem test_decsym_guard : answer (exec (.decsym 0) (withWin [[], [], [], []])) = some (.illegal, 0) ∧
    softVector 8 [c 3 4] = [-76, -101] := by decide +kernel
/-- V-46.9. -/
theorem test_fcorr : get State.freqcorr (exec .fcorr { withWin [c 1 0, [], [], [], c 0 1] with freqcorr := c 25 0 }) =
    some (c 25 1) := by decide +kernel
/-- The first and second rows of V-46.10, with `FINE_GAIN = 1`. -/
theorem test_ftrack :
    let s := State.por ⟨[{ Config.toyMode with fineGain := scalarOfRat 1 }], 2, 1⟩
    answer (exec .ftrack { s with freqcorr := c 0 1, fine := ⟨scalarOfRat 400, []⟩ }) = some (.ok, 650) ∧
    get (fun t => (t.fine, t.coarse)) (exec .ftrack { s with freqcorr := c (-1) 0 }) = some (⟨scalarOfRat (-500), []⟩, 1) := by
  decide +kernel
/-- The third row of V-46.10. -/
theorem test_ftrack_down :
    let s := State.por ⟨[{ Config.toyMode with fineGain := scalarOfRat 1 }], 2, 1⟩
    answer (exec .ftrack { s with freqcorr := c 0 (-1), fine := ⟨scalarOfRat (-300), []⟩ }) = some (.ok, 0xFFFFFDDA) := by
  decide +kernel
/-- V-43.3. -/
theorem test_ficpush :
    let s := { idle with soft := bufOf 0 [1, 0, -3, 4] }
    answer (exec (.ficpush 1) s) = some (.illegal, 0) ∧ answer (exec (.ficpush 0) s) = some (.ok, 4) ∧
    get State.ficAcc (exec (.ficpush 0) s) = some [(0, 1), (2, -3), (3, 4)] := by decide +kernel
/-- V-43.4, a symbol that straddles two blocks. -/
theorem test_ficpush_straddle :
    let m := { Config.toyMode with
      carriers := 6, nBlk := 3, blkOut := 3, convK := 6, pm := (List.replicate 16 [true, false]).flatten }
    (List.range 12).map (fun j => ficAddress m (12 + j)) =
      [24, 26, 28, 30, 32, 34, 36, 38, 40, 42, 44, 46] := by decide +kernel
/-- V-43.3, steps 2 and 13; R201 (a 4-bit word through the decoder). -/
theorem test_ficdec_refused : answer (exec .ficdec idle) = some (.illegal, 0) ∧
    answer (exec .ficdec { idle with ficState := .valid, ficIdx := 4 }) = some (.illegal, 0) := by decide +kernel
/-- R201: the metric of the clean word. -/
theorem test_metric :
    let m := { Config.toyMode with blkOut := 4 }
    let y : List Soft := (codeword m [true, false, true, true]).map fun b => if b then 127 else -127
    wordMetric m [true, false, true, true] y = 5080 := by decide +kernel
/-- R201. -/
theorem test_codeword : (codeword { Config.toyMode with blkOut := 4 } [true, false, true, true]).map Bool.toNat =
    [1, 1, 1, 1, 0, 1, 1, 0, 0, 0, 1, 0, 0, 1, 0, 0, 1, 0, 0, 1, 1, 0, 0, 1, 0, 0, 0, 0, 1, 0, 1, 1, 0, 1, 1, 0,
      1, 1, 1, 1] := by decide +kernel
/-- R193. -/
theorem test_prbs : ((prbs Config.toyMode).take 32).map Bool.toNat =
    [0, 0, 0, 0, 0, 1, 1, 1, 1, 0, 1, 1, 1, 1, 1, 0, 0, 0, 1, 0, 1, 1, 1, 0, 0, 1, 1, 0, 0, 1, 0, 0] := by
  decide +kernel
/-- A FIB of zeros with the field that R202 gives for it. -/
def zeroFib (field : BitVec 16) : List Bool := List.replicate 240 false ++ (List.range 16).map fun j => field.getMsbD j
/-- R202: the payload of zeros, and the nine ASCII bytes. -/
theorem test_crc : crcOk Config.toyMode (zeroFib 0xD5BA) = true ∧
    crcOf Config.toyMode ([0x31, 0x32, 0x33, 0x34, 0x35, 0x36, 0x37, 0x38, 0x39].flatMap fun (b : BitVec 8) =>
      (List.range 8).map fun j => b.getMsbD j) = 0xD64E := by decide +kernel
/-- R197. -/
theorem test_crc16 :
    answer (exec (.crc16 0) { idle with ficOut := bufOf 0 (zeroFib 0xD5BB) }) = some (.fail, 0xD5BBD5BA) ∧
    answer (exec (.crc16 1) idle) = some (.illegal, 0) := by decide +kernel
/-- V-45.12. -/
theorem test_mscpush :
    let s := { idle with soft := bufOf 0 [1, 2, 3, 4] }
    get State.fifo (exec (.mscpush 5) s) = some [⟨5, [1, 2, 3, 4]⟩] ∧
    answer (exec (.mscpush 4) s) = some (.illegal, 0) ∧ answer (exec (.mscpush 7) s) = some (.illegal, 0) ∧
    answer (exec (.mscpush 5) { s with fifo := List.replicate 7 ⟨5, [1, 2, 3, 4]⟩ }) = some (.fail, 7) := by
  decide +kernel
/-- R256, the second `CIFPOP`. -/
theorem test_cifpop :
    let s := { idle with
      subs := [⟨0xA, 0, 1, 2, 3⟩], cif := bufOf 0 [1, 2, 3, 4], cifValid := [0], fifo := [⟨6, [5, 6, 7, 8]⟩] }
    answer (exec .cifpop s) = some (.ok, 1) ∧
    get (fun t => (t.cuOut, t.cifValid)) (exec .cifpop s) = some ([⟨3, 0xA, 0, [3, 4, 5, 6]⟩], []) := by decide +kernel
/-- V-45.13, the first `CIFPOP`: a slot is missing. -/
theorem test_cifpop_missing :
    let s := { idle with subs := [⟨0xA, 0, 1, 2, 3⟩], fifo := [⟨6, [5, 6, 7, 8]⟩] }
    answer (exec .cifpop s) = some (.ok, 0) ∧
    get (fun t => (t.cuOut, t.cifValid)) (exec .cifpop s) = some ([], []) ∧
    answer (exec .cifpop idle) = some (.fail, 0) := by decide +kernel

/-! ## The sequencer, one step each -/

/-- V-70.2. -/
theorem test_frame_reset :
    let s := { running .f0 with
      fibGood := 1, fibBad := 1, ficState := .valid, badFrames := 2, ficSync := true, coarse := -3 }
    get (fun t => (t.fibGood, t.fibBad, t.ficState)) (seqStep s) = some (0, 0, .idle) ∧
    get (fun t => (t.badFrames, t.ficSync, t.coarse, t.seqStep)) (seqStep s) = some (2, true, -3, .f1) := by
  decide +kernel
/-- P1: the eighth scan without a dip. -/
theorem test_noSignal :
    let s := { running .n0 with nosigCnt := 7, src := sampleItems (List.replicate 41 []) }
    get (fun t => (t.nosigCnt, t.event, t.evt, t.srcTaken, t.seqStep)) (seqStep s) =
      some (0, 1, [.noSignal], 41, .n0) := by decide +kernel
/-- P5, the variant `THR = 1`, step `E3`: `NoSync` at three times the threshold; the third one in a row. -/
theorem test_reverify :
    let s := { running .e3 with thr := 1, win := bufOf 0 [c 0 (-1), c 0 1, c 0 1, c 0 (-1)] }
    get (fun t => (t.bfailCnt, t.boff, t.seqStep)) (seqStep s) = some (1, 1, .f0) ∧
    get (fun t => (t.bfailCnt, t.event, t.syncState)) (seqStep { s with bfailCnt := 2 }) =
      some (0, 2, .searchingNull) := by decide +kernel
/-- A fetched word runs as the first step after reset. -/
theorem test_fetchWord : answer (step (State.reset.withFetchWord 32 0x02000000)) = some (.ok, 0) ∧
    answer (step (State.reset.withFetchWord 64 0x0001234504000004)) = some (.ok, 0x2345) := by decide +kernel

/-! ## Witnesses: the hypotheses of the statements can be met -/

theorem modeOk_idle : ModeOk idle := ⟨by decide +kernel, by decide⟩

theorem test_wit_DecodeEncode : (Instr.fill 65535 4294967295).wellFormed = true := by decide
theorem test_wit_EncodeDecode : decode [0x12000000, 0x00000800, 7] = .command (.fill 0 2048) [7] := by decide
theorem test_wit_OpcodeRows :
    (0x12, 0x00FF0000, 2) ∈ opcodeRows ∧ (opcodeOf 0x12010000).toNat = 0x12 ∧
    (0x12010000 : Word) &&& 0x00FF0000 ≠ 0 ∧ (0x12000001 : Word) &&& 0x00FF0000 = 0 ∧
    (opcodeOf 0x15000000).toNat ∉ opcodeRows.map (fun r => r.1) := by decide
theorem test_wit_StepPerforms_illegal :
    let s := { idle with plan := [.host], cmd := [0x08000000] }
    cfgWf s.cfg = true ∧ s.plan = .host :: [] ∧ s.hostWait = none ∧ decode s.cmd = .illegal (.opcode 8) [] :=
  ⟨modeOk_idle.1, rfl, rfl, by decide⟩
theorem test_wit_StepPerforms :
    let s := { idle with plan := [.host], cmd := [0x02000000] }
    cfgWf s.cfg = true ∧ s.plan = .host :: [] ∧ s.hostWait = none ∧ decode s.cmd = .command .stop [] ∧
    (running .n0).run = true ∧ cfgWf (running .n0).cfg = true :=
  ⟨modeOk_idle.1, rfl, rfl, by decide, rfl, modeOk_idle.1⟩
/-- R341: the two external events have the bits 2 and 5, and the pair its register. -/
theorem test_wit_StepPerforms_external :
    get (fun t => (t.event, t.evt, t.plan)) (step { idle with plan := [.configChanged, .dmx] }) =
      some (4, [.configChanged], [.dmx]) ∧
    get (fun t => (t.event, t.tii, t.evt)) (step { idle with plan := [.tiiResult 3 5] }) =
      some (32, 0x0305, [.tii 3 5]) ∧
    get State.src (step { idle with plan := [.sample (c 1 2)] }) = some [.sample (c 1 2)] ∧
    decode [0x12000000] = .incomplete ∧ idle.plan = [] := by decide +kernel
theorem test_wit_run : idle.run = false ∧ (running .s0).run = true := ⟨rfl, rfl⟩
theorem test_wit_ReadRegister_values : ∃ r : Nat → Nat, ∀ a v, csrRead idle a = some v → r a = v.toNat :=
  ⟨fun a => ((csrRead idle a).getD 0).toNat, fun a v h => by simp [h]⟩
theorem test_wit_ReadRegister : 0x27 ∈ csrAddresses ∧ 0x13 ∉ csrAddresses ∧ 0x28 ∉ csrAddresses := by decide
theorem test_wit_WriteRegister :
    idle.cfg.modes.length ≤ ((0x1 : Word) &&& 0xFF).toNat ∧ ((0x100 : Word) &&& 0xFF).toNat < idle.cfg.modes.length ∧
    ((0x100 : Word).setWidth 8 : BitVec 8) = idle.modeSel ∧ 0x05 ∉ [0x00, 0x02, 0x03, 0x04, 0x1F] := by decide
/-- A change to a second mode of the table, and what it makes of the queue. -/
theorem test_wit_WriteRegister_change :
    let s := { idle with cfg := ⟨[Config.toyMode, mode16], 2, 1⟩, fifo := [⟨5, [1, 2, 3, 4]⟩], cifValid := [0] }
    s.run = false ∧ ((1 : Word) &&& 0xFF).toNat < s.cfg.modes.length ∧ ((1 : Word).setWidth 8 : BitVec 8) ≠ s.modeSel ∧
    get (fun t => (t.modeSel, t.fifo, t.cifValid)) (exec (.wrcsr 0x1F 1) s) = some (1, [⟨5, []⟩], [0]) := by
  decide +kernel
theorem test_wit_BusyWhileRunning : (running .s0).run = true ∧ isUnit .cifpop = true := ⟨rfl, rfl⟩
theorem test_wit_RefusedChangesNothing :
    ∃ t, exec (.level 0) idle = .next t ∧ t.rsp = idle.rsp ++ [⟨.illegal, 0⟩] := ⟨_, rfl, rfl⟩
theorem test_wit_OneResponse :
    (∃ t, exec .stop idle = .next t ∧ t.rsp.length = 1) ∧
    ∃ t, exec (.level 1) idle = .next t ∧ t.hostWait = some (.level 1) := ⟨⟨_, rfl, rfl⟩, ⟨_, rfl, rfl⟩⟩
theorem test_wit_SubscribeResult :
    let s := { idle with subs := [⟨0xA, 0, 1, 2, 3⟩] }
    (∃ e ∈ s.subs, e.sid = 0xA ∧ e.comp = 0) ∧ (∀ e ∈ s.subs, ¬ (e.sid = 0xB ∧ e.comp = 0)) ∧
    0 + 4 ≤ cifCus (mode s) ∧ cifCus (mode s) < 1 + 4 ∧ s.subs.length < s.cfg.maxSubs := by decide
theorem test_wit_SubscribeFull :
    let s := { idle with subs := [⟨0xA, 0, 1, 2, 3⟩, ⟨0xA, 1, 0, 4, 4⟩] }
    (∀ e ∈ s.subs, ¬ (e.sid = 0xB ∧ e.comp = 0)) ∧ 0 + 1 ≤ cifCus (mode s) ∧ s.cfg.maxSubs ≤ s.subs.length := by
  decide
theorem test_wit_SubscribeTwice :
    ∃ t, exec (.subscribe 3 0 0xA 2 1) idle = .next t ∧ t.rsp = idle.rsp ++ [⟨.ok, 1⟩] := ⟨_, rfl, rfl⟩
theorem test_wit_UnsubscribeResult :
    let a : List Sub := [⟨0xA, 0, 1, 2, 3⟩]
    let b : List Sub := [⟨0xC, 0, 1, 2, 3⟩]
    let e : Sub := ⟨0xA, 1, 0, 4, 4⟩
    ({ idle with subs := a ++ e :: b } : State).subs = a ++ e :: b ∧ (e.sid = 0xA ∧ e.comp = 1) ∧
    (∀ x ∈ a ++ b, ¬ (x.sid = 0xA ∧ x.comp = 1)) := by decide
theorem test_wit_LevelResult :
    let s := withSrc [c 1 0, c 3 4]
    ModeOk s ∧ s.run = false ∧ s.src = sampleItems [c 1 0, c 3 4] ++ [] := ⟨modeOk_idle, rfl, rfl⟩
theorem test_wit_FillResult :
    let s := withSrc [c 1 0, c 3 4]
    s.run = false ∧ 3 + 2 ≤ (mode s).tS ∧ (mode s).tS < 4 + 2 ∧ s.src = sampleItems [c 1 0, c 3 4] ++ [] :=
  ⟨rfl, by decide, by decide, rfl⟩
theorem test_wit_ShiftResult :
    let s := withWin [c 1 0, c 2 0, c 3 0, c 4 0]
    s.run = false ∧ 1 ≤ (mode s).tU ∧ Written s.win 1 ((mode s).tU - 1) ∧ Written s.win 4 ((mode s).tU - 4) := by
  unfold Written
  decide +kernel
theorem test_wit_SkipnullResult :
    let s := withSrc (List.replicate 6 [])
    s.run = false ∧ s.src = sampleItems (List.replicate 6 []) ++ [] ∧ (List.replicate 6 ([] : Cx)).length = (mode s).tNull :=
  ⟨rfl, rfl, rfl⟩
theorem test_wit_StoppedReads :
    let s := { idle with src := [.sample [], .stopped] }
    s.run = false ∧ s.src = sampleItems [[]] ++ .stopped :: [] ∧ 1 < 4 ∧ 0 + 4 ≤ (mode s).tS ∧ 1 < (mode s).tNull ∧
    s.scan = none ∧ 1 < (mode s).dipWindow := by decide
theorem test_wit_NullscanResult :
    let s := withSrc (List.replicate 49 [])
    ModeOk s ∧ s.run = false ∧ s.scan = none ∧ s.src = sampleItems (List.replicate 49 []) ++ [] ∧
    (mode s).tF + (mode s).tNull + (mode s).dipWindow ≤ (List.replicate 49 ([] : Cx)).length :=
  ⟨modeOk_idle, rfl, rfl, (List.append_nil _).symm, by decide⟩
theorem test_wit_AllZeroScan :
    let s := { running .n0 with src := sampleItems (List.replicate 41 []) ++ [.stopped] }
    ModeOk s ∧ s.run = true ∧ s.stopreq = false ∧ s.seqStep = .n0 ∧ s.scan = none ∧ s.slevel = [] ∧
    s.src = sampleItems (List.replicate (mode s).tF []) ++ [.stopped] ∧ s.nosigCnt + 1 < 8 ∧
    ({ s with nosigCnt := 7 } : State).nosigCnt + 1 = 8 :=
  ⟨modeOk_idle, rfl, rfl, rfl, rfl, rfl, rfl, by decide, rfl⟩
theorem test_wit_Transforms : 0 < 8 ∧ 0 < 4 ∧ 8 % 4 = 0 ∧ [c 1 0, c 2 0, c 3 0, c 4 1].length = 4 := by decide
theorem test_wit_slice :
    let s := withWin [c 1 0, c 2 0, c 3 0, c 4 0, c 5 0]
    ModeOk s ∧ s.run = false ∧ 1 + (mode s).tU ≤ (mode s).tS ∧ (mode s).tS < 2 + (mode s).tU ∧
    [c 2 0, c 3 0, c 4 0, c 5 0].length = (mode s).tU ∧ Holds s.win 1 [c 2 0, c 3 0, c 4 0, c 5 0] ∧
    Holds s.win 0 [c 1 0, c 2 0, c 3 0, c 4 0] :=
  ⟨modeOk_idle, rfl, by decide, by decide, rfl, by unfold Holds; decide +kernel, by unfold Holds; decide +kernel⟩
theorem test_wit_refused : idle.run = false ∧ (mode idle).tU < 5 ∧ 4 ≤ 4 ∧ idle.ficState ≠ .accumulating := by decide
/-- Each clause of `UnwrittenFaults`, the slice at its last offset. -/
theorem test_wit_UnwrittenFaults :
    let u := { withWin [c 1 0, c 2 0, c 3 0, c 4 0] with prevValid := true }
    let v := { idle with ficState := .accumulating, ficIdx := 4, ficAccZeroed := false, fifo := [⟨5, []⟩] }
    ModeOk idle ∧ idle.run = false ∧ 1 + (mode idle).tU ≤ (mode idle).tS ∧ ¬ Written idle.win 1 (mode idle).tU ∧
    (u.prevValid = true ∧ 0 + (mode u).tU ≤ (mode u).tS ∧ Written u.win 0 (mode u).tU ∧ 1 < (mode u).carriers ∧
      bufRead u.prev (carrierBin (mode u) ((mode u).perm.getD 1 0)) = none) ∧
    (3 ≤ (mode idle).tU ∧ ¬ Written idle.win 3 ((mode idle).tU - 3) ∧ ¬ Written idle.win 0 (mode idle).tG) ∧
    (¬ Written idle.soft 0 (nSoft (mode idle)) ∧ 6 < (mode idle).symbols) ∧
    (v.ficState = .accumulating ∧ v.ficIdx = 4 ∧ v.ficAccZeroed = false ∧ 0 < (mode v).nBlk * motherLen (mode v) ∧
      bufRead v.ficAcc 0 = none) ∧
    (0 < fibsPerFrame (mode idle) ∧ ¬ Written idle.ficOut (256 * 0) 256) ∧
    v.fifo = ⟨5, []⟩ :: [] ∧ ([] : List Soft).length ≠ nSoft (mode v) := by
  refine ⟨modeOk_idle, ?_⟩
  unfold Written
  decide +kernel
theorem test_wit_FindbAllZero :
    let s := withWin (List.replicate 4 [])
    ModeOk s ∧ s.run = false ∧ Holds s.win 0 (List.replicate (mode s).tU ([] : Cx)) :=
  ⟨modeOk_idle, rfl, by unfold Holds; decide +kernel⟩
theorem cxVal_axes (a b : Rat) : cxVal 8 [⟨[], [(0, a), (2, b)]⟩] = (a : ℂ) + (b : ℂ) * Complex.I := by
  have h : Complex.exp (2 * Real.pi * Complex.I * ((2 : ℕ) : ℂ) / ((8 : ℕ) : ℂ)) = Complex.I := by
    rw [show (2 * Real.pi * Complex.I * ((2 : ℕ) : ℂ) / ((8 : ℕ) : ℂ)) = Real.pi / 2 * Complex.I by push_cast; ring]
    exact Complex.exp_pi_div_two_mul_I
  simp only [cxAt, cycVal, monoAt, List.map_cons, List.map_nil, List.sum_cons, List.sum_nil, List.prod_nil, h]
  simp
/-- An all-zero window has no correlation. -/
theorem test_wit_FindbResult_fail : correlationMean idle (List.replicate 4 []) = 0 := by
  have h : ∀ n, (List.replicate 4 ([] : Cx)).getD n [] = [] := by
    intro n
    rw [List.getD_eq_getElem?_getD, List.getElem?_replicate]
    split <;> rfl
  have h0 : ∀ M, cxVal M [] = 0 := fun M => rfl
  simp only [correlationMean, correlationAt, spectrumAt, h, h0]
  simp
theorem cxAt_nil8 : cxAt Config.const 8 [] = 0 := rfl
theorem cxAt_one8 : cxAt Config.const 8 cxOne = 1 := by simp [cxAt, cxOne, monoAt, cycVal]
/-- A window with one sample has some. -/
theorem test_wit_FindbResult_ok :
    let w : List Cx := [cxOne, [], [], []]
    correlationMean idle w ≠ 0 ∧ ((0 : Nat) : ℝ) * correlationMean idle w ≤ correlationAt idle w 1 := by
  intro w
  have hM : order idle = 8 := by decide
  have hm : mode idle = Config.toyMode := rfl
  have hX : ∀ k, spectrumAt 8 4 w k = 1 := by
    intro k
    simp [spectrumAt, w, Finset.sum_range_succ, cxAt_one8, cxAt_nil8]
  have h1 : cxVal 8 [⟨[], [(2, 1)]⟩] = Complex.I := by
    have := cxVal_axes 0 1
    simpa [cxAt, cycVal] using this
  have h0 : correlationAt idle w 0 ≠ 0 := by
    have e : (Config.toyMode.ref.getD 1 []) = cxOne := rfl
    have e0 : (Config.toyMode.ref.getD 0 []) = [] := rfl
    have e2 : (Config.toyMode.ref.getD 2 []) = [] := rfl
    have e3 : (Config.toyMode.ref.getD 3 []) = [⟨[], [(2, 1)]⟩] := rfl
    have ht : Config.toyMode.tU = 4 := rfl
    simp only [correlationAt, hM, hm, ht, hX, Finset.sum_range_succ, Finset.sum_range_zero, e, e0, e2, e3, h1]
    simp [cxAt_one8, cxAt_nil8]
    intro h
    have := congrArg Complex.re h
    norm_num at this
  have hpos : 0 < ∑ n ∈ Finset.range (mode idle).tU, correlationAt idle w n :=
    Finset.sum_pos' (fun _ _ => norm_nonneg _) ⟨0, by decide, lt_of_le_of_ne (norm_nonneg _) (Ne.symm h0)⟩
  refine ⟨?_, by simp only [Nat.cast_zero, zero_mul]; exact norm_nonneg _⟩
  exact (div_pos hpos (by norm_num [hm, Config.toyMode])).ne'
/-- R152: in TOY16 the pair of the carriers 1 and 2 is an expected-zero pair, that of 2 and 3 an expected-π pair. -/
theorem pairs_mode16 (s : State) (m : mode s = { mode16 with coRange := 0 }) : 0 ∈ zeroSet s ∧ 1 ∈ piSet s := by
  have hl : (mode s).coLen = 3 := by rw [m]; rfl
  have he : scalarVal (mode s).coEps = 1 / 10 := by rw [m]; norm_num [scalarAt, mode16, Config.toyMode, monoAt]
  have v1 : cxVal (order s) cxOne = 1 := by simp [cxAt, cxOne, monoAt, cycVal]
  have v3 : cxVal (order s) [⟨[], [(0, -1)]⟩] = -1 := by simp [cxAt, monoAt, cycVal]
  have r (k : Int) (z : Cx) (h : mode16.ref.getD (carrierBin mode16 k) [] = z) :
      (mode s).ref.getD (carrierBin (mode s) k) [] = z := by rw [m]; exact h
  have e0 : expectedStep s 0 = 0 := by
    rw [expectedStep, r (1 + (0 : Nat)) cxOne (by decide +kernel), r (2 + (0 : Nat)) cxOne (by decide +kernel), v1]
    simp
  have e1 : expectedStep s 1 = Real.pi := by
    rw [expectedStep, r (1 + (1 : Nat)) cxOne (by decide +kernel),
      r (2 + (1 : Nat)) [⟨[], [(0, -1)]⟩] (by decide +kernel), v1, v3]
    simp [abs_of_pos Real.pi_pos]
  simp [zeroSet, piSet, hl, he, e0, e1]
/-- With one trial shift the patterns agree on it, and with no pattern on none. -/
theorem test_wit_EstcoResult :
    let s := { withWin (List.replicate 16 []) with cfg := ⟨[{ mode16 with coRange := 0 }], 2, 1⟩ }
    ModeOk s ∧ s.run = false ∧ 0 + (mode s).tU ≤ (mode s).tS ∧ Holds s.win 0 (List.replicate (mode s).tU ([] : Cx)) ∧
    IsShift s (List.replicate 16 []) 0 ∧ ∀ k, ¬ IsShift idle (List.replicate 4 []) k := by
  refine ⟨⟨by decide +kernel, by decide⟩, rfl, by decide, by unfold Holds; decide +kernel, ?_, ?_⟩
  · refine ⟨⟨0, (pairs_mode16 _ rfl).1⟩, ⟨1, (pairs_mode16 _ rfl).2⟩, ⟨by decide, fun j h1 h2 => ?_⟩,
      ⟨by decide, fun j h1 h2 => ?_⟩⟩ <;>
    · have h1' : (0 : Int) ≤ j := h1
      have h2' : j ≤ (0 : Int) := h2
      obtain rfl : j = 0 := by omega
      exact ⟨le_refl _, fun h => absurd h (by decide)⟩
  · rintro k ⟨⟨j, h⟩, -⟩
    exact Nat.not_lt_zero j (Finset.mem_range.1 (Finset.mem_filter.1 h).1)
/-- A null scan that has taken its window and two samples waits. -/
theorem test_wit_waits :
    let s := withSrc (List.replicate 4 [])
    s.hostWait = none ∧ get (fun t => (t.hostWait, t.scan.isSome, t.src)) (exec .nullscan s) =
      some (some .nullscan, true, []) := by decide +kernel
theorem test_wit_DecsymResult :
    let w := [c 1 0, c 2 0, c 3 0, c 4 0]
    let s := { withWin w with prev := bufOf 0 w, prevValid := true }
    ModeOk s ∧ s.run = false ∧ 0 + (mode s).tU ≤ (mode s).tS ∧ s.prevValid = true ∧ w.length = (mode s).tU ∧
    Holds s.win 0 w ∧ Holds s.prev 0 w ∧ idle.prevValid = false :=
  ⟨modeOk_idle, rfl, by decide, rfl, rfl, by unfold Holds; decide +kernel, by unfold Holds; decide +kernel, rfl⟩
/-- A product in each of the directions that the clauses name; the one of 0 is the empty list. -/
theorem test_wit_SoftBitValues (a b : Rat) :
    0 < 8 ∧ 8 % 4 = 0 ∧ (cxVal 8 [⟨[], [(0, a), (2, b)]⟩]).re = a ∧
    (cxVal 8 [⟨[], [(0, a), (2, b)]⟩]).im = b ∧ cxVal 8 [] = 0 := by
  rw [cxVal_axes]
  simp [cxAt_nil8]
theorem test_wit_FcorrResult :
    let s := withWin [c 1 0, c 2 0, c 3 0, c 4 0, c 5 0]
    ModeOk s ∧ s.run = false ∧ [c 1 0].length = (mode s).tG ∧ Holds s.win 0 [c 1 0] ∧ Holds s.win (mode s).tU [c 5 0] :=
  ⟨modeOk_idle, rfl, rfl, by unfold Holds; decide +kernel, by unfold Holds; decide +kernel⟩
theorem fineInRange_of (s : State) (q : Rat) (h : s.fine = ⟨scalarOfRat q, []⟩) (hc : (mode s).carrierDiff = 1000)
    (h1 : -500 ≤ q) (h2 : q < 500) : FineInRange s := by
  have h1' : (-500 : ℝ) ≤ (q : ℝ) := by exact_mod_cast h1
  have h2' : (q : ℝ) < 500 := by exact_mod_cast h2
  have e : scalarAt Config.const (scalarOfRat q) = q := by
    unfold scalarOfRat; split
    · next h => simp [h, scalarAt]
    · simp [scalarAt, monoAt]
  simp only [FineInRange, hertzAt, h, hc, e, List.map_nil, List.sum_nil, add_zero]
  constructor <;> push_cast <;> linarith
/-- At the lower end of the range. -/
theorem test_wit_FtrackResult :
    let s := { idle with fine := ⟨scalarOfRat (-500), []⟩ }
    ModeOk s ∧ s.run = false ∧ s.freqcorr = [] ∧ FineInRange s ∧ -2 ^ 31 ≤ s.coarse ∧ s.coarse < 2 ^ 31 :=
  ⟨modeOk_idle, rfl, rfl, fineInRange_of _ (-500) rfl rfl (by norm_num) (by norm_num), by decide, by decide⟩
theorem test_wit_FicpushResult :
    let s := { idle with soft := bufOf 0 [1, 2, 3, 4], ficState := .accumulating, ficIdx := 3 }
    ModeOk s ∧ s.run = false ∧ s.ficState = .accumulating ∧ s.ficIdx = 3 ∧ [1, 2, 3, 4].length = nSoft (mode s) ∧
    Holds s.soft 0 [1, 2, 3, 4] :=
  ⟨modeOk_idle, rfl, rfl, rfl, rfl, by unfold Holds; decide +kernel⟩
theorem test_wit_FicdecResult :
    let s := { idle with ficState := .accumulating, ficIdx := 4 }
    ModeOk s ∧ s.run = false ∧ s.ficState = .accumulating ∧ s.ficIdx = 4 ∧ s.ficAccZeroed = true ∧ s.fibGood = 0 ∧
    s.fibBad = 0 := ⟨modeOk_idle, rfl, rfl, rfl, rfl, rfl, rfl⟩
theorem test_wit_ViterbiMaximises :
    let m := Config.toyMode
    1 ≤ m.convK ∧ m.convTaps.length = 4 ∧ (∀ ds ∈ m.convTaps, ∀ d ∈ ds, d < m.convK) ∧
    (List.replicate 1048 (5 : Soft)).length = motherLen m ∧ (List.replicate 256 true).length = m.blkOut := by
  decide +kernel
theorem test_wit_CrcSingleFlip :
    Config.toyMode.crcPoly.getLsbD 0 = true ∧ (zeroFib 0xD5BA).length = 256 ∧
    crcOk Config.toyMode (zeroFib 0xD5BA) = true := by decide +kernel
theorem test_wit_CrcResult :
    let s := { idle with ficOut := bufOf 0 (zeroFib 0xD5BA) }
    s.run = false ∧ 0 < fibsPerFrame (mode s) ∧ fibsPerFrame (mode s) ≤ 1 ∧
    (zeroFib 0xD5BA).length = 256 ∧ Holds s.ficOut (256 * 0) (zeroFib 0xD5BA) ∧
    ∑ j ∈ Finset.range 16, ((zeroFib 0xD5BA).getD (240 + j) false).toNat * 2 ^ (15 - j) = 0xD5BA := by
  unfold Holds
  decide +kernel
theorem test_wit_MscpushResult :
    let s := { idle with soft := bufOf 0 [1, 2, 3, 4] }
    s.run = false ∧ 5 < (mode s).symbols ∧ (mode s).symbols ≤ 7 ∧ s.fifo.length < (mode s).symbols ∧
    Holds s.soft 0 [1, 2, 3, 4] ∧ (List.replicate 7 (⟨5, [1, 2, 3, 4]⟩ : FifoEntry)).length = (mode s).symbols := by
  unfold Holds
  decide +kernel
theorem test_wit_CifpopResult :
    let s := { idle with
      subs := [⟨0xA, 0, 1, 2, 3⟩], cif := bufOf 0 [1, 2, 3, 4], cifValid := [0], fifo := [⟨6, [5, 6, 7, 8]⟩] }
    ModeOk s ∧ s.run = false ∧ s.fifo = ⟨6, [5, 6, 7, 8]⟩ :: [] ∧ [5, 6, 7, 8].length = nSoft (mode s) ∧
    (6 - 5) % symsPerCif (mode s) + 1 = symsPerCif (mode s) ∧ (5 - 5) % symsPerCif (mode s) + 1 < symsPerCif (mode s) ∧
    (∀ x ∈ s.subs, Written (bufWriteRange s.cif 4 [5, 6, 7, 8]) (x.start * (mode s).cuBits) (x.len * (mode s).cuBits)) :=
  ⟨modeOk_idle, rfl, rfl, rfl, by decide, by decide, by unfold Written; decide +kernel⟩
/-- The step of `DMX` on an entry, whose `CIFPOP` is a next state. -/
theorem test_wit_CifpopResult_dmx :
    let s := { idle with ctrl := 1, fifo := [⟨5, [5, 6, 7, 8]⟩] }
    s.ctrl.getLsbD 0 = true ∧ s.fifo ≠ [] ∧ get State.fifo (exec .cifpop { s with run := false }) = some [] := by
  decide +kernel
/-- A subscription beyond the CIF: its elements are not written when the last slot comes. -/
theorem test_wit_CifpopBeyond :
    let s := { idle with subs := [⟨0xA, 0, 4, 1, 3⟩], cif := bufOf 0 [1, 2, 3, 4], cifValid := [0] }
    ¬ ∀ x ∈ s.subs, Written (bufWriteRange s.cif 4 [5, 6, 7, 8]) (x.start * (mode s).cuBits) (x.len * (mode s).cuBits) := by
  unfold Written
  decide +kernel
theorem test_wit_FrameStart :
    let s := { running .f0 with boff := 1, win := bufOf 0 [c 1 0, c 2 0, c 3 0, c 4 0] }
    s.run = true ∧ s.seqStep = .f0 ∧ s.stopreq = false ∧ s.boff ≤ (mode s).tU ∧
    Written s.win s.boff ((mode s).tU - s.boff) := by
  unfold Written
  decide +kernel
theorem test_wit_SequencerStops :
    let s := { running .s0 with stopreq := true }
    let u := { running .s3 with symIdx := 5, fifo := List.replicate 7 ⟨5, [1, 2, 3, 4]⟩ }
    ModeOk s ∧ s.run = true ∧ s.stopreq = true ∧ s.seqStep ∈ [SeqStep.a0, .n0, .v0, .s0, .e1, .e2] ∧
    4 ≠ 0 ∧ 4 ≤ (mode s).tU ∧ u.run = true ∧ u.stopreq = false ∧ u.seqStep = .s3 ∧ 4 < u.symIdx ∧ (mode u).symbols ≤ u.fifo.length :=
  ⟨modeOk_idle, rfl, rfl, by decide, by decide, by decide, rfl, rfl, rfl, by decide, by decide⟩
/-- For each step of `SequencerSteps` a state in which its operation ends, and for the reads one in which it meets
`Stopped` and one in which it waits. -/
theorem test_wit_SequencerSteps :
    let s := { running .s0 with
      src := sampleItems (List.replicate 49 []), win := bufOf 0 (List.replicate 5 []), boff := 1, prevValid := true
      prev := bufOf 0 (List.replicate 4 []), soft := bufOf 0 [1, 2, 3, 4], symIdx := 1 }
    s.run = true ∧ done? (opLevel ((mode s).tF / 5) s) .ok = true ∧ done? (opNullscan s) .fail = true ∧
    done? (opFill 0 (mode s).tU s) .ok = true ∧ done? (opFill ((mode s).tU - s.boff) s.boff s) .ok = true ∧
    done? (opPrime 0 s) .ok = true ∧ done? (opEstco 0 s) .fail = true ∧ done? (opFill 0 (mode s).tS s) .ok = true ∧
    done? (opFcorr s) .ok = true ∧ done? (opDecsym (mode s).tG s) .ok = true ∧
    done? (opFicpush (s.symIdx - 1) s) .ok = true ∧ done? (opMscpush 5 s) .ok = true ∧ done? (opFtrack s) .ok = true ∧
    done? (opSkipnull s) .ok = true ∧ done? (opCifpop { s with fifo := [⟨5, [1, 2, 3, 4]⟩] }) .ok = true ∧
    done? (opFill 0 4 { s with src := [.stopped] }) .stopped = true ∧ opFill 0 4 { s with src := [] } = .waits { s with src := [] } := by
  decide +kernel
/-- An operation that ends while `RUN = 1`, one that waits, one that faults, and one that reads nothing with a stop
pending. -/
theorem test_wit_OperationsAlike :
    let s := { running .s0 with src := [.sample []] }
    s.stopreq = false ∧ (unitOp (.fill 0 1) s).map (done? · .ok) = some true ∧
    unitOp (.fill 0 2) s = some (.waits s) ∧ unitOp .fcorr s = some (.fault (.readUnwritten .win)) ∧
    readsSamples .ficdec = false ∧
    (unitOp .ficdec { s with stopreq := true }).map (done? · .illegal) = some true := by decide +kernel
theorem test_wit_BoundarySteps :
    let s := { running .v1 with win := bufOf 0 [c 1 0, [], [], []] }
    let u := { running .e3 with win := bufOf 0 [c 1 0, [], [], []], thr := 1, bfailCnt := 2 }
    s.run = true ∧ s.seqStep = .v1 ∧ done? (opFindb s.thr.toNat s) .ok = true ∧ u.run = true ∧ u.seqStep = .e3 ∧
    done? (opFindb (3 * u.thr.toNat) u) .fail = true ∧ u.bfailCnt + 1 = 3 := by decide +kernel
/-- A running block between two symbols: the window and the previous spectrum are written. -/
def midFrame : State :=
  { running .s1 with win := bufOf 0 (List.replicate 5 []), prev := bufOf 0 (List.replicate 4 []), prevValid := true,
                     symIdx := 1 }
/-- All the invariants together, on a running block whose step is a next state (`CountersKept`, `BuffersKept`,
`SoftBitsKept`, `FineKept`, `ReadyKept`, `ControlAndTableKept`, `SpecNotRead`, `RunGuards`, `OutputsExtend`), and with the
subscriptions that `RunningNeverFaults` asks for. -/
theorem test_wit_invariants :
    let s := { midFrame with plan := [.stopped], soft := [(0, -127)], subs := [⟨0xA, 0, 1, 2, 3⟩] }
    ModeOk s ∧ ControlOk s ∧ CountersOk s ∧ SubsOk s ∧ SoftOk s ∧ BuffersOk s ∧ Ready s ∧ SubsFit s ∧ s.run = true ∧
    FineInRange s ∧ get (fun t => (t.src, t.modeSel)) (step s) = some ([.stopped], s.modeSel) :=
  ⟨modeOk_idle, by unfold ControlOk; decide, by unfold CountersOk; decide, by unfold SubsOk; decide,
    by unfold SoftOk InSoftRange; decide, by unfold BuffersOk Below; decide +kernel, by unfold Ready Written; decide +kernel,
    by unfold SubsFit; decide, rfl, fineInRange_of _ 0 rfl rfl (by norm_num) (by norm_num), by decide +kernel⟩
theorem test_wit_EventsSticky :
    let s := { idle with event := 1, plan := [.host], cmd := [0x04000002, 0x00000001] }
    s.event.getLsbD 0 = true ∧ get (fun t => t.event.getLsbD 0) (step s) = some false := by decide +kernel
theorem test_wit_RunGuards :
    let s := { idle with plan := [.host], cmd := [0x01000000] }
    s.run = false ∧ get State.run (step s) = some true := by decide +kernel

end Sys2Proof.Tests
end

section
/-! PROOF. One rule for each act of a step (`00_scope.md` R9), and with them `StepPerforms`. -/

open Sys2Proof Sys2Proof.Machine

namespace Sys2Proof.Proofs

/-! ## The act that a step takes -/

/-- With a plan the step performs its head. -/
theorem step_plan_cons {s : State} {a : Act} {r : List Act} (hc : cfgWf s.cfg = true) (hp : s.plan = a :: r) :
    step s = perform a { s with plan := r } := by simp [step, hc, hp]

/-- Without a plan the step performs the free act of its tick. -/
theorem step_plan_nil {s : State} (hc : cfgWf s.cfg = true) (hp : s.plan = []) :
    step s = perform (Config.freeAct s.tick) { s with tick := s.tick + 1 } := by simp [step, hc, hp]

/-- A free act is the act of a plan that holds it alone. -/
theorem step_freeAct {s : State} (hc : cfgWf s.cfg = true) (hp : s.plan = []) :
    step s = step { s with plan := [Config.freeAct s.tick], tick := s.tick + 1 } := by
  rw [step_plan_nil hc hp,
    step_plan_cons (s := { s with plan := [Config.freeAct s.tick], tick := s.tick + 1 }) hc rfl, ← hp]

/-! ## `HOST`'s act (`47_host_commands.md` R320) -/

/-- The unit operation that waits in a read comes before every command. -/
theorem hostStep_waiting {s : State} {i : Instr} (hw : s.hostWait = some i) :
    hostStep s = exec i { s with hostWait := none } := by simp [hostStep, hw]

theorem hostStep_command {s : State} {i : Instr} {rest : List Word} (hw : s.hostWait = none)
    (hd : decode s.cmd = .command i rest) : hostStep s = exec i { s with cmd := rest } := by simp [hostStep, hw, hd]

theorem hostStep_illegal {s : State} {why : Illegal} {rest : List Word} (hw : s.hostWait = none)
    (hd : decode s.cmd = .illegal why rest) : hostStep s = .next (respond { s with cmd := rest } .illegal 0) := by
  simp [hostStep, hw, hd]

theorem hostStep_incomplete {s : State} (hw : s.hostWait = none) (hd : decode s.cmd = .incomplete) :
    hostStep s = .next s := by simp [hostStep, hw, hd]

/-! ## `SEQ`'s act (`46_sync_controller.md` R271) -/

theorem seqStep_running {s : State} (hr : s.run = true) : seqStep s = program s.seqStep s := by simp [seqStep, hr]

theorem seqStep_halted {s : State} (hr : s.run = false) : seqStep s = .next s := by simp [seqStep, hr]

/-! ## Words and their bytes (`20_memory.md` R66) -/

theorem toNat_append_byte {n : Nat} (a : BitVec n) (b : BitVec 8) : (a ++ b).toNat = a.toNat * 256 + b.toNat := by
  rw [BitVec.toNat_append, ← Nat.shiftLeft_add_eq_or_of_lt b.isLt, Nat.shiftLeft_eq]

theorem bytesWord_toNat (b3 b2 b1 b0 : BitVec 8) :
    (bytesWord b3 b2 b1 b0).toNat = ((b3.toNat * 256 + b2.toNat) * 256 + b1.toNat) * 256 + b0.toNat := by
  simp only [bytesWord, toNat_append_byte]

/-- The bytes of a word are those it was delivered in. -/
theorem wordBytes_bytesWord (b3 b2 b1 b0 : BitVec 8) : wordBytes (bytesWord b3 b2 b1 b0) = [b3, b2, b1, b0] := by
  have byte (k : Nat) (b : BitVec 8) (h : (bytesWord b3 b2 b1 b0).toNat / 2 ^ k % 256 = b.toNat) :
      (bytesWord b3 b2 b1 b0).extractLsb' k 8 = b :=
    BitVec.eq_of_toNat_eq (by rw [BitVec.extractLsb'_toNat, Nat.shiftRight_eq_div_pow, h])
  rw [wordBytes, byte 24 b3, byte 16 b2, byte 8 b1, byte 0 b0] <;> rw [bytesWord_toNat] <;> omega

/-- A response leaves as the bytes of its status and of its value (`30_encoding.md` R96). -/
theorem respBytes_eq (r : Resp) :
    respBytes r = wordBytes (BitVec.ofNat 32 (statusCode r.status)) ++ wordBytes r.value := by
  simp [respBytes, respWords]

/-! ## The environment's acts (`20_memory.md` R63; `60_exceptions.md` R341, R345) -/

/-- The sample that becomes ready is a form of the number that arrives. -/
theorem cxVal_arriving {s : State} (hc : cfgWf s.cfg = true) (z : Cx) :
    cxVal (order s) (cxNorm (order s) z) = cxVal (order s) z :=
  Laws.cxAt_norm Config.const (order s) (Laws.cfgOrder_spec s.cfg hc).1 z

theorem raiseEvent_configChanged_eq (s : State) :
    raiseEvent s .configChanged = { s with event := s.event ||| 0b000100, evt := s.evt ++ [.configChanged] } := rfl

theorem raiseEvent_tii_eq (s : State) (main sub : BitVec 8) :
    raiseEvent s (.tii main sub) =
      { s with tii := main ++ sub, event := s.event ||| 0b100000, evt := s.evt ++ [.tii main sub] } := rfl

/-! ## The step -/

/-- Settles O5: the step's act by the plan, then the rule of that act. -/
theorem stepPerforms : Obligations.StepPerforms := by
  unfold Obligations.StepPerforms
  refine ⟨?command, ?illegal, ?incomplete, ?waiting, ?seq, ?dmx, ?word, ?bytes, ?sample, ?stopped, ?config, ?tii, ?free,
    respBytes_eq⟩
  case command =>
    intro s i rest r hc hp hw hd
    rw [step_plan_cons hc hp]
    exact hostStep_command (s := { s with plan := r }) hw hd
  case illegal =>
    intro s why rest r hc hp hw hd
    rw [step_plan_cons hc hp]
    exact hostStep_illegal (s := { s with plan := r }) hw hd
  case incomplete =>
    intro s r hc hp hw hd
    rw [step_plan_cons hc hp]
    exact hostStep_incomplete (s := { s with plan := r }) hw hd
  case waiting =>
    intro s i r hc hp hw
    rw [step_plan_cons hc hp]
    exact hostStep_waiting (s := { s with plan := r }) hw
  case seq =>
    intro s r hc hp
    rw [step_plan_cons hc hp]
    exact ⟨seqStep_running (s := { s with plan := r }), seqStep_halted (s := { s with plan := r })⟩
  case dmx => exact fun s r hc hp => step_plan_cons hc hp
  case word => exact fun s w r hc hp => step_plan_cons hc hp
  case bytes =>
    intro s b3 b2 b1 b0 r hc hp
    exact ⟨bytesWord b3 b2 b1 b0, bytesWord_toNat b3 b2 b1 b0, wordBytes_bytesWord b3 b2 b1 b0, step_plan_cons hc hp⟩
  case sample =>
    intro s z r hc hp
    exact ⟨cxNorm (order s) z, cxVal_arriving hc z, step_plan_cons hc hp⟩
  case stopped => exact fun s r hc hp => step_plan_cons hc hp
  case config =>
    intro s r hc hp
    rw [step_plan_cons hc hp, perform, raiseEvent_configChanged_eq]
  case tii =>
    intro s main sub r hc hp
    refine ⟨main ++ sub, toNat_append_byte main sub, ?_⟩
    rw [step_plan_cons hc hp, perform, raiseEvent_tii_eq]
  case free => exact fun s hc hp => step_freeAct hc hp

end Sys2Proof.Proofs
end

section
/-! PROOF. The command encoding (`30_encoding.md`): the fields of a word, the rows of the opcode map, and with them
`DecodeEncode`, `EncodeDecode`, `OpcodeRows` and `WorkedEncodings`. -/

open Sys2Proof Sys2Proof.Machine

namespace Sys2Proof.Proofs

/-! ## The fields of a word (R92, R93) -/

theorem highHalf_append_lowHalf (w : Word) : highHalf w ++ lowHalf w = w :=
  BitVec.extractLsb'_append_extractLsb' (w := 16) (len := 16)

theorem highHalf_append (a b : BitVec 16) : highHalf (a ++ b) = a := BitVec.extractLsb'_append_eq_left

theorem lowHalf_append (a b : BitVec 16) : lowHalf (a ++ b) = b := BitVec.extractLsb'_append_eq_right

theorem word0_fields (w : Word) : word0 (opcodeOf w).toNat (thirdByte w) (lowHalf w) = w := by
  rw [word0, BitVec.ofNat_toNat, BitVec.setWidth_eq, opcodeOf, thirdByte, lowHalf,
    BitVec.extractLsb'_append_extractLsb'_eq_extractLsb' (by rfl)]
  exact BitVec.extractLsb'_append_extractLsb' (w := 16) (len := 16)

/-- A word is zero where each of its fields is. -/
theorem word_eq_zero_iff (w : Word) : w = 0 ↔ opcodeOf w = 0 ∧ thirdByte w = 0 ∧ lowHalf w = 0 := by
  refine ⟨by rintro rfl; decide, fun ⟨hop, hb, hh⟩ => ?_⟩
  rw [← word0_fields w, hop, hb, hh]
  decide

/-! ## The must-be-zero bits (R93) -/

/-- The must-be-zero bits of word 0, as a mask. -/
def mbzMask : Format → Word
  | .N => 0x00FFFFFF
  | .I => 0x00FF0000
  | .W => 0x00FF0000
  | .U => 0x00FF0000
  | .S => 0

/-- A must-be-zero field is zero where no bit of the mask is set. -/
theorem mbzClear_iff (f : Format) (w : Word) : mbzClear f w = true ↔ w &&& mbzMask f = 0 := by
  have byte (b : BitVec 8) : b &&& 0xFF = b := BitVec.and_allOnes
  have half (h : BitVec 16) : h &&& 0xFFFF = h := BitVec.and_allOnes
  have fields (m : Word) : w &&& m = 0 ↔
      opcodeOf w &&& opcodeOf m = 0 ∧ thirdByte w &&& thirdByte m = 0 ∧ lowHalf w &&& lowHalf m = 0 := by
    simp only [word_eq_zero_iff, opcodeOf, thirdByte, lowHalf, BitVec.extractLsb'_and]
  have short : w &&& 0x00FF0000 = 0 ↔ thirdByte w = 0 := by
    rw [fields, show opcodeOf 0x00FF0000 = 0 by decide, show thirdByte 0x00FF0000 = 0xFF by decide,
      show lowHalf 0x00FF0000 = 0 by decide, byte]
    simp
  have long : w &&& 0x00FFFFFF = 0 ↔ thirdByte w = 0 ∧ lowHalf w = 0 := by
    rw [fields, show opcodeOf 0x00FFFFFF = 0 by decide, show thirdByte 0x00FFFFFF = 0xFF by decide,
      show lowHalf 0x00FFFFFF = 0xFFFF by decide, byte, half]
    simp
  cases f with
  | N => simpa [mbzClear, mbzMask] using long.symm
  | I => simpa [mbzClear, mbzMask] using short.symm
  | W => simpa [mbzClear, mbzMask] using short.symm
  | U => simpa [mbzClear, mbzMask] using short.symm
  | S => simp [mbzClear, mbzMask]

/-! ## The rows of the opcode map (R94) -/

theorem words_pos (f : Format) : 1 ≤ f.words := by cases f <;> decide

/-- A row of the table is an opcode with the must-be-zero bits and the length of its format. -/
theorem opcodeRows_spec : ∀ r ∈ opcodeRows,
    (formatOf (BitVec.ofNat 8 r.1)).map (fun f => (mbzMask f, f.words)) = some r.2 := by decide

/-- The table leaves no opcode out. -/
theorem formatOf_unlisted : ∀ op : BitVec 8, op.toNat ∉ opcodeRows.map (fun r => r.1) → formatOf op = none := by decide

/-- The words that the fields of a format stand for where no must-be-zero bit is set (R93). -/
def formatWords (f : Format) (w0 w1 w2 : Word) : List Word :=
  match f with
  | .N => [immWord (opcodeOf w0).toNat 0]
  | .I => [immWord (opcodeOf w0).toNat (lowHalf w0).toNat]
  | .W => [immWord (opcodeOf w0).toNat (lowHalf w0).toNat, w1]
  | .U => [word0 (opcodeOf w0).toNat 0 (lowHalf w0), w1]
  | .S => [w0, w1, w2]

/-- With the must-be-zero bits clear, these are the words themselves. -/
theorem formatWords_of_mbzClear {f : Format} {w0 : Word} (w1 w2 : Word) (hm : mbzClear f w0 = true) :
    formatWords f w0 w1 w2 = [w0, w1, w2].take f.words := by
  have hw := word0_fields w0
  cases f <;> simp_all [mbzClear, formatWords, immWord, Format.words]

/-- Each legal opcode has its command, whose operands fit and whose words are those of the format (R94, R95). -/
theorem instrOf_of_format {w0 : Word} {f : Format} (hf : formatOf (opcodeOf w0) = some f) (w1 w2 : Word) :
    ∃ i, instrOf (opcodeOf w0) w0 w1 w2 = some i ∧ i.wellFormed = true ∧ encode i = formatWords f w0 w1 w2 := by
  have half (h : BitVec 16) : fits16 h.toNat = true := by simpa [fits16] using h.isLt
  have word (w : Word) : fits32 w.toNat = true := by simpa [fits32] using w.isLt
  have fields := word0_fields w0
  unfold formatOf at hf
  split at hf
  -- The opcode is a number now, and with it the row that both maps read.
  all_goals cases hf
  all_goals simp_all [instrOf, Instr.wellFormed, encode, formatWords, highHalf_append_lowHalf]

/-- A command's own words give it back, whatever follows them (R95): each field of a word is the operand put there, and
a number that fits its field is its remainder. -/
theorem instrOf_encode (i : Instr) (hi : i.wellFormed = true) (rest : List Word) :
    instrOf (opcodeOf ((encode i).headD 0)) ((encode i).headD 0)
      ((encode i ++ rest).getD 1 0) ((encode i ++ rest).getD 2 0) = some i := by
  have half {n : Nat} (h : fits16 n = true) : n % 65536 = n := Nat.mod_eq_of_lt (by simpa [fits16] using h)
  have word {n : Nat} (h : fits32 n = true) : n % 4294967296 = n := Nat.mod_eq_of_lt (by simpa [fits32] using h)
  cases i <;>
    simp_all [encode, immWord, Laws.opcodeOf_word0, Laws.lowHalf_word0, Laws.thirdByte_word0, instrOf,
      Instr.wellFormed, highHalf_append, lowHalf_append]

/-- Every command's words are in the format of its opcode (R92, R93). -/
theorem encodeFormat (i : Instr) : Laws.EncodeFormat.Statement i := by
  cases i with
  | start => exact Laws.EncodeFormat.start
  | stop => exact Laws.EncodeFormat.stop
  | rdcsr a => exact Laws.EncodeFormat.rdcsr a
  | wrcsr a d => exact Laws.EncodeFormat.wrcsr a d
  | subscribe sink comp sid len start => exact Laws.EncodeFormat.subscribe sink comp sid len start
  | unsubscribe comp sid => exact Laws.EncodeFormat.unsubscribe comp sid
  | resetSubs => exact Laws.EncodeFormat.resetSubs
  | level n => exact Laws.EncodeFormat.level n
  | nullscan => exact Laws.EncodeFormat.nullscan
  | fill off n => exact Laws.EncodeFormat.fill off n
  | shift n => exact Laws.EncodeFormat.shift n
  | skipnull => exact Laws.EncodeFormat.skipnull
  | fft off => exact Laws.EncodeFormat.fft off
  | findb thr => exact Laws.EncodeFormat.findb thr
  | estco off => exact Laws.EncodeFormat.estco off
  | prime off => exact Laws.EncodeFormat.prime off
  | fcorr => exact Laws.EncodeFormat.fcorr
  | decsym off => exact Laws.EncodeFormat.decsym off
  | ftrack => exact Laws.EncodeFormat.ftrack
  | ficpush idx => exact Laws.EncodeFormat.ficpush idx
  | ficdec => exact Laws.EncodeFormat.ficdec
  | crc16 f => exact Laws.EncodeFormat.crc16 f
  | mscpush s => exact Laws.EncodeFormat.mscpush s
  | cifpop => exact Laws.EncodeFormat.cifpop

/-- The words of a format, read one at a time. -/
theorem take_words_getD (f : Format) (w0 : Word) {ws : List Word} (hl : f.words ≤ ws.length + 1) :
    [w0, ws.getD 0 0, ws.getD 1 0].take f.words = (w0 :: ws).take f.words := by
  cases f with
  | N => rfl
  | I => rfl
  | W => cases ws <;> simp_all [Format.words]
  | U => cases ws <;> simp_all [Format.words]
  | S => rcases ws with _ | ⟨w1, _ | ⟨w2, ws⟩⟩ <;> simp_all [Format.words]

theorem drop_words (f : Format) (w0 : Word) (ws : List Word) :
    (w0 :: ws).drop f.words = ws.drop (f.words - 1) := by cases f <;> rfl

/-! ## The decoder (R92, R97) -/

/-- An opcode outside the map consumes word 0 only. -/
theorem decode_unlisted {w0 : Word} (ws : List Word) (hf : formatOf (opcodeOf w0) = none) :
    decode (w0 :: ws) = .illegal (.opcode (opcodeOf w0)) ws := by simp [decode, hf]

theorem decode_incomplete {w0 : Word} {ws : List Word} {f : Format} (hf : formatOf (opcodeOf w0) = some f)
    (hl : ws.length + 1 < f.words) : decode (w0 :: ws) = .incomplete := by simp [decode, hf, hl]

/-- A must-be-zero bit that is set makes the command illegal, and its words are consumed. -/
theorem decode_mbz {w0 : Word} {ws : List Word} {f : Format} (hf : formatOf (opcodeOf w0) = some f)
    (hl : f.words ≤ ws.length + 1) (hm : mbzClear f w0 = false) :
    decode (w0 :: ws) = .illegal (.mbz (opcodeOf w0)) (ws.drop (f.words - 1)) := by
  simp [decode, hf, hm, Nat.not_lt.2 hl]

theorem decode_command {w0 : Word} {ws : List Word} {f : Format} {i : Instr} (hf : formatOf (opcodeOf w0) = some f)
    (hl : f.words ≤ ws.length + 1) (hm : mbzClear f w0 = true)
    (hi : instrOf (opcodeOf w0) w0 (ws.getD 0 0) (ws.getD 1 0) = some i) :
    decode (w0 :: ws) = .command i (ws.drop (f.words - 1)) := by
  simp only [decode, hf, hm, hi, if_neg (Nat.not_lt.2 hl)]

/-- What the decoder makes of word 0 and the words after it. -/
theorem decode_cases (w0 : Word) (ws : List Word) :
    (formatOf (opcodeOf w0) = none ∧ decode (w0 :: ws) = .illegal (.opcode (opcodeOf w0)) ws) ∨
    ∃ f, formatOf (opcodeOf w0) = some f ∧
      ((ws.length + 1 < f.words ∧ decode (w0 :: ws) = .incomplete) ∨
       (f.words ≤ ws.length + 1 ∧ mbzClear f w0 = false ∧
          decode (w0 :: ws) = .illegal (.mbz (opcodeOf w0)) (ws.drop (f.words - 1))) ∨
       (f.words ≤ ws.length + 1 ∧ mbzClear f w0 = true ∧
          ∃ i, i.wellFormed = true ∧ encode i = (w0 :: ws).take f.words ∧
            decode (w0 :: ws) = .command i (ws.drop (f.words - 1)))) := by
  cases hf : formatOf (opcodeOf w0) with
  | none => exact .inl ⟨rfl, decode_unlisted ws hf⟩
  | some f =>
    refine .inr ⟨f, rfl, ?_⟩
    by_cases hl : ws.length + 1 < f.words
    · exact .inl ⟨hl, decode_incomplete hf hl⟩
    · have hl := Nat.not_lt.1 hl
      cases hm : mbzClear f w0 with
      | false => exact .inr (.inl ⟨hl, rfl, decode_mbz hf hl hm⟩)
      | true =>
        obtain ⟨i, hi, hwf, he⟩ := instrOf_of_format hf (ws.getD 0 0) (ws.getD 1 0)
        rw [formatWords_of_mbzClear _ _ hm, take_words_getD f w0 hl] at he
        exact .inr (.inr ⟨hl, rfl, i, hwf, he, decode_command hf hl hm hi⟩)

/-! ## The obligations -/

/-- Settles O1: word 0 of an encoding has the format of its length, and the decoder reads the command off it. -/
theorem decodeEncode : Obligations.DecodeEncode := by
  unfold Obligations.DecodeEncode
  intro i rest hwf
  obtain ⟨f, hf, hlen, hm⟩ := encodeFormat i
  have hi := instrOf_encode i hwf rest
  cases he : encode i with
  | nil => exact absurd (words_pos f) (by simp [← hlen, he])
  | cons w0 ws =>
    simp only [he, List.headD_cons, List.cons_append, List.getD_cons_succ, List.length_cons] at hf hlen hm hi
    have hd : (ws ++ rest).drop (f.words - 1) = rest := by simp [← hlen]
    rw [List.cons_append, decode_command hf (by simp [← hlen]) hm hi, hd]

/-- Settles O2: of the four outcomes only the last is a command, and its words are those consumed. -/
theorem encodeDecode : Obligations.EncodeDecode := by
  unfold Obligations.EncodeDecode
  intro ws rest i h
  cases ws with
  | nil => simp [decode] at h
  | cons w0 ws =>
    obtain ⟨-, hd⟩ | ⟨f, -, ⟨-, hd⟩ | ⟨-, -, hd⟩ | ⟨-, -, j, hwf, he, hd⟩⟩ := decode_cases w0 ws <;> rw [hd] at h
    · cases h
    · cases h
    · cases h
    · obtain ⟨rfl, rfl⟩ := Decoded.command.inj h
      refine ⟨hwf, ?_⟩
      rw [he, ← drop_words f w0 ws, List.take_append_drop]

/-- Settles O3: the table gives the format of its opcodes, and the decoder goes by the format. -/
theorem opcodeRows : Obligations.OpcodeRows := by
  unfold Obligations.OpcodeRows
  refine ⟨?_, fun w ws hop => decode_unlisted ws (formatOf_unlisted _ hop)⟩
  rintro op mask n w ws hrow rfl
  obtain ⟨f, hf, hmn⟩ := Option.map_eq_some_iff.1 (opcodeRows_spec _ hrow)
  obtain ⟨rfl, rfl⟩ := Prod.mk.inj hmn
  rw [BitVec.ofNat_toNat, BitVec.setWidth_eq] at hf
  refine ⟨decode_incomplete hf, fun hl hm => decode_mbz hf hl ?_, fun hl hm => ?_⟩
  · rw [← Bool.not_eq_true, mbzClear_iff]
    exact hm
  · obtain ⟨i, hi, -⟩ := instrOf_of_format hf (ws.getD 0 0) (ws.getD 1 0)
    exact ⟨i, decode_command hf hl ((mbzClear_iff f w).2 hm) hi⟩

/-- Settles O4: six are words of an encoding (`decodeEncode`), the two others break the table (`opcodeRows`). -/
theorem workedEncodings : Obligations.WorkedEncodings := by
  unfold Obligations.WorkedEncodings
  exact ⟨decodeEncode .start [] rfl, decodeEncode (.findb 3) [] rfl, decodeEncode (.fill 0 2048) [] rfl,
    decodeEncode (.wrcsr 4 3) [] rfl, decodeEncode (.unsubscribe 0 0xE1C00098) [] rfl,
    decodeEncode (.subscribe 1 0 0xE1C00098 84 0) [] rfl, decode_mbz (f := .I) rfl (by decide) rfl,
    decode_unlisted [] rfl⟩

end Sys2Proof.Proofs
end

section
/-! PROOF. The unit operations whoever issues them (`30_encoding.md` R90, R91): none reads or changes who runs the
block, what was answered, or where the sequencer stands, and with this `OperationsAlike` and `BusyWhileRunning`. -/

open Sys2Proof Sys2Proof.Machine

namespace Sys2Proof.Proofs

/-! ## The control fields -/

/-- The fields of the state that belong to the agents and not to an operation. -/
structure Control where
  run : Bool
  rsp : List Resp
  seqStep : SeqStep
  syncState : SyncState
  hostWait : Option Instr

def controlOf (s : State) : Control := ⟨s.run, s.rsp, s.seqStep, s.syncState, s.hostWait⟩

def withControl (c : Control) (s : State) : State :=
  { s with run := c.run, rsp := c.rsp, seqStep := c.seqStep, syncState := c.syncState, hostWait := c.hostWait }

section
variable (c : Control) (s : State)

@[simp] theorem controlOf_withControl : controlOf (withControl c s) = c := rfl
@[simp] theorem withControl_controlOf : withControl (controlOf s) s = s := rfl
@[simp] theorem withControl_stopreq : (withControl c s).stopreq = s.stopreq := rfl
@[simp] theorem withControl_src : (withControl c s).src = s.src := rfl
@[simp] theorem withControl_win : (withControl c s).win = s.win := rfl
@[simp] theorem withControl_prev : (withControl c s).prev = s.prev := rfl
@[simp] theorem withControl_soft : (withControl c s).soft = s.soft := rfl
@[simp] theorem withControl_scan : (withControl c s).scan = s.scan := rfl
@[simp] theorem withControl_fifo : (withControl c s).fifo = s.fifo := rfl
@[simp] theorem withControl_ficOut : (withControl c s).ficOut = s.ficOut := rfl
@[simp] theorem mode_withControl : mode (withControl c s) = mode s := rfl

end

/-! ## Operations that go by the rest of the state -/

/-- The result of an operation with its state changed. -/
def mapState (g : State → State) : OpRes → OpRes
  | .done s st v => .done (g s) st v
  | .waits s => .waits (g s)
  | .fault f => .fault f

/-- An operation neither reads nor changes the control fields. -/
def IgnoresControl (op : State → OpRes) (s : State) : Prop :=
  ∀ c, op (withControl c s) = mapState (withControl c) (op s)

/-- A function of a choice, branch by branch. -/
theorem ite_eq_map {α β : Type} {f : α → β} {p p' : Prop} {_ : Decidable p} {_ : Decidable p'} {a b : α} {a' b' : β}
    (hp : p' ↔ p) (ha : p → a' = f a) (hb : ¬ p → b' = f b) : (if p' then a' else b') = f (if p then a else b) := by
  by_cases h : p
  · rw [if_pos (hp.2 h), if_pos h, ha h]
  · rw [if_neg (h ∘ hp.1), if_neg h, hb h]

/-! ## Operations on the buffers -/

theorem onSlice_ignoresControl {off : Nat} {k : State → List Cx → OpRes} {s : State}
    (hk : ∀ w, IgnoresControl (fun s => k s w) s) : IgnoresControl (fun s => onSlice s off (k s)) s := by
  intro c
  refine ite_eq_map Iff.rfl (fun _ => rfl) fun _ => ?_
  rw [show winSlice (withControl c s) off = winSlice s off from rfl]
  cases winSlice s off with
  | none => rfl
  | some w => exact hk w c

theorem opShift_ignoresControl (n : Nat) (s : State) : IgnoresControl (opShift n) s := by
  intro c
  refine ite_eq_map Iff.rfl (fun _ => rfl) fun _ => ite_eq_map Iff.rfl (fun _ => rfl) fun _ => ?_
  rw [mode_withControl, withControl_win]
  cases bufReadRange s.win n ((mode s).tU - n) <;> rfl

theorem opFft_ignoresControl (off : Nat) (s : State) : IgnoresControl (opFft off) s :=
  onSlice_ignoresControl fun _ _ => rfl

theorem opPrime_ignoresControl (off : Nat) (s : State) : IgnoresControl (opPrime off) s :=
  onSlice_ignoresControl fun _ _ => rfl

theorem opEstco_ignoresControl (off : Nat) (s : State) : IgnoresControl (opEstco off) s :=
  onSlice_ignoresControl fun w c => by
    dsimp only
    rw [show carrierShift (withControl c s) (sliceDft (withControl c s) w) = carrierShift s (sliceDft s w) from rfl]
    cases carrierShift s (sliceDft s w) <;> rfl

theorem opFindb_ignoresControl (thr : Nat) (s : State) : IgnoresControl (opFindb thr) s := by
  intro c
  rw [opFindb, opFindb, show winSlice (withControl c s) 0 = winSlice s 0 from rfl]
  cases winSlice s 0 with
  | none => rfl
  | some w => exact ite_eq_map Iff.rfl (fun _ => rfl) fun _ => rfl

theorem opDecsym_ignoresControl (off : Nat) (s : State) : IgnoresControl (opDecsym off) s := by
  intro c
  refine ite_eq_map Iff.rfl (fun _ => rfl) fun _ => ite_eq_map Iff.rfl (fun _ => rfl) fun _ => ?_
  rw [show winSlice (withControl c s) off = winSlice s off from rfl, mode_withControl, withControl_prev]
  cases winSlice s off <;> cases bufReadAll s.prev (carrierBins (mode s)) <;> rfl

theorem opFcorr_ignoresControl (s : State) : IgnoresControl opFcorr s := by
  intro c
  rw [opFcorr, opFcorr, mode_withControl, withControl_win]
  cases bufReadRange s.win (mode s).tU ((mode s).tS - (mode s).tU) <;>
    cases bufReadRange s.win 0 ((mode s).tS - (mode s).tU) <;> rfl

theorem opFtrack_ignoresControl (s : State) : IgnoresControl opFtrack s := fun _ => rfl

theorem opCrc16_ignoresControl (f : Nat) (s : State) : IgnoresControl (opCrc16 f) s := by
  intro c
  refine ite_eq_map Iff.rfl (fun _ => rfl) fun _ => ?_
  rw [withControl_ficOut]
  cases bufReadRange s.ficOut (Config.fibBits * f) Config.fibBits <;> rfl

theorem opFicpush_ignoresControl (idx : Nat) (s : State) : IgnoresControl (opFicpush idx) s := by
  intro c
  refine ite_eq_map Iff.rfl (fun _ => rfl) fun _ => ?_
  rw [mode_withControl, withControl_soft]
  cases bufReadRange s.soft 0 (nSoft (mode s)) with
  | none => rfl
  | some v => by_cases h : idx = 0 <;> simp only [h, if_true, if_false] <;> rfl

theorem opMscpush_ignoresControl (sym : Nat) (s : State) : IgnoresControl (opMscpush sym) s := by
  intro c
  refine ite_eq_map Iff.rfl (fun _ => rfl) fun _ => ite_eq_map Iff.rfl (fun _ => rfl) fun _ => ?_
  rw [mode_withControl, withControl_soft]
  cases bufReadRange s.soft 0 (nSoft (mode s)) <;> rfl

theorem ficBlocks_withControl (c : Control) (s : State) (k n : Nat) :
    ficBlocks (withControl c s) k n = ficBlocks s k n := by
  induction k generalizing n with
  | zero => rfl
  | succ k ih => rw [ficBlocks, ficBlocks, ih]; rfl

theorem raiseQuality_withControl {c : Control} {t u : State} (h : u = withControl c t) :
    raiseEvent u (.ficQuality u.fibGood u.fibBad) = withControl c (raiseEvent t (.ficQuality t.fibGood t.fibBad)) := by
  subst h
  rfl

theorem ficWalk_withControl (c : Control) (s : State) (out : List Bool) :
    ficWalk (withControl c s) out = withControl c (ficWalk s out) := by
  refine raiseQuality_withControl ?_
  exact ite_eq_map Iff.rfl (fun _ => rfl) fun _ => rfl

theorem opFicdec_ignoresControl (s : State) : IgnoresControl opFicdec s := by
  intro c
  refine ite_eq_map Iff.rfl (fun _ => rfl) fun _ => ?_
  rw [mode_withControl, ficBlocks_withControl]
  cases ficBlocks s (mode s).nBlk 0 with
  | none => rfl
  | some ys => simp only [ficWalk_withControl]; rfl

theorem opCifpop_ignoresControl (s : State) : IgnoresControl opCifpop s := by
  intro c
  rw [opCifpop, opCifpop, withControl_fifo]
  cases s.fifo with
  | nil => rfl
  | cons e r =>
    refine ite_eq_map Iff.rfl (fun _ => rfl) fun _ => ite_eq_map Iff.rfl (fun _ => rfl) fun _ =>
      ite_eq_map Iff.rfl (fun _ => ?_) fun _ => rfl
    rw [show cuRecords (mode (withControl c s)) (placeHead (withControl c s) e r).cif
      (placeHead (withControl c s) e r).subs = cuRecords (mode s) (placeHead s e r).cif (placeHead s e r).subs from rfl]
    cases cuRecords (mode s) (placeHead s e r).cif (placeHead s e r).subs <;> rfl

/-! ## Operations that read samples, with no stop pending (`46_sync_controller.md` R273) -/

/-- What a read gives, with its state changed. -/
def mapTaken (g : State → State) : Taken → Taken
  | .samples v s => .samples v (g s)
  | .stopped s => .stopped (g s)
  | .waits => .waits

section
variable {s : State} (hs : s.stopreq = false)
include hs

theorem take_withControl (n : Nat) (c : Control) :
    take n (withControl c s) = mapTaken (withControl c) (take n s) := by
  simp only [take, withControl_stopreq, hs, Bool.false_eq_true, and_false, if_false, withControl_src]
  cases fetchSamples n s.src <;> rfl

theorem take_keeps_stopreq {n : Nat} {v : List Cx} {t : State} (ht : take n s = .samples v t) : t.stopreq = false := by
  obtain ⟨-, -, h⟩ | ⟨-, ⟨v', r, -, -, h⟩ | ⟨v', r, -, -, h⟩ | h⟩ := take_cases n s <;> rw [h] at ht <;> cases ht
  exact hs

theorem opLevel_ignoresControl (n : Nat) : IgnoresControl (opLevel n) s := by
  intro c
  refine ite_eq_map Iff.rfl (fun _ => rfl) fun _ => ?_
  rw [take_withControl hs]
  cases take n s <;> rfl

theorem opFill_ignoresControl (off n : Nat) : IgnoresControl (opFill off n) s := by
  intro c
  refine ite_eq_map Iff.rfl (fun _ => rfl) fun _ => ?_
  rw [take_withControl hs]
  cases take n s <;> rfl

theorem opSkipnull_ignoresControl : IgnoresControl opSkipnull s := by
  intro c
  rw [opSkipnull, opSkipnull, mode_withControl, take_withControl hs]
  cases take (mode s).tNull s with
  | samples v t => 
    exact congrArg (OpRes.done · .ok _) (ite_eq_map (f := withControl c) Iff.rfl (fun _ => rfl) fun _ => rfl)
  | stopped t => rfl
  | waits => rfl

theorem scanLoop_ignoresControl (fuel : Nat) (sc : Scan) : IgnoresControl (scanLoop fuel sc) s := by
  intro c
  induction fuel generalizing sc s with
  | zero =>
    rw [scanLoop, scanLoop, show scanTest (withControl c s) sc = scanTest s sc from rfl]
    cases scanTest s sc <;> rfl
  | succ fuel ih =>
    rw [scanLoop, scanLoop, show scanTest (withControl c s) sc = scanTest s sc from rfl]
    cases scanTest s sc with
    | ends st v => rfl
    | more sc' =>
      simp only [take_withControl hs]
      cases ht : take 1 s with
      | samples v t => exact ih (take_keeps_stopreq hs ht) _
      | stopped t => rfl
      | waits => rfl

theorem opNullscan_ignoresControl : IgnoresControl opNullscan s := by
  intro c
  rw [opNullscan, opNullscan, withControl_scan]
  cases s.scan with
  | some sc =>
    refine ite_eq_map (by simp [hs]) (fun _ => rfl) fun _ => scanLoop_ignoresControl hs _ _ c
  | none =>
    rw [mode_withControl, take_withControl hs]
    cases ht : take (mode s).dipWindow s with
    | samples v t => exact scanLoop_ignoresControl (take_keeps_stopreq hs ht) _ _ c
    | stopped t => rfl
    | waits => rfl

end

/-! ## Every unit operation -/

/-- A command is the operation it names, under `HOST`'s guard (R91). -/
theorem exec_of_unitOp {i : Instr} {s : State} {op : OpRes} (h : unitOp i s = some op) :
    exec i s = if s.run then .next (respond s .busy 0) else hostOutcome i op := by
  cases i <;> cases h <;> rfl

/-- The unit operations are those that name one (R90). -/
theorem unitOp_isSome (i : Instr) (s : State) : (unitOp i s).isSome = isUnit i := by cases i <;> rfl

theorem unitOp_withControl {i : Instr} {s : State} (h : s.stopreq = false ∨ readsSamples i = false) (c : Control) :
    unitOp i (withControl c s) = (unitOp i s).map (mapState (withControl c)) := by
  have reads (hr : readsSamples i = true) : s.stopreq = false := h.resolve_right (by simp [hr])
  cases i with
  | start => rfl
  | stop => rfl
  | rdcsr a => rfl
  | wrcsr a d => rfl
  | subscribe sink comp sid len start => rfl
  | unsubscribe comp sid => rfl
  | resetSubs => rfl
  | level n => exact congrArg some (opLevel_ignoresControl (reads rfl) n c)
  | nullscan => exact congrArg some (opNullscan_ignoresControl (reads rfl) c)
  | fill off n => exact congrArg some (opFill_ignoresControl (reads rfl) off n c)
  | shift n => exact congrArg some (opShift_ignoresControl n s c)
  | skipnull => exact congrArg some (opSkipnull_ignoresControl (reads rfl) c)
  | fft off => exact congrArg some (opFft_ignoresControl off s c)
  | findb thr => exact congrArg some (opFindb_ignoresControl thr s c)
  | estco off => exact congrArg some (opEstco_ignoresControl off s c)
  | prime off => exact congrArg some (opPrime_ignoresControl off s c)
  | fcorr => exact congrArg some (opFcorr_ignoresControl s c)
  | decsym off => exact congrArg some (opDecsym_ignoresControl off s c)
  | ftrack => exact congrArg some (opFtrack_ignoresControl s c)
  | ficpush idx => exact congrArg some (opFicpush_ignoresControl idx s c)
  | ficdec => exact congrArg some (opFicdec_ignoresControl s c)
  | crc16 f => exact congrArg some (opCrc16_ignoresControl f s c)
  | mscpush sym => exact congrArg some (opMscpush_ignoresControl sym s c)
  | cifpop => exact congrArg some (opCifpop_ignoresControl s c)

theorem controlOf_of_done {c : Control} {t : State} {st : Status} {v : Word}
    (h : mapState (withControl c) (.done t st v) = .done t st v) : controlOf t = c := by
  rw [← (OpRes.done.inj h).1, controlOf_withControl]

theorem controlOf_of_waits {c : Control} {t : State} (h : mapState (withControl c) (.waits t) = .waits t) :
    controlOf t = c := by
  rw [← OpRes.waits.inj h, controlOf_withControl]

/-- An operation keeps the control fields: given those it has, it is unchanged. -/
theorem unitOp_keepsControl {i : Instr} {s : State} {op : OpRes} (ho : unitOp i s = some op)
    (hs : s.stopreq = false ∨ readsSamples i = false) : mapState (withControl (controlOf s)) op = op := by
  have hu := unitOp_withControl hs (controlOf s)
  rw [withControl_controlOf, ho] at hu
  exact (Option.some.inj hu).symm

/-- `HOST`'s command at `RUN = 0` is the same operation with `RUN` cleared. -/
theorem exec_halted {i : Instr} {s : State} {op : OpRes} (ho : unitOp i s = some op)
    (hs : s.stopreq = false ∨ readsSamples i = false) :
    exec i { s with run := false } = hostOutcome i (mapState (withControl { controlOf s with run := false }) op) := by
  have hu := unitOp_withControl hs { controlOf s with run := false }
  rw [ho, Option.map_some] at hu
  exact exec_of_unitOp hu

/-! ## The obligations -/

/-- Settles O11: the guard comes before the operation. -/
theorem busyWhileRunning : Obligations.BusyWhileRunning := by
  unfold Obligations.BusyWhileRunning
  rintro i s hr (hu | rfl)
  · obtain ⟨op, ho⟩ := Option.isSome_iff_exists.1 ((unitOp_isSome i s).trans hu)
    rw [exec_of_unitOp ho, if_pos hr, respond]
  · exact if_pos hr

/-- Settles O44: an operation goes by the rest of the state and keeps the control fields, so clearing `RUN` before it is
clearing `RUN` after it. -/
theorem operationsAlike : Obligations.OperationsAlike := by
  unfold Obligations.OperationsAlike
  intro i s op ho hs
  have hkeep := unitOp_keepsControl ho hs
  have hexec := exec_halted ho hs
  refine ⟨?done, ?waits, ?fault⟩
  case done =>
    rintro t st v rfl
    have hc := controlOf_of_done hkeep
    refine ⟨?_, congrArg Control.run hc, congrArg Control.rsp hc, congrArg Control.seqStep hc,
      congrArg Control.syncState hc⟩
    rw [hexec, ← hc]
    rfl
  case waits =>
    rintro t rfl
    have hc := controlOf_of_waits hkeep
    refine ⟨?_, congrArg Control.run hc, congrArg Control.hostWait hc⟩
    rw [hexec, ← hc]
    rfl
  case fault =>
    rintro f rfl
    exact hexec

end Sys2Proof.Proofs
end

section
/-! PROOF. The arithmetic of the exact numbers is that of the complex numbers (`40_fft_engine.md` R122), and with this
`ExactArithmetic`. -/

open Sys2Proof Sys2Proof.Machine Sys2Proof.Laws

namespace Sys2Proof.Proofs

/-! ## Inverse powers of a root of unity -/

/-- The exponents that `cycConj` and `dft` count down to stand for inverse powers. -/
theorem zeta_pow_sub {M : Nat} (hM : 0 < M) (e : Nat) : zeta M ^ (M - e % M) = (zeta M ^ e)⁻¹ := by
  refine eq_inv_of_mul_eq_one_left ?_
  rw [← zeta_mod M hM e, ← pow_add, Nat.sub_add_cancel (Nat.mod_lt e hM).le, zeta_pow M hM]

theorem zeta_pow_conj {M : Nat} (hM : 0 < M) (e : Nat) : (starRingEnd ℂ) (zeta M ^ e) = (zeta M ^ e)⁻¹ := by
  have hnorm : ‖zeta M‖ = 1 := Complex.norm_eq_one_of_pow_eq_one (zeta_pow M hM) hM.ne'
  exact (Complex.inv_eq_conj (by rw [norm_pow, hnorm, one_pow])).symm

/-! ## Products and conjugates of combinations of roots of unity -/

theorem termVal_mul (M : Nat) (x y : Nat × Rat) : termVal M (x.1 + y.1, x.2 * y.2) = termVal M x * termVal M y := by
  simp only [termVal, pow_add]
  push_cast
  ring

theorem termVal_conj {M : Nat} (hM : 0 < M) (t : Nat × Rat) :
    termVal M (M - t.1 % M, t.2) = (starRingEnd ℂ) (termVal M t) := by
  simp only [termVal, zeta_pow_sub hM, map_mul, zeta_pow_conj hM, map_ratCast]

/-- One row of a product. -/
theorem cycVal_row (M : Nat) (x : Nat × Rat) (b : Cyc) :
    cycVal M (b.map fun y => (x.1 + y.1, x.2 * y.2)) = termVal M x * cycVal M b := by
  induction b with
  | nil => simp [cycVal_nil]
  | cons y b ih => rw [List.map_cons, cycVal_cons, cycVal_cons, ih, termVal_mul, mul_add]

theorem cycVal_mul {M : Nat} (hM : 0 < M) (a b : Cyc) : cycVal M (cycMul M a b) = cycVal M a * cycVal M b := by
  rw [cycMul, cycVal_norm M hM]
  induction a with
  | nil => simp [cycVal_nil]
  | cons x a ih => rw [List.flatMap_cons, cycVal_append, cycVal_row, ih, cycVal_cons, add_mul]

theorem cycVal_conj {M : Nat} (hM : 0 < M) (a : Cyc) : cycVal M (cycConj M a) = (starRingEnd ℂ) (cycVal M a) := by
  rw [cycConj, cycVal_norm M hM]
  induction a with
  | nil => simp [cycVal_nil]
  | cons t a ih => rw [List.map_cons, cycVal_cons, cycVal_cons, ih, termVal_conj hM, map_add]

/-! ## Exact numbers -/

theorem cxVal_add (M : Nat) (a b : Cx) : cxVal M (cxAdd a b) = cxVal M a + cxVal M b := cxAt_add _ M a b

theorem cxVal_scale (M : Nat) (q : Rat) (a : Cx) : cxVal M (cxScale q a) = (q : ℂ) * cxVal M a := cxAt_scale _ M q a

theorem cxVal_rot {M : Nat} (hM : 0 < M) (k : Nat) (a : Cx) : cxVal M (cxRot M k a) = zeta M ^ k * cxVal M a :=
  cxAt_rot _ M k hM a

theorem cxVal_mul {M : Nat} (hM : 0 < M) (a b : Cx) : cxVal M (cxMul M a b) = cxVal M a * cxVal M b :=
  cxAt_mul_of _ M (cycVal_mul hM) a b

theorem cxVal_conj {M : Nat} (hM : 0 < M) (a : Cx) : cxVal M (cxConj M a) = (starRingEnd ℂ) (cxVal M a) :=
  cxAt_conj_of _ M (cycVal_conj hM) a

theorem cxVal_normSq {M : Nat} (hM : 0 < M) (a : Cx) : cxVal M (cxNormSq M a) = ((‖cxVal M a‖ ^ 2 : ℝ) : ℂ) := by
  rw [cxNormSq, cxVal_mul hM, cxVal_conj hM, Complex.mul_conj']
  push_cast
  rfl

/-! ## The obligation -/

/-- Settles O24: products multiply terms, and the conjugate of a root of unity is its inverse. -/
theorem exactArithmetic : Obligations.ExactArithmetic := by
  unfold Obligations.ExactArithmetic
  exact fun M a b hM => ⟨cxVal_add M a b, cxVal_mul hM a b, cxVal_conj hM a, cxVal_normSq hM a⟩

end Sys2Proof.Proofs
end

section
/-! PROOF. The transforms (`40_fft_engine.md` R120, R121): what `rootSum` stands for, the orthogonality of the roots of
unity, and with them `TransformsDenote`. -/

open Sys2Proof Sys2Proof.Machine Sys2Proof.Laws

namespace Sys2Proof.Proofs

/-! ## Roots of unity of the length and of the order -/

theorem zeta_isPrimitiveRoot {N : Nat} (hN : 0 < N) : IsPrimitiveRoot (zeta N) N :=
  Complex.isPrimitiveRoot_exp N hN.ne'

theorem zeta_pow_div {M N : Nat} (hM : 0 < M) (hN : 0 < N) (hd : N ∣ M) : zeta M ^ (M / N) = zeta N := by
  have hM' : (M : ℂ) ≠ 0 := by exact_mod_cast hM.ne'
  have hN' : (N : ℂ) ≠ 0 := by exact_mod_cast hN.ne'
  rw [← exp_turn, zeta, Nat.cast_div hd hN']
  congr 1
  field_simp

/-- The rotation that `rootSum` makes, as a root of unity of the length. -/
theorem zeta_pow_mod_mul_div {M N : Nat} (hM : 0 < M) (hN : 0 < N) (hd : N ∣ M) (e : Nat) :
    zeta M ^ (e % N * (M / N)) = zeta N ^ e := by
  rw [mul_comm, pow_mul, zeta_pow_div hM hN hd, zeta_mod N hN]

/-! ## The transforms as sums of powers of one root -/

theorem spectrumAt_eq (M N : Nat) (x : List Cx) (k : Nat) :
    spectrumAt M N x k = ∑ n ∈ Finset.range N, cxVal M (x.getD n []) * (zeta N ^ (n * k))⁻¹ := by
  refine Finset.sum_congr rfl fun n _ => ?_
  rw [← exp_turn, ← Complex.exp_neg]
  push_cast
  ring_nf

theorem inverseAt_eq (M N : Nat) (X : List Cx) (n : Nat) :
    inverseAt M N X n = (N : ℂ)⁻¹ * ∑ k ∈ Finset.range N, cxVal M (X.getD k []) * zeta N ^ (n * k) := by
  rw [inverseAt, one_div]
  congr 1
  refine Finset.sum_congr rfl fun k _ => ?_
  rw [← exp_turn]
  push_cast
  ring_nf

section
variable {M N : Nat} (hM : 0 < M) (hN : 0 < N) (hd : N ∣ M) (x : List Cx)

include hM hN hd in
theorem cxVal_rootSum (k n : Nat) :
    cxVal M (rootSum M N k n x) = ∑ j ∈ Finset.range x.length, cxVal M (x.getD j []) * zeta N ^ ((n + j) * k) := by
  induction x generalizing n with
  | nil => simp [rootSum]
  | cons z zs ih =>
    rw [rootSum, cxVal_add, cxVal_rot hM, zeta_pow_mod_mul_div hM hN hd, ih, List.length_cons,
      Finset.sum_range_succ', add_comm, mul_comm (zeta N ^ _)]
    congr 1
    refine Finset.sum_congr rfl fun j _ => ?_
    rw [List.getD_cons_succ, add_right_comm, add_assoc]

theorem dft_length (M N : Nat) (x : List Cx) : (dft M N x).length = N := by simp [dft]

theorem idft_length (M N : Nat) (X : List Cx) : (idft M N X).length = N := by simp [idft]

theorem dft_getD (M : Nat) (x : List Cx) {k : Nat} (hk : k < N) :
    (dft M N x).getD k [] = rootSum M N (N - k % N) 0 x := by simp [dft, hk]

theorem idft_getD (M : Nat) (X : List Cx) {n : Nat} (hn : n < N) :
    (idft M N X).getD n [] = cxScale (1 / (N : Rat)) (rootSum M N n 0 X) := by simp [idft, hn]

include hM hd in
theorem cxVal_dft (hx : x.length = N) {k : Nat} (hk : k < N) :
    cxVal M ((dft M N x).getD k []) = spectrumAt M N x k := by
  have hN : 0 < N := Nat.zero_lt_of_lt hk
  rw [dft_getD M x hk, cxVal_rootSum hM hN hd, spectrumAt_eq, hx]
  refine Finset.sum_congr rfl fun n _ => ?_
  rw [zero_add, mul_comm n, pow_mul, zeta_pow_sub hN, inv_pow, ← pow_mul, mul_comm k]

include hM hd in
theorem cxVal_idft (hx : x.length = N) {n : Nat} (hn : n < N) :
    cxVal M ((idft M N x).getD n []) = inverseAt M N x n := by
  rw [idft_getD M x hn, cxVal_scale, cxVal_rootSum hM (Nat.zero_lt_of_lt hn) hd, inverseAt_eq, hx]
  push_cast
  rw [one_div]
  simp only [zero_add, mul_comm]

end

/-! ## Orthogonality -/

theorem sum_pow_of_ne {w : ℂ} {N : Nat} (hw : IsPrimitiveRoot w N) {m n : Nat} (hm : m < N) (hn : n < N)
    (hmn : m ≠ n) : ∑ k ∈ Finset.range N, (w ^ (m * k))⁻¹ * w ^ (n * k) = 0 := by
  set z : ℂ := (w ^ m)⁻¹ * w ^ n with hz
  have hz1 : z ≠ 1 := fun h => hmn <| hw.pow_inj hm hn <| by
    rwa [hz, inv_mul_eq_one₀ (pow_ne_zero m (hw.ne_zero (Nat.zero_lt_of_lt hm).ne'))] at h
  have hzN : z ^ N = 1 := by
    rw [hz, mul_pow, inv_pow, pow_right_comm w m, pow_right_comm w n, hw.pow_eq_one, one_pow, one_pow, inv_one, one_mul]
  calc ∑ k ∈ Finset.range N, (w ^ (m * k))⁻¹ * w ^ (n * k)
      = ∑ k ∈ Finset.range N, z ^ k := by simp only [hz, mul_pow, inv_pow, ← pow_mul]
    _ = 0 := by rw [geom_sum_eq hz1, hzN, sub_self, zero_div]

/-- The two transforms by a primitive root undo each other. -/
theorem fourier_inversion {w : ℂ} {N : Nat} (hw : IsPrimitiveRoot w N) (f : Nat → ℂ) {n : Nat} (hn : n < N) :
    ∑ k ∈ Finset.range N, (∑ m ∈ Finset.range N, f m * (w ^ (m * k))⁻¹) * w ^ (n * k) = N * f n := by
  have hw0 : w ≠ 0 := hw.ne_zero (Nat.zero_lt_of_lt hn).ne'
  calc ∑ k ∈ Finset.range N, (∑ m ∈ Finset.range N, f m * (w ^ (m * k))⁻¹) * w ^ (n * k)
      = ∑ m ∈ Finset.range N, f m * ∑ k ∈ Finset.range N, (w ^ (m * k))⁻¹ * w ^ (n * k) := by
        simp only [Finset.sum_mul, Finset.mul_sum, mul_assoc]
        exact Finset.sum_comm
    _ = f n * ∑ k ∈ Finset.range N, (w ^ (n * k))⁻¹ * w ^ (n * k) := by
        refine Finset.sum_eq_single_of_mem n (Finset.mem_range.2 hn) fun m hm hmn => ?_
        rw [sum_pow_of_ne hw (Finset.mem_range.1 hm) hn hmn, mul_zero]
    _ = N * f n := by simp [hw0, mul_comm]

/-! ## The obligation -/

section
variable {M N : Nat} (hM : 0 < M) (hd : N ∣ M) {x : List Cx} (hx : x.length = N) {n : Nat} (hn : n < N)
include hM hd hx hn

theorem cxVal_idft_dft : cxVal M ((idft M N (dft M N x)).getD n []) = cxVal M (x.getD n []) := by
  have hN : (N : ℂ) ≠ 0 := by exact_mod_cast (Nat.zero_lt_of_lt hn).ne'
  have hroot := zeta_isPrimitiveRoot (Nat.zero_lt_of_lt hn)
  rw [cxVal_idft hM hd _ (dft_length M N x) hn, inverseAt_eq, inv_mul_eq_iff_eq_mul₀ hN,
    ← fourier_inversion hroot (fun m => cxVal M (x.getD m [])) hn]
  refine Finset.sum_congr rfl fun k hk => ?_
  rw [cxVal_dft hM hd x hx (Finset.mem_range.1 hk), spectrumAt_eq]

/-- The same inversion, by the inverse root. -/
theorem cxVal_dft_idft : cxVal M ((dft M N (idft M N x)).getD n []) = cxVal M (x.getD n []) := by
  have hN : (N : ℂ) ≠ 0 := by exact_mod_cast (Nat.zero_lt_of_lt hn).ne'
  have hroot := (zeta_isPrimitiveRoot (Nat.zero_lt_of_lt hn)).inv
  have hinv := fourier_inversion hroot (fun m => cxVal M (x.getD m [])) hn
  rw [cxVal_dft hM hd _ (idft_length M N x) hn, spectrumAt_eq, ← mul_right_inj' hN, ← hinv, Finset.mul_sum]
  refine Finset.sum_congr rfl fun k hk => ?_
  rw [cxVal_idft hM hd x hx (Finset.mem_range.1 hk), inverseAt_eq, ← mul_assoc, mul_inv_cancel_left₀ hN]
  simp only [inv_pow, inv_inv, mul_comm]

end

/-- Settles O25: both lists hold their sums, and the roots of unity are orthogonal. -/
theorem transformsDenote : Obligations.TransformsDenote := by
  unfold Obligations.TransformsDenote
  refine ⟨fun M N x hM _ hMN hx => ?dft, fun M N x hM _ hMN hx => ?idft⟩
  case dft =>
    have hd : N ∣ M := Nat.dvd_of_mod_eq_zero hMN
    exact ⟨dft_length M N x, fun _ hk => cxVal_dft hM hd x hx hk⟩
  case idft =>
    have hd : N ∣ M := Nat.dvd_of_mod_eq_zero hMN
    exact ⟨idft_length M N x, fun _ hn =>
      ⟨cxVal_idft hM hd x hx hn, cxVal_idft_dft hM hd hx hn, cxVal_dft_idft hM hd hx hn⟩⟩

end Sys2Proof.Proofs
end

section
/-! PROOF. The command `FFT` (`40_fft_engine.md` R124): the order and the length of the selected mode, the spectrum of a
slice, and with them `FftResult`. -/

open Sys2Proof Sys2Proof.Machine Sys2Proof.Laws

namespace Sys2Proof.Proofs

/-! ## The selected mode of a well-formed configuration -/

theorem mode_mem {s : State} (hs : ModeOk s) : mode s ∈ s.cfg.modes := by
  rw [mode, List.getD_eq_getElem?_getD, List.getElem?_eq_getElem hs.2]
  exact List.getElem_mem hs.2

theorem order_pos {s : State} (hs : ModeOk s) : 0 < order s := (cfgOrder_spec s.cfg hs.1).1

theorem tU_dvd_order {s : State} (hs : ModeOk s) : (mode s).tU ∣ order s :=
  (cfgOrder_spec s.cfg hs.1).2.2 _ (mode_mem hs)

/-! ## Slices -/

theorem sliceDft_isSpectrum {s : State} (hs : ModeOk s) {w : List Cx} (hw : w.length = (mode s).tU) :
    IsSpectrum s w (sliceDft s w) :=
  ⟨dft_length _ _ w, fun _ hk => cxVal_dft (order_pos hs) (tU_dvd_order hs) w hw hk⟩

theorem onSlice_leaves {s : State} {off : Nat} (h : (mode s).tS < off + (mode s).tU) (k : List Cx → OpRes) :
    onSlice s off k = .done s .illegal 0 := by
  obtain ⟨-, he⟩ | ⟨hle, -⟩ := onSlice_cases s off k
  · exact he
  · omega

/-! ## The operation -/

theorem opFft_written {s : State} {off : Nat} {w : List Cx} (hle : off + (mode s).tU ≤ (mode s).tS)
    (hw : w.length = (mode s).tU) (hheld : Holds s.win off w) :
    opFft off s = .done { s with spec := bufOf 0 (sliceDft s w) } .ok 0 :=
  onSlice_written s off _ w hle hw hheld

theorem opFft_leaves {s : State} {off : Nat} (h : (mode s).tS < off + (mode s).tU) :
    opFft off s = .done s .illegal 0 := onSlice_leaves h _

theorem exec_fft (off : Nat) (s : State) : exec (.fft off) s = hostUnit (.fft off) (opFft off) s := rfl

/-! ## The obligation -/

/-- Settles O26: a written slice is transformed, and a slice that leaves `WIN` is refused before it is read. -/
theorem fftResult : Obligations.FftResult := by
  unfold Obligations.FftResult
  intro s off hs hrun
  rw [exec_fft]
  refine ⟨fun w hle hw hheld => ⟨sliceDft s w, sliceDft_isSpectrum hs hw, ?written⟩, fun hleaves => ?leaves⟩
  case written => exact hostUnit_done _ _ _ _ _ _ hrun (opFft_written hle hw hheld)
  case leaves => exact hostUnit_done _ _ _ _ _ _ hrun (opFft_leaves hleaves)

end Sys2Proof.Proofs
end

section
/-! PROOF. The first best of a list (`41_phase_reference.md` R142, R148: the smallest index at which a number is
largest), and the facts of a well-formed mode that the correlators use. -/

open Sys2Proof Sys2Proof.Machine Sys2Proof.Laws

namespace Sys2Proof.Proofs

/-! ## The first best -/

/-- `b` is the smallest of the keys at which `f` is largest. -/
def IsFirstBest {α : Type} [LinearOrder α] (f : α → ℝ) (ks : List α) (b : α) : Prop :=
  b ∈ ks ∧ ∀ j ∈ ks, f j ≤ f b ∧ (j < b → f j < f b)

section
variable {α β : Type} [LinearOrder α]

/-- A new first key is the best where it is no worse than the best before. -/
theorem isFirstBest_cons_of_lt {f : α → ℝ} {k p b : α} {ps : List α} (h : IsFirstBest f (p :: ps) b)
    (hkp : f k < f p) : IsFirstBest f (k :: p :: ps) b := by
  obtain ⟨hb, hbest⟩ := h
  have hkb : f k < f b := hkp.trans_le (hbest p (by simp)).1
  exact ⟨List.mem_cons_of_mem k hb, List.forall_mem_cons.2 ⟨⟨hkb.le, fun _ => hkb⟩, hbest⟩⟩

/-- A second key that is no better than the first changes nothing. -/
theorem isFirstBest_cons_of_le {f : α → ℝ} {k p b : α} {ps : List α} (h : IsFirstBest f (k :: ps) b)
    (hkp : f p ≤ f k) (hlt : k < p) : IsFirstBest f (k :: p :: ps) b := by
  obtain ⟨hb, hbest⟩ := h
  obtain ⟨⟨hkb, hkb'⟩, hps⟩ := List.forall_mem_cons.1 hbest
  have hpb : f p ≤ f b ∧ (p < b → f p < f b) := ⟨hkp.trans hkb, fun hp => hkp.trans_lt (hkb' (hlt.trans hp))⟩
  refine ⟨?_, List.forall_mem_cons.2 ⟨⟨hkb, hkb'⟩, List.forall_mem_cons.2 ⟨hpb, hps⟩⟩⟩
  simp only [List.mem_cons] at hb ⊢
  tauto

variable {lt : β → β → Bool} {val : β → ℝ} (hlt : ∀ x y, lt x y = true ↔ val x < val y) (f : α → β)
include hlt

theorem firstBest_keys {k : α} {ks : List α} (hks : (k :: ks).Pairwise (· < ·)) :
    ∃ b, firstBest lt (k, f k) (ks.map fun j => (j, f j)) = (b, f b) ∧
      IsFirstBest (fun j => val (f j)) (k :: ks) b := by
  induction ks generalizing k with
  | nil => exact ⟨k, rfl, by simp [IsFirstBest]⟩
  | cons p ps ih =>
    rw [List.map_cons, firstBest]
    obtain ⟨hk, hps⟩ := List.pairwise_cons.1 hks
    by_cases hkp : val (f k) < val (f p)
    · obtain ⟨b, he, hb⟩ := ih hps
      exact ⟨b, by rw [if_pos ((hlt _ _).2 hkp), he], isFirstBest_cons_of_lt hb hkp⟩
    · obtain ⟨b, he, hb⟩ := ih (hks.sublist (by simp) : (k :: ps).Pairwise (· < ·))
      exact ⟨b, by rw [if_neg (hkp ∘ (hlt _ _).1), he], isFirstBest_cons_of_le hb (not_lt.1 hkp) (hk p (by simp))⟩

/-- The first best over rising keys, by what the comparison stands for. -/
theorem firstBestOf_keys (d : α × β) {ks : List α} (hne : ks ≠ []) (hks : ks.Pairwise (· < ·)) :
    ∃ b, firstBestOf lt d (ks.map fun j => (j, f j)) = (b, f b) ∧ IsFirstBest (fun j => val (f j)) ks b := by
  cases ks with
  | nil => exact absurd rfl hne
  | cons k ks => exact firstBest_keys hlt f hks

end

theorem isFirstMax_unique {lo hi : Int} {f : Int → ℝ} {a b : Int} (ha : IsFirstMax lo hi f a)
    (hb : IsFirstMax lo hi f b) : a = b := by
  obtain ⟨⟨hla, hha⟩, hmaxa⟩ := ha
  obtain ⟨⟨hlb, hhb⟩, hmaxb⟩ := hb
  obtain ⟨hab, hab'⟩ := hmaxb a hla hha
  obtain ⟨hba, hba'⟩ := hmaxa b hlb hhb
  rcases lt_trichotomy a b with h | h | h
  · linarith [hab' h]
  · exact h
  · linarith [hba' h]

/-! ## Well-formed modes -/

theorem mode_wf {s : State} (hs : ModeOk s) : modeWf (order s) (mode s) = true := by
  obtain ⟨hc, -⟩ := id hs
  simp only [cfgWf, Bool.and_eq_true, List.all_eq_true] at hc
  exact hc.2 _ (mode_mem hs)

/-- The order of a well-formed configuration is one of exact arithmetic. -/
theorem order_exact {s : State} (hs : ModeOk s) : Exact (order s) := by
  obtain ⟨hpos, h8, -⟩ := cfgOrder_spec s.cfg hs.1
  refine ⟨hpos, ?_, fun a b => ⟨cxVal_mul hpos a b, cxVal_conj hpos a⟩⟩
  rw [order]
  omega

theorem tU_pos {s : State} (hs : ModeOk s) : 0 < (mode s).tU := by
  have hwf := mode_wf hs
  simp only [modeWf, lengthsWf, Bool.and_eq_true, decide_eq_true_iff] at hwf
  omega

theorem ref_length {s : State} (hs : ModeOk s) : (mode s).ref.length = (mode s).tU := by
  have hwf := mode_wf hs
  simp only [modeWf, refWf, Bool.and_eq_true, decide_eq_true_iff] at hwf
  obtain ⟨⟨⟨⟨⟨⟨-, hlen, -⟩, -⟩, -⟩, -⟩, -⟩, -⟩ := hwf
  exact hlen

/-- The search window lies within the lags (`41_phase_reference.md` R143). -/
theorem searchW_bounds {s : State} (hs : ModeOk s) :
    (mode s).searchW ≤ (mode s).tG ∧ (mode s).tG + (mode s).searchW < (mode s).tU := by
  have hwf := mode_wf hs
  simp only [modeWf, searchWf, Bool.and_eq_true, decide_eq_true_iff] at hwf
  omega

end Sys2Proof.Proofs
end

section
/-! PROOF. The command `FINDB` (`41_phase_reference.md` R142, R143, R147): the squared magnitudes of the correlation, its
peak and its mean, and with them `FindbResult` and `FindbAllZero`. -/

open Sys2Proof Sys2Proof.Machine Sys2Proof.Laws

namespace Sys2Proof.Proofs

/-! ## Magnitudes -/

theorem magVal_sqrt (M : Nat) (a : Cx) : magVal M (magSqrt a) = Real.sqrt (cxVal M a).re := magAt_sqrt _ M a

theorem magVal_scaleRat (M : Nat) (q : Rat) (x : Mag) : magVal M (magScaleRat q x) = q * magVal M x :=
  magAt_scaleRat _ M q x

theorem magVal_sum (M : Nat) (l : List Mag) : magVal M (magSum l) = (l.map (magVal M)).sum := magAt_sum _ M l

theorem sum_map_eq_sum_range {α : Type} (l : List α) (f : α → ℝ) (d : α) :
    (l.map f).sum = ∑ n ∈ Finset.range l.length, f (l.getD n d) := by
  rw [Finset.sum_range, ← Fin.sum_univ_fun_getElem]
  exact Finset.sum_congr rfl fun n _ => by simp

/-- The comparison of the peak's search. -/
theorem cxSignRe_sub_neg_iff {M : Nat} (hE : Exact M) (a b : Cx) :
    decide (cxSignRe M (cxSub a b) < 0) = true ↔ (cxVal M a).re < (cxVal M b).re := by
  rw [decide_eq_true_iff, cxSignRe_eq M hE, sgn_neg_iff, cxVal, cxAt_sub, Complex.sub_re, sub_neg]

/-! ## The search window -/

theorem mem_searchLags {s : State} (hs : ModeOk s) (n : Nat) :
    n ∈ searchLags (mode s) ↔ (mode s).tG - (mode s).searchW ≤ n ∧ n ≤ (mode s).tG + (mode s).searchW := by
  obtain ⟨hW, -⟩ := searchW_bounds hs
  simp only [searchLags, List.mem_map, List.mem_range]
  exact ⟨by rintro ⟨j, hj, rfl⟩; omega, fun h => ⟨n - ((mode s).tG - (mode s).searchW), by omega, by omega⟩⟩

theorem searchLags_rising (m : Mode) : (searchLags m).Pairwise (· < ·) :=
  List.pairwise_lt_range.map _ fun _ _ h => Nat.add_lt_add_left h _

theorem searchLags_ne_nil (m : Mode) : searchLags m ≠ [] := by simp [searchLags]

/-! ## The correlation -/

theorem conjMul_length (M : Nat) (a b : List Cx) : (conjMul M a b).length = min a.length b.length := by
  simp [conjMul]

theorem conjMul_getD (M : Nat) {a b : List Cx} {k : Nat} (ha : k < a.length) (hb : k < b.length) :
    (conjMul M a b).getD k [] = cxMul M (a.getD k []) (cxConj M (b.getD k [])) := by
  simp [conjMul, ha, hb]

/-- The squares of the magnitudes `m[n]` of R142, as `FINDB` computes them. -/
def squaredMagnitudes (s : State) (X : List Cx) : List Cx := (correlation s X).map (cxNormSq (order s))

theorem squaredMagnitudes_length (s : State) (X : List Cx) : (squaredMagnitudes s X).length = (mode s).tU := by
  simp [squaredMagnitudes, correlation, idft_length]

theorem correlationAt_nonneg (s : State) (w : List Cx) (n : Nat) : 0 ≤ correlationAt s w n := norm_nonneg _

section
variable {s : State} (hs : ModeOk s) {w X : List Cx} (hX : IsSpectrum s w X)
include hs hX

theorem norm_correlation {n : Nat} (hn : n < (mode s).tU) :
    ‖cxVal (order s) ((correlation s X).getD n [])‖ = correlationAt s w n := by
  obtain ⟨hlen, hval⟩ := hX
  have href := ref_length hs
  rw [correlation, cxVal_idft (order_pos hs) (tU_dvd_order hs) _ (by simp [conjMul_length, hlen, href]) hn, inverseAt,
    correlationAt]
  congr 2
  refine Finset.sum_congr rfl fun k hk => ?_
  have hk := Finset.mem_range.1 hk
  rw [conjMul_getD _ (hlen ▸ hk) (href ▸ hk), cxVal_mul (order_pos hs), cxVal_conj (order_pos hs), hval k hk]

theorem cxVal_squaredMagnitudes {n : Nat} (hn : n < (mode s).tU) :
    cxVal (order s) ((squaredMagnitudes s X).getD n []) = ((correlationAt s w n ^ 2 : ℝ) : ℂ) := by
  have hnil : cxNormSq (order s) [] = [] := rfl
  rw [squaredMagnitudes, ← hnil, List.getD_map, cxVal_normSq (order_pos hs), norm_correlation hs hX hn]

theorem magVal_sqrt_squaredMagnitudes {n : Nat} (hn : n < (mode s).tU) :
    magVal (order s) (magSqrt ((squaredMagnitudes s X).getD n [])) = correlationAt s w n := by
  rw [magVal_sqrt, cxVal_squaredMagnitudes hs hX hn, Complex.ofReal_re, Real.sqrt_sq (correlationAt_nonneg s w n)]

theorem magVal_sum_squaredMagnitudes :
    magVal (order s) (magSum ((squaredMagnitudes s X).map magSqrt)) =
      ∑ n ∈ Finset.range (mode s).tU, correlationAt s w n := by
  rw [magVal_sum, List.map_map, sum_map_eq_sum_range _ _ [], squaredMagnitudes_length]
  exact Finset.sum_congr rfl fun n hn => magVal_sqrt_squaredMagnitudes hs hX (Finset.mem_range.1 hn)

/-! ## The peak -/

/-- `nmax` and its squared magnitude (R142, R143). -/
theorem peak_spec :
    ∃ n, peak s (squaredMagnitudes s X) = (n, (squaredMagnitudes s X).getD n []) ∧ n < (mode s).tU ∧
      IsPeak s w n := by
  obtain ⟨n, he, hmem, hbest⟩ := firstBestOf_keys (val := fun a => (cxVal (order s) a).re)
    (cxSignRe_sub_neg_iff (order_exact hs)) (fun n => (squaredMagnitudes s X).getD n []) (0, [])
    (searchLags_ne_nil (mode s)) (searchLags_rising (mode s))
  obtain ⟨hWG, hGU⟩ := searchW_bounds hs
  have hre {j : Nat} (hj : j ∈ searchLags (mode s)) :
      (cxVal (order s) ((squaredMagnitudes s X).getD j [])).re = correlationAt s w j ^ 2 := by
    have hjU : j < (mode s).tU := by have := (mem_searchLags hs j).1 hj; omega
    rw [cxVal_squaredMagnitudes hs hX hjU, Complex.ofReal_re]
  have hn := (mem_searchLags hs n).1 hmem
  refine ⟨n, he, by omega, ⟨by omega, by omega⟩, fun j hlo hhi => ?_⟩
  lift j to Nat using by omega
  have hj : j ∈ searchLags (mode s) := (mem_searchLags hs j).2 ⟨by omega, by omega⟩
  obtain ⟨hle, hlt⟩ := hbest j hj
  simp only [hre hj, hre hmem] at hle hlt
  have hsq := pow_lt_pow_iff_left₀ (correlationAt_nonneg s w j) (correlationAt_nonneg s w n) two_ne_zero
  have hsq' := pow_le_pow_iff_left₀ (correlationAt_nonneg s w j) (correlationAt_nonneg s w n) two_ne_zero
  simp only [Int.toNat_natCast]
  exact ⟨hsq'.1 hle, fun h => hsq.1 (hlt (by omega))⟩

/-! ## The two conditions of `NoSync` -/

theorem cxSignRe_squaredMagnitudes_zero_iff {n : Nat} (hn : n < (mode s).tU) :
    cxSignRe (order s) ((squaredMagnitudes s X).getD n []) = 0 ↔ correlationAt s w n = 0 := by
  rw [cxSignRe_eq _ (order_exact hs), sgn_zero_iff, cxVal_squaredMagnitudes hs hX hn, Complex.ofReal_re,
    sq_eq_zero_iff]

theorem all_squaredMagnitudes_zero_iff :
    (squaredMagnitudes s X).all (fun a => decide (cxSignRe (order s) a = 0)) = true ↔ correlationMean s w = 0 := by
  have hU : ((mode s).tU : ℝ) ≠ 0 := by exact_mod_cast (tU_pos hs).ne'
  rw [correlationMean, div_eq_zero_iff, or_iff_left hU,
    Finset.sum_eq_zero_iff_of_nonneg fun n _ => correlationAt_nonneg s w n]
  simp only [List.all_eq_true, List.forall_mem_iff_getElem, squaredMagnitudes_length, decide_eq_true_iff,
    Finset.mem_range]
  refine forall₂_congr fun n hn => ?_
  rw [← List.getD_eq_getElem _ [], cxSignRe_squaredMagnitudes_zero_iff hs hX hn]

theorem noSync_iff (thr : Nat) {n : Nat} (hn : n < (mode s).tU)
    (hpeak : peak s (squaredMagnitudes s X) = (n, (squaredMagnitudes s X).getD n [])) :
    noSync s thr (squaredMagnitudes s X) = true ↔
      correlationMean s w = 0 ∨ correlationAt s w n < (thr : ℝ) * correlationMean s w := by
  have hU : (0 : ℝ) < (mode s).tU := by exact_mod_cast tU_pos hs
  rw [noSync, Bool.or_eq_true, all_squaredMagnitudes_zero_iff hs hX, magLt_iff _ (order_pos hs), magVal_scaleRat,
    magVal_scaleRat, hpeak, magVal_sqrt_squaredMagnitudes hs hX hn, magVal_sum_squaredMagnitudes hs hX]
  refine or_congr_right ?_
  rw [correlationMean, ← mul_div_assoc, lt_div_iff₀ hU, mul_comm (correlationAt s w n)]
  push_cast
  rfl

end

/-! ## The operation -/

theorem exec_findb (thr : Nat) (s : State) : exec (.findb thr) s = hostUnit (.findb thr) (opFindb thr) s := rfl

section
variable {s : State} {thr : Nat} {w : List Cx} (hw : w.length = (mode s).tU) (hheld : Holds s.win 0 w)
include hw hheld

theorem opFindb_written : opFindb thr s =
    let t := { s with spec := bufOf 0 (sliceDft s w) }
    let sq := squaredMagnitudes s (sliceDft s w)
    if noSync s thr sq then .done t .fail 0 else .done t .ok (BitVec.ofNat 32 (peak s sq).1) := by
  have hslice : winSlice s 0 = some w := (bufReadRange_eq_some _ _ _ _).2 ⟨hw, hheld⟩
  rw [opFindb, hslice]
  rfl

theorem opFindb_fail (hno : noSync s thr (squaredMagnitudes s (sliceDft s w)) = true) :
    opFindb thr s = .done { s with spec := bufOf 0 (sliceDft s w) } .fail 0 :=
  (opFindb_written hw hheld).trans (if_pos hno)

theorem opFindb_ok (hno : ¬ noSync s thr (squaredMagnitudes s (sliceDft s w)) = true) :
    opFindb thr s = .done { s with spec := bufOf 0 (sliceDft s w) } .ok
      (BitVec.ofNat 32 (peak s (squaredMagnitudes s (sliceDft s w))).1) :=
  (opFindb_written hw hheld).trans (if_neg hno)

end

/-! ## An all-zero window -/

theorem rootSum_zeros (M N k n len : Nat) : rootSum M N k n (List.replicate len []) = [] := by
  induction len generalizing n with
  | zero => rfl
  | succ len ih => rw [List.replicate_succ, rootSum, ih]; rfl

theorem dft_zeros (M N len : Nat) : dft M N (List.replicate len []) = List.replicate N [] := by
  simp [dft, rootSum_zeros]

theorem idft_zeros (M N len : Nat) : idft M N (List.replicate len []) = List.replicate N [] := by
  simp [idft, rootSum_zeros, cxScale]

theorem conjMul_zeros (M : Nat) (b : List Cx) : conjMul M (List.replicate b.length []) b = List.replicate b.length [] := by
  induction b with
  | nil => rfl
  | cons z b ih => exact congrArg (List.cons []) ih

theorem map_cxNormSq_zeros (M N : Nat) : (List.replicate N ([] : Cx)).map (cxNormSq M) = List.replicate N [] :=
  List.map_replicate

section
variable {s : State} (hs : ModeOk s)
include hs

theorem conjMul_ref_zeros :
    conjMul (order s) (List.replicate (mode s).tU []) (mode s).ref = List.replicate (mode s).tU [] := by
  rw [← ref_length hs, conjMul_zeros]

theorem correlation_zeros : correlation s (List.replicate (mode s).tU []) = List.replicate (mode s).tU [] := by
  rw [correlation, conjMul_ref_zeros hs, idft_zeros]

theorem noSync_zeros (thr : Nat) : noSync s thr (List.replicate (mode s).tU []) = true := by
  have hzero : cxSignRe (order s) [] = 0 := by rw [cxSignRe_eq _ (order_exact hs), cxVal, cxAt_nil]; simp
  simp [noSync, hzero]

end

/-! ## The obligations -/

/-- Settles O27: the search is over squares, which are ordered as the magnitudes are, and the mean is compared after both
sides are multiplied by `T_u`. -/
theorem findbResult : Obligations.FindbResult := by
  unfold Obligations.FindbResult
  intro s thr w hs hrun hw hheld
  have hX := sliceDft_isSpectrum hs hw
  obtain ⟨n, hpeak, hn, hisPeak⟩ := peak_spec hs hX
  have hno := noSync_iff hs hX thr hn hpeak
  rw [exec_findb]
  refine ⟨sliceDft s w, n, hX, hisPeak, fun hfail => ?fail, fun hmean hthr => ?ok⟩
  case fail => exact hostUnit_done _ _ _ _ _ _ hrun (opFindb_fail hw hheld (hno.2 hfail))
  case ok =>
    have hok := opFindb_ok hw hheld (mt hno.1 (not_or.2 ⟨hmean, hthr.not_gt⟩))
    rw [hpeak] at hok
    exact hostUnit_done _ _ _ _ _ _ hrun hok

/-- Settles O28: every sum and product of the empty form is the empty form. -/
theorem findbAllZero : Obligations.FindbAllZero := by
  unfold Obligations.FindbAllZero
  intro s thr hs hrun hheld
  have hcorr := correlation_zeros hs
  have hsq := map_cxNormSq_zeros (order s) (mode s).tU
  have hdft : sliceDft s (List.replicate (mode s).tU []) = List.replicate (mode s).tU [] := dft_zeros _ _ _
  refine ⟨conjMul_ref_zeros hs, hcorr, hsq, ?_⟩
  have hfail := opFindb_fail (thr := thr) (by simp) hheld
    (by rw [hdft, squaredMagnitudes, hcorr, hsq]; exact noSync_zeros hs thr)
  rw [hdft] at hfail
  exact hostUnit_done _ _ _ _ _ _ hrun hfail

end Sys2Proof.Proofs
end

section
/-! PROOF. The command `ESTCO` (`41_phase_reference.md` R148 to R150): what its sums of arguments stand for, the first
best of the trial shifts, and with them `EstcoResult`. -/

open Sys2Proof Sys2Proof.Machine Sys2Proof.Laws

namespace Sys2Proof.Proofs

/-! ## Arguments -/

theorem arg_upperHalf {M : Nat} (hE : Exact M) (z : Cx) :
    Complex.arg (cxVal M (upperHalf M z)) = |Complex.arg (cxVal M z)| := by
  have hsign : cxSignIm M z < 0 ↔ (cxVal M z).im < 0 := by rw [cxSignIm_eq M hE, sgn_neg_iff]
  by_cases him : (cxVal M z).im < 0
  · have harg : Complex.arg (cxVal M z) < 0 := Complex.arg_neg_iff.2 him
    have hpi : Complex.arg (cxVal M z) ≠ Real.pi := (harg.trans Real.pi_pos).ne
    rw [upperHalf, if_pos (hsign.2 him), exact_conj hE, Complex.arg_conj, if_neg hpi, abs_of_neg harg]
  · rw [upperHalf, if_neg (him ∘ hsign.1), abs_of_nonneg (Complex.arg_nonneg_iff.2 (not_lt.1 him))]

theorem angleVal_absArg {M : Nat} (hE : Exact M) (z : Cx) :
    angleVal M (angleAbsArg M z) = |Complex.arg (cxVal M z)| := by
  rw [angleAbsArg, angleArg, angleVal_dir, direction_arg M hE, arg_upperHalf hE]

/-! ## The pattern sets -/

theorem zeroPairs_nodup (M : Nat) (m : Mode) : (zeroPairs M m).Nodup := List.nodup_range.filter _

theorem piPairs_nodup (M : Nat) (m : Mode) : (piPairs M m).Nodup := List.nodup_range.filter _

theorem eq_toFinset {l : List Nat} {P : Finset Nat} (h : ∀ j, j ∈ l ↔ j ∈ P) : P = l.toFinset :=
  Finset.ext fun j => by rw [List.mem_toFinset, h]

theorem nonempty_iff_ne_nil {l : List Nat} {P : Finset Nat} (h : ∀ j, j ∈ l ↔ j ∈ P) : P.Nonempty ↔ l ≠ [] := by
  rw [eq_toFinset h, List.toFinset_nonempty_iff]

/-! ## The trial shifts -/

theorem mem_trialShifts (m : Mode) (t : Int) : t ∈ trialShifts m ↔ -(m.coRange : Int) ≤ t ∧ t ≤ m.coRange := by
  simp only [trialShifts, List.mem_map, List.mem_range]
  exact ⟨by rintro ⟨j, hj, rfl⟩; omega, fun h => ⟨(t + m.coRange).toNat, by omega, by omega⟩⟩

theorem trialShifts_rising (m : Mode) : (trialShifts m).Pairwise (· < ·) :=
  List.pairwise_lt_range.map _ fun _ _ h => by omega

theorem trialShifts_ne_nil (m : Mode) : trialShifts m ≠ [] := by simp [trialShifts]

/-- The first best of the shifts, by what the comparison of their sums stands for. -/
theorem isFirstMax_shiftSums (s : State) (X : List Cx) (pairs : List Nat) {lt : Angle → Angle → Bool}
    {val : Angle → ℝ} (hlt : ∀ a b, lt a b = true ↔ val a < val b) :
    IsFirstMax (-((mode s).coRange : Int)) (mode s).coRange (fun t => val (shiftSum s X pairs t))
      (firstBestOf lt (0, angleZero) (shiftSums s X pairs)).1 := by
  obtain ⟨t, he, hmem, hbest⟩ := firstBestOf_keys hlt (shiftSum s X pairs) (0, angleZero)
    (trialShifts_ne_nil (mode s)) (trialShifts_rising (mode s))
  rw [shiftSums, he]
  exact ⟨(mem_trialShifts _ t).1 hmem, fun j hlo hhi => hbest j ((mem_trialShifts _ j).2 ⟨hlo, hhi⟩)⟩

/-! ## The sums -/

section
variable {s : State} (hs : ModeOk s) {w X : List Cx} (hX : IsSpectrum s w X)
include hs

theorem carrierBin_lt (k : Int) : carrierBin (mode s) k < (mode s).tU := by
  have hU := tU_pos hs
  have hnonneg := Int.emod_nonneg k (show ((mode s).tU : Int) ≠ 0 by omega)
  have hlt := Int.emod_lt_of_pos k (show (0 : Int) < (mode s).tU by omega)
  rw [carrierBin]
  omega

include hX

theorem angleVal_phaseStep (t : Int) (j : Nat) :
    angleVal (order s) (phaseStep s X t j) = phaseStepAt s w t j := by
  obtain ⟨-, hval⟩ := hX
  have hE := order_exact hs
  rw [phaseStep, angleVal_absArg hE, exact_mul hE, exact_conj hE, hval _ (carrierBin_lt hs _),
    hval _ (carrierBin_lt hs _)]
  rfl

theorem angleVal_shiftSum {pairs : List Nat} (hnodup : pairs.Nodup) {P : Finset Nat} (hP : ∀ j, j ∈ pairs ↔ j ∈ P)
    (t : Int) : angleVal (order s) (shiftSum s X pairs t) = ∑ j ∈ P, phaseStepAt s w t j := by
  rw [shiftSum, angleSum_val _ (order_exact hs), List.map_map, eq_toFinset hP, List.sum_toFinset _ hnodup]
  exact congrArg List.sum (List.map_congr_left fun j _ => angleVal_phaseStep hs hX t j)

/-- `t0` (R148). -/
theorem bestZero_isFirstMax : IsFirstMax (-((mode s).coRange : Int)) (mode s).coRange
    (fun t => -∑ j ∈ zeroSet s, phaseStepAt s w t j) (bestZero s X) := by
  have hE := order_exact hs
  simp only [← angleVal_shiftSum hs hX (zeroPairs_nodup _ _) (mem_zeroPairs s hs hE)]
  exact isFirstMax_shiftSums s X _ (val := fun a => -angleVal (order s) a) fun a b => by
    rw [angleLt_iff _ hE, neg_lt_neg_iff]

/-- `tp` (R148). -/
theorem bestPi_isFirstMax : IsFirstMax (-((mode s).coRange : Int)) (mode s).coRange
    (fun t => ∑ j ∈ piSet s, phaseStepAt s w t j) (bestPi s X) := by
  have hE := order_exact hs
  simp only [← angleVal_shiftSum hs hX (piPairs_nodup _ _) (mem_piPairs s hs hE)]
  exact isFirstMax_shiftSums s X _ (angleLt_iff _ hE)

/-- The shift that `ESTCO` finds is the one that both patterns agree on. -/
theorem carrierShift_eq_some_iff (t : Int) : carrierShift s X = some t ↔ IsShift s w t := by
  have hE := order_exact hs
  have hzero := bestZero_isFirstMax hs hX
  have hpi := bestPi_isFirstMax hs hX
  rw [IsShift, nonempty_iff_ne_nil (mem_zeroPairs s hs hE), nonempty_iff_ne_nil (mem_piPairs s hs hE), carrierShift]
  constructor
  · intro h
    split_ifs at h with hempty hbest
    obtain rfl := Option.some.inj h
    obtain ⟨hZ, hP⟩ := not_or.1 hempty
    exact ⟨hZ, hP, hzero, hbest ▸ hpi⟩
  · rintro ⟨hZ, hP, hz, hp⟩
    rw [if_neg (not_or.2 ⟨hZ, hP⟩), isFirstMax_unique hzero hz, isFirstMax_unique hpi hp, if_pos rfl]

end

/-! ## The operation -/

theorem exec_estco (off : Nat) (s : State) : exec (.estco off) s = hostUnit (.estco off) (opEstco off) s := rfl

section
variable {s : State} {off : Nat} {w : List Cx} (hle : off + (mode s).tU ≤ (mode s).tS)
  (hw : w.length = (mode s).tU) (hheld : Holds s.win off w)
include hle hw hheld

theorem opEstco_some {k : Int} (hk : carrierShift s (sliceDft s w) = some k) :
    opEstco off s = .done { s with spec := bufOf 0 (sliceDft s w) } .ok (word32 k) := by
  rw [opEstco, onSlice_written s off _ w hle hw hheld]
  simp only [hk]

theorem opEstco_none (hk : carrierShift s (sliceDft s w) = none) :
    opEstco off s = .done { s with spec := bufOf 0 (sliceDft s w) } .fail 0 := by
  rw [opEstco, onSlice_written s off _ w hle hw hheld]
  simp only [hk]

end

theorem opEstco_leaves {s : State} {off : Nat} (h : (mode s).tS < off + (mode s).tU) :
    opEstco off s = .done s .illegal 0 := onSlice_leaves h _

/-! ## The obligation -/

/-- Settles O29: the smallest best shift of a pattern is unique, so the two agree exactly where one shift is the best of
both. -/
theorem estcoResult : Obligations.EstcoResult := by
  unfold Obligations.EstcoResult
  intro s off hs hrun
  rw [exec_estco]
  refine ⟨fun w hle hw hheld => ?written, fun hleaves => ?leaves⟩
  case written =>
    have hX := sliceDft_isSpectrum hs hw
    have hshift := carrierShift_eq_some_iff hs hX
    refine ⟨sliceDft s w, hX, fun k hk => ?some, fun hnone => ?none⟩
    case some => exact hostUnit_done _ _ _ _ _ _ hrun (opEstco_some hle hw hheld ((hshift k).2 hk))
    case none =>
      have hno := Option.eq_none_iff_forall_ne_some.2 fun k hk => hnone k ((hshift k).1 hk)
      exact hostUnit_done _ _ _ _ _ _ hrun (opEstco_none hle hw hheld hno)
  case leaves => exact hostUnit_done _ _ _ _ _ _ hrun (opEstco_leaves hleaves)

end Sys2Proof.Proofs
end

section
/-! PROOF. The commands `PRIME` and `DECSYM` (`42_ofdm_decoder.md` R163 to R165): the carriers' bins, the products with
the previous spectrum, the soft vector, and with them `PrimeResult` and `DecsymResult`. -/

open Sys2Proof Sys2Proof.Machine Sys2Proof.Laws

namespace Sys2Proof.Proofs

/-! ## `PRIME` (R163) -/

theorem opPrime_written {s : State} {off : Nat} {w : List Cx} (hle : off + (mode s).tU ≤ (mode s).tS)
    (hw : w.length = (mode s).tU) (hheld : Holds s.win off w) :
    opPrime off s = .done { s with
      spec := bufOf 0 (sliceDft s w), prev := bufOf 0 (sliceDft s w), prevValid := true } .ok 0 :=
  onSlice_written s off _ w hle hw hheld

theorem opPrime_leaves {s : State} {off : Nat} (h : (mode s).tS < off + (mode s).tU) :
    opPrime off s = .done s .illegal 0 := onSlice_leaves h _

theorem exec_prime (off : Nat) (s : State) : exec (.prime off) s = hostUnit (.prime off) (opPrime off) s := rfl

/-- Settles O30: a written slice is transformed into `SPEC` and `PREV`, and a slice that leaves `WIN` is refused before it
is read. -/
theorem primeResult : Obligations.PrimeResult := by
  unfold Obligations.PrimeResult
  intro s off hs hrun
  rw [exec_prime]
  refine ⟨fun w hle hw hheld => ⟨sliceDft s w, sliceDft_isSpectrum hs hw, ?written⟩, fun hleaves => ?leaves⟩
  case written => exact hostUnit_done _ _ _ _ _ _ hrun (opPrime_written hle hw hheld)
  case leaves => exact hostUnit_done _ _ _ _ _ _ hrun (opPrime_leaves hleaves)

/-! ## The carriers' bins (R161, `20_memory.md` R62) -/

theorem perm_length {s : State} (hs : ModeOk s) : (mode s).perm.length = (mode s).carriers := by
  have hwf := mode_wf hs
  simp only [modeWf, permWf, Bool.and_eq_true, decide_eq_true_iff] at hwf
  obtain ⟨⟨⟨⟨⟨⟨⟨-, ⟨hlen, -⟩, -⟩, -⟩, -⟩, -⟩, -⟩, -⟩, -⟩ := hwf
  exact hlen

theorem carrierBins_length {s : State} (hs : ModeOk s) : (carrierBins (mode s)).length = (mode s).carriers := by
  rw [carrierBins, List.length_map, perm_length hs]

theorem carrierBins_lt {s : State} (hs : ModeOk s) : ∀ b ∈ carrierBins (mode s), b < (mode s).tU := by
  intro b hb
  obtain ⟨k, -, rfl⟩ := List.mem_map.1 hb
  exact carrierBin_lt hs k

/-! ## The products with the previous spectrum (R164) -/

/-- Elements of a buffer that holds a list, read one by one. -/
theorem bufReadAll_of_holds {α : Type} {b : Buf α} {v : List α} (hheld : Holds b 0 v) (d : α) {l : List Nat}
    (hl : ∀ a ∈ l, a < v.length) : bufReadAll b l = some (l.map (v.getD · d)) := by
  induction l with
  | nil => rfl
  | cons a l ih =>
    obtain ⟨ha, hl⟩ := List.forall_mem_cons.1 hl
    have hread : bufRead b a = some (v.getD a d) := by
      rw [← Nat.zero_add a, hheld a ha, Nat.zero_add, List.getElem?_eq_getElem ha, List.getD_eq_getElem _ _ ha]
    rw [bufReadAll, hread, ih hl, List.map_cons]

/-- The products at the carriers' bins of a spectrum and the conjugate of the spectrum before it. -/
def carrierProducts (s : State) (X p : List Cx) : List Cx :=
  (carrierBins (mode s)).map fun b => cxMul (order s) (X.getD b []) (cxConj (order s) (p.getD b []))

theorem products_eq (s : State) (X p : List Cx) :
    products s X ((carrierBins (mode s)).map (p.getD · [])) = carrierProducts s X p := by
  rw [products, List.zipWith_map_right, List.zipWith_self, carrierProducts]

theorem carrierProducts_length {s : State} (hs : ModeOk s) (X p : List Cx) :
    (carrierProducts s X p).length = (mode s).carriers := by rw [carrierProducts, List.length_map, carrierBins_length hs]

theorem carrierProducts_getD {s : State} (hs : ModeOk s) (X p : List Cx) {i : Nat} (hi : i < (mode s).carriers) :
    (carrierProducts s X p).getD i [] =
      cxMul (order s) (X.getD (carrierBin (mode s) ((mode s).perm.getD i 0)) [])
        (cxConj (order s) (p.getD (carrierBin (mode s) ((mode s).perm.getD i 0)) [])) := by
  have hperm : i < (mode s).perm.length := by rwa [perm_length hs]
  simp [carrierProducts, carrierBins, hperm]

/-! ## The soft vector (R165) -/

theorem softVector_length (M : Nat) (r : List Cx) : (softVector M r).length = 2 * r.length := by
  simp [softVector]
  omega

section
variable (M : Nat) {r : List Cx} {i : Nat} (hi : i < r.length)
include hi

theorem softVector_getD_re : (softVector M r).getD i 0 = softBit M (cxRe M (r.getD i [])) (r.getD i []) := by
  rw [softVector, List.getD_append _ _ _ _ (by simpa using hi)]
  simp [hi]

theorem softVector_getD_im :
    (softVector M r).getD (r.length + i) 0 = softBit M (cxIm M (r.getD i [])) (r.getD i []) := by
  rw [softVector, List.getD_append_right _ _ _ _ (by simp)]
  simp [hi]

end

/-! ## `DECSYM` (R164, R165) -/

section
variable {s : State} {off : Nat}

/-- The operation on a written slice after a written spectrum. -/
theorem opDecsym_written (hs : ModeOk s) {w p : List Cx} (hle : off + (mode s).tU ≤ (mode s).tS)
    (hvalid : s.prevValid = true) (hw : w.length = (mode s).tU) (hwin : Holds s.win off w)
    (hp : p.length = (mode s).tU) (hprev : Holds s.prev 0 p) :
    opDecsym off s = .done { s with
      spec := bufOf 0 (sliceDft s w), prev := bufOf 0 (sliceDft s w)
      soft := bufOf 0 (softVector (order s) (carrierProducts s (sliceDft s w) p)) } .ok 0 := by
  have hslice : winSlice s off = some w := (bufReadRange_eq_some _ _ _ _).2 ⟨hw, hwin⟩
  have hread := bufReadAll_of_holds hprev [] (hp ▸ carrierBins_lt hs)
  rw [opDecsym, if_neg (by simpa [sliceLeaves] using hle), if_neg (by simp [hvalid])]
  simp only [hslice, hread, products_eq]

theorem opDecsym_refused (h : (mode s).tS < off + (mode s).tU ∨ s.prevValid = false) :
    opDecsym off s = .done s .illegal 0 := by
  rcases h with hleaves | hinvalid
  · simp [opDecsym, sliceLeaves, hleaves]
  · simp [opDecsym, hinvalid]

end

theorem exec_decsym (off : Nat) (s : State) : exec (.decsym off) s = hostUnit (.decsym off) (opDecsym off) s := rfl

/-- Settles O31: `PREV` is read at the bins of the permuted carriers, which lie in it, and the two halves of the soft
vector follow the list of the products. -/
theorem decsymResult : Obligations.DecsymResult := by
  unfold Obligations.DecsymResult
  intro s off hs hrun
  rw [exec_decsym]
  refine ⟨fun w p hle hvalid hw hwin hp hprev => ?written, fun hguard => ?refused⟩
  case refused => exact hostUnit_done _ _ _ _ _ _ hrun (opDecsym_refused hguard)
  case written =>
    have hlen := carrierProducts_length hs (sliceDft s w) p
    refine ⟨sliceDft s w, carrierProducts s (sliceDft s w) p, _, sliceDft_isSpectrum hs hw, hlen,
      by rw [softVector_length, hlen], fun i hi => ?carrier,
      hostUnit_done _ _ _ _ _ _ hrun (opDecsym_written hs hle hvalid hw hwin hp hprev)⟩
    have hi' : i < (carrierProducts s (sliceDft s w) p).length := hlen ▸ hi
    exact ⟨carrierProducts_getD hs _ _ hi, softVector_getD_re _ hi', hlen ▸ softVector_getD_im _ hi'⟩

end Sys2Proof.Proofs
end

section
/-! PROOF. The soft bits of a product (`42_ofdm_decoder.md` R166, R168): their range, the search for their magnitude, the
truncated quotient they are, and with them `SoftBitValues`. -/

open Sys2Proof Sys2Proof.Machine Sys2Proof.Laws

namespace Sys2Proof.Proofs

/-! ## The range, whatever the product -/

theorem foldl_bits_le (p : Nat → Nat → Prop) [∀ k b, Decidable (p k b)] (bits : List Nat) (k : Nat) :
    bits.foldl (fun k b => if p k b then k + b else k) k ≤ k + bits.sum := by
  induction bits generalizing k with
  | nil => simp
  | cons b bits ih =>
    rw [List.foldl_cons, List.sum_cons]
    split
    · exact (ih (k + b)).trans (by omega)
    · exact (ih k).trans (by omega)

theorem softMagnitude_le (M : Nat) (x2 r2 : Cx) : softMagnitude M x2 r2 ≤ 127 := foldl_bits_le _ _ 0

theorem softBit_inRange (M : Nat) (x r : Cx) : InSoftRange (softBit M x r) := by
  have hmag := softMagnitude_le M (cxMul M x x) (cxNormSq M r)
  have hsign : cxSignRe M x ∈ [(-1 : Int), 0, 1] := reSign_range M _
  simp only [List.mem_cons, List.not_mem_nil, or_false] at hsign
  rw [softBit, InSoftRange]
  split
  · decide
  · change (-127 : Int) ≤ _ ∧ (_ : Int) ≤ 127
    rcases hsign with h | h | h <;> rw [h] <;> omega

theorem softBit_nil (M : Nat) (x : Cx) : softBit M x [] = 0 := by
  have hre : cxRe M (cxNormSq M []) = [] := by simp [cxNormSq, cxMul, cxRe, cxConj, cxAdd, cxScale]
  have hsign : cxSignRe M (cxNormSq M []) = 0 := by
    rw [cxSignRe, hre]
    simp [reSign, cxPure, cxAtZero, cycSign, cycRat?, ratSign]
  rw [softBit, if_pos hsign]

/-! ## The magnitude (R166) -/

theorem cxVal_sub (M : Nat) (a b : Cx) : cxVal M (cxSub a b) = cxVal M a - cxVal M b := cxAt_sub _ M a b

/-- Bit by bit from the largest, the search finds every number of 7 bits. -/
theorem foldl_bits_eq : ∀ n < 128,
    [64, 32, 16, 8, 4, 2, 1].foldl (fun k b => if k + b ≤ n then k + b else k) 0 = n := by decide

/-- `⌊127 · |x| / R⌋`, the magnitude of a soft bit. -/
noncomputable def softFloor (x R : ℝ) : Nat := ⌊127 * |x| / R⌋₊

theorem le_softFloor_iff {x R : ℝ} (hR : 0 < R) (n : Nat) : n ≤ softFloor x R ↔ (n * R) ^ 2 ≤ (127 * x) ^ 2 := by
  rw [softFloor, Nat.le_floor_iff (by positivity), le_div_iff₀ hR, sq_le_sq, abs_mul, abs_mul, Nat.abs_cast,
    abs_of_pos hR, abs_of_pos (by norm_num : (0 : ℝ) < 127)]

/-- The soft bit of the part `x` of a product of modulus `R`. -/
noncomputable def softPart (x R : ℝ) : Int := -(SignType.sign x : Int) * softFloor x R

theorem softPart_zero (R : ℝ) : softPart 0 R = 0 := by simp [softPart]

/-- The magnitude matters only where the part is not 0. -/
theorem softPart_of_floor {x R : ℝ} {n : Nat} (h : x ≠ 0 → softFloor x R = n) :
    softPart x R = -(SignType.sign x : Int) * n := by
  rcases eq_or_ne x 0 with rfl | hx
  · simp [softPart]
  · rw [softPart, h hx]

theorem softFloor_lt {x R : ℝ} (hR : 0 < R) (hx : |x| ≤ R) : softFloor x R < 128 := by
  rw [softFloor, Nat.floor_lt (by positivity), div_lt_iff₀ hR]
  push_cast
  linarith

section
variable {M : Nat} (hE : Exact M) {x r : Cx} {a : ℝ} (hx : cxVal M x = a)
include hE hx

/-- The test of the search. -/
theorem softMagnitude_test (hr : cxVal M r ≠ 0) (n : Nat) :
    0 ≤ cxSignRe M (cxSub (cxScale ((Config.softMax * Config.softMax : Nat) : Rat) (cxMul M x x))
      (cxScale ((n * n : Nat) : Rat) (cxNormSq M r))) ↔ n ≤ softFloor a ‖cxVal M r‖ := by
  have hval : cxVal M (cxSub (cxScale ((Config.softMax * Config.softMax : Nat) : Rat) (cxMul M x x))
      (cxScale ((n * n : Nat) : Rat) (cxNormSq M r))) = (((127 * a) ^ 2 - (n * ‖cxVal M r‖) ^ 2 : ℝ) : ℂ) := by
    rw [cxVal_sub, cxVal_scale, cxVal_scale, cxVal_mul hE.1, cxVal_normSq hE.1, hx]
    push_cast
    ring
  rw [cxSignRe_eq M hE, hval, Complex.ofReal_re, ← not_lt, sgn_neg_iff, not_lt, sub_nonneg,
    le_softFloor_iff (norm_pos_iff.2 hr)]

theorem softMagnitude_eq (hr : cxVal M r ≠ 0) (hle : |a| ≤ ‖cxVal M r‖) :
    softMagnitude M (cxMul M x x) (cxNormSq M r) = softFloor a ‖cxVal M r‖ := by
  simp only [softMagnitude, softMagnitude_test hE hx hr]
  exact foldl_bits_eq _ (softFloor_lt (norm_pos_iff.2 hr) hle)

/-- A soft bit, also that of a product of 0. -/
theorem softBit_eq (hle : |a| ≤ ‖cxVal M r‖) :
    softBit M x r = softPart a ‖cxVal M r‖ := by
  have hsign : cxSignRe M (cxNormSq M r) = 0 ↔ cxVal M r = 0 := by
    rw [cxSignRe_eq M hE, cxVal_normSq hE.1, Complex.ofReal_re, sgn_zero_iff, sq_eq_zero_iff, norm_eq_zero]
  by_cases hr : cxVal M r = 0
  · have ha : a = 0 := by simpa [hr] using hle
    rw [softBit, if_pos (hsign.2 hr), ha, softPart_zero]
  · rw [softBit, if_neg (hr ∘ hsign.1), softMagnitude_eq hE hx hr hle, cxSignRe_eq M hE, hx, Complex.ofReal_re,
      softPart]

end

/-! ## The truncated quotient (R166) -/

theorem truncReal_eq (y : ℝ) : truncReal y = (SignType.sign y : Int) * ⌊|y|⌋₊ := by
  rcases lt_trichotomy y 0 with h | rfl | h
  · rw [truncReal, if_neg (not_le.2 h), sign_neg h, abs_of_neg h, Int.natCast_floor_eq_floor (by linarith),
      Int.floor_neg]
    simp
  · simp [truncReal]
  · rw [truncReal, if_pos h.le, sign_pos h, abs_of_pos h, Int.natCast_floor_eq_floor h.le]
    simp

theorem truncReal_quotient (x : ℝ) {R : ℝ} (hR : 0 < R) :
    truncReal (-127 * x / R) = softPart x R := by
  have hsign : SignType.sign (-127 * x / R) = -SignType.sign x := by
    rw [div_eq_mul_inv, sign_mul, sign_mul, sign_pos (inv_pos.2 hR), sign_neg (by norm_num)]
    simp
  have habs : |-127 * x / R| = 127 * |x| / R := by
    rw [abs_div, abs_mul, abs_of_pos hR, abs_neg, abs_of_pos (by norm_num : (0 : ℝ) < 127)]
  rw [truncReal_eq, hsign, habs, softPart, softFloor]
  simp

/-! ## Squares and directions (R168) -/

theorem softFloor_eq {x R : ℝ} (hR : 0 < R) {n : Nat} (hlo : (n * R) ^ 2 ≤ (127 * x) ^ 2)
    (hhi : (127 * x) ^ 2 < ((n + 1 : Nat) * R) ^ 2) : softFloor x R = n :=
  le_antisymm (Nat.lt_succ_iff.1 (not_le.1 fun h => hhi.not_ge ((le_softFloor_iff hR _).1 h)))
    ((le_softFloor_iff hR n).2 hlo)

/-- On an axis. -/
theorem softFloor_axis {x R : ℝ} (hR : 0 < R) (hx : x ^ 2 = R ^ 2) : softFloor x R = 127 := by
  have hsq := pow_pos hR 2
  apply softFloor_eq hR <;> push_cast <;> linarith

/-- Halfway between two axes: `89² ≤ 127² / 2 < 90²`. -/
theorem softFloor_diagonal {x R : ℝ} (hR : 0 < R) (hx : 2 * x ^ 2 = R ^ 2) : softFloor x R = 89 := by
  have hsq := pow_pos hR 2
  apply softFloor_eq hR <;> push_cast <;> linarith

theorem sq_softPart_le (x : ℝ) {R : ℝ} (hR : 0 < R) : ((softPart x R : ℝ) * R) ^ 2 ≤ (127 * x) ^ 2 := by
  have hfloor : ((softFloor x R : ℝ) * R) ^ 2 ≤ (127 * x) ^ 2 := (le_softFloor_iff hR _).1 le_rfl
  rcases lt_trichotomy x 0 with hx | rfl | hx
  · simpa [softPart, hx] using hfloor
  · simp [softPart]
  · simpa [softPart, hx] using hfloor

section
variable (z : ℂ)

theorem sq_norm_eq : ‖z‖ ^ 2 = z.re ^ 2 + z.im ^ 2 := by rw [Complex.sq_norm, Complex.normSq_apply, sq, sq]

theorem sq_softParts_le : softPart z.re ‖z‖ ^ 2 + softPart z.im ‖z‖ ^ 2 ≤ 127 ^ 2 := by
  rcases eq_or_ne z 0 with rfl | hz
  · simp [softPart_zero]
  have hR : 0 < ‖z‖ := norm_pos_iff.2 hz
  have key : (softPart z.re ‖z‖ : ℝ) ^ 2 + (softPart z.im ‖z‖ : ℝ) ^ 2 ≤ 127 ^ 2 := by
    refine le_of_mul_le_mul_right ?_ (pow_pos hR 2)
    calc _ = ((softPart z.re ‖z‖ : ℝ) * ‖z‖) ^ 2 + ((softPart z.im ‖z‖ : ℝ) * ‖z‖) ^ 2 := by ring
      _ ≤ (127 * z.re) ^ 2 + (127 * z.im) ^ 2 := add_le_add (sq_softPart_le z.re hR) (sq_softPart_le z.im hR)
      _ = 127 ^ 2 * ‖z‖ ^ 2 := by rw [sq_norm_eq]; ring
  exact_mod_cast key

end

section
variable {z : ℂ}

theorem softParts_re_axis (him : z.im = 0) :
    softPart z.re ‖z‖ = -(SignType.sign z.re : Int) * 127 ∧ softPart z.im ‖z‖ = 0 := by
  refine ⟨softPart_of_floor fun hre => ?_, him ▸ softPart_zero _⟩
  exact softFloor_axis (norm_pos_iff.2 fun h => hre (by simp [h])) (by simp [sq_norm_eq, him])

theorem softParts_im_axis (hre : z.re = 0) :
    softPart z.re ‖z‖ = 0 ∧ softPart z.im ‖z‖ = -(SignType.sign z.im : Int) * 127 := by
  refine ⟨hre ▸ softPart_zero _, softPart_of_floor fun him => ?_⟩
  exact softFloor_axis (norm_pos_iff.2 fun h => him (by simp [h])) (by simp [sq_norm_eq, hre])

theorem softParts_diagonal (h : z.im ^ 2 = z.re ^ 2) :
    softPart z.re ‖z‖ = -(SignType.sign z.re : Int) * 89 ∧ softPart z.im ‖z‖ = -(SignType.sign z.im : Int) * 89 := by
  constructor <;> refine softPart_of_floor fun hne => softFloor_diagonal (norm_pos_iff.2 fun h => hne (by simp [h])) ?_
  all_goals rw [sq_norm_eq, h]; ring

end

/-! ## The obligation -/

theorem softBit_re {M : Nat} (hE : Exact M) (r : Cx) :
    softBit M (cxRe M r) r = softPart (cxVal M r).re ‖cxVal M r‖ :=
  softBit_eq hE (cxVal_re M hE r) (Complex.abs_re_le_norm _)

theorem softBit_im {M : Nat} (hE : Exact M) (r : Cx) :
    softBit M (cxIm M r) r = softPart (cxVal M r).im ‖cxVal M r‖ :=
  softBit_eq hE (cxVal_im M hE r) (Complex.abs_im_le_norm _)

/-- Settles O32: the search for the magnitude tests squares, which are those of `127 · |x|` and of multiples of `|r|`. -/
theorem softBitValues : Obligations.SoftBitValues := by
  unfold Obligations.SoftBitValues
  refine ⟨fun M x r => ⟨softBit_inRange M x r, softBit_nil M x⟩, fun M r hM h4 => ?_⟩
  have hE : Exact M := ⟨hM, h4, fun a b => ⟨cxVal_mul hM a b, cxVal_conj hM a⟩⟩
  dsimp only
  rw [softBit_re hE, softBit_im hE]
  generalize cxVal M r = z
  refine ⟨?zero, ?quotient, sq_softParts_le z, ?re_pos, ?re_neg, ?im_pos, ?im_neg,
    ?pos_pos, ?neg_pos, ?neg_neg, ?pos_neg⟩
  case zero =>
    rintro rfl
    exact ⟨softPart_zero _, softPart_zero _⟩
  case quotient =>
    intro hz
    have hR : 0 < ‖z‖ := norm_pos_iff.2 hz
    exact ⟨(truncReal_quotient _ hR).symm, (truncReal_quotient _ hR).symm⟩
  case re_pos => exact fun hre him => by simpa [hre] using softParts_re_axis him
  case re_neg => exact fun hre him => by simpa [hre] using softParts_re_axis him
  case im_pos => exact fun hre him => by simpa [him] using softParts_im_axis hre
  case im_neg => exact fun hre him => by simpa [him] using softParts_im_axis hre
  case pos_pos => exact fun hre him => by simpa [hre, him] using softParts_diagonal (z := z) (by rw [him])
  case neg_pos => exact fun hre him => by simpa [hre, him] using softParts_diagonal (z := z) (by rw [him, neg_sq])
  case neg_neg => exact fun hre him => by simpa [hre, him] using softParts_diagonal (z := z) (by rw [him])
  case pos_neg => exact fun hre him => by simpa [hre, him] using softParts_diagonal (z := z) (by rw [him, neg_sq])

end Sys2Proof.Proofs
end

section
/-! PROOF. The soft bits of the state (`42_ofdm_decoder.md` R166, `48_arithmetic_and_control.md` R330): what an operation
leaves, the soft bits in the buffers, and the operations and updates that write them. -/

open Sys2Proof Sys2Proof.Machine Sys2Proof.Laws

namespace Sys2Proof.Proofs

/-! ## What an operation leaves -/

/-- The state an operation ends in, or waits in, has a property. -/
def Leaves (P : State → Prop) : OpRes → Prop
  | .done s _ _ => P s
  | .waits s => P s
  | .fault _ => True

/-- The state an outcome goes on with has a property. -/
def NextHas (P : State → Prop) : Host.Outcome State Fault Refusal → Prop
  | .next s => P s
  | .fault _ => True
  | .refused _ => True

section
variable {P : State → Prop}

theorem nextHas_iff (o : Host.Outcome State Fault Refusal) : NextHas P o ↔ ∀ t, o = .next t → P t := by
  cases o <;> simp [NextHas]

theorem nextHas_seqUnit {op : OpRes} {k : State → Status → Word → State} (hop : Leaves P op)
    (hidle : ∀ s, P s → P (goIdle s)) (hk : ∀ s st v, P s → P (k s st v)) : NextHas P (seqUnit op k) := by
  rw [nextHas_iff]
  intro t ht
  obtain ⟨u, v, rfl, rfl⟩ | ⟨u, st, v, -, rfl, rfl⟩ | rfl := (seqUnit_next op k t).1 ht
  · exact hidle u hop
  · exact hk u st v hop
  · exact hop

theorem leaves_onSlice {s : State} {off : Nat} {k : List Cx → OpRes} (hs : P s) (hk : ∀ w, Leaves P (k w)) :
    Leaves P (onSlice s off k) := by
  obtain ⟨-, h⟩ | ⟨-, ⟨w, -, -, h⟩ | ⟨-, h⟩⟩ := onSlice_cases s off k <;> rw [h]
  · exact hs
  · exact hk w
  · trivial

end

/-- A step that goes on performs its act (log 5, log 22). -/
theorem perform_of_step_next {s t : State} (h : step s = .next t) :
    ∃ u, (u = { s with plan := s.plan.tail } ∨ u = { s with tick := s.tick + 1 }) ∧ perform (nextAct s) u = .next t := by
  cases hc : cfgWf s.cfg with
  | false =>
    rw [step_illFormed s hc] at h
    cases h
  | true =>
    obtain ⟨u, hu, he⟩ := step_eq s hc
    exact ⟨u, hu, he ▸ h⟩

/-! ## Soft bits in buffers -/

/-- Every soft bit of a buffer is in range. -/
def BufInRange (b : Buf Soft) : Prop := ∀ t ∈ b, InSoftRange t.2

/-- Every soft bit of a list is in range. -/
def ListInRange (vs : List Soft) : Prop := ∀ v ∈ vs, InSoftRange v

theorem mem_of_bufRead {α : Type} {b : Buf α} {a : Nat} {v : α} (h : bufRead b a = some v) : (a, v) ∈ b := by
  induction b with
  | nil => cases h
  | cons t b ih =>
    obtain ⟨k, u⟩ := t
    rw [bufRead_cons] at h
    split at h
    case isTrue hk =>
      cases h
      exact hk ▸ List.mem_cons_self
    case isFalse => exact List.mem_cons_of_mem _ (ih h)

theorem listInRange_of_bufReadRange {b : Buf Soft} (hb : BufInRange b) {off n : Nat} {vs : List Soft}
    (h : bufReadRange b off n = some vs) : ListInRange vs := by
  obtain ⟨-, hheld⟩ := (bufReadRange_eq_some _ _ _ _).1 h
  intro v hv
  obtain ⟨j, hj, rfl⟩ := List.mem_iff_getElem.1 hv
  have hread := hheld j hj
  rw [List.getElem?_eq_getElem hj] at hread
  exact hb _ (mem_of_bufRead hread)

theorem bufInRange_bufOf {off : Nat} {vs : List Soft} (hv : ListInRange vs) : BufInRange (bufOf off vs) := by
  intro t ht
  obtain ⟨-, -, hmem⟩ := mem_bufOf _ _ _ ht
  exact hv _ hmem

theorem bufInRange_writeRange {b : Buf Soft} (hb : BufInRange b) (off : Nat) {vs : List Soft} (hv : ListInRange vs) :
    BufInRange (bufWriteRange b off vs) := fun t ht =>
  (mem_bufWriteRange _ _ _ _ ht).elim (hb t) (bufInRange_bufOf hv t)

theorem bufInRange_accWrite {b : Buf Soft} (hb : BufInRange b) (zeroed : Bool) (a : Nat) {v : Soft} (hv : InSoftRange v) :
    BufInRange (accWrite zeroed b a v) := by
  rw [accWrite]
  split
  · exact fun t ht => hb t (List.mem_filter.1 ht).1
  · exact bufInRange_writeRange hb a (List.forall_mem_singleton.2 hv)

theorem bufInRange_depuncture (m : Mode) (zeroed : Bool) {vs : List Soft} (hv : ListInRange vs) {q : Nat} {acc : Buf Soft}
    (hacc : BufInRange acc) : BufInRange (depuncture m zeroed q vs acc) := by
  induction vs generalizing q acc with
  | nil => exact hacc
  | cons v vs ih =>
    obtain ⟨hhead, htail⟩ := List.forall_mem_cons.1 hv
    exact ih htail (bufInRange_accWrite hacc zeroed _ hhead)

theorem listInRange_softVector (M : Nat) (r : List Cx) : ListInRange (softVector M r) := by
  intro v hv
  simp only [softVector, List.mem_append, List.mem_map] at hv
  obtain ⟨z, -, rfl⟩ | ⟨z, -, rfl⟩ := hv <;> exact softBit_inRange _ _ _

theorem cuRecords_inRange {m : Mode} {cif : Buf Soft} (hcif : BufInRange cif) {subs : List Sub} {rs : List CuRecord}
    (h : cuRecords m cif subs = some rs) : ∀ r ∈ rs, ListInRange r.bits := by
  induction subs generalizing rs with
  | nil =>
    cases h
    simp
  | cons e subs ih =>
    rw [cuRecords] at h
    split at h
    case h_1 r rs' hr hrs =>
      cases h
      obtain ⟨v, hread, rfl⟩ := Option.map_eq_some_iff.1 hr
      exact List.forall_mem_cons.2 ⟨listInRange_of_bufReadRange hcif hread, ih hrs⟩
    case h_2 => cases h

/-! ## Operations that write soft bits -/

section
variable {s : State} (hs : SoftOk s)
include hs

theorem softOk_opDecsym (off : Nat) : Leaves SoftOk (opDecsym off s) := by
  obtain ⟨-, hacc, hcif, hfifo, hcu⟩ := id hs
  rw [opDecsym]
  split_ifs
  · exact hs
  · exact hs
  · split
    · trivial
    · trivial
    · exact ⟨bufInRange_bufOf (listInRange_softVector _ _), hacc, hcif, hfifo, hcu⟩

theorem softOk_zeroFic : SoftOk (zeroFic s) := by
  obtain ⟨hsoft, -, hcif, hfifo, hcu⟩ := hs
  exact ⟨hsoft, by simp, hcif, hfifo, hcu⟩

theorem softOk_opFicpush (idx : Nat) : Leaves SoftOk (opFicpush idx s) := by
  rw [opFicpush]
  split
  case isTrue => exact hs
  case isFalse =>
    split
    case h_1 => trivial
    case h_2 v hread =>
      have hv := listInRange_of_bufReadRange hs.1 hread
      have hz : SoftOk (if idx = 0 then zeroFic s else s) := by
        split
        · exact softOk_zeroFic hs
        · exact hs
      obtain ⟨hsoft, hacc, hcif, hfifo, hcu⟩ := hz
      exact ⟨hsoft, bufInRange_depuncture _ _ hv hacc, hcif, hfifo, hcu⟩

theorem softOk_opMscpush (sym : Nat) : Leaves SoftOk (opMscpush sym s) := by
  obtain ⟨hsoft, hacc, hcif, hfifo, hcu⟩ := id hs
  rw [opMscpush]
  split_ifs
  · exact hs
  · exact hs
  · split
    case h_1 => trivial
    case h_2 v hread =>
      have hv := listInRange_of_bufReadRange hsoft hread
      exact ⟨hsoft, hacc, hcif, List.forall_mem_append.2 ⟨hfifo, List.forall_mem_singleton.2 hv⟩, hcu⟩

theorem softOk_placeHead {e : FifoEntry} {r : List FifoEntry} (h : s.fifo = e :: r) : SoftOk (placeHead s e r) := by
  obtain ⟨hsoft, hacc, hcif, hfifo, hcu⟩ := hs
  rw [h] at hfifo
  obtain ⟨hhead, htail⟩ := List.forall_mem_cons.1 hfifo
  exact ⟨hsoft, hacc, bufInRange_writeRange hcif _ hhead, htail, hcu⟩

theorem softOk_opCifpop : Leaves SoftOk (opCifpop s) := by
  rw [opCifpop]
  split
  case h_1 => exact hs
  case h_2 e r hfifo =>
    have ht := softOk_placeHead hs hfifo
    dsimp only
    split_ifs
    · trivial
    · exact ht
    · split
      case h_1 => trivial
      case h_2 rs hrs =>
        obtain ⟨hsoft, hacc, hcif, hfifo, hcu⟩ := ht
        exact ⟨hsoft, hacc, hcif, hfifo, List.forall_mem_append.2 ⟨hcu, cuRecords_inRange hcif hrs⟩⟩
    · exact ht

end

/-! ## Updates of the state -/

section
variable {s : State} (hs : SoftOk s)
include hs

theorem softOk_frameReset : SoftOk (frameReset s) := (softOk_zeroFic hs :)

theorem softOk_startReset : SoftOk (startReset s) := by
  obtain ⟨-, -, -, -, hcu⟩ := hs
  exact ⟨by simp, by simp, by simp, by simp, hcu⟩

theorem softOk_goIdle : SoftOk (goIdle s) := by
  obtain ⟨hsoft, hacc, hcif, -, hcu⟩ := hs
  exact ⟨hsoft, hacc, hcif, by simp, hcu⟩

theorem softOk_forgetBuffers : SoftOk (forgetBuffers s) := by
  obtain ⟨-, -, -, -, hcu⟩ := hs
  exact ⟨by simp, by simp, by simp, by simp, hcu⟩

theorem softOk_raiseEvent (e : EvtRecord) : SoftOk (raiseEvent s e) := by simpa [SoftOk] using hs

theorem softOk_ficWalk (out : List Bool) : SoftOk (ficWalk s out) := by
  refine softOk_raiseEvent ?_ _
  split <;> exact hs

theorem softOk_csrWrite (a : Nat) (d : Word) : SoftOk (csrWrite s a d).1 := by
  obtain ⟨h, -⟩ | ⟨-, ⟨-, -, h⟩ | ⟨-, h⟩ | ⟨-, h⟩ | ⟨-, h⟩ | ⟨-, -, -, ⟨h, -⟩ | h⟩⟩ := csrWrite_cases s a d <;> rw [h]
  iterate 6 exact hs
  exact softOk_forgetBuffers hs

end

end Sys2Proof.Proofs
end

section
/-! PROOF. The operations that write no soft bit keep those of the state in range (`48_arithmetic_and_control.md`
R330). -/

open Sys2Proof Sys2Proof.Machine Sys2Proof.Laws

namespace Sys2Proof.Proofs

section
variable {s : State} (hs : SoftOk s)
include hs

/-! ## Operations that read samples (`46_sync_controller.md` R273) -/

theorem softOk_of_take_samples {n : Nat} {v : List Cx} {t : State} (ht : take n s = .samples v t) : SoftOk t := by
  obtain ⟨-, -, h⟩ | ⟨-, ⟨v', r, -, -, h⟩ | ⟨v', r, -, -, h⟩ | h⟩ := take_cases n s <;> rw [h] at ht <;> cases ht
  exact hs

theorem softOk_of_take_stopped {n : Nat} {t : State} (ht : take n s = .stopped t) : SoftOk t := by
  obtain ⟨-, -, h⟩ | ⟨-, ⟨v', r, -, -, h⟩ | ⟨v', r, -, -, h⟩ | h⟩ := take_cases n s <;> rw [h] at ht <;> cases ht
  · exact hs
  · exact hs

theorem softOk_opLevel (n : Nat) : Leaves SoftOk (opLevel n s) := by
  rw [opLevel]
  split
  case isTrue => exact hs
  case isFalse =>
    cases ht : take n s with
    | samples v t => exact (softOk_of_take_samples hs ht :)
    | stopped t => exact (softOk_of_take_stopped hs ht :)
    | waits => exact hs

theorem softOk_opFill (off n : Nat) : Leaves SoftOk (opFill off n s) := by
  rw [opFill]
  split
  case isTrue => exact hs
  case isFalse =>
    cases ht : take n s with
    | samples v t => exact (softOk_of_take_samples hs ht :)
    | stopped t => exact (softOk_of_take_stopped hs ht :)
    | waits => exact hs

theorem softOk_opSkipnull : Leaves SoftOk (opSkipnull s) := by
  rw [opSkipnull]
  cases ht : take (mode s).tNull s with
  | samples v t =>
    have hok := softOk_of_take_samples hs ht
    dsimp only
    split <;> exact hok
  | stopped t => exact (softOk_of_take_stopped hs ht :)
  | waits => exact hs

theorem softOk_scanLoop (fuel : Nat) (sc : Scan) : Leaves SoftOk (scanLoop fuel sc s) := by
  induction fuel generalizing sc s with
  | zero =>
    rw [scanLoop]
    cases scanTest s sc <;> exact hs
  | succ fuel ih =>
    rw [scanLoop]
    cases scanTest s sc with
    | ends st v => exact hs
    | more sc' =>
      dsimp only
      cases ht : take 1 s with
      | samples v t => exact ih (softOk_of_take_samples hs ht) _
      | stopped t => exact (softOk_of_take_stopped hs ht :)
      | waits => exact hs

theorem softOk_opNullscan : Leaves SoftOk (opNullscan s) := by
  rw [opNullscan]
  cases s.scan with
  | some sc =>
    dsimp only
    split
    · exact hs
    · exact softOk_scanLoop hs _ _
  | none =>
    dsimp only
    cases ht : take (mode s).dipWindow s with
    | samples v t => exact softOk_scanLoop (softOk_of_take_samples hs ht) _ _
    | stopped t => exact (softOk_of_take_stopped hs ht :)
    | waits => exact hs

/-! ## Other operations that write no soft bit -/

theorem softOk_opShift (n : Nat) : Leaves SoftOk (opShift n s) := by
  rw [opShift]
  split_ifs
  · exact hs
  · exact hs
  · cases bufReadRange s.win n ((mode s).tU - n) with
    | none => trivial
    | some vs => exact hs

theorem softOk_opFft (off : Nat) : Leaves SoftOk (opFft off s) := leaves_onSlice hs fun _ => hs

theorem softOk_opPrime (off : Nat) : Leaves SoftOk (opPrime off s) := leaves_onSlice hs fun _ => hs

theorem softOk_opEstco (off : Nat) : Leaves SoftOk (opEstco off s) :=
  leaves_onSlice hs fun w => by
    dsimp only
    split <;> exact hs

theorem softOk_opFindb (thr : Nat) : Leaves SoftOk (opFindb thr s) := by
  rw [opFindb]
  cases winSlice s 0 with
  | none => trivial
  | some w =>
    dsimp only
    split <;> exact hs

theorem softOk_opFcorr : Leaves SoftOk (opFcorr s) := by
  rw [opFcorr]
  split
  · exact hs
  · trivial

theorem softOk_opFtrack : Leaves SoftOk (opFtrack s) := hs

theorem softOk_opFicdec : Leaves SoftOk (opFicdec s) := by
  rw [opFicdec]
  split
  case isTrue => exact hs
  case isFalse =>
    cases ficBlocks s (mode s).nBlk 0 with
    | none => trivial
    | some ys => exact softOk_ficWalk hs _

theorem softOk_opCrc16 (f : Nat) : Leaves SoftOk (opCrc16 f s) := by
  rw [opCrc16]
  split
  case isTrue => exact hs
  case isFalse =>
    cases bufReadRange s.ficOut (Config.fibBits * f) Config.fibBits with
    | none => trivial
    | some fib => exact hs

end

end Sys2Proof.Proofs
end

section
/-! PROOF. The commands, the agents' steps and the environment's acts keep the soft bits of the state in range, and with
this `SoftBitsKept`. -/

open Sys2Proof Sys2Proof.Machine Sys2Proof.Laws

namespace Sys2Proof.Proofs

/-! ## The commands (`30_encoding.md` R90) -/

section
variable {s : State} (hs : SoftOk s)
include hs

theorem softOk_unitOp {i : Instr} {op : OpRes} (ho : unitOp i s = some op) : Leaves SoftOk op := by
  cases i <;> cases ho
  case level n => exact softOk_opLevel hs n
  case nullscan => exact softOk_opNullscan hs
  case fill off n => exact softOk_opFill hs off n
  case shift n => exact softOk_opShift hs n
  case skipnull => exact softOk_opSkipnull hs
  case fft off => exact softOk_opFft hs off
  case findb thr => exact softOk_opFindb hs thr
  case estco off => exact softOk_opEstco hs off
  case prime off => exact softOk_opPrime hs off
  case fcorr => exact softOk_opFcorr hs
  case decsym off => exact softOk_opDecsym hs off
  case ftrack => exact softOk_opFtrack hs
  case ficpush idx => exact softOk_opFicpush hs idx
  case ficdec => exact softOk_opFicdec hs
  case crc16 f => exact softOk_opCrc16 hs f
  case mscpush sym => exact softOk_opMscpush hs sym
  case cifpop => exact softOk_opCifpop hs

theorem softOk_execUnit {i : Instr} {op : OpRes} (ho : unitOp i s = some op) : NextHas SoftOk (exec i s) := by
  have hop := softOk_unitOp hs ho
  rw [exec_of_unitOp ho]
  split
  case isTrue => exact hs
  case isFalse => cases op <;> exact hop

theorem softOk_execStart : NextHas SoftOk (execStart s) := by
  rw [execStart]
  split
  · exact hs
  · exact (softOk_startReset hs :)

theorem softOk_execStop : NextHas SoftOk (execStop s) := by
  rw [execStop]
  split <;> exact hs

theorem softOk_execRdcsr (a : Nat) : NextHas SoftOk (execRdcsr a s) := by
  rw [execRdcsr]
  split <;> exact hs

theorem softOk_execWrcsr (a : Nat) (d : Word) : NextHas SoftOk (execWrcsr a d s) := by
  rw [execWrcsr]
  split <;> exact (softOk_csrWrite hs a d :)

theorem softOk_execSubscribe (sink : BitVec 8) (comp : BitVec 16) (sid : Word) (len addr : Nat) :
    NextHas SoftOk (execSubscribe sink comp sid len addr s) := by
  rw [execSubscribe]
  split_ifs <;> exact hs

theorem softOk_execUnsubscribe (comp : BitVec 16) (sid : Word) : NextHas SoftOk (execUnsubscribe comp sid s) := by
  rw [execUnsubscribe]
  split <;> exact hs

theorem softOk_execControl {i : Instr} (hi : isUnit i = false) : NextHas SoftOk (exec i s) := by
  cases i <;> cases hi
  case start => exact softOk_execStart hs
  case stop => exact softOk_execStop hs
  case rdcsr a => exact softOk_execRdcsr hs a
  case wrcsr a d => exact softOk_execWrcsr hs a d
  case subscribe sink comp sid len addr => exact softOk_execSubscribe hs sink comp sid len addr
  case unsubscribe comp sid => exact softOk_execUnsubscribe hs comp sid
  case resetSubs => exact hs

theorem softOk_exec (i : Instr) : NextHas SoftOk (exec i s) := by
  cases ho : unitOp i s with
  | some op => exact softOk_execUnit hs ho
  | none => exact softOk_execControl hs (by rw [← unitOp_isSome i s, ho]; rfl)

/-! ## The agents' steps (`47_host_commands.md` R320, `46_sync_controller.md` R271, `45_msc_demux.md` R247) -/

theorem softOk_hostStep : NextHas SoftOk (hostStep s) := by
  rw [hostStep]
  split
  case h_1 i _ => exact softOk_exec (s := { s with hostWait := none }) hs i
  case h_2 =>
    split
    case h_1 i rest _ => exact softOk_exec (s := { s with cmd := rest }) hs i
    case h_2 => exact hs
    case h_3 => exact hs

theorem softOk_dmxStep : NextHas SoftOk (dmxStep s) := by
  have hop := softOk_opCifpop hs
  rw [dmxStep]
  split
  case isTrue => exact hs
  case isFalse => cases h : opCifpop s <;> rw [h] at hop <;> exact hop

end

theorem softOk_seqUnit {op : OpRes} {k : State → Status → Word → State} (hop : Leaves SoftOk op)
    (hk : ∀ s st v, SoftOk s → SoftOk (k s st v)) : NextHas SoftOk (seqUnit op k) :=
  nextHas_seqUnit hop (fun _ => softOk_goIdle) hk

theorem softOk_seqThen {op : OpRes} (hop : Leaves SoftOk op) (p : SeqStep) : NextHas SoftOk (seqThen op p) :=
  softOk_seqUnit hop fun _ _ _ hs => hs

section
variable {s : State} (hs : SoftOk s)
include hs

theorem softOk_afterScan (st : Status) (v : Word) : SoftOk (afterScan s st v) := by
  rw [afterScan]
  split_ifs <;> exact hs

theorem softOk_afterVerify (st : Status) (v : Word) : SoftOk (afterVerify s st v) := by
  rw [afterVerify]
  split <;> exact hs

theorem softOk_afterEstco (st : Status) (v : Word) : SoftOk (afterEstco s st v) := by
  rw [afterEstco]
  split <;> exact hs

theorem softOk_afterReverify (st : Status) (v : Word) : SoftOk (afterReverify s st v) := by
  rw [afterReverify]
  split_ifs <;> exact hs

theorem softOk_nextSymbol : SoftOk (nextSymbol s) := by
  rw [nextSymbol]
  split <;> exact hs

theorem softOk_stepF0 : NextHas SoftOk (stepF0 s) := by
  rw [stepF0]
  split
  · exact softOk_goIdle hs
  · exact softOk_seqThen (softOk_opShift (softOk_frameReset hs) _) _

theorem softOk_stepF1 : NextHas SoftOk (stepF1 s) := by
  rw [stepF1]
  split
  · exact hs
  · exact softOk_seqThen (softOk_opFill hs _ _) _

theorem softOk_stepF3 : NextHas SoftOk (stepF3 s) := by
  rw [stepF3]
  split
  · exact hs
  · exact softOk_seqUnit (softOk_opEstco hs 0) fun t st v ht => softOk_afterEstco ht st v

theorem softOk_stepS3 : NextHas SoftOk (stepS3 s) := by
  rw [stepS3]
  split_ifs
  · exact softOk_seqThen (softOk_opFicpush hs _) _
  · exact softOk_goIdle hs
  · exact hs
  · exact softOk_seqThen (softOk_opMscpush hs _) _

theorem softOk_stepS4 : NextHas SoftOk (stepS4 s) := by
  rw [stepS4]
  split_ifs
  · exact softOk_seqUnit (softOk_opFicdec hs) fun _ _ _ ht => softOk_nextSymbol ht
  · exact hs
  · exact softOk_seqUnit (softOk_opCifpop hs) fun _ _ _ ht => softOk_nextSymbol ht
  · exact softOk_nextSymbol hs

theorem softOk_program (p : SeqStep) : NextHas SoftOk (program p s) := by
  cases p with
  | a0 => exact softOk_seqThen (softOk_opLevel hs _) _
  | n0 => exact softOk_seqUnit (softOk_opNullscan hs) fun _ st v ht => softOk_afterScan ht st v
  | v0 => exact softOk_seqThen (softOk_opFill hs _ _) _
  | v1 => exact softOk_seqUnit (softOk_opFindb hs _) fun _ st v ht => softOk_afterVerify ht st v
  | f0 => exact softOk_stepF0 hs
  | f1 => exact softOk_stepF1 hs
  | f2 => exact softOk_seqThen (softOk_opPrime hs _) _
  | f3 => exact softOk_stepF3 hs
  | s0 => exact softOk_seqThen (softOk_opFill hs _ _) _
  | s1 => exact softOk_seqThen (softOk_opFcorr hs) _
  | s2 => exact softOk_seqThen (softOk_opDecsym hs _) _
  | s3 => exact softOk_stepS3 hs
  | s4 => exact softOk_stepS4 hs
  | e0 => exact softOk_seqUnit (softOk_opFtrack hs) fun _ _ _ ht => ht
  | e1 => exact softOk_seqThen (softOk_opSkipnull hs) _
  | e2 => exact softOk_seqThen (softOk_opFill hs _ _) _
  | e3 => exact softOk_seqUnit (softOk_opFindb hs _) fun _ st v ht => softOk_afterReverify ht st v

theorem softOk_seqStep : NextHas SoftOk (seqStep s) := by
  rw [seqStep]
  split
  · exact softOk_program hs _
  · exact hs

theorem softOk_perform (a : Act) : NextHas SoftOk (perform a s) := by
  cases a with
  | host => exact softOk_hostStep hs
  | seq => exact softOk_seqStep hs
  | dmx => exact softOk_dmxStep hs
  | command w => exact hs
  | commandBytes b3 b2 b1 b0 => exact hs
  | sample z => exact hs
  | stopped => exact hs
  | configChanged => exact hs
  | tiiResult main sub => exact hs

end

/-! ## The obligation -/

/-- Settles O53: the soft bits that `DECSYM` makes are in range, and every other write of soft bits copies some that the
state holds. -/
theorem softBitsKept : Obligations.SoftBitsKept := by
  unfold Obligations.SoftBitsKept
  intro s t hs hstep
  obtain ⟨u, hu, hperform⟩ := perform_of_step_next hstep
  have huok : SoftOk u := by rcases hu with rfl | rfl <;> exact hs
  exact (nextHas_iff _).1 (softOk_perform huok _) t hperform

end Sys2Proof.Proofs
end

section
/-! PROOF. The command `FICPUSH` (`43_fic_decoder.md` R183 to R187): the puncture map, the places of a symbol's soft
bits in `FIC_ACC`, and with them `FicpushResult`. -/

open Sys2Proof Sys2Proof.Machine Sys2Proof.Laws

namespace Sys2Proof.Proofs

/-! ## The FIC's geometry in a well-formed mode (`70_reset_and_hazards.md` R388) -/

theorem mode_ficWf {s : State} (hs : ModeOk s) : ficWf (mode s) = true := by
  have hwf := mode_wf hs
  simp only [modeWf, Bool.and_eq_true] at hwf
  obtain ⟨⟨-, hfic⟩, -⟩ := hwf
  exact hfic

theorem pm_length {s : State} (hs : ModeOk s) : (mode s).pm.length = motherLen (mode s) := by
  have hwf := mode_ficWf hs
  simp only [ficWf, Bool.and_eq_true, decide_eq_true_iff] at hwf
  obtain ⟨⟨⟨⟨⟨⟨⟨-, hpm⟩, -⟩, -⟩, -⟩, -⟩, -⟩, -⟩ := hwf
  exact hpm

theorem punctureMap_length {s : State} (hs : ModeOk s) : (punctureMap (mode s)).length = blkIn (mode s) := by
  have hwf := mode_ficWf hs
  simp only [ficWf, Bool.and_eq_true, decide_eq_true_iff] at hwf
  obtain ⟨⟨⟨⟨⟨⟨-, hmap⟩, -⟩, -⟩, -⟩, -⟩, -⟩ := hwf
  exact hmap

theorem blkIn_pos {s : State} (hs : ModeOk s) : 0 < blkIn (mode s) := by
  have hwf := mode_wf hs
  have hfic := mode_ficWf hs
  simp only [modeWf, lengthsWf, Bool.and_eq_true, decide_eq_true_iff] at hwf
  simp only [ficWf, Bool.and_eq_true, decide_eq_true_iff] at hfic
  obtain ⟨⟨⟨⟨⟨⟨⟨⟨⟨-, hcarriers⟩, -⟩, -⟩, -⟩, -⟩, -⟩, -⟩, -⟩, -⟩ := hwf
  obtain ⟨⟨⟨⟨⟨⟨⟨⟨⟨hblk, hdvd⟩, -⟩, -⟩, -⟩, -⟩, -⟩, -⟩, -⟩, -⟩ := hfic
  have hbits : 0 < ficBits (mode s) := by simp only [ficBits, nSoft, Config.ficSyms]; omega
  exact Nat.div_pos (Nat.le_of_dvd hbits (Nat.dvd_of_mod_eq_zero hdvd)) hblk

theorem prbsTaps_pos {s : State} (hs : ModeOk s) : ∀ d ∈ (mode s).prbsTaps, 1 ≤ d := by
  have hwf := mode_ficWf hs
  simp only [ficWf, Bool.and_eq_true, decide_eq_true_iff, List.all_eq_true] at hwf
  obtain ⟨-, htaps⟩ := hwf
  intro d hd
  obtain ⟨hpos, -⟩ := htaps d hd
  exact hpos

theorem convK_pos {s : State} (hs : ModeOk s) : 1 ≤ (mode s).convK := by
  have hwf := mode_ficWf hs
  simp only [ficWf, Bool.and_eq_true, decide_eq_true_iff] at hwf
  obtain ⟨⟨⟨⟨-, hK⟩, -⟩, -⟩, -⟩ := hwf
  exact hK

/-! ## The puncture map (R187) -/

theorem mem_onesFrom {bits : List Bool} {q a : Nat} (h : a ∈ onesFrom q bits) : q ≤ a ∧ a < q + bits.length := by
  induction bits generalizing q with
  | nil => simp [onesFrom] at h
  | cons b bits ih =>
    have hrest (h : a ∈ onesFrom (q + 1) bits) : q ≤ a ∧ a < q + (bits.length + 1) := by have := ih h; omega
    cases b with
    | false => exact hrest h
    | true =>
      rcases List.mem_cons.1 h with rfl | h
      · simp
      · exact hrest h

theorem onesFrom_rising (q : Nat) (bits : List Bool) : (onesFrom q bits).Pairwise (· < ·) := by
  induction bits generalizing q with
  | nil => exact List.Pairwise.nil
  | cons b bits ih =>
    cases b with
    | false => exact ih (q + 1)
    | true => exact List.pairwise_cons.2 ⟨fun a ha => (mem_onesFrom ha).1, ih (q + 1)⟩

theorem punctureMap_nodup (m : Mode) : (punctureMap m).Nodup := (onesFrom_rising 0 m.pm).imp Nat.ne_of_lt

/-- No two positions of the punctured stream have the same place: block and place in the block are the quotient and the
remainder of it by `MOTHER_LEN`. -/
theorem ficAddress_injective {s : State} (hs : ModeOk s) : Function.Injective (ficAddress (mode s)) := by
  have hpos (q : Nat) : q % blkIn (mode s) < (punctureMap (mode s)).length := by
    rw [punctureMap_length hs]
    exact Nat.mod_lt _ (blkIn_pos hs)
  have hplace (q : Nat) : (punctureMap (mode s)).getD (q % blkIn (mode s)) 0 < motherLen (mode s) := by
    rw [List.getD_eq_getElem _ _ (hpos q), ← pm_length hs, ← Nat.zero_add (List.length _)]
    exact (mem_onesFrom (List.getElem_mem (hpos q))).2
  intro q r h
  have hplaces : (punctureMap (mode s)).getD (q % blkIn (mode s)) 0 =
      (punctureMap (mode s)).getD (r % blkIn (mode s)) 0 := by
    have hmod := congrArg (· % motherLen (mode s)) h
    simpa only [ficAddress, Nat.mul_add_mod_self_right, Nat.mod_eq_of_lt (hplace _)] using hmod
  have hblocks : q / blkIn (mode s) = r / blkIn (mode s) := by
    have hlen : 0 < motherLen (mode s) := (Nat.zero_le _).trans_lt (hplace q)
    rw [ficAddress, ficAddress, hplaces] at h
    exact Nat.eq_of_mul_eq_mul_right hlen (Nat.add_right_cancel h)
  rw [List.getD_eq_getElem _ _ (hpos q), List.getD_eq_getElem _ _ (hpos r)] at hplaces
  have hmods := (punctureMap_nodup _).getElem_inj_iff.1 hplaces
  rw [← Nat.div_add_mod q (blkIn (mode s)), ← Nat.div_add_mod r (blkIn (mode s)), hblocks, hmods]

/-! ## The soft bits of one symbol (R185) -/

theorem accRead_depuncture_other (m : Mode) (zeroed : Bool) {a q : Nat} {vs : List Soft} (acc : Buf Soft)
    (h : ∀ j, j < vs.length → a ≠ ficAddress m (q + j)) :
    accRead zeroed (depuncture m zeroed q vs acc) a = accRead zeroed acc a := by
  induction vs generalizing q acc with
  | nil => rfl
  | cons v vs ih =>
    have hrest (j : Nat) (hj : j < vs.length) : a ≠ ficAddress m (q + 1 + j) := by
      rw [Nat.add_assoc, Nat.add_comm 1]
      exact h (j + 1) (by simpa using hj)
    have hfirst : a ≠ ficAddress m q := h 0 (by simp)
    rw [depuncture, ih _ hrest, accRead_write_other _ _ _ _ _ hfirst]

theorem accRead_depuncture {m : Mode} (hinj : Function.Injective (ficAddress m)) (zeroed : Bool) (q : Nat)
    (vs : List Soft) (acc : Buf Soft) {j : Nat} (hj : j < vs.length) :
    accRead zeroed (depuncture m zeroed q vs acc) (ficAddress m (q + j)) = vs[j]? := by
  induction vs generalizing q acc j with
  | nil => simp at hj
  | cons v vs ih =>
    rw [depuncture]
    cases j with
    | zero =>
      rw [accRead_depuncture_other _ _ _ fun k _ => hinj.ne (by omega)]
      simpa using accRead_write_same zeroed acc (ficAddress m q) v
    | succ j =>
      have hrest := ih (q + 1) (accWrite zeroed acc (ficAddress m q) v) (j := j) (by simpa using hj)
      rwa [Nat.add_assoc, Nat.add_comm 1] at hrest

/-! ## `FICPUSH` (R183, R185) -/

theorem opFicpush_refused {s : State} {idx : Nat}
    (h : 4 ≤ idx ∨ idx ≠ 0 ∧ (s.ficState ≠ .accumulating ∨ s.ficIdx ≠ idx)) :
    opFicpush idx s = .done s .illegal 0 := by
  have hrefused : ficPushRefused idx s = true := by
    simpa only [ficPushRefused, Bool.or_eq_true, Bool.and_eq_true, decide_eq_true_iff, ne_comm (a := idx)] using h
  rw [opFicpush, if_pos hrefused]

/-- The state on which a symbol's soft bits are written: index 0 begins a frame. -/
def ficPushStart (idx : Nat) (s : State) : State := if idx = 0 then zeroFic s else s

@[simp] theorem ficPushStart_mode (idx : Nat) (s : State) : mode (ficPushStart idx s) = mode s := by
  unfold ficPushStart
  split <;> simp

@[simp] theorem ficPushStart_rsp (idx : Nat) (s : State) : (ficPushStart idx s).rsp = s.rsp := by
  unfold ficPushStart
  split <;> simp

/-- `FIC_ACC` after the soft bits `v` of symbol `idx` are written on the state `z`. -/
def pushedAcc (idx : Nat) (z : State) (v : List Soft) : Buf Soft :=
  depuncture (mode z) z.ficAccZeroed (idx * nSoft (mode z)) v z.ficAcc

theorem opFicpush_accepted {s : State} {idx : Nat} {v : List Soft} (hidx : idx < 4)
    (hnext : idx = 0 ∨ s.ficState = .accumulating ∧ s.ficIdx = idx) (hlen : v.length = nSoft (mode s))
    (hheld : Holds s.soft 0 v) {z : State} (hz : z = ficPushStart idx s) :
    opFicpush idx s = .done { z with
        ficAcc := pushedAcc idx z v, ficFill := z.ficFill + nSoft (mode s), ficIdx := idx + 1,
        ficState := .accumulating } .ok (BitVec.ofNat 32 (z.ficFill + nSoft (mode s))) := by
  have haccepted : ¬ ficPushRefused idx s = true := by
    simp only [ficPushRefused, Bool.or_eq_true, Bool.and_eq_true, decide_eq_true_iff]
    rintro (hbeyond | ⟨hne, hother⟩)
    · exact Nat.not_le.2 hidx hbeyond
    · obtain ⟨hstate, hfollows⟩ := hnext.resolve_left hne
      exact hother.elim (· hstate) (· hfollows.symm)
  have hread : bufReadRange s.soft 0 (nSoft (mode s)) = some v := (bufReadRange_eq_some _ _ _ _).2 ⟨hlen, hheld⟩
  have hmode : mode s = mode z := by rw [hz, ficPushStart_mode]
  rw [opFicpush, if_neg haccepted]
  simp only [hread]
  rw [hmode, pushedAcc, hz]
  rfl

theorem exec_ficpush (idx : Nat) (s : State) : exec (.ficpush idx) s = hostUnit (.ficpush idx) (opFicpush idx) s := rfl

/-- Settles O35: the soft bits go to different places of `FIC_ACC`, so each is there after the last of them is
written. -/
theorem ficpushResult : Obligations.FicpushResult := by
  unfold Obligations.FicpushResult
  refine ⟨fun s idx hrun h => ?refused, fun s idx v hs hrun hidx hnext hlen hheld => ?accepted⟩
  case refused => exact hostUnit_done _ _ _ _ _ _ hrun (opFicpush_refused h)
  case accepted =>
    obtain ⟨z, hz⟩ : ∃ z, z = ficPushStart idx s := ⟨_, rfl⟩
    have hmode : mode z = mode s := by rw [hz, ficPushStart_mode]
    have hrsp : z.rsp = s.rsp := by rw [hz, ficPushStart_rsp]
    refine ⟨z, pushedAcc idx z v, hz, fun j hj => ?written, fun a ha => ?kept, ?executed⟩
    case written =>
      rw [pushedAcc, hmode]
      exact accRead_depuncture (ficAddress_injective hs) _ _ _ _ (hlen ▸ hj)
    case kept =>
      rw [pushedAcc, hmode]
      exact accRead_depuncture_other _ _ _ (hlen ▸ ha)
    case executed =>
      rw [exec_ficpush, hostUnit_done _ _ _ _ _ _ hrun (opFicpush_accepted hidx hnext hlen hheld hz), respond, hrsp]

end Sys2Proof.Proofs
end

section
/-! PROOF. The maximum-likelihood word (`43_fic_decoder.md` R189 to R192): the encoder's states as numbers, the paths
that the trellis chooses from, the invariant of its table, and with them `ViterbiMaximises`. -/

open Sys2Proof Sys2Proof.Machine Sys2Proof.Laws

namespace Sys2Proof.Proofs

/-! ## Input bits as numbers

The bits sent to the encoder are listed latest first, as survivors list them. -/

/-- The number whose bit `i` is the `i`-th of the list. -/
def bitsValue : List Bool → Nat
  | [] => 0
  | b :: h => b.toNat + 2 * bitsValue h

theorem bitsValue_testBit (h : List Bool) (d : Nat) : (bitsValue h).testBit d = h.getD d false := by
  induction h generalizing d with
  | nil => simp [bitsValue]
  | cons b h ih =>
    cases d with
    | zero => cases b <;> simp [bitsValue, Nat.testBit_zero]
    | succ d =>
      have hdiv : bitsValue (b :: h) / 2 = bitsValue h := by cases b <;> simp [bitsValue]; omega
      rw [Nat.testBit_succ, hdiv, ih, List.getD_cons_succ]

theorem bitsValue_window_odd (b : Bool) (h : List Bool) {K : Nat} (hK : 1 ≤ K) :
    bitsValue (b :: h) % 2 ^ K % 2 = 1 ↔ b = true := by
  rw [Nat.mod_mod_of_dvd _ (dvd_pow_self 2 (by omega)), bitsValue]
  cases b <;> simp

theorem bitsValue_window_div (b : Bool) (h : List Bool) {K : Nat} (hK : 1 ≤ K) :
    bitsValue (b :: h) % 2 ^ K / 2 = bitsValue h % 2 ^ (K - 1) := by
  obtain ⟨k, rfl⟩ := Nat.exists_eq_add_of_le' hK
  rw [Nat.add_sub_cancel, Nat.pow_succ', Nat.mod_mul_right_div_self, bitsValue,
    show (b.toNat + 2 * bitsValue h) / 2 = bitsValue h by cases b <;> simp; omega]

/-- A word is a step's window exactly when its tail is the state before and its first bit the input. -/
theorem window_eq_iff (b : Bool) (h : List Bool) {K w : Nat} (hK : 1 ≤ K) :
    bitsValue (b :: h) % 2 ^ K = w ↔ bitsValue h % 2 ^ (K - 1) = w / 2 ∧ b = decide (w % 2 = 1) := by
  have hdiv := bitsValue_window_div b h hK
  have hodd := bitsValue_window_odd b h hK
  constructor
  · rintro rfl
    exact ⟨hdiv.symm, by simp [hodd]⟩
  · rintro ⟨hstate, rfl⟩
    rw [decide_eq_true_iff] at hodd
    omega

theorem two_pow_window {K : Nat} (hK : 1 ≤ K) : 2 ^ K = 2 ^ (K - 1) + 2 ^ (K - 1) := by
  obtain ⟨k, rfl⟩ := Nat.exists_eq_add_of_le' hK
  rw [Nat.add_sub_cancel, Nat.pow_succ, Nat.mul_two]

/-- The two windows of a step that leads to a state. -/
theorem state_eq_iff (n : Nat) {K st : Nat} (hK : 1 ≤ K) (hst : st < 2 ^ (K - 1)) :
    n % 2 ^ (K - 1) = st ↔ n % 2 ^ K = st ∨ n % 2 ^ K = st + 2 ^ (K - 1) := by
  obtain ⟨k, rfl⟩ := Nat.exists_eq_add_of_le' hK
  rw [Nat.add_sub_cancel] at *
  have hmod : n % 2 ^ (k + 1) % 2 ^ k = n % 2 ^ k := Nat.mod_mod_of_dvd _ (pow_dvd_pow 2 (Nat.le_succ k))
  have hlt : n % 2 ^ (k + 1) < 2 ^ k + 2 ^ k := by
    have := Nat.mod_lt n (Nat.two_pow_pos (k + 1))
    omega
  rw [← hmod]
  rcases Nat.lt_or_ge (n % 2 ^ (k + 1)) (2 ^ k) with h | h
  · rw [Nat.mod_eq_of_lt h]
    omega
  · rw [Nat.mod_eq_sub_mod h, Nat.mod_eq_of_lt (by omega)]
    omega

/-! ## Paths of the trellis (R191) -/

/-- The four soft bits of step `t`. -/
def stepSoft (y : List Soft) (t : Nat) : List Soft := (y.drop (4 * t)).take 4

/-- The metric of a path: its windows' shares. -/
def pathMetric (m : Mode) (y : List Soft) : List Bool → Int
  | [] => 0
  | b :: h => pathMetric m y h + branchMetric m (bitsValue (b :: h) % 2 ^ m.convK) (stepSoft y h.length)

/-- No bit after the `n`-th is 1. -/
def TailZero (n : Nat) : List Bool → Prop
  | [] => True
  | b :: h => ¬ (n ≤ h.length ∧ b = true) ∧ TailZero n h

/-- The paths of `t` steps whose latest bits, modulo `M`, are the number `a`: with `M = 2 ^ (CONV_K - 1)` those into the
state `a`, with `M = 2 ^ CONV_K` those with the last window `a`. -/
def IsPath (m : Mode) (t M a : Nat) (h : List Bool) : Prop :=
  h.length = t ∧ TailZero m.blkOut h ∧ bitsValue h % M = a

/-- A survivor that is one of the paths `P`, of greatest metric among them, and none only where there is no path. -/
def IsBest (m : Mode) (y : List Soft) (P : List Bool → Prop) (s : Survivor) : Prop :=
  (∀ p, s = some p → P p.2 ∧ p.1 = pathMetric m y p.2) ∧ ∀ h, P h → ∃ p, s = some p ∧ pathMetric m y h ≤ p.1

section
variable {m : Mode} {y : List Soft}

theorem isBest_none {P : List Bool → Prop} (h : ∀ w, ¬ P w) : IsBest m y P none :=
  ⟨nofun, fun w hw => absurd hw (h w)⟩

theorem isBest_congr {P Q : List Bool → Prop} {s : Survivor} (h : ∀ w, P w ↔ Q w) (hs : IsBest m y P s) :
    IsBest m y Q s := by rwa [← funext fun w => propext (h w)]

/-- The better of two best survivors is best of both sets of paths, whichever is kept at equal metrics. -/
theorem isBest_better {P Q : List Bool → Prop} {a b : Survivor} (tie : Bool) (ha : IsBest m y P a)
    (hb : IsBest m y Q b) : IsBest m y (fun w => P w ∨ Q w) (betterSurvivor tie a b) := by
  obtain ⟨hain, hamax⟩ := ha
  obtain ⟨hbin, hbmax⟩ := hb
  cases a with
  | none =>
    have hP (w : List Bool) : ¬ P w := fun hw => by simpa using hamax w hw
    exact isBest_congr (fun w => by simp [hP]) ⟨hbin, hbmax⟩
  | some a =>
    cases b with
    | none =>
      have hQ (w : List Bool) : ¬ Q w := fun hw => by simpa using hbmax w hw
      exact isBest_congr (fun w => by simp [hQ]) ⟨hain, hamax⟩
    | some b =>
      simp only [Option.some.injEq, forall_eq', exists_eq_left'] at hain hamax hbin hbmax
      obtain ⟨hPa, hMa⟩ := hain
      obtain ⟨hQb, hMb⟩ := hbin
      rw [betterSurvivor]
      split
      case isTrue hless =>
        refine ⟨?_, ?_⟩
        · rintro p ⟨⟩
          exact ⟨.inr hQb, hMb⟩
        · rintro w (hw | hw)
          · exact ⟨b, rfl, (hamax w hw).trans (by omega)⟩
          · exact ⟨b, rfl, hbmax w hw⟩
      case isFalse hgreater =>
        refine ⟨?_, ?_⟩
        · rintro p ⟨⟩
          exact ⟨.inl hPa, hMa⟩
        · rintro w (hw | hw)
          · exact ⟨a, rfl, hamax w hw⟩
          · exact ⟨a, rfl, (hbmax w hw).trans (by omega)⟩

/-- The paths with a given last window are the paths into the state before it, one bit longer. -/
theorem isPath_window_iff (hK : 1 ≤ m.convK) (t w : Nat) (h : List Bool) :
    IsPath m (t + 1) (2 ^ m.convK) w h ↔
      ¬ (m.blkOut ≤ t ∧ w % 2 = 1) ∧ ∃ g, IsPath m t (2 ^ (m.convK - 1)) (w / 2) g ∧ h = decide (w % 2 = 1) :: g := by
  cases h with
  | nil => simp [IsPath]
  | cons b g =>
    simp only [IsPath, List.length_cons, Nat.add_right_cancel_iff, TailZero, window_eq_iff b g hK, List.cons.injEq]
    constructor
    · rintro ⟨rfl, ⟨htail, hg⟩, hstate, rfl⟩
      exact ⟨by simpa using htail, g, ⟨rfl, hg, hstate⟩, rfl, rfl⟩
    · rintro ⟨htail, g', ⟨rfl, hg, hstate⟩, rfl, rfl⟩
      exact ⟨rfl, ⟨by simpa using htail, hg⟩, hstate, rfl⟩

/-- The table after `t` steps: at every state a best path into it. -/
def TableBest (m : Mode) (y : List Soft) (t : Nat) (tab : List Survivor) : Prop :=
  ∀ st, st < 2 ^ (m.convK - 1) → IsBest m y (IsPath m t (2 ^ (m.convK - 1)) st) (tab.getD st none)

theorem isBest_extend (hK : 1 ≤ m.convK) {t : Nat} {tab : List Survivor} (htab : TableBest m y t tab) {w : Nat}
    (hw : w < 2 ^ m.convK) :
    IsBest m y (IsPath m (t + 1) (2 ^ m.convK) w) (extendSurvivor m t (stepSoft y t) tab w) := by
  have hstate : w / 2 < 2 ^ (m.convK - 1) := by
    have hpow := two_pow_window hK
    omega
  obtain ⟨hin, hmax⟩ := htab _ hstate
  have hmetric (g : List Bool) (hg : IsPath m t (2 ^ (m.convK - 1)) (w / 2) g) :
      pathMetric m y (decide (w % 2 = 1) :: g) = pathMetric m y g + branchMetric m w (stepSoft y t) := by
    obtain ⟨hlen, -, hval⟩ := hg
    rw [pathMetric, (window_eq_iff _ g hK).2 ⟨hval, rfl⟩, hlen]
  rw [extendSurvivor]
  split
  case isTrue htail => exact isBest_none fun h hh => ((isPath_window_iff hK t w h).1 hh).1 htail
  case isFalse htail =>
    refine isBest_congr (fun h => (isPath_window_iff hK t w h).symm) ⟨fun p hp => ?_, ?_⟩
    · obtain ⟨q, hq, rfl⟩ := Option.map_eq_some_iff.1 hp
      obtain ⟨hpath, hval⟩ := hin q hq
      exact ⟨⟨htail, q.2, hpath, rfl⟩, by rw [hmetric q.2 hpath, ← hval]⟩
    · rintro h ⟨-, g, hg, rfl⟩
      obtain ⟨q, hq, hle⟩ := hmax g hg
      exact ⟨_, by rw [hq]; rfl, by rw [hmetric g hg]; exact Int.add_le_add_right hle _⟩

theorem tableBest_step (hK : 1 ≤ m.convK) {t : Nat} {tab : List Survivor} (htab : TableBest m y t tab) :
    TableBest m y (t + 1) (trellisStep m y t (stepSoft y t) tab) := by
  intro st hst
  have hpow := two_pow_window hK
  have hentry : (trellisStep m y t (stepSoft y t) tab).getD st none =
      betterSurvivor (Config.vitTie m y t st) (extendSurvivor m t (stepSoft y t) tab st)
        (extendSurvivor m t (stepSoft y t) tab (st + 2 ^ (m.convK - 1))) := by
    simp [trellisStep, hst]
  rw [hentry]
  refine isBest_congr (fun h => ?_) (isBest_better _ (isBest_extend hK htab (w := st) (by omega))
    (isBest_extend hK htab (w := st + 2 ^ (m.convK - 1)) (by omega)))
  simp only [IsPath, state_eq_iff (bitsValue h) hK hst]
  tauto

theorem tableBest_trellis (hK : 1 ≤ m.convK) (n : Nat) {t : Nat} {tab : List Survivor} (htab : TableBest m y t tab) :
    TableBest m y (t + n) (trellis m y n t (y.drop (4 * t)) tab) := by
  induction n generalizing t tab with
  | zero => exact htab
  | succ n ih =>
    rw [trellis, List.drop_drop, show 4 * t + 4 = 4 * (t + 1) by omega, show t + (n + 1) = t + 1 + n by omega]
    exact ih (tableBest_step hK htab)

theorem tableBest_init : TableBest m y 0 (trellisInit m) := by
  intro st hst
  cases st with
  | zero =>
    refine ⟨?_, ?_⟩
    · rintro p ⟨⟩
      exact ⟨⟨rfl, trivial, by simp [bitsValue]⟩, rfl⟩
    · rintro h ⟨hlen, -⟩
      rw [List.length_eq_zero_iff.1 hlen]
      exact ⟨_, rfl, le_rfl⟩
  | succ st =>
    have hnone : (trellisInit m).getD (st + 1) none = none := by
      rw [trellisInit, List.getD_cons_succ, List.getD_eq_getElem?_getD, List.getElem?_replicate]
      split <;> rfl
    rw [hnone]
    refine isBest_none ?_
    rintro h ⟨hlen, -, hval⟩
    rw [List.length_eq_zero_iff.1 hlen, bitsValue, Nat.zero_mod] at hval
    omega

/-! ## Paths and information words (R189, R191) -/

/-- The first `t` bits of a word and its tail, latest first. -/
def history (u : List Bool) : Nat → List Bool
  | 0 => []
  | t + 1 => u.getD t false :: history u t

theorem history_length (u : List Bool) (t : Nat) : (history u t).length = t := by
  induction t with
  | zero => rfl
  | succ t ih => rw [history, List.length_cons, ih]

theorem history_getD (u : List Bool) (t d : Nat) : (history u (t + 1)).getD d false = wordBit u t d := by
  induction t generalizing d with
  | zero => cases d <;> simp [history, wordBit]
  | succ t ih =>
    cases d with
    | zero => simp [history, wordBit]
    | succ d =>
      rw [history, List.getD_cons_succ, ih]
      simp [wordBit]

theorem tailZero_history {u : List Bool} {n : Nat} (hu : u.length ≤ n) (t : Nat) : TailZero n (history u t) := by
  induction t with
  | zero => trivial
  | succ t ih =>
    refine ⟨?_, ih⟩
    rintro ⟨hle, hbit⟩
    rw [history_length] at hle
    rw [List.getD_eq_default _ _ (hu.trans hle)] at hbit
    cases hbit

theorem history_of_getD {u h : List Bool} (hu : ∀ i, i < h.length → u.getD i false = h.reverse.getD i false) :
    history u h.length = h := by
  induction h with
  | nil => rfl
  | cons b h ih =>
    have hlast := hu h.length (by simp)
    rw [List.reverse_cons, List.getD_append_right _ _ _ _ (by simp)] at hlast
    have hrest (i : Nat) (hi : i < h.length) : u.getD i false = h.reverse.getD i false := by
      have hcons := hu i (by simp; omega)
      rwa [List.reverse_cons, List.getD_append _ _ _ _ (by simpa using hi)] at hcons
    rw [List.length_cons, history, ih hrest, hlast]
    simp

theorem getD_of_tailZero {n : Nat} {h : List Bool} (htail : TailZero n h) {i : Nat} (hi : n ≤ i) :
    h.reverse.getD i false = false := by
  induction h with
  | nil => rfl
  | cons b h ih =>
    obtain ⟨hb, htail⟩ := htail
    rw [List.reverse_cons]
    rcases Nat.lt_trichotomy i h.length with hlt | rfl | hgt
    · rw [List.getD_append _ _ _ _ (by simpa using hlt), ih htail]
    · simpa [hi] using hb
    · exact List.getD_eq_default _ _ (by simp; omega)

/-- A path is the history of its first `n` bits, when those after them are 0. -/
theorem history_of_tailZero {n : Nat} {h : List Bool} (htail : TailZero n h) :
    history (h.reverse.take n) h.length = h := by
  refine history_of_getD fun i _ => ?_
  rcases Nat.lt_or_ge i n with hlt | hge
  · rw [List.getD_eq_getElem?_getD, List.getElem?_take_of_lt hlt, List.getD_eq_getElem?_getD]
  · rw [getD_of_tailZero htail hge, List.getD_eq_default _ _ (by simp; omega)]

/-- The code bits of step `t` (R189). -/
def codeBitsAt (m : Mode) (u : List Bool) (t : Nat) : List Bool :=
  m.convTaps.map fun ds => ds.foldl (fun b d => xor b (wordBit u t d)) false

theorem codeBits_history (hdelays : ∀ ds ∈ m.convTaps, ∀ d ∈ ds, d < m.convK) (u : List Bool) (t : Nat) :
    codeBits m (bitsValue (history u (t + 1)) % 2 ^ m.convK) = codeBitsAt m u t := by
  refine List.map_congr_left fun ds hds => List.foldl_ext _ _ _ fun b d hd => ?_
  simp only [Nat.testBit_mod_two_pow, hdelays ds hds d hd, decide_true, Bool.true_and, bitsValue_testBit, history_getD]

theorem flatMap_codeBitsAt_length (h4 : m.convTaps.length = 4) (u : List Bool) (t : Nat) :
    ((List.range t).flatMap (codeBitsAt m u)).length = 4 * t := by
  simp [codeBitsAt, h4, Nat.mul_comm]

/-- The share of a sent bit in the metric (R192). -/
def softShare (x : Bool) (v : Soft) : Int := if x then v else -v

theorem softShare_eq (x : Bool) (v : Soft) : (2 * (if x then 1 else 0) - 1) * v = softShare x v := by
  cases x <;> simp [softShare]

theorem sum_zipWith_append {a b : List Bool} (ys : List Soft) :
    (List.zipWith softShare (a ++ b) ys).sum =
      (List.zipWith softShare a ys).sum + (List.zipWith softShare b ((ys.drop a.length).take b.length)).sum := by
  induction a generalizing ys with
  | nil =>
    have htake : List.zipWith softShare b (ys.take b.length) = List.zipWith softShare b ys := by
      rw [← List.take_of_length_le (i := b.length) (l := List.zipWith softShare b ys) (by simp), List.take_zipWith,
        List.take_length]
    simp [htake]
  | cons x a ih =>
    cases ys with
    | nil => simp
    | cons v ys => simp [ih, Int.add_assoc]

theorem pathMetric_history (h4 : m.convTaps.length = 4) (hdelays : ∀ ds ∈ m.convTaps, ∀ d ∈ ds, d < m.convK)
    (u : List Bool) (t : Nat) :
    pathMetric m y (history u t) = (List.zipWith softShare ((List.range t).flatMap (codeBitsAt m u)) y).sum := by
  induction t with
  | zero => rfl
  | succ t ih =>
    have hlen : (codeBitsAt m u t).length = 4 := by simp [codeBitsAt, h4]
    rw [List.range_succ, List.flatMap_append, List.flatMap_singleton, sum_zipWith_append,
      flatMap_codeBitsAt_length h4, hlen, ← ih]
    rw [history, pathMetric, ← history, branchMetric, codeBits_history hdelays, history_length]
    rfl

theorem wordMetric_eq (h4 : m.convTaps.length = 4) (hdelays : ∀ ds ∈ m.convTaps, ∀ d ∈ ds, d < m.convK)
    (u : List Bool) :
    wordMetric m u y = pathMetric m y (history u (m.blkOut + m.convK - 1)) := by
  rw [pathMetric_history h4 hdelays, wordMetric]
  simp only [softShare_eq]
  rfl

end

/-- The tail leads every word into the all-zero state (R191). -/
theorem history_isPath (m : Mode) {u : List Bool} (hu : u.length = m.blkOut) :
    IsPath m (m.blkOut + m.convK - 1) (2 ^ (m.convK - 1)) 0 (history u (m.blkOut + m.convK - 1)) := by
  refine ⟨history_length _ _, tailZero_history hu.le _, Nat.eq_of_testBit_eq fun d => ?_⟩
  rw [Nat.zero_testBit, Nat.testBit_mod_two_pow, bitsValue_testBit, Bool.and_eq_false_iff, decide_eq_false_iff_not,
    or_iff_not_imp_left, not_not]
  intro hd
  obtain ⟨T, hT⟩ : ∃ T, m.blkOut + m.convK - 1 = T + 1 := ⟨m.blkOut + m.convK - 2, by omega⟩
  rw [hT, history_getD, wordBit, if_pos (by omega), List.getD_eq_default _ _ (by omega)]

/-- The survivor of the all-zero state after the last step is the history of `viterbi y`, and no word's is better. -/
theorem viterbi_spec (m : Mode) (y : List Soft) (hK : 1 ≤ m.convK) :
    (viterbi m y).length = m.blkOut ∧ ∀ u : List Bool, u.length = m.blkOut →
      pathMetric m y (history u (m.blkOut + m.convK - 1)) ≤
        pathMetric m y (history (viterbi m y) (m.blkOut + m.convK - 1)) := by
  have htable := tableBest_trellis (m := m) (y := y) hK (m.blkOut + m.convK - 1) tableBest_init
  rw [Nat.mul_zero, List.drop_zero, Nat.zero_add] at htable
  obtain ⟨hin, hmax⟩ := htable 0 (Nat.two_pow_pos _)
  obtain ⟨p, hp, -⟩ := hmax _ (history_isPath m (u := List.replicate m.blkOut false) (List.length_replicate ..))
  obtain ⟨⟨hlen, htail, -⟩, hmetric⟩ := hin p hp
  have hviterbi : viterbi m y = p.2.reverse.take m.blkOut := by simp only [viterbi, hp]
  have hpath : history (viterbi m y) (m.blkOut + m.convK - 1) = p.2 := by
    rw [hviterbi, ← hlen, history_of_tailZero htail]
  refine ⟨by rw [hviterbi, List.length_take, List.length_reverse, hlen]; omega, fun u hu => ?_⟩
  obtain ⟨q, hq, hle⟩ := hmax _ (history_isPath m hu)
  obtain rfl : p = q := Option.some.inj (hp.symm.trans hq)
  rwa [hpath, ← hmetric]

/-- Settles O37: the trellis keeps a best path into every state, the paths into the all-zero state after the last step
are the words with their tails, and a path's metric is its word's. -/
theorem viterbiMaximises : Obligations.ViterbiMaximises := by
  unfold Obligations.ViterbiMaximises
  intro m y hK h4 hdelays _
  obtain ⟨hlen, hmax⟩ := viterbi_spec m y hK
  refine ⟨hlen, fun u hu => ?_⟩
  rw [wordMetric_eq h4 hdelays, wordMetric_eq h4 hdelays]
  exact hmax u hu

end Sys2Proof.Proofs
end

section
/-! PROOF. The check word (`43_fic_decoder.md` R195 to R198): the register's step can be undone and tells the two bits
apart, the field is the number of its bits, and with this `CrcSingleFlip` and `CrcResult`. -/

open Sys2Proof Sys2Proof.Machine Sys2Proof.Laws

namespace Sys2Proof.Proofs

/-! ## One bit turned over -/

@[simp] theorem flipBit_nil (j : Nat) : flipBit j [] = [] := by cases j <;> rfl

theorem flipBit_length (j : Nat) (bits : List Bool) : (flipBit j bits).length = bits.length := by
  induction bits generalizing j with
  | nil => simp
  | cons b bits ih => cases j <;> simp [flipBit, ih]

theorem take_flipBit_of_le {n j : Nat} (h : n ≤ j) (bits : List Bool) : (flipBit j bits).take n = bits.take n := by
  induction bits generalizing n j with
  | nil => simp
  | cons b bits ih =>
    cases n with
    | zero => simp
    | succ n =>
      cases j with
      | zero => omega
      | succ j => simp [flipBit, ih (Nat.le_of_succ_le_succ h)]

theorem take_flipBit_of_lt {n j : Nat} (h : j < n) (bits : List Bool) :
    (flipBit j bits).take n = flipBit j (bits.take n) := by
  induction bits generalizing n j with
  | nil => simp
  | cons b bits ih =>
    cases n with
    | zero => omega
    | succ n =>
      cases j with
      | zero => simp [flipBit]
      | succ j => simp [flipBit, ih (Nat.lt_of_succ_lt_succ h)]

theorem drop_flipBit_of_lt {n j : Nat} (h : j < n) (bits : List Bool) : (flipBit j bits).drop n = bits.drop n := by
  induction bits generalizing n j with
  | nil => simp
  | cons b bits ih =>
    cases n with
    | zero => omega
    | succ n =>
      cases j with
      | zero => simp [flipBit]
      | succ j => simp [flipBit, ih (Nat.lt_of_succ_lt_succ h)]

theorem drop_flipBit_of_le {n j : Nat} (h : n ≤ j) (bits : List Bool) :
    (flipBit j bits).drop n = flipBit (j - n) (bits.drop n) := by
  induction bits generalizing n j with
  | nil => simp
  | cons b bits ih =>
    cases n with
    | zero => simp
    | succ n =>
      cases j with
      | zero => omega
      | succ j => simp [flipBit, ih (Nat.le_of_succ_le_succ h)]

/-- A fold whose step can be undone, and which tells the two bits apart, tells apart words that differ in one bit. -/
theorem foldl_flipBit_ne {α : Type} {f : α → Bool → α} (hinj : ∀ b, Function.Injective (f · b))
    (hbit : ∀ a b, f a (!b) ≠ f a b) {bits : List Bool} {j : Nat} (hj : j < bits.length) (a : α) :
    (flipBit j bits).foldl f a ≠ bits.foldl f a := by
  have hfold (bits : List Bool) : Function.Injective (bits.foldl f) := by
    induction bits with
    | nil => exact fun _ _ h => h
    | cons b bits ih => exact fun _ _ h => hinj b (ih h)
  induction bits generalizing j a with
  | nil => simp at hj
  | cons b bits ih =>
    cases j with
    | zero => exact fun h => hbit a b (hfold bits h)
    | succ j => exact ih (Nat.lt_of_succ_lt_succ hj) (f a b)

/-! ## The check register (R195) -/

/-- With an odd polynomial the lowest bit of the register tells what was fed back. -/
theorem crcStep_getLsbD_zero {poly : BitVec 16} (hpoly : poly.getLsbD 0 = true) (reg : BitVec 16) (b : Bool) :
    (crcStep poly reg b).getLsbD 0 = xor (reg.getLsbD 15) b := by
  unfold crcStep
  cases xor (reg.getLsbD 15) b <;> simp_all

theorem crcStep_not_ne {poly : BitVec 16} (hpoly : poly.getLsbD 0 = true) (reg : BitVec 16) (b : Bool) :
    crcStep poly reg (!b) ≠ crcStep poly reg b := by
  intro h
  have h0 := congrArg (·.getLsbD 0) h
  simp only [crcStep_getLsbD_zero hpoly] at h0
  cases b <;> simp at h0

theorem eq_of_shiftLeft_one_eq {x y : BitVec 16} (hshift : x <<< 1 = y <<< 1) (htop : x.getLsbD 15 = y.getLsbD 15) :
    x = y := by
  refine BitVec.eq_of_getLsbD_eq fun i hi => ?_
  rcases Nat.lt_or_ge i 15 with hlt | hge
  · have hbit := congrArg (·.getLsbD (i + 1)) hshift
    simpa only [BitVec.getLsbD_shiftLeft, show i + 1 < 16 by omega, Nat.succ_ne_zero, decide_true, Bool.true_and,
      Nat.lt_one_iff, decide_false, Bool.not_false, Nat.add_sub_cancel] using hbit
  · rwa [show i = 15 by omega]

/-- The step can be undone: the lowest bit tells whether the polynomial was added. -/
theorem crcStep_injective {poly : BitVec 16} (hpoly : poly.getLsbD 0 = true) (b : Bool) :
    Function.Injective (crcStep poly · b) := by
  intro x y h
  have htop : x.getLsbD 15 = y.getLsbD 15 := by
    have h0 := congrArg (·.getLsbD 0) h
    simpa only [crcStep_getLsbD_zero hpoly, Bool.xor_left_inj] using h0
  refine eq_of_shiftLeft_one_eq ?_ htop
  simp only [crcStep, htop] at h
  split at h
  · exact (BitVec.xor_left_inj _).1 h
  · exact h

theorem fibCrc_flip_payload {m : Mode} (hpoly : m.crcPoly.getLsbD 0 = true) {fib : List Bool} (hlen : fib.length = 256)
    {j : Nat} (hj : j < 240) : fibCrc m (flipBit j fib) ≠ fibCrc m fib := by
  have hne := foldl_flipBit_ne (crcStep_injective hpoly) (crcStep_not_ne hpoly) (bits := fib.take 240) (j := j)
    (by simpa [hlen] using hj) m.crcInit
  simpa only [fibCrc, crcOf, take_flipBit_of_lt hj, ne_eq, BitVec.xor_left_inj] using hne

theorem fibCrc_flip_field (m : Mode) (fib : List Bool) {j : Nat} (hj : 240 ≤ j) :
    fibCrc m (flipBit j fib) = fibCrc m fib := by simp only [fibCrc, take_flipBit_of_le hj]

/-! ## The CRC field -/

/-- The number of a bit sequence, first bit most significant. -/
def bitsNumber (bits : List Bool) : Nat := bits.foldl (fun n b => 2 * n + b.toNat) 0

theorem bitsNumber_append (bits : List Bool) (b : Bool) : bitsNumber (bits ++ [b]) = 2 * bitsNumber bits + b.toNat := by
  simp [bitsNumber]

theorem bitsNumber_lt (bits : List Bool) : bitsNumber bits < 2 ^ bits.length := by
  induction bits using List.reverseRecOn with
  | nil => decide
  | append_singleton bits b ih =>
    have hb := b.toNat_lt
    rw [bitsNumber_append, List.length_append, List.length_singleton, Nat.pow_succ]
    omega

theorem bitsWord_append (bits : List Bool) (b : Bool) :
    bitsWord (bits ++ [b]) = (bitsWord bits <<< 1) ||| (BitVec.ofBool b).setWidth 16 := by
  simp [bitsWord]

theorem toNat_shiftLeft_one_or {w : BitVec 16} (hw : w.toNat < 2 ^ 15) (b : Bool) :
    ((w <<< 1) ||| (BitVec.ofBool b).setWidth 16).toNat = 2 * w.toNat + b.toNat := by
  have hor := Nat.shiftLeft_add_eq_or_of_lt (i := 1) b.toNat_lt w.toNat
  have hshift : (w <<< 1).toNat = w.toNat <<< 1 := by
    rw [BitVec.toNat_shiftLeft, Nat.mod_eq_of_lt (by rw [Nat.shiftLeft_eq]; omega)]
  have hbit : ((BitVec.ofBool b).setWidth 16).toNat = b.toNat := by cases b <;> rfl
  rw [BitVec.toNat_or, hshift, hbit, ← hor, Nat.shiftLeft_eq]
  omega

theorem bitsWord_toNat {bits : List Bool} (hlen : bits.length ≤ 16) : (bitsWord bits).toNat = bitsNumber bits := by
  induction bits using List.reverseRecOn with
  | nil => rfl
  | append_singleton bits b ih =>
    rw [List.length_append, List.length_singleton] at hlen
    have ih := ih (by omega)
    have hlt : bitsNumber bits < 2 ^ 15 :=
      (bitsNumber_lt bits).trans_le (Nat.pow_le_pow_right (by decide) (by omega))
    rw [bitsWord_append, bitsNumber_append, toNat_shiftLeft_one_or (ih ▸ hlt), ih]

theorem bitsNumber_eq_sum (bits : List Bool) :
    bitsNumber bits = ∑ j ∈ Finset.range bits.length, (bits.getD j false).toNat * 2 ^ (bits.length - 1 - j) := by
  induction bits using List.reverseRecOn with
  | nil => rfl
  | append_singleton bits b ih =>
    rw [bitsNumber_append, ih, List.length_append, List.length_singleton, Finset.sum_range_succ, Finset.mul_sum]
    refine congrArg₂ _ (Finset.sum_congr rfl fun j hj => ?_) (by simp)
    have hj := Finset.mem_range.1 hj
    rw [List.getD_append _ _ _ _ hj, show bits.length + 1 - 1 - j = bits.length - 1 - j + 1 by omega, Nat.pow_succ]
    ring

theorem fibField_toNat {fib : List Bool} (hlen : fib.length = 256) :
    (fibField fib).toNat = ∑ j ∈ Finset.range 16, (fib.getD (240 + j) false).toNat * 2 ^ (15 - j) := by
  have hfield : ((fib.drop 240).take 16).length = 16 := by simp [hlen]
  rw [fibField, bitsWord_toNat hfield.le, bitsNumber_eq_sum, hfield]
  refine Finset.sum_congr rfl fun j hj => ?_
  have hj := Finset.mem_range.1 hj
  simp [List.getD_eq_getElem?_getD, List.getElem?_take_of_lt hj]

theorem fibField_flip_payload (fib : List Bool) {j : Nat} (hj : j < 240) :
    fibField (flipBit j fib) = fibField fib := by simp only [fibField, drop_flipBit_of_lt hj]

theorem fibField_flip_field {fib : List Bool} (hlen : fib.length = 256) {j : Nat} (hlo : 240 ≤ j) (hhi : j < 256) :
    fibField (flipBit j fib) ≠ fibField fib := by
  have hfield : ((fib.drop 240).take 16).length = 16 := by simp [hlen]
  have hne : bitsNumber (flipBit (j - 240) ((fib.drop 240).take 16)) ≠ bitsNumber ((fib.drop 240).take 16) :=
    foldl_flipBit_ne (fun b x y h => by simpa using h) (fun n b => by cases b <;> simp) (by omega) 0
  intro h
  have hnumber := congrArg BitVec.toNat h
  rw [fibField, fibField, drop_flipBit_of_le hlo, take_flipBit_of_lt (Nat.sub_lt_left_of_lt_add hlo hhi),
    bitsWord_toNat (by rw [flipBit_length, hfield]), bitsWord_toNat hfield.le] at hnumber
  exact hne hnumber

/-! ## The check (R195, R198) -/

theorem crcOk_iff (m : Mode) (fib : List Bool) : crcOk m fib = true ↔ fibCrc m fib = fibField fib := decide_eq_true_iff

/-- Settles O38: a flip in the payload changes the check word and not the field, a flip in the field the field and not
the check word. -/
theorem crcSingleFlip : Obligations.CrcSingleFlip := by
  unfold Obligations.CrcSingleFlip
  intro m fib j hpoly hlen hj hok
  rw [crcOk_iff] at hok
  rw [← Bool.not_eq_true, crcOk_iff]
  rcases Nat.lt_or_ge j 240 with hpayload | hfield
  · rw [fibField_flip_payload fib hpayload, ← hok]
    exact fibCrc_flip_payload hpoly hlen hpayload
  · rw [fibCrc_flip_field m fib hfield, hok]
    exact (fibField_flip_field hlen hfield hj).symm

/-! ## `CRC16` (R197) -/

/-- The check register after the first `j` bits. -/
def crcRegister (m : Mode) (bits : List Bool) (j : Nat) : BitVec 16 := (bits.take j).foldl (crcStep m.crcPoly) m.crcInit

theorem crcRegister_succ (m : Mode) {bits : List Bool} {j : Nat} (hj : j < bits.length) :
    crcRegister m bits (j + 1) = crcStep m.crcPoly (crcRegister m bits j) (bits.getD j false) := by
  rw [crcRegister, crcRegister, List.take_succ_eq_append_getElem hj, List.foldl_concat, List.getD_eq_getElem _ _ hj]

theorem fibCrc_eq_register (m : Mode) (fib : List Bool) : fibCrc m fib = crcRegister m fib 240 ^^^ m.crcXorout := rfl

theorem append_eq_shiftLeft_or (a b : BitVec 16) : a ++ b = (a.setWidth 32 <<< 16) ||| b.setWidth 32 := by
  refine BitVec.eq_of_getLsbD_eq fun i hi => ?_
  rw [BitVec.getLsbD_append]
  by_cases h : i < 16
  · simp [h, hi]
  · simp [h, hi, BitVec.getLsbD_of_ge b i (Nat.not_lt.1 h)]

theorem opCrc16_written {s : State} {f : Nat} {fib : List Bool} (hf : f < fibsPerFrame (mode s))
    (hlen : fib.length = 256) (hheld : Holds s.ficOut (256 * f) fib) :
    opCrc16 f s = .done s (if fibCrc (mode s) fib = fibField fib then .ok else .fail)
      ((fibField fib).setWidth 32 <<< 16 ||| (fibCrc (mode s) fib).setWidth 32) := by
  have hread : bufReadRange s.ficOut (256 * f) 256 = some fib := (bufReadRange_eq_some _ _ _ _).2 ⟨hlen, hheld⟩
  simp only [opCrc16, if_neg (Nat.not_le.2 hf), hread, crcOk_iff, append_eq_shiftLeft_or]

theorem opCrc16_refused {s : State} {f : Nat} (hf : fibsPerFrame (mode s) ≤ f) :
    opCrc16 f s = .done s .illegal 0 := if_pos hf

theorem exec_crc16 (f : Nat) (s : State) : exec (.crc16 f) s = hostUnit (.crc16 f) (opCrc16 f) s := rfl

/-- Settles O39: the check register is the fold over the first bits of the payload, the field the number of the FIB's
last bits. -/
theorem crcResult : Obligations.CrcResult := by
  unfold Obligations.CrcResult
  intro s f hrun
  rw [exec_crc16]
  refine ⟨fun fib hf hlen hheld => ?written, fun hf => ?refused⟩
  case refused => exact hostUnit_done _ _ _ _ _ _ hrun (opCrc16_refused hf)
  case written =>
    exact ⟨crcRegister (mode s) fib, fibCrc (mode s) fib, fibField fib, rfl,
      fun j hj => crcRegister_succ _ (by omega), fibCrc_eq_register _ _, fibField_toNat hlen, crcOk_iff _ _,
      hostUnit_done _ _ _ _ _ _ hrun (opCrc16_written hf hlen hheld)⟩

end Sys2Proof.Proofs
end

section
/-! PROOF. The command `FICDEC` (`43_fic_decoder.md` R183, R190 to R196): the blocks of `FIC_ACC`, the dispersal
sequence, the decoded bits and their FIBs, and with them `FicdecResult`. -/

open Sys2Proof Sys2Proof.Machine Sys2Proof.Laws

namespace Sys2Proof.Proofs

/-! ## The blocks of `FIC_ACC` -/

theorem accRead_zeroed (b : Buf Soft) (a : Nat) : accRead true b a = some ((accRead true b a).getD 0) := by
  unfold accRead
  cases bufRead b a <;> rfl

/-- `n` elements from `off` on of a zeroed `FIC_ACC`. -/
def accSlice (b : Buf Soft) (off n : Nat) : List Soft := (List.range n).map fun q => (accRead true b (off + q)).getD 0

theorem accReadRange_zeroed (b : Buf Soft) (off n : Nat) : accReadRange true b off n = some (accSlice b off n) := by
  induction n generalizing off with
  | zero => rfl
  | succ n ih =>
    have hcons : accSlice b off (n + 1) = (accRead true b off).getD 0 :: accSlice b (off + 1) n := by
      simp [accSlice, List.range_succ_eq_map, Function.comp_def, Nat.add_assoc, Nat.add_comm 1]
    rw [accReadRange, ih, accRead_zeroed, hcons]

/-- The blocks `n, …, n + k - 1` of a zeroed `FIC_ACC`. -/
def accBlocks (s : State) (n k : Nat) : List (List Soft) :=
  (List.range' n k).map fun i => accSlice s.ficAcc (i * motherLen (mode s)) (motherLen (mode s))

theorem ficBlocks_zeroed {s : State} (hz : s.ficAccZeroed = true) (k n : Nat) :
    ficBlocks s k n = some (accBlocks s n k) := by
  induction k generalizing n with
  | zero => rfl
  | succ k ih =>
    rw [ficBlocks, ih, hz, accReadRange_zeroed]
    rfl

theorem accBlocks_getD (s : State) {n q : Nat} (hn : n < (mode s).nBlk) (hq : q < motherLen (mode s)) :
    ((accBlocks s 0 (mode s).nBlk).getD n [])[q]? = accRead true s.ficAcc (n * motherLen (mode s) + q) := by
  rw [accRead_zeroed]
  simp [accBlocks, accSlice, hn, hq]

/-! ## The dispersal sequence (R193) -/

/-- The bit after the bits `h`, latest first. -/
def prbsNext (taps : List Nat) (h : List Bool) : Bool := taps.foldl (fun b d => xor b (h.getD (d - 1) false)) false

/-- The bits before bit `t`, latest first. -/
def prbsHistory (taps : List Nat) (h : List Bool) (t : Nat) : List Bool := (fun h => prbsNext taps h :: h)^[t] h

theorem prbsHistory_succ (taps : List Nat) (h : List Bool) (t : Nat) :
    prbsHistory taps h (t + 1) = prbsNext taps (prbsHistory taps h t) :: prbsHistory taps h t :=
  Function.iterate_succ_apply' _ t h

theorem prbsFrom_length (taps : List Nat) (n : Nat) (h : List Bool) : (prbsFrom taps n h).length = n := by
  induction n generalizing h with
  | zero => rfl
  | succ n ih => rw [prbsFrom, List.length_cons, ih]

theorem prbsFrom_getD (taps : List Nat) {n t : Nat} (h : List Bool) (ht : t < n) :
    (prbsFrom taps n h).getD t false = prbsNext taps (prbsHistory taps h t) := by
  induction n generalizing h t with
  | zero => omega
  | succ n ih =>
    cases t with
    | zero => rfl
    | succ t => exact ih _ (Nat.lt_of_succ_lt_succ ht)

/-- The dispersal sequence, with `PRBS_INIT` before bit 0, latest first. -/
def prbsAt (m : Mode) : Int → Bool
  | .ofNat t => prbsNext m.prbsTaps (prbsHistory m.prbsTaps m.prbsInit t)
  | .negSucc j => m.prbsInit.getD j false

theorem prbsAt_neg (m : Mode) (j : Nat) : prbsAt m (-1 - j) = m.prbsInit.getD j false := by
  rw [show (-1 - j : Int) = .negSucc j by omega, prbsAt]

theorem prbsHistory_getD (m : Mode) (t k : Nat) :
    (prbsHistory m.prbsTaps m.prbsInit t).getD k false = prbsAt m (t - 1 - k) := by
  induction t generalizing k with
  | zero => exact (prbsAt_neg m k).symm
  | succ t ih =>
    rw [prbsHistory_succ]
    cases k with
    | zero =>
      rw [show ((t + 1 : Nat) - 1 - (0 : Nat) : Int) = .ofNat t by simp]
      rfl
    | succ k =>
      rw [List.getD_cons_succ, ih]
      congr 1
      omega

theorem prbsAt_recurrence {m : Mode} (htaps : ∀ d ∈ m.prbsTaps, 1 ≤ d) (t : Nat) :
    prbsAt m t = m.prbsTaps.foldl (fun (b : Bool) (d : Nat) => xor b (prbsAt m (t - d))) false := by
  refine List.foldl_ext _ _ _ fun b d hd => ?_
  have hd := htaps d hd
  rw [prbsHistory_getD]
  congr 2
  omega

theorem prbs_getD (m : Mode) {t : Nat} (ht : t < m.blkOut) : (prbs m).getD t false = prbsAt m t := prbsFrom_getD _ _ ht

/-! ## The decoded bits (R190) -/

theorem decodeBlock_length {m : Mode} (hK : 1 ≤ m.convK) (y : List Soft) : (decodeBlock m y).length = m.blkOut := by
  obtain ⟨hlen, -⟩ := viterbi_spec m y hK
  rw [decodeBlock, List.length_zipWith, hlen, prbs, prbsFrom_length, Nat.min_self]

theorem decodeBlock_getD {m : Mode} (hK : 1 ≤ m.convK) (y : List Soft) {t : Nat} (ht : t < m.blkOut) :
    (decodeBlock m y).getD t false = xor ((viterbi m y).getD t false) (prbsAt m t) := by
  obtain ⟨hlen, -⟩ := viterbi_spec m y hK
  have hviterbi : t < (viterbi m y).length := hlen ▸ ht
  have hprbs : t < (prbs m).length := by rwa [prbs, prbsFrom_length]
  have hblock : t < (decodeBlock m y).length := by rwa [decodeBlock_length hK]
  rw [← prbs_getD m ht, List.getD_eq_getElem _ _ hblock, List.getD_eq_getElem _ _ hviterbi,
    List.getD_eq_getElem _ _ hprbs]
  exact List.getElem_zipWith

section
variable {α β : Type} {f : α → List β} {k : Nat} (hf : ∀ a, (f a).length = k)
include hf

theorem flatMap_length (l : List α) : (l.flatMap f).length = l.length * k := by simp [List.length_flatMap, hf]

/-- Of blocks of equal length the place of an element gives its block. -/
theorem flatMap_getD (l : List α) {n t : Nat} (hn : n < l.length) (ht : t < k) (a : α) (b : β) :
    (l.flatMap f).getD (n * k + t) b = (f (l.getD n a)).getD t b := by
  induction l generalizing n with
  | nil => simp at hn
  | cons c l ih =>
    rw [List.flatMap_cons]
    cases n with
    | zero => rw [Nat.zero_mul, Nat.zero_add, List.getD_append _ _ _ _ (by rwa [hf]), List.getD_cons_zero]
    | succ n =>
      rw [List.getD_append_right _ _ _ _ (by rw [hf, Nat.succ_mul]; omega), List.getD_cons_succ,
        ← ih (Nat.lt_of_succ_lt_succ hn), hf, Nat.succ_mul, show n * k + k + t - k = n * k + t by omega]

end

/-- The bits that `FICDEC` leaves in `FIC_OUT`. -/
def decodedBits (s : State) : List Bool := (accBlocks s 0 (mode s).nBlk).flatMap (decodeBlock (mode s))

theorem accBlocks_length (s : State) (n k : Nat) : (accBlocks s n k).length = k := by simp [accBlocks]

theorem decodedBits_length {s : State} (hs : ModeOk s) :
    (decodedBits s).length = (mode s).nBlk * (mode s).blkOut := by
  rw [decodedBits, flatMap_length (decodeBlock_length (convK_pos hs)), accBlocks_length]

theorem decodedBits_getD {s : State} (hs : ModeOk s) {n t : Nat} (hn : n < (mode s).nBlk) (ht : t < (mode s).blkOut) :
    (decodedBits s).getD (n * (mode s).blkOut + t) false =
      xor ((viterbi (mode s) ((accBlocks s 0 (mode s).nBlk).getD n [])).getD t false) (prbsAt (mode s) t) := by
  have hK := convK_pos hs
  rw [decodedBits, flatMap_getD (decodeBlock_length hK) _ (by rwa [accBlocks_length]) ht [], decodeBlock_getD hK _ ht]

/-! ## The FIBs (R194) -/

theorem fibsOf_length (n : Nat) (bits : List Bool) : (fibsOf n bits).length = n := by
  induction n generalizing bits with
  | zero => rfl
  | succ n ih => rw [fibsOf, List.length_cons, ih]

theorem fibsOf_getD {n f : Nat} (hf : f < n) (bits : List Bool) :
    (fibsOf n bits).getD f [] = (bits.drop (256 * f)).take 256 := by
  induction n generalizing f bits with
  | zero => omega
  | succ n ih =>
    rw [fibsOf]
    cases f with
    | zero => rfl
    | succ f => rw [List.getD_cons_succ, ih (Nat.lt_of_succ_lt_succ hf), List.drop_drop, Nat.mul_succ, Nat.add_comm]

/-! ## `FICDEC` (R183, R190, R196) -/

/-- The state after the walk over the decoded bits `out`, of which `g` FIBs pass the check and `b` fail it. -/
def ficDecoded (s : State) (out : List Bool) (g b : Word) : State :=
  { s with
    ficOut := bufOf 0 out
    fibOut := s.fibOut ++ (fibsOf (fibsPerFrame (mode s)) out).filter (crcOk (mode s)), fibGood := g, fibBad := b
    badFrames := if g = 0 then s.badFrames + 1 else s.badFrames
    ficState := if g = 0 then .invalid else .valid
    ficSync := if g = 0 then s.ficSync else true
    event := s.event ||| 8, evt := s.evt ++ [.ficQuality g b] }

/-- How many FIBs of the decoded bits `out` pass the check. -/
def goodFibs (s : State) (out : List Bool) : Nat :=
  ((fibsOf (fibsPerFrame (mode s)) out).filter (crcOk (mode s))).length

theorem goodFibs_le (s : State) (out : List Bool) : goodFibs s out ≤ fibsPerFrame (mode s) :=
  (List.length_filter_le _ _).trans (fibsOf_length _ _).le

theorem goodFibs_add_rest (s : State) (out : List Bool) :
    BitVec.ofNat 32 (goodFibs s out) + BitVec.ofNat 32 (fibsPerFrame (mode s) - goodFibs s out) =
      BitVec.ofNat 32 (fibsPerFrame (mode s)) := by
  rw [← BitVec.ofNat_add, Nat.add_sub_cancel' (goodFibs_le s out)]

theorem ficWalk_eq {s : State} {out : List Bool} {g b : Word} (hg : s.fibGood + BitVec.ofNat 32 (goodFibs s out) = g)
    (hb : s.fibBad + BitVec.ofNat 32 (fibsPerFrame (mode s) - goodFibs s out) = b) :
    ficWalk s out = ficDecoded s out g b := by
  rw [goodFibs] at hg hb
  simp only [ficWalk, ficDecoded, fibsOf_length, hg, hb]
  by_cases h : g = 0
  · simp only [if_pos h]
    rfl
  · simp only [if_neg h]
    rfl

theorem opFicdec_full {s : State} (hstate : s.ficState = .accumulating) (hidx : s.ficIdx = 4)
    (hz : s.ficAccZeroed = true) (hgood : s.fibGood = 0) (hbad : s.fibBad = 0) {g b : Word}
    (hg : g = BitVec.ofNat 32 (goodFibs s (decodedBits s)))
    (hb : b = BitVec.ofNat 32 (fibsPerFrame (mode s) - goodFibs s (decodedBits s))) :
    opFicdec s = .done (ficDecoded s (decodedBits s) g b) (if g = 0 then .fail else .ok) ((b <<< 16) ||| g) := by
  have hfull : ¬ (s.ficState ≠ .accumulating ∨ s.ficIdx ≠ Config.ficSyms) := by simp [hstate, hidx]
  have hwalk : ficWalk s ((accBlocks s 0 (mode s).nBlk).flatMap (decodeBlock (mode s))) =
      ficDecoded s (decodedBits s) g b := by
    rw [hg, hb]
    exact ficWalk_eq (by rw [hgood]; exact BitVec.zero_add _) (by rw [hbad]; exact BitVec.zero_add _)
  rw [opFicdec, if_neg hfull, ficBlocks_zeroed hz]
  simp only [hwalk, ficDecoded]
  by_cases h : g = 0 <;> simp [h]

theorem opFicdec_refused {s : State} (h : s.ficState ≠ .accumulating ∨ s.ficIdx ≠ 4) :
    opFicdec s = .done s .illegal 0 := if_pos h

theorem exec_ficdec (s : State) : exec .ficdec s = hostUnit .ficdec opFicdec s := rfl

/-- Settles O36: a zeroed `FIC_ACC` is read whole, and the walk over its decoded blocks is the record of R190. -/
theorem ficdecResult : Obligations.FicdecResult := by
  unfold Obligations.FicdecResult
  refine ⟨fun s hrun h => ?refused, fun s hs hrun hstate hidx hz hgood hbad => ?decoded⟩
  case refused => exact hostUnit_done _ _ _ _ _ _ hrun (opFicdec_refused h)
  case decoded =>
    exact ⟨accBlocks s 0 (mode s).nBlk, prbsAt (mode s), decodedBits s, fibsOf (fibsPerFrame (mode s)) (decodedBits s),
      _, _, accBlocks_length _ _ _, fun n q => accBlocks_getD s, fun j _ => prbsAt_neg _ j,
      prbsAt_recurrence (prbsTaps_pos hs), decodedBits_length hs, fun n t => decodedBits_getD hs, fibsOf_length _ _,
      fun f hf => fibsOf_getD hf _, rfl,
      goodFibs_add_rest s _, hostUnit_done _ _ _ _ _ _ hrun (opFicdec_full hstate hidx hz hgood hbad rfl rfl)⟩

end Sys2Proof.Proofs
end

section
/-! PROOF. The subscription commands (`45_msc_demux.md` R242 to R246): the table's entries of a key, what each command
does to the table, and with them `SubscribeResult`, `SubscribeTwice` and `UnsubscribeResult`. -/

open Sys2Proof Sys2Proof.Machine

namespace Sys2Proof.Proofs

/-! ## Entries of a key (R242) -/

section
variable {sid : Word} {comp : BitVec 16} {l : List Sub}

theorem hasKey_iff (e : Sub) : hasKey sid comp e = true ↔ e.sid = sid ∧ e.comp = comp := decide_eq_true_iff

theorem any_hasKey_iff : l.any (hasKey sid comp) = true ↔ ∃ e ∈ l, e.sid = sid ∧ e.comp = comp := by
  simp only [List.any_eq_true, hasKey_iff]

theorem any_hasKey_eq_false_iff : l.any (hasKey sid comp) = false ↔ ∀ e ∈ l, ¬ (e.sid = sid ∧ e.comp = comp) := by
  simp only [List.any_eq_false, hasKey_iff]

end

/-! ## `SUBSCRIBE` (R243) -/

section
variable {sink : BitVec 8} {comp : BitVec 16} {sid : Word} {len addr : Nat} {s : State}

theorem exec_subscribe : exec (.subscribe sink comp sid len addr) s = execSubscribe sink comp sid len addr s := rfl

theorem exec_subscribe_duplicate (hkey : s.subs.any (hasKey sid comp) = true) :
    exec (.subscribe sink comp sid len addr) s = .next (respond s .fail 1) := by
  rw [exec_subscribe, execSubscribe, if_pos hkey]

theorem exec_subscribe_range (hkey : s.subs.any (hasKey sid comp) = false)
    (hrange : len = 0 ∨ cifCus (mode s) < addr + len) :
    exec (.subscribe sink comp sid len addr) s = .next (respond s .illegal 0) := by
  rw [exec_subscribe, execSubscribe, if_neg (ne_true_of_eq_false hkey), if_pos hrange]

theorem exec_subscribe_full (hkey : s.subs.any (hasKey sid comp) = false)
    (hrange : ¬ (len = 0 ∨ cifCus (mode s) < addr + len)) (hfull : s.cfg.maxSubs ≤ s.subs.length) :
    exec (.subscribe sink comp sid len addr) s = .next (respond s .fail 2) := by
  rw [exec_subscribe, execSubscribe, if_neg (ne_true_of_eq_false hkey), if_neg hrange, if_pos hfull]

theorem exec_subscribe_accepted (hkey : s.subs.any (hasKey sid comp) = false)
    (hrange : ¬ (len = 0 ∨ cifCus (mode s) < addr + len)) (hroom : s.subs.length < s.cfg.maxSubs) :
    exec (.subscribe sink comp sid len addr) s =
      .next (respond { s with subs := s.subs ++ [⟨sid, comp, addr, len, sink⟩] } .ok
        (BitVec.ofNat 32 (s.subs.length + 1))) := by
  rw [exec_subscribe, execSubscribe, if_neg (ne_true_of_eq_false hkey), if_neg hrange, if_neg (Nat.not_le.2 hroom)]
  simp only [List.length_append, List.length_singleton]

/-- Only the last of the four answers is `OK`, so an accepted subscription has found no entry of its key and has
appended its own. -/
theorem subs_of_subscribe_ok {t : State} {v : Word} (h : exec (.subscribe sink comp sid len addr) s = .next t)
    (hok : t.rsp = s.rsp ++ [⟨.ok, v⟩]) :
    s.subs.any (hasKey sid comp) = false ∧ t.subs = s.subs ++ [⟨sid, comp, addr, len, sink⟩] := by
  cases hkey : s.subs.any (hasKey sid comp) with
  | true =>
    cases (exec_subscribe_duplicate hkey).symm.trans h
    simp at hok
  | false =>
    by_cases hrange : len = 0 ∨ cifCus (mode s) < addr + len
    · cases (exec_subscribe_range hkey hrange).symm.trans h
      simp at hok
    · by_cases hfull : s.cfg.maxSubs ≤ s.subs.length
      · cases (exec_subscribe_full hkey hrange hfull).symm.trans h
        simp at hok
      · cases (exec_subscribe_accepted hkey hrange (Nat.not_le.1 hfull)).symm.trans h
        exact ⟨rfl, rfl⟩

end

/-! ## `UNSUBSCRIBE`, `RESET_SUBS` (R244, R245) -/

section
variable {comp : BitVec 16} {sid : Word} {s : State}

theorem exec_unsubscribe : exec (.unsubscribe comp sid) s = execUnsubscribe comp sid s := rfl

theorem exec_unsubscribe_missing (hkey : s.subs.any (hasKey sid comp) = false) :
    exec (.unsubscribe comp sid) s = .next (respond s .fail 0) := by
  rw [exec_unsubscribe, execUnsubscribe, if_neg (ne_true_of_eq_false hkey)]

theorem exec_unsubscribe_found {a b : List Sub} {e : Sub} (hsubs : s.subs = a ++ e :: b)
    (hkey : hasKey sid comp e = true) (hfirst : a.any (hasKey sid comp) = false) :
    exec (.unsubscribe comp sid) s =
      .next (respond { s with subs := a ++ b } .ok (BitVec.ofNat 32 (a.length + b.length))) := by
  have hfound : s.subs.any (hasKey sid comp) = true := by simp [hsubs, hkey]
  have herase : s.subs.eraseP (hasKey sid comp) = a ++ b := by
    rw [hsubs, List.eraseP_append_right _ (fun x hx => List.any_eq_false.1 hfirst x hx), List.eraseP_cons_of_pos hkey]
  simp only [exec_unsubscribe, execUnsubscribe, if_pos hfound, herase, List.length_append]

theorem exec_resetSubs (s : State) : exec .resetSubs s = .next (respond { s with subs := [] } .ok 0) := rfl

end

/-- Word 0 of `UNSUBSCRIBE`: its opcode over its component. -/
theorem unsubscribe_word0 (comp : BitVec 16) : (0x06000000 ||| comp.setWidth 32 : Word) = word0 0x06 0 comp :=
  (append_eq_shiftLeft_or 0x0600 comp).symm

/-! ## The obligations -/

/-- Settles O14: the guards of `SUBSCRIBE`, in their order. -/
theorem subscribeResult : Obligations.SubscribeResult := by
  unfold Obligations.SubscribeResult
  intro sink comp sid len addr s
  refine ⟨fun hdup => exec_subscribe_duplicate (any_hasKey_iff.2 hdup), fun hnew => ?_⟩
  have hkey := any_hasKey_eq_false_iff.2 hnew
  refine ⟨exec_subscribe_range hkey, fun hlen hfits => ?_⟩
  have hrange : ¬ (len = 0 ∨ cifCus (mode s) < addr + len) := by omega
  exact ⟨exec_subscribe_full hkey hrange, exec_subscribe_accepted hkey hrange⟩

/-- Settles O15: the entry that an accepted subscription appends is the only one of its key, and the next subscription
of the key finds it. -/
theorem subscribeTwice : Obligations.SubscribeTwice := by
  unfold Obligations.SubscribeTwice
  intro sink sink' comp sid len addr len' addr' s t v hexec hok
  obtain ⟨hnew, hsubs⟩ := subs_of_subscribe_ok hexec hok
  have hnone : s.subs.filter (hasKey sid comp) = [] := List.filter_eq_nil_iff.2 (List.any_eq_false.1 hnew)
  have hself : hasKey sid comp ⟨sid, comp, addr, len, sink⟩ = true := (hasKey_iff _).2 ⟨rfl, rfl⟩
  have hdup : t.subs.any (hasKey sid comp) = true := by simp [hsubs, hself]
  have hone : (t.subs.filter (hasKey sid comp)).length = 1 := by
    rw [hsubs, List.filter_append, hnone, List.filter_cons_of_pos hself]
    rfl
  exact ⟨by simp [hsubs], hone, exec_subscribe_duplicate hdup⟩

/-- Settles O16: the words are those of the commands' encodings, and the entry removed is the first of its key. -/
theorem unsubscribeResult : Obligations.UnsubscribeResult := by
  unfold Obligations.UnsubscribeResult
  refine ⟨fun comp sid => ?words, decodeEncode .resetSubs [] rfl, fun comp sid s a b e hsubs he hothers => ?found,
    fun comp sid s hmissing => exec_unsubscribe_missing (any_hasKey_eq_false_iff.2 hmissing), exec_resetSubs⟩
  case words =>
    rw [unsubscribe_word0]
    exact decodeEncode (.unsubscribe comp sid) [] rfl
  case found =>
    have hfirst := any_hasKey_eq_false_iff.2 fun x hx => hothers x (List.mem_append_left b hx)
    exact exec_unsubscribe_found hsubs ((hasKey_iff e).2 he) hfirst

end Sys2Proof.Proofs
end

section
/-! PROOF. The commands `MSCPUSH` and `CIFPOP` and the step of `DMX` (`45_msc_demux.md` R247 to R252): the slots of a CIF,
the records sliced from it, and with them `MscpushResult` and `CifpopResult`. -/

open Sys2Proof Sys2Proof.Machine

namespace Sys2Proof.Proofs

/-! ## `MSCPUSH` (R248) -/

section
variable {s : State} {n : Nat}

theorem fifoFull_iff : fifoFull s = true ↔ (mode s).symbols ≤ s.fifo.length := decide_eq_true_iff

theorem opMscpush_range (h : n < 5 ∨ (mode s).symbols ≤ n) : opMscpush n s = .done s .illegal 0 := if_pos h

theorem opMscpush_full (hn : ¬ (n < 5 ∨ (mode s).symbols ≤ n)) (hfull : (mode s).symbols ≤ s.fifo.length) :
    opMscpush n s = .done s .fail (BitVec.ofNat 32 s.fifo.length) := by
  rw [opMscpush, if_neg hn, if_pos (fifoFull_iff.2 hfull)]

theorem opMscpush_accepted {v : List Soft} (hn : ¬ (n < 5 ∨ (mode s).symbols ≤ n))
    (hroom : s.fifo.length < (mode s).symbols) (hlen : v.length = nSoft (mode s)) (hheld : Holds s.soft 0 v) :
    opMscpush n s = .done { s with fifo := s.fifo ++ [⟨n, v⟩] } .ok (BitVec.ofNat 32 (s.fifo.length + 1)) := by
  have hread : bufReadRange s.soft 0 (nSoft (mode s)) = some v := (bufReadRange_eq_some _ _ _ _).2 ⟨hlen, hheld⟩
  have hfull : ¬ fifoFull s = true := fun h => Nat.not_le.2 hroom (fifoFull_iff.1 h)
  simp only [opMscpush, if_neg hn, if_neg hfull, hread]

theorem exec_mscpush (n : Nat) (s : State) : exec (.mscpush n) s = hostUnit (.mscpush n) (opMscpush n) s := rfl

end

/-! ## Slots (R249, R250) -/

theorem mem_insertRising {p k : Nat} {l : List Nat} : k ∈ insertRising p l ↔ k = p ∨ k ∈ l := by
  induction l with
  | nil => simp [insertRising]
  | cons q l ih =>
    rw [insertRising]
    split_ifs with hlt heq
    · simp
    · simp [heq]
    · rw [List.mem_cons, ih, List.mem_cons]
      tauto

theorem cifComplete_iff (m : Mode) (valid : List Nat) :
    cifComplete m valid = true ↔ ∀ k, k < symsPerCif m → k ∈ valid := by
  simp [cifComplete]

theorem holds_bufWriteRange {α : Type} (b : Buf α) (off : Nat) (vs : List α) :
    Holds (bufWriteRange b off vs) off vs := by
  intro j hj
  rw [bufRead_writeRange, if_pos (by omega), Nat.add_sub_cancel_left]

theorem bufRead_writeRange_outside {α : Type} (b : Buf α) {off a : Nat} {vs : List α}
    (h : a < off ∨ off + vs.length ≤ a) : bufRead (bufWriteRange b off vs) a = bufRead b a := by
  rw [bufRead_writeRange, if_neg (by omega)]

section
variable (s : State) (e : FifoEntry) (q : List FifoEntry)

@[simp] theorem placeHead_subs : (placeHead s e q).subs = s.subs := rfl
@[simp] theorem placeHead_cuOut : (placeHead s e q).cuOut = s.cuOut := rfl

end

/-- Slot 0 begins a CIF: the slots held before it do not count. -/
theorem mem_placeHead_cifValid {s : State} {e : FifoEntry} {q : List FifoEntry} {k : Nat} :
    k ∈ (placeHead s e q).cifValid ↔
      k = cifSlot (mode s) e.sym ∨ cifSlot (mode s) e.sym ≠ 0 ∧ k ∈ s.cifValid := by
  rw [placeHead, mem_insertRising]
  split_ifs with h <;> simp [h]

/-! ## The records of the table (R249, R252) -/

/-- A subscription's record: its key, and the elements of the CIF that it covers. -/
def SlicesTo (m : Mode) (c : Buf Soft) (x : Sub) (r : CuRecord) : Prop :=
  r.sink = x.sink ∧ r.sid = x.sid ∧ r.comp = x.comp ∧
    r.bits.length = x.len * m.cuBits ∧ Holds c (x.start * m.cuBits) r.bits

/-- Every element of the CIF that a subscription covers is written. -/
def SubWritten (m : Mode) (c : Buf Soft) (x : Sub) : Prop := Written c (x.start * m.cuBits) (x.len * m.cuBits)

section
variable {m : Mode} {c : Buf Soft}

theorem cuRecord_eq_some {x : Sub} {r : CuRecord} : cuRecord m c x = some r ↔ SlicesTo m c x r := by
  obtain ⟨sink, sid, comp, bits⟩ := r
  simp only [cuRecord, SlicesTo, Option.map_eq_some_iff, bufReadRange_eq_some, CuRecord.mk.injEq]
  constructor
  · rintro ⟨v, hv, rfl, rfl, rfl, rfl⟩
    exact ⟨rfl, rfl, rfl, hv⟩
  · rintro ⟨rfl, rfl, rfl, hv⟩
    exact ⟨bits, hv, rfl, rfl, rfl, rfl⟩

theorem cuRecord_eq_none {x : Sub} : cuRecord m c x = none ↔ ¬ SubWritten m c x := by
  rw [cuRecord, Option.map_eq_none_iff, bufReadRange_eq_none, SubWritten]

theorem cuRecords_cons_eq_some {x : Sub} {subs : List Sub} {rs : List CuRecord} :
    cuRecords m c (x :: subs) = some rs ↔
      ∃ r rs', cuRecord m c x = some r ∧ cuRecords m c subs = some rs' ∧ rs = r :: rs' := by
  rw [cuRecords]
  cases cuRecord m c x <;> cases cuRecords m c subs <;> simp [eq_comm]

theorem cuRecords_eq_some {subs : List Sub} {rs : List CuRecord} :
    cuRecords m c subs = some rs ↔ List.Forall₂ (SlicesTo m c) subs rs := by
  induction subs generalizing rs with
  | nil => simp [cuRecords, eq_comm]
  | cons x subs ih => simp only [cuRecords_cons_eq_some, cuRecord_eq_some, ih, List.forall₂_cons_left_iff]

theorem cuRecords_eq_none {subs : List Sub} :
    cuRecords m c subs = none ↔ ¬ ∀ x ∈ subs, SubWritten m c x := by
  induction subs with
  | nil => simp [cuRecords]
  | cons x subs ih =>
    have hcons : cuRecords m c (x :: subs) = none ↔ cuRecord m c x = none ∨ cuRecords m c subs = none := by
      rw [cuRecords]
      cases cuRecord m c x <;> cases cuRecords m c subs <;> simp
    rw [hcons, cuRecord_eq_none, ih, List.forall_mem_cons, not_and_or]

end

/-! ## `CIFPOP` (R249, R251) -/

theorem opCifpop_empty {s : State} (h : s.fifo = []) : opCifpop s = .done s .fail 0 := by rw [opCifpop, h]

section
variable {s : State} {e : FifoEntry} {q : List FifoEntry} (hfifo : s.fifo = e :: q)
  (hlen : e.bits.length = nSoft (mode s))
include hfifo hlen

theorem opCifpop_between (hslot : cifSlot (mode s) e.sym + 1 ≠ symsPerCif (mode s)) :
    opCifpop s = .done (placeHead s e q) .ok 0 := by
  simp only [opCifpop, hfifo, if_neg (not_not.2 hlen), if_pos hslot]

variable (hslot : cifSlot (mode s) e.sym + 1 = symsPerCif (mode s))
include hslot

theorem opCifpop_incomplete (hvalid : ¬ cifComplete (mode s) (placeHead s e q).cifValid = true) :
    opCifpop s = .done { placeHead s e q with cifValid := [] } .ok 0 := by
  simp only [opCifpop, hfifo, if_neg (not_not.2 hlen), if_neg (not_not.2 hslot), if_neg hvalid]

variable (hvalid : cifComplete (mode s) (placeHead s e q).cifValid = true)
include hvalid

theorem opCifpop_unwritten (hrecords : cuRecords (mode s) (placeHead s e q).cif s.subs = none) :
    opCifpop s = .fault (.readUnwritten .cif) := by
  simp only [opCifpop, hfifo, if_neg (not_not.2 hlen), if_neg (not_not.2 hslot), if_pos hvalid, placeHead_subs,
    hrecords]

theorem opCifpop_complete {rs : List CuRecord} (hrecords : cuRecords (mode s) (placeHead s e q).cif s.subs = some rs) :
    opCifpop s = .done { placeHead s e q with cuOut := s.cuOut ++ rs, cifValid := [] } .ok
      (BitVec.ofNat 32 rs.length) := by
  simp only [opCifpop, hfifo, if_neg (not_not.2 hlen), if_neg (not_not.2 hslot), if_pos hvalid, placeHead_subs,
    placeHead_cuOut, hrecords]

end

/-- `CIFPOP` reads no sample, so it never waits. -/
theorem opCifpop_ne_waits (s t : State) : opCifpop s ≠ .waits t := by
  rw [opCifpop]
  split
  case h_1 => simp
  case h_2 e q hfifo =>
    dsimp only
    split_ifs
    · simp
    · simp
    · split <;> simp
    · simp

/-- A fault of a unit operation is that of its command. -/
theorem hostUnit_fault {i : Instr} {op : State → OpRes} {s : State} {f : Fault} (hrun : s.run = false)
    (hop : op s = .fault f) : hostUnit i op s = .fault f := by simp [hostUnit, hostOutcome, hrun, hop]

theorem exec_cifpop (s : State) : exec .cifpop s = hostUnit .cifpop opCifpop s := rfl

/-! ## The step of `DMX` (R247) -/

theorem dmxStep_idle {s : State} (h : s.ctrl.getLsbD 0 = false ∨ s.fifo = []) : dmxStep s = .next s := if_pos h

theorem dmxStep_active {s : State} (hasync : s.ctrl.getLsbD 0 = true) (hfifo : s.fifo ≠ []) :
    (∃ t st v, opCifpop s = .done t st v ∧ dmxStep s = .next t) ∨
    ∃ f, opCifpop s = .fault f ∧ dmxStep s = .fault f := by
  have hguard : ¬ (dmxAsync s = false ∨ s.fifo = []) := by simp [dmxAsync, hasync, hfifo]
  rw [dmxStep, if_neg hguard]
  cases h : opCifpop s with
  | done t st v => exact .inl ⟨t, st, v, rfl, rfl⟩
  | waits t => exact absurd h (opCifpop_ne_waits s t)
  | fault f => exact .inr ⟨f, rfl, rfl⟩

/-- The step of `DMX` is the command `CIFPOP` at `RUN = 0` but for its response (R90). -/
theorem dmxStep_eq_cifpop {s : State} (hasync : s.ctrl.getLsbD 0 = true) (hfifo : s.fifo ≠ []) :
    (∀ t, exec .cifpop { s with run := false } = .next t → dmxStep s = .next { t with run := s.run, rsp := s.rsp }) ∧
    ∀ f, exec .cifpop { s with run := false } = .fault f → dmxStep s = .fault f := by
  obtain ⟨hdone, -, hfault⟩ := operationsAlike .cifpop s (opCifpop s) rfl (.inr rfl)
  obtain ⟨t, st, v, hop, hdmx⟩ | ⟨f, hop, hdmx⟩ := dmxStep_active hasync hfifo
  · obtain ⟨hexec, hrun, hrsp, -, -⟩ := hdone t st v hop
    rw [hexec, hdmx, ← hrun, ← hrsp]
    exact ⟨by rintro _ ⟨⟩; rfl, by rintro _ ⟨⟩⟩
  · rw [hfault f hop, hdmx]
    exact ⟨by rintro _ ⟨⟩, by rintro _ ⟨⟩; rfl⟩

/-! ## The obligations -/

/-- Settles O40: the guards of `MSCPUSH`, and the copy it appends. -/
theorem mscpushResult : Obligations.MscpushResult := by
  unfold Obligations.MscpushResult
  intro s n hrun
  rw [exec_mscpush]
  refine ⟨fun h => hostUnit_done _ _ _ _ _ _ hrun (opMscpush_range h), fun hfirst hlast => ?_⟩
  have hn : ¬ (n < 5 ∨ (mode s).symbols ≤ n) := by omega
  exact ⟨fun hfull => hostUnit_done _ _ _ _ _ _ hrun (opMscpush_full hn hfull.ge),
    fun v hroom hlen hheld => hostUnit_done _ _ _ _ _ _ hrun (opMscpush_accepted hn hroom hlen hheld)⟩

/-- Settles O41: the head is placed in its slot; after the last slot of a complete CIF the table is sliced. -/
theorem cifpopResult : Obligations.CifpopResult := by
  unfold Obligations.CifpopResult
  refine ⟨fun s => ⟨dmxStep_idle, dmxStep_eq_cifpop⟩, fun s _ hrun => ?_⟩
  have answers {t : State} {st : Status} {v : Word} (hop : opCifpop s = .done t st v) :
      exec .cifpop s = .next (respond t st v) := hostUnit_done _ _ _ _ _ _ hrun hop
  refine ⟨fun hempty => answers (opCifpop_empty hempty), fun e q hfifo hlen => ?_⟩
  have hcomplete := cifComplete_iff (mode s) (placeHead s e q).cifValid
  refine ⟨cifSlot (mode s) e.sym, (placeHead s e q).cif, (placeHead s e q).cifValid, rfl, holds_bufWriteRange _ _ _,
    fun a ha => bufRead_writeRange_outside _ ?outside, fun k => mem_placeHead_cifValid,
    fun hslot => answers (opCifpop_between hfifo hlen hslot.ne),
    fun hslot hvalid => answers (opCifpop_incomplete hfifo hlen hslot (hvalid ∘ hcomplete.1)),
    fun hslot hvalid hsubs => ?unwritten, fun hslot hvalid hsubs => ?records⟩
  case outside => rwa [hlen, ← Nat.succ_mul]
  case unwritten =>
    exact hostUnit_fault hrun (opCifpop_unwritten hfifo hlen hslot (hcomplete.2 hvalid) (cuRecords_eq_none.2 hsubs))
  case records =>
    obtain ⟨rs, hrs⟩ := Option.ne_none_iff_exists'.1 fun hnone => cuRecords_eq_none.1 hnone hsubs
    have hslices := cuRecords_eq_some.1 hrs
    refine ⟨rs, hslices, ?_⟩
    rw [answers (opCifpop_complete hfifo hlen hslot (hcomplete.2 hvalid) hrs), ← hslices.length_eq]
    rfl

end Sys2Proof.Proofs
end

section
/-! PROOF. The commands `SHIFT`, `SKIPNULL` and `FCORR` (`46_sync_controller.md` R287, R291, R295, R296): the lengths of a
well-formed mode, ranges of a buffer that are written, and with them `ShiftResult`, `SkipnullResult` and
`FcorrResult`. -/

open Sys2Proof Sys2Proof.Machine Sys2Proof.Laws

namespace Sys2Proof.Proofs

/-! ## Lengths of a well-formed mode (`70_reset_and_hazards.md` R388) -/

section
variable {s : State} (hs : ModeOk s)
include hs

theorem mode_lengthsWf : lengthsWf (mode s) = true := by
  have hwf := mode_wf hs
  simp only [modeWf, Bool.and_eq_true] at hwf
  obtain ⟨⟨⟨⟨⟨⟨⟨hlengths, -⟩, -⟩, -⟩, -⟩, -⟩, -⟩, -⟩ := hwf
  exact hlengths

theorem tS_eq : (mode s).tS = (mode s).tU + (mode s).tG := by
  have hwf := mode_lengthsWf hs
  simp only [lengthsWf, Bool.and_eq_true, decide_eq_true_iff] at hwf
  obtain ⟨⟨⟨⟨⟨htS, -⟩, -⟩, -⟩, -⟩, -⟩ := hwf
  exact htS

theorem tS_le : (mode s).tS ≤ 65535 := by
  have hwf := mode_lengthsWf hs
  simp only [lengthsWf, Bool.and_eq_true, decide_eq_true_iff] at hwf
  obtain ⟨⟨⟨-, htS⟩, -⟩, -⟩ := hwf
  exact htS

end

/-! ## Written ranges of a buffer -/

section
variable {α : Type} {b : Buf α} {off n : Nat}

theorem written_iff_holds : Written b off n ↔ ∃ v, v.length = n ∧ Holds b off v := by
  simp only [← bufReadRange_eq_some, ← Option.ne_none_iff_exists', ne_eq, bufReadRange_eq_none, not_not]

theorem written_zero : Written b off 0 := fun _ hj => absurd hj (Nat.not_lt_zero _)

theorem written_mono {off' n' : Nat} (h : Written b off n) (hoff : off ≤ off') (hend : off' + n' ≤ off + n) :
    Written b off' n' := by
  intro j hj
  have := h (off' - off + j) (by omega)
  rwa [show off + (off' - off + j) = off' + j by omega] at this

end

/-! ## `SHIFT` (R287) -/

section
variable {s : State} {n : Nat}

theorem opShift_refused (h : (mode s).tU < n) : opShift n s = .done s .illegal 0 := if_pos h

/-- The window after `SHIFT n` where its elements from `n` on are written. -/
theorem opShift_written (hn : n ≤ (mode s).tU) (hwritten : Written s.win n ((mode s).tU - n)) :
    ∃ w : Buf Cx, (∀ j, j < (mode s).tU - n → bufRead w j = bufRead s.win (j + n)) ∧
      (∀ a, (mode s).tU - n ≤ a → bufRead w a = bufRead s.win a) ∧
      opShift n s = .done { s with win := w } .ok (BitVec.ofNat 32 ((mode s).tU - n)) := by
  rw [opShift, if_neg (Nat.not_lt.2 hn)]
  by_cases h0 : n = 0
  · exact ⟨s.win, fun j _ => by rw [h0, Nat.add_zero], fun _ _ => rfl, by rw [if_pos h0, h0, Nat.sub_zero]⟩
  · obtain ⟨v, hlen, hheld⟩ := written_iff_holds.1 hwritten
    have hread : bufReadRange s.win n ((mode s).tU - n) = some v := (bufReadRange_eq_some _ _ _ _).2 ⟨hlen, hheld⟩
    refine ⟨bufWriteRange s.win 0 v, fun j hj => ?moved, fun a ha => ?kept, by rw [if_neg h0, hread]⟩
    case moved =>
      rw [← hlen] at hj
      rw [← Nat.zero_add j, holds_bufWriteRange s.win 0 v j hj, Nat.zero_add, Nat.add_comm, hheld j hj]
    case kept => exact bufRead_writeRange_outside _ (.inr (by rwa [Nat.zero_add, hlen]))

theorem exec_shift (n : Nat) (s : State) : exec (.shift n) s = hostUnit (.shift n) (opShift n) s := rfl

end

/-- Settles O19: the elements read from `n` on are written from 0 on, and `SHIFT 0` has nothing to move. -/
theorem shiftResult : Obligations.ShiftResult := by
  unfold Obligations.ShiftResult
  refine ⟨fun s n hrun hn => ?refused, fun s n hrun hn hwritten => ?moved⟩
  case refused => exact hostUnit_done _ _ _ _ _ _ hrun (opShift_refused hn)
  case moved =>
    obtain ⟨w, hmoved, hkept, hop⟩ := opShift_written hn hwritten
    exact ⟨w, hmoved, hkept, hostUnit_done _ _ _ _ _ _ hrun hop⟩

/-! ## `SKIPNULL` (R295, R296) -/

theorem opSkipnull_samples {s : State} {zs : List Cx} {rest : List SrcItem} (hs : ¬ (s.run = true ∧ s.stopreq = true))
    (hsrc : s.src = sampleItems zs ++ rest) (hlen : zs.length = (mode s).tNull) :
    opSkipnull s = .done { sampledState s zs rest with
      tiiOut := s.tiiOut ++ (if s.ctrl.getLsbD 1 then [zs] else []) } .ok (BitVec.ofNat 32 (mode s).tNull) := by
  simp only [opSkipnull, take_samples _ _ _ _ hs hlen hsrc]
  by_cases htii : s.ctrl.getLsbD 1 = true
  · rw [if_pos htii, if_pos (show tiiEn (sampledState s zs rest) = true from htii)]
    rfl
  · rw [if_neg htii, if_neg (show ¬ tiiEn (sampledState s zs rest) = true from htii), List.append_nil]
    rfl

/-- Settles O20: one read of `T_null` samples, which `TIIOUT` keeps where `TII_EN` is set. -/
theorem skipnullResult : Obligations.SkipnullResult := by
  unfold Obligations.SkipnullResult
  intro s zs rest hrun hsrc hlen
  exact hostUnit_done .skipnull opSkipnull _ _ _ _ hrun (opSkipnull_samples (by simp [hrun]) hsrc hlen)

/-! ## `FCORR` (R291) -/

/-- The sum of the products of two lists, the second conjugated. -/
theorem cxVal_cxSum_conjMul {M : Nat} (hM : 0 < M) {u g : List Cx} (hlen : u.length = g.length) :
    cxVal M (cxSum (conjMul M u g)) =
      ∑ j ∈ Finset.range g.length, cxVal M (u.getD j []) * (starRingEnd ℂ) (cxVal M (g.getD j [])) := by
  induction u generalizing g with
  | nil =>
    rw [← hlen]
    exact cxAt_nil _ M
  | cons x u ih =>
    cases g with
    | nil => simp at hlen
    | cons y g =>
      have hsum : cxSum (conjMul M (x :: u) (y :: g)) = cxAdd (cxMul M x (cxConj M y)) (cxSum (conjMul M u g)) := rfl
      rw [hsum, cxVal_add, cxVal_mul hM, cxVal_conj hM, ih (Nat.succ.inj hlen), List.length_cons, Finset.sum_range_succ',
        add_comm]
      rfl

section
variable {s : State} (hs : ModeOk s) {g u : List Cx} (hg : g.length = (mode s).tG) (hu : u.length = (mode s).tG)
  (hguard : Holds s.win 0 g) (htail : Holds s.win (mode s).tU u)
include hs hg hu hguard htail

theorem opFcorr_written :
    opFcorr s = .done { s with freqcorr := cxAdd s.freqcorr (cxSum (conjMul (order s) u g)) } .ok 0 := by
  have hT : (mode s).tS - (mode s).tU = (mode s).tG := by rw [tS_eq hs, Nat.add_sub_cancel_left]
  have hreadU : bufReadRange s.win (mode s).tU (mode s).tG = some u := (bufReadRange_eq_some _ _ _ _).2 ⟨hu, htail⟩
  have hreadG : bufReadRange s.win 0 (mode s).tG = some g := (bufReadRange_eq_some _ _ _ _).2 ⟨hg, hguard⟩
  simp only [opFcorr, hT, hreadU, hreadG]

end

/-- Settles O33: the last `T_g` elements of the window against its first, which is `T_s - T_u` of each. -/
theorem fcorrResult : Obligations.FcorrResult := by
  unfold Obligations.FcorrResult
  intro s g u hs hrun hg hu hguard htail
  refine ⟨cxAdd s.freqcorr (cxSum (conjMul (order s) u g)), ?sum,
    hostUnit_done .fcorr opFcorr _ _ _ _ hrun (opFcorr_written hs hg hu hguard htail)⟩
  rw [cxVal_add, cxVal_cxSum_conjMul (order_pos hs) (hu.trans hg.symm), hg]

end Sys2Proof.Proofs
end

section
/-! PROOF. The sequencer's steps (`46_sync_controller.md` R271): what a step makes of the answer of the operation it
issues, and with this `FrameStart`, `BoundarySteps` and `SequencerSteps`. -/

open Sys2Proof Sys2Proof.Machine Sys2Proof.Laws

namespace Sys2Proof.Proofs

/-! ## Issuing an operation (R271, R301) -/

section
variable {op : OpRes} {k : State → Status → Word → State} {t : State} {v : Word}

theorem seqUnit_of_done {st : Status} (hop : op = .done t st v) (hst : st ≠ .stopped) :
    seqUnit op k = .next (k t st v) := (seqUnit_next op k _).2 (.inr (.inl ⟨t, st, v, hst, hop, rfl⟩))

theorem seqUnit_of_stopped (hop : op = .done t .stopped v) : seqUnit op k = .next (goIdle t) :=
  (seqUnit_next op k _).2 (.inl ⟨t, v, hop, rfl⟩)

theorem seqUnit_of_waits (hop : op = .waits t) : seqUnit op k = .next t := (seqUnit_next op k _).2 (.inr (.inr hop))

end

theorem seqStep_at {s : State} {p : SeqStep} (hrun : s.run = true) (hp : s.seqStep = p) : seqStep s = program p s := by
  rw [seqStep_running hrun, hp]

/-! ## The steps by their conditions -/

section
variable {s : State}

theorem stepF0_stop (hstop : s.stopreq = true) : stepF0 s = .next (goIdle s) := if_pos hstop

theorem stepF0_frame (hstop : s.stopreq = false) : stepF0 s = seqThen (opShift s.boff (frameReset s)) .f1 :=
  if_neg (ne_true_of_eq_false hstop)

theorem stepF1_aligned (hboff : s.boff = 0) : stepF1 s = .next (moveTo .f2 s) := if_pos hboff

theorem stepF1_fill (hboff : s.boff ≠ 0) : stepF1 s = seqThen (opFill ((mode s).tU - s.boff) s.boff s) .f2 :=
  if_neg hboff

theorem stepF3_synced (hsync : s.ficSync = true) : stepF3 s = .next (firstSymbol s) := if_pos hsync

theorem stepF3_estco (hsync : s.ficSync = false) :
    stepF3 s = seqUnit (opEstco 0 s) fun t st v => firstSymbol (afterEstco t st v) :=
  if_neg (ne_true_of_eq_false hsync)

theorem stepS3_fic (hidx : s.symIdx ≤ 4) : stepS3 s = seqThen (opFicpush (s.symIdx - 1) s) .s4 := if_pos hidx

theorem stepS3_msc (hidx : 4 < s.symIdx) (hroom : s.fifo.length < (mode s).symbols) :
    stepS3 s = seqThen (opMscpush s.symIdx s) .s4 := by
  rw [stepS3, if_neg (Nat.not_le.2 hidx), if_neg (mt fifoFull_iff.1 (Nat.not_le.2 hroom))]

theorem stepS4_fic (hidx : s.symIdx = 4) : stepS4 s = seqUnit (opFicdec s) fun t _ _ => nextSymbol t := if_pos hidx

theorem stepS4_cif (hidx : 4 < s.symIdx) (hasync : s.ctrl.getLsbD 0 = false) (hfifo : s.fifo ≠ []) :
    stepS4 s = seqUnit (opCifpop s) fun t _ _ => nextSymbol t := by
  rw [stepS4, if_neg hidx.ne', if_pos ⟨hidx, hasync⟩, if_neg hfifo]

theorem stepS4_next (h : s.symIdx < 4 ∨ 4 < s.symIdx ∧ s.ctrl.getLsbD 0 = true) : stepS4 s = .next (nextSymbol s) := by
  have hfic : ¬ s.symIdx = 4 := by omega
  have hcif : ¬ (4 < s.symIdx ∧ dmxAsync s = false) := by
    rintro ⟨hidx, hasync⟩
    obtain h | ⟨-, hctrl⟩ := h
    · omega
    · exact absurd (hasync.symm.trans hctrl) (by decide)
  rw [stepS4, if_neg hfic, if_neg hcif]

theorem nextSymbol_inside (h : s.symIdx + 1 < (mode s).symbols) :
    nextSymbol s = moveTo .s0 { s with symIdx := s.symIdx + 1 } := if_neg (Nat.not_le.2 h)

theorem nextSymbol_last (h : (mode s).symbols ≤ s.symIdx + 1) : nextSymbol s = moveTo .e0 { s with symIdx := 0 } :=
  if_pos h

end

/-! ## Step `F0` (R286) -/

/-- Settles O43: the `FRAME` reset keeps the window and `BOFF`, by which the window is then shifted. -/
theorem frameStart : Obligations.FrameStart := by
  unfold Obligations.FrameStart
  intro s hrun hp
  rw [seqStep_at hrun hp]
  refine ⟨fun hstop => stepF0_stop hstop, fun hstop hboff hwritten => ?_⟩
  obtain ⟨w, hmoved, hkept, hop⟩ := opShift_written (s := frameReset s) hboff hwritten
  exact ⟨w, hmoved, hkept, (stepF0_frame hstop).trans (seqUnit_of_done hop (by simp))⟩

/-! ## Steps `V1` and `E3` (R285, R298) -/

/-- `FINDB` changes no count of failures and no mode, whatever it answers. -/
theorem opFindb_frame {thr : Nat} {s t : State} {st : Status} {v : Word} (hop : opFindb thr s = .done t st v) :
    t.bfailCnt = s.bfailCnt ∧ mode t = mode s := by
  rw [opFindb] at hop
  split at hop
  case h_1 => cases hop
  case h_2 w hslice =>
    dsimp only at hop
    split at hop
    · cases hop
      exact ⟨rfl, rfl⟩
    · cases hop
      exact ⟨rfl, rfl⟩

section
variable {t : State} {v : Word}

theorem afterVerify_ok : afterVerify t .ok v = moveTo .f0 { t with boff := v.toNat } := if_pos rfl

theorem afterVerify_fail : afterVerify t .fail v = moveTo .n0 t := if_neg (by simp)

theorem afterReverify_ok : afterReverify t .ok v = moveTo .f0 { t with boff := v.toNat, bfailCnt := 0 } := if_pos rfl

theorem afterReverify_lost (h : t.bfailCnt + 1 = 3) : afterReverify t .fail v =
    moveTo .n0 (raiseEvent { t with bfailCnt := 0, ficSync := false } .syncLost) := by
  rw [afterReverify, if_neg (by simp), if_pos h]

theorem afterReverify_coast (h : t.bfailCnt + 1 < 3) : afterReverify t .fail v =
    moveTo .f0 { t with bfailCnt := t.bfailCnt + 1, boff := (mode t).tG } := by
  rw [afterReverify, if_neg (by simp), if_neg h.ne]

end

/-- Settles O45: the answer of `FINDB` decides, and the failure count is the one from before it. -/
theorem boundarySteps : Obligations.BoundarySteps := by
  unfold Obligations.BoundarySteps
  refine ⟨fun s t st v hrun hp hop => ?verify, fun s t st v hrun hp hop => ?reverify⟩
  case verify =>
    rw [seqStep_at hrun hp]
    refine ⟨?_, ?_⟩
    · rintro rfl
      rw [show program .v1 s = _ from seqUnit_of_done hop (by simp), afterVerify_ok]
      rfl
    · rintro rfl
      rw [show program .v1 s = _ from seqUnit_of_done hop (by simp), afterVerify_fail]
      rfl
  case reverify =>
    obtain ⟨hcnt, hmode⟩ := opFindb_frame hop
    rw [seqStep_at hrun hp, ← hcnt, ← hmode]
    refine ⟨?_, ?_, ?_⟩
    · rintro rfl
      rw [show program .e3 s = _ from seqUnit_of_done hop (by simp), afterReverify_ok]
      rfl
    · rintro rfl hlost
      rw [show program .e3 s = _ from seqUnit_of_done hop (by simp), afterReverify_lost hlost]
      rfl
    · rintro rfl hcoast
      rw [show program .e3 s = _ from seqUnit_of_done hop (by simp), afterReverify_coast hcoast]
      rfl

/-! ## The other steps (R271) -/

/-- A step that reads samples issues its operation. -/
theorem readStep_issues {s : State} {op : OpRes} (hrun : s.run = true)
    (h : s.seqStep = .a0 ∧ op = opLevel ((mode s).tF / 5) s ∨ s.seqStep = .n0 ∧ op = opNullscan s ∨
      s.seqStep = .v0 ∧ op = opFill 0 (mode s).tU s ∨
      s.seqStep = .f1 ∧ s.boff ≠ 0 ∧ op = opFill ((mode s).tU - s.boff) s.boff s ∨
      s.seqStep = .s0 ∧ op = opFill 0 (mode s).tS s ∨ s.seqStep = .e1 ∧ op = opSkipnull s ∨
      s.seqStep = .e2 ∧ op = opFill 0 (mode s).tU s) : ∃ k, seqStep s = seqUnit op k := by
  obtain ⟨hp, rfl⟩ | ⟨hp, rfl⟩ | ⟨hp, rfl⟩ | ⟨hp, hboff, rfl⟩ | ⟨hp, rfl⟩ | ⟨hp, rfl⟩ | ⟨hp, rfl⟩ := h <;>
    rw [seqStep_at hrun hp]
  case inr.inr.inr.inl => exact ⟨_, stepF1_fill hboff⟩
  all_goals exact ⟨_, rfl⟩

section
variable {t : State} {v : Word}

theorem afterScan_ok : afterScan t .ok v = moveTo .v0 { t with nosigCnt := 0 } := if_pos rfl

theorem afterScan_noDip (hv : v = 0) (h : t.nosigCnt + 1 ≠ 8) :
    afterScan t .fail v = { t with nosigCnt := t.nosigCnt + 1 } := by
  rw [afterScan, if_neg (by simp), if_pos hv, if_neg h]

theorem afterScan_noSignal (hv : v = 0) (h : t.nosigCnt + 1 = 8) :
    afterScan t .fail v = { raiseEvent t .noSignal with nosigCnt := 0 } := by
  rw [afterScan, if_neg (by simp), if_pos hv, if_pos h]

theorem afterScan_noDipEnd (hv : v ≠ 0) : afterScan t .fail v = t := by
  rw [afterScan, if_neg (by simp), if_neg hv]

theorem afterEstco_ok : afterEstco t .ok v = { t with coarse := sat32 (t.coarse + v.toInt) } := if_pos rfl

theorem afterEstco_fail : afterEstco t .fail v = t := if_neg (by simp)

end

/-- The word for a level of 0 (`93_implementation_defined.md` U5). -/
theorem signalWord_eq_zero {t : State} (h : t.slevel = [] ∨ ModeOk t ∧ magVal (order t) t.slevel = 0) :
    signalWord t = 0 := by
  refine if_pos ?_
  obtain hnil | ⟨hs, hzero⟩ := h
  · rw [hnil]
    rfl
  · rw [magSign_eq _ (order_pos hs), hzero]
    simp

/-- The end of a symbol, after what its step `S4` does. -/
theorem stepS4_ends {s t : State}
    (h : s.symIdx = 4 ∧ (∃ st v, opFicdec s = .done t st v ∧ st ≠ .stopped) ∨
      4 < s.symIdx ∧ s.ctrl.getLsbD 0 = false ∧ s.fifo ≠ [] ∧ (∃ st v, opCifpop s = .done t st v ∧ st ≠ .stopped) ∨
      (s.symIdx < 4 ∨ 4 < s.symIdx ∧ s.ctrl.getLsbD 0 = true) ∧ t = s) : stepS4 s = .next (nextSymbol t) := by
  obtain ⟨hidx, st, v, hop, hst⟩ | ⟨hidx, hasync, hfifo, st, v, hop, hst⟩ | ⟨hidx, rfl⟩ := h
  · rw [stepS4_fic hidx, seqUnit_of_done hop hst]
  · rw [stepS4_cif hidx hasync hfifo, seqUnit_of_done hop hst]
  · exact stepS4_next hidx

/-- Settles O46: each step by the operation it issues and by what it makes of the answer. -/
theorem sequencerSteps : Obligations.SequencerSteps := by
  unfold Obligations.SequencerSteps
  refine ⟨fun s op hrun hreads => ?reads, fun s t st v hrun hst => ?answers, fun s hrun hp hboff => ?aligned,
    fun s hrun hp hsync => ?synced, fun s t hrun hp hends => ?symbol⟩
  case reads =>
    obtain ⟨k, hk⟩ := readStep_issues hrun hreads
    rw [hk]
    exact ⟨fun t => seqUnit_of_waits, fun t v => seqUnit_of_stopped⟩
  case aligned => exact (seqStep_at hrun hp).trans (stepF1_aligned hboff)
  case synced => exact (seqStep_at hrun hp).trans (stepF3_synced hsync)
  case symbol =>
    rw [seqStep_at hrun hp, show program .s4 s = _ from stepS4_ends hends]
    exact ⟨fun h => by rw [nextSymbol_inside h]; rfl, fun h => by rw [nextSymbol_last h]; rfl⟩
  case answers =>
    have issues {p : SeqStep} {op : OpRes} {k : State → Status → Word → State} (hp : s.seqStep = p)
        (hk : program p s = seqUnit op k) (hop : op = .done t st v) : seqStep s = .next (k t st v) := by
      rw [seqStep_at hrun hp, hk, seqUnit_of_done hop hst]
    refine ⟨fun hp hop => issues hp rfl hop, fun hp hop => ?scan, fun hp hop => issues hp rfl hop,
      fun hp hboff hop => issues hp (stepF1_fill hboff) hop, fun hp hop => issues hp rfl hop,
      fun hp hsync hop => ?shift, fun hp hop => issues hp rfl hop, fun hp hop => issues hp rfl hop,
      fun hp hop => issues hp rfl hop, fun hp hidx hop => issues hp (stepS3_fic hidx) hop,
      fun hp hidx hroom hop => issues hp (stepS3_msc hidx hroom) hop, fun hp hop => ?track,
      fun hp hop => issues hp rfl hop, fun hp hop => issues hp rfl hop⟩
    case scan =>
      rw [issues hp rfl hop]
      refine ⟨?_, ?_, ?_, ?_⟩
      · rintro rfl
        rw [afterScan_ok]
        rfl
      · rintro rfl hv hcnt
        rw [afterScan_noDip hv hcnt]
      · rintro rfl hv hcnt
        rw [afterScan_noSignal hv hcnt]
        rfl
      · rintro rfl hv
        rw [afterScan_noDipEnd hv]
    case shift =>
      rw [issues hp (stepF3_estco hsync) hop]
      refine ⟨?_, ?_⟩
      · rintro rfl
        rw [afterEstco_ok]
        rfl
      · rintro rfl
        rw [afterEstco_fail]
        rfl
    case track => exact ⟨signalWord t, signalWord_eq_zero, issues (k := fun t _ _ => afterTrack t) hp rfl hop⟩

end Sys2Proof.Proofs
end

section
/-! PROOF. What the next steps of a running block read (`70_reset_and_hazards.md` R390, hazard Z6;
`93_implementation_defined.md` U1): the elements that a position of the sequencer's program relies on, and what the
operations leave of them. -/

open Sys2Proof Sys2Proof.Machine Sys2Proof.Laws

namespace Sys2Proof.Proofs

/-! ## What a position relies on -/

/-- `Ready` at the position `p`. -/
structure HeldAt (p : SeqStep) (s : State) : Prop where
  boff : s.boff < (mode s).tU
  win : Written s.win 0 (winNeeded (mode s) s.boff p)
  prev : prevNeeded p = true → s.prevValid = true ∧ Written s.prev 0 (mode s).tU
  soft : p = .s3 → Written s.soft 0 (nSoft (mode s))
  acc : s.ficAccZeroed = true
  fifo : ∀ e ∈ s.fifo, e.bits.length = nSoft (mode s)
  cif : ∀ p ∈ s.cifValid, Written s.cif (p * nSoft (mode s)) (nSoft (mode s))

theorem ready_iff {s : State} : Ready s ↔ (s.run = true → HeldAt s.seqStep s) :=
  ⟨fun h hrun => let ⟨hboff, hwin, hprev, hsoft, hacc, hfifo, hcif⟩ := h hrun
    ⟨hboff, hwin, hprev, hsoft, hacc, hfifo, hcif⟩,
    fun h hrun => let h := h hrun
    ⟨h.boff, h.win, h.prev, h.soft, h.acc, h.fifo, h.cif⟩⟩

theorem ready_of_halted {s : State} (h : s.run = false) : Ready s := ready_iff.2 fun hrun => by simp [h] at hrun

theorem ready_goIdle (s : State) : Ready (goIdle s) := ready_of_halted rfl

section
variable {p q : SeqStep} {s : State}

theorem HeldAt.ready (h : HeldAt p s) (hp : s.seqStep = p) : Ready s := ready_iff.2 fun _ => hp ▸ h

theorem HeldAt.ready_moveTo (h : HeldAt p s) : Ready (moveTo p s) := ready_iff.2 fun _ => { h with }

/-- A position that relies on no more than another. -/
theorem HeldAt.weaken (h : HeldAt p s) (hwin : winNeeded (mode s) s.boff q ≤ winNeeded (mode s) s.boff p)
    (hprev : prevNeeded q = true → prevNeeded p = true) (hsoft : q ≠ .s3) : HeldAt q s :=
  { h with
    win := written_mono h.win (Nat.le_refl _) (by omega)
    prev := fun hq => h.prev (hprev hq)
    soft := fun hq => absurd hq hsoft }

/-- A position that relies on nothing in `WIN`, `PREV` and `SOFT`. -/
theorem HeldAt.weaken_none (h : HeldAt p s) (hwin : winNeeded (mode s) s.boff q = 0) (hprev : prevNeeded q = false)
    (hsoft : q ≠ .s3) : HeldAt q s :=
  h.weaken (by simp [hwin]) (by simp [hprev]) hsoft

end

/-! ## Written ranges that stay written -/

section
variable {α : Type} {b : Buf α} {off n : Nat}

theorem written_of_holds {v : List α} (h : Holds b off v) : Written b off v.length := written_iff_holds.2 ⟨v, rfl, h⟩

theorem written_bufOf (v : List α) : Written (bufOf 0 v) 0 v.length :=
  fun j hj => by simp [bufRead_bufOf, hj]

theorem written_writeRange_of_written (h : Written b off n) (o : Nat) (v : List α) :
    Written (bufWriteRange b o v) off n := by
  intro j hj
  by_cases hin : o ≤ off + j ∧ off + j < o + v.length
  · have hlt : off + j - o < v.length := by omega
    simp [bufRead_writeRange, hin, hlt]
  · rw [bufRead_writeRange, if_neg hin]
    exact h j hj

/-- A range that is written up to where a list is then written. -/
theorem written_writeRange (b : Buf α) {o m : Nat} (v : List α) (h : Written b 0 o) (hm : m ≤ o + v.length) :
    Written (bufWriteRange b o v) 0 m := by
  intro j hj
  by_cases hin : o ≤ 0 + j
  · have hlt : 0 + j < o + v.length := by omega
    have hlt' : 0 + j - o < v.length := by omega
    rw [bufRead_writeRange, if_pos ⟨hin, hlt⟩, List.getElem?_eq_getElem hlt']
    rfl
  · rw [bufRead_writeRange, if_neg (fun hc => hin hc.1)]
    exact h j (by omega)

end

/-! ## Operations that read samples (`46_sync_controller.md` R273) -/

/-- `t` is `s` but for what reads of samples change. -/
def SameButReads (s t : State) : Prop :=
  ∃ src taken req lvl scan tii, t = { s with
    src := src, srcTaken := taken, srcReq := req, slevel := lvl, scan := scan, tiiOut := tii }

/-- The operation ends or waits in a state with a property, and does not fault. -/
def Ends (P : State → Prop) : OpRes → Prop
  | .done s _ _ => P s
  | .waits s => P s
  | .fault _ => False

theorem SameButReads.refl (s : State) : SameButReads s s := ⟨_, _, _, _, _, _, rfl⟩

theorem SameButReads.trans {s t u : State} (h : SameButReads s t) (h' : SameButReads t u) : SameButReads s u := by
  obtain ⟨src, taken, req, lvl, scan, tii, rfl⟩ := h
  obtain ⟨src', taken', req', lvl', scan', tii', rfl⟩ := h'
  exact ⟨_, _, _, _, _, _, rfl⟩

theorem sameButReads_of_take_samples {n : Nat} {s t : State} {v : List Cx} (h : take n s = .samples v t) :
    v.length = n ∧ SameButReads s t := by
  obtain ⟨-, -, he⟩ | ⟨-, ⟨v', r, hlen, -, he⟩ | ⟨v', r, -, -, he⟩ | he⟩ := take_cases n s <;> rw [he] at h <;> cases h
  exact ⟨hlen, _, _, _, _, _, _, rfl⟩

theorem sameButReads_of_take_stopped {n : Nat} {s t : State} (h : take n s = .stopped t) : SameButReads s t := by
  obtain ⟨-, -, he⟩ | ⟨-, ⟨v', r, -, -, he⟩ | ⟨v', r, -, -, he⟩ | he⟩ := take_cases n s <;> rw [he] at h <;> cases h
  · exact .refl s
  · exact ⟨_, _, _, _, _, _, rfl⟩

theorem opLevel_ends (n : Nat) (s : State) : Ends (SameButReads s) (opLevel n s) := by
  rw [opLevel]
  split
  case isTrue => exact .refl s
  case isFalse =>
    cases ht : take n s with
    | samples v t => exact (sameButReads_of_take_samples ht).2.trans ⟨_, _, _, _, _, _, rfl⟩
    | stopped t => exact sameButReads_of_take_stopped ht
    | waits => exact .refl s

theorem opSkipnull_ends (s : State) : Ends (SameButReads s) (opSkipnull s) := by
  rw [opSkipnull]
  cases ht : take (mode s).tNull s with
  | samples v t =>
    refine (sameButReads_of_take_samples ht).2.trans ?_
    split
    · exact ⟨_, _, _, _, _, _, rfl⟩
    · exact .refl t
  | stopped t => exact sameButReads_of_take_stopped ht
  | waits => exact .refl s

theorem scanLoop_ends (fuel : Nat) (sc : Scan) {s t : State} (h : SameButReads s t) :
    Ends (SameButReads s) (scanLoop fuel sc t) := by
  induction fuel generalizing sc t with
  | zero =>
    rw [scanLoop]
    cases scanTest t sc <;> exact h.trans ⟨_, _, _, _, _, _, rfl⟩
  | succ fuel ih =>
    rw [scanLoop]
    cases scanTest t sc with
    | ends st v => exact h.trans ⟨_, _, _, _, _, _, rfl⟩
    | more sc' =>
      dsimp only
      cases ht : take 1 t with
      | samples v u => exact ih _ (h.trans (sameButReads_of_take_samples ht).2)
      | stopped u => exact (h.trans (sameButReads_of_take_stopped ht)).trans ⟨_, _, _, _, _, _, rfl⟩
      | waits => exact h.trans ⟨_, _, _, _, _, _, rfl⟩

theorem opNullscan_ends (s : State) : Ends (SameButReads s) (opNullscan s) := by
  rw [opNullscan]
  cases s.scan with
  | some sc =>
    dsimp only
    split
    · exact ⟨_, _, _, _, _, _, rfl⟩
    · exact scanLoop_ends _ _ (.refl s)
  | none =>
    dsimp only
    cases ht : take (mode s).dipWindow s with
    | samples v t => exact scanLoop_ends _ _ (sameButReads_of_take_samples ht).2
    | stopped t => exact sameButReads_of_take_stopped ht
    | waits => exact .refl s

/-- What `FILL` can do (R277). -/
theorem opFill_cases (off n : Nat) (s : State) :
    ((n = 0 ∨ (mode s).tS < off + n) ∧ opFill off n s = .done s .illegal 0) ∨
    (¬ (n = 0 ∨ (mode s).tS < off + n) ∧
      ((∃ t v, SameButReads s t ∧ v.length = n ∧
          opFill off n s = .done { t with win := bufWriteRange t.win off v } .ok (BitVec.ofNat 32 n)) ∨
       (∃ t, SameButReads s t ∧ opFill off n s = .done t .stopped 0) ∨ opFill off n s = .waits s)) := by
  by_cases hn : n = 0 ∨ (mode s).tS < off + n
  · exact .inl ⟨hn, if_pos hn⟩
  · refine .inr ⟨hn, ?_⟩
    rw [opFill, if_neg hn]
    cases ht : take n s with
    | samples v t =>
      obtain ⟨hlen, hsame⟩ := sameButReads_of_take_samples ht
      exact .inl ⟨t, v, hsame, hlen, rfl⟩
    | stopped t => exact .inr (.inl ⟨t, sameButReads_of_take_stopped ht, rfl⟩)
    | waits => exact .inr (.inr rfl)

section
variable {p : SeqStep} {s t : State}

theorem HeldAt.of_sameButReads (h : HeldAt p s) (hsame : SameButReads s t) : HeldAt p t := by
  obtain ⟨src, taken, req, lvl, scan, tii, rfl⟩ := hsame
  exact { h with }

theorem ready_of_sameButReads (h : Ready s) (hsame : SameButReads s t) : Ready t := by
  obtain ⟨src, taken, req, lvl, scan, tii, rfl⟩ := hsame
  exact h

end

end Sys2Proof.Proofs
end

section
/-! PROOF. The operations of the sequencer's program and of the demultiplexer on a state in which the elements they read
are written: what they answer, and that what the next positions rely on stays written. -/

open Sys2Proof Sys2Proof.Machine Sys2Proof.Laws

namespace Sys2Proof.Proofs

/-! ## The correlator (`41_phase_reference.md` R142, R148) -/

section
variable {s : State} (hs : ModeOk s)
include hs

theorem tU_le_tS : (mode s).tU ≤ (mode s).tS := by
  have := tS_eq hs
  omega

/-- `FINDB` on a written window answers a boundary before `T_u`, or none. -/
theorem opFindb_held (thr : Nat) (hwin : Written s.win 0 (mode s).tU) :
    ∃ X, opFindb thr s = .done { s with spec := X } .fail 0 ∨
      ∃ n, n < (mode s).tU ∧ opFindb thr s = .done { s with spec := X } .ok (BitVec.ofNat 32 n) := by
  obtain ⟨w, hw, hheld⟩ := written_iff_holds.1 hwin
  obtain ⟨n, hpeak, hn, -⟩ := peak_spec hs (sliceDft_isSpectrum hs hw)
  refine ⟨bufOf 0 (sliceDft s w), ?_⟩
  by_cases hno : noSync s thr (squaredMagnitudes s (sliceDft s w)) = true
  · exact .inl (opFindb_fail hw hheld hno)
  · refine .inr ⟨n, hn, ?_⟩
    rw [opFindb_ok hw hheld hno, hpeak]

/-- `BOFF` keeps a boundary whole. -/
theorem boundary_toNat {n : Nat} (hn : n < (mode s).tU) : (BitVec.ofNat 32 n).toNat = n := by
  have hU := tU_le_tS hs
  have hS := tS_le hs
  rw [BitVec.toNat_ofNat]
  exact Nat.mod_eq_of_lt (by omega)

theorem opEstco_held (hwin : Written s.win 0 (mode s).tU) :
    ∃ X st v, opEstco 0 s = .done { s with spec := X } st v := by
  obtain ⟨w, hw, hheld⟩ := written_iff_holds.1 hwin
  have hle : 0 + (mode s).tU ≤ (mode s).tS := by simpa using tU_le_tS hs
  cases hk : carrierShift s (sliceDft s w) with
  | some k => exact ⟨_, _, _, opEstco_some hle hw hheld hk⟩
  | none => exact ⟨_, _, _, opEstco_none hle hw hheld hk⟩

/-! ## The symbol decoder (`42_ofdm_decoder.md` R163, R164; `46_sync_controller.md` R291) -/

theorem opPrime_held (hwin : Written s.win 0 (mode s).tU) :
    ∃ X : List Cx, X.length = (mode s).tU ∧
      opPrime 0 s = .done { s with spec := bufOf 0 X, prev := bufOf 0 X, prevValid := true } .ok 0 := by
  obtain ⟨w, hw, hheld⟩ := written_iff_holds.1 hwin
  exact ⟨_, dft_length _ _ w, opPrime_written (by simpa using tU_le_tS hs) hw hheld⟩

theorem opFcorr_held (hwin : Written s.win 0 (mode s).tS) : ∃ c, opFcorr s = .done { s with freqcorr := c } .ok 0 := by
  have hS := tS_eq hs
  have hguard : Written s.win 0 (mode s).tG := written_mono hwin (Nat.le_refl _) (by omega)
  have htail : Written s.win (mode s).tU (mode s).tG := written_mono hwin (Nat.zero_le _) (by omega)
  obtain ⟨g, hg, hgheld⟩ := written_iff_holds.1 hguard
  obtain ⟨u, hu, huheld⟩ := written_iff_holds.1 htail
  exact ⟨_, opFcorr_written hs hg hu hgheld huheld⟩

theorem opDecsym_held (hwin : Written s.win 0 (mode s).tS) (hvalid : s.prevValid = true)
    (hprev : Written s.prev 0 (mode s).tU) :
    ∃ (X : List Cx) (v : List Soft), X.length = (mode s).tU ∧ v.length = nSoft (mode s) ∧
      opDecsym (mode s).tG s = .done { s with spec := bufOf 0 X, prev := bufOf 0 X, soft := bufOf 0 v } .ok 0 := by
  have hS := tS_eq hs
  have hslice : Written s.win (mode s).tG (mode s).tU := written_mono hwin (Nat.zero_le _) (by omega)
  obtain ⟨w, hw, hheld⟩ := written_iff_holds.1 hslice
  obtain ⟨x, hx, hxheld⟩ := written_iff_holds.1 hprev
  refine ⟨_, _, dft_length _ _ w, ?_, opDecsym_written hs (by omega) hvalid hw hheld hx hxheld⟩
  rw [softVector_length, carrierProducts_length hs, nSoft]

end

/-! ## The FIC decoder (`43_fic_decoder.md` R185, R190) -/

section
variable {p : SeqStep} {s : State} (h : HeldAt p s)
include h

theorem HeldAt.raiseEvent (e : EvtRecord) : HeldAt p (raiseEvent s e) := by cases e <;> exact { h with }

theorem opFicpush_held (idx : Nat) (hsoft : Written s.soft 0 (nSoft (mode s))) :
    ∃ t st v, opFicpush idx s = .done t st v ∧ HeldAt p t := by
  obtain ⟨v, hlen, hheld⟩ := written_iff_holds.1 hsoft
  have hread : bufReadRange s.soft 0 (nSoft (mode s)) = some v := (bufReadRange_eq_some _ _ _ _).2 ⟨hlen, hheld⟩
  rw [opFicpush]
  split
  case isTrue => exact ⟨s, _, _, rfl, h⟩
  case isFalse =>
    simp only [hread]
    refine ⟨_, _, _, rfl, ?_⟩
    by_cases hidx : idx = 0
    · simp only [if_pos hidx]
      exact { h with acc := rfl }
    · simp only [if_neg hidx]
      exact { h with }

theorem HeldAt.ficWalk (out : List Bool) : HeldAt p (ficWalk s out) := by
  rw [Machine.ficWalk]
  refine HeldAt.raiseEvent ?_ _
  split <;> exact { h with }

theorem opFicdec_held : ∃ t st v, opFicdec s = .done t st v ∧ HeldAt p t := by
  rw [opFicdec]
  split
  case isTrue => exact ⟨s, _, _, rfl, h⟩
  case isFalse =>
    rw [ficBlocks_zeroed h.acc]
    exact ⟨_, _, _, rfl, h.ficWalk _⟩

/-! ## The demultiplexer (`45_msc_demux.md` R248, R249) -/

theorem opMscpush_held (n : Nat) (hsoft : Written s.soft 0 (nSoft (mode s))) :
    ∃ t st v, opMscpush n s = .done t st v ∧ HeldAt p t := by
  obtain ⟨v, hlen, hheld⟩ := written_iff_holds.1 hsoft
  have hread : bufReadRange s.soft 0 (nSoft (mode s)) = some v := (bufReadRange_eq_some _ _ _ _).2 ⟨hlen, hheld⟩
  rw [opMscpush]
  split_ifs
  · exact ⟨s, _, _, rfl, h⟩
  · exact ⟨s, _, _, rfl, h⟩
  · simp only [hread]
    exact ⟨_, _, _, rfl, { h with fifo := List.forall_mem_append.2 ⟨h.fifo, List.forall_mem_singleton.2 hlen⟩ }⟩

theorem HeldAt.placeHead {e : FifoEntry} {r : List FifoEntry} (hfifo : s.fifo = e :: r) :
    HeldAt p (placeHead s e r) := by
  have hentries := h.fifo
  rw [hfifo, List.forall_mem_cons] at hentries
  obtain ⟨hlen, hrest⟩ := hentries
  refine { h with fifo := hrest, cif := fun k hk => ?_ }
  rcases mem_placeHead_cifValid.1 hk with rfl | ⟨-, hk⟩
  · have := written_of_holds (holds_bufWriteRange s.cif (cifSlot (mode s) e.sym * nSoft (mode s)) e.bits)
    rwa [hlen] at this
  · exact written_writeRange_of_written (h.cif k hk) _ _

end

/-- What `CIFPOP` keeps: what placing the head keeps, and slicing after it. -/
theorem leaves_opCifpop {P : State → Prop} {s : State} (hs : P s)
    (hplace : ∀ e r, s.fifo = e :: r → P (placeHead s e r))
    (hslice : ∀ t cu, P t → P { t with cuOut := cu, cifValid := [] }) : Leaves P (opCifpop s) := by
  rw [opCifpop]
  split
  case h_1 => exact hs
  case h_2 e r hfifo =>
    have ht := hplace e r hfifo
    dsimp only
    split_ifs
    · trivial
    · exact ht
    · split
      case h_1 => trivial
      case h_2 rs hrs => exact hslice _ _ ht
    · exact hslice _ _ ht

section
variable {p : SeqStep} {s : State}

theorem HeldAt.leaves_opCifpop (h : HeldAt p s) : Leaves (HeldAt p) (opCifpop s) :=
  Proofs.leaves_opCifpop h (fun _ _ hfifo => h.placeHead hfifo) fun _ _ ht =>
    { ht with cif := fun _ hk => absurd hk List.not_mem_nil }

theorem ready_opCifpop (h : Ready s) : Leaves Ready (opCifpop s) :=
  Proofs.leaves_opCifpop h
    (fun _ _ hfifo => ready_iff.2 fun hrun => (ready_iff.1 h hrun).placeHead hfifo)
    fun _ _ ht => ready_iff.2 fun hrun => { ready_iff.1 ht hrun with cif := fun _ hk => absurd hk List.not_mem_nil }

/-! ## The CIF (`45_msc_demux.md` R241, R249; log 27) -/

section
variable (hs : ModeOk s)
include hs

theorem cif_geometry : symsPerCif (mode s) * nSoft (mode s) = (mode s).cifBits ∧
    cifCus (mode s) * (mode s).cuBits = (mode s).cifBits := by
  have hwf := mode_wf hs
  simp only [modeWf, Bool.and_eq_true] at hwf
  obtain ⟨-, hcif⟩ := hwf
  simp only [cifWf, Bool.and_eq_true, decide_eq_true_iff] at hcif
  obtain ⟨⟨⟨⟨hsoft, -, hcu⟩, -⟩, -⟩, -⟩ := hcif
  exact ⟨Nat.div_mul_cancel (Nat.dvd_of_mod_eq_zero hsoft), Nat.div_mul_cancel (Nat.dvd_of_mod_eq_zero hcu)⟩

theorem nSoft_pos : 0 < nSoft (mode s) := by
  have hwf := mode_lengthsWf hs
  simp only [lengthsWf, Bool.and_eq_true, decide_eq_true_iff] at hwf
  obtain ⟨⟨-, -, hcarriers, -⟩, -⟩ := hwf
  rw [nSoft]
  omega

/-- With every slot of the CIF written, the whole CIF is. -/
theorem cif_written {c : Buf Soft}
    (hslots : ∀ k, k < symsPerCif (mode s) → Written c (k * nSoft (mode s)) (nSoft (mode s))) :
    Written c 0 (mode s).cifBits := by
  intro j hj
  have hN := nSoft_pos hs
  rw [← (cif_geometry hs).1] at hj
  have := hslots (j / nSoft (mode s)) (Nat.div_lt_of_lt_mul (by rwa [Nat.mul_comm])) _ (Nat.mod_lt j hN)
  rwa [Nat.mul_comm, Nat.div_add_mod, ← Nat.zero_add j] at this

theorem subs_written (hfit : SubsFit s) {c : Buf Soft} (hcif : Written c 0 (mode s).cifBits) :
    ∀ x ∈ s.subs, SubWritten (mode s) c x := by
  intro x hx
  refine written_mono hcif (Nat.zero_le _) ?_
  rw [← Nat.add_mul, Nat.zero_add, ← (cif_geometry hs).2]
  exact Nat.mul_le_mul_right _ (hfit x hx)

/-- Where every subscription lies in the CIF, slicing it reads written elements only. -/
theorem opCifpop_ne_fault (h : HeldAt p s) (hfit : SubsFit s) (f : Fault) : opCifpop s ≠ .fault f := by
  cases hfifo : s.fifo with
  | nil => simp [opCifpop_empty hfifo]
  | cons e r =>
    have hlen : e.bits.length = nSoft (mode s) := h.fifo e (by simp [hfifo])
    by_cases hslot : cifSlot (mode s) e.sym + 1 = symsPerCif (mode s)
    · by_cases hvalid : cifComplete (mode s) (placeHead s e r).cifValid = true
      · have hcif : Written (placeHead s e r).cif 0 (mode s).cifBits := cif_written hs fun k hk =>
          (h.placeHead hfifo).cif k ((cifComplete_iff _ _).1 hvalid k hk)
        obtain ⟨rs, hrs⟩ := Option.ne_none_iff_exists'.1 fun hnone =>
          cuRecords_eq_none.1 hnone (subs_written hs hfit hcif)
        simp [opCifpop_complete hfifo hlen hslot hvalid hrs]
      · simp [opCifpop_incomplete hfifo hlen hslot hvalid]
    · simp [opCifpop_between hfifo hlen hslot]

end

end

end Sys2Proof.Proofs
end

section
/-! PROOF. What the next steps of a running block read stays written at every act, and is written where a step reads it
(`70_reset_and_hazards.md` R390, `93_implementation_defined.md` U1), and with this `ReadyKept` and
`RunningNeverFaults`. -/

open Sys2Proof Sys2Proof.Machine Sys2Proof.Laws

namespace Sys2Proof.Proofs

/-! ## Outcomes -/

/-- The block goes on ready, or stops with a fault, which it does only where `F`. -/
def KeepsReady (F : Prop) : Host.Outcome State Fault Refusal → Prop
  | .next s => Ready s
  | .fault _ => F
  | .refused _ => True

section
variable {F : Prop} {op : OpRes} {k : State → Status → Word → State} {s : State}

/-- A step whose operation ends. -/
theorem keepsReady_of_done (h : ∃ t st v, op = .done t st v ∧ Ready (k t st v)) : KeepsReady F (seqUnit op k) := by
  obtain ⟨t, st, v, rfl, ht⟩ := h
  by_cases hst : st = .stopped
  · subst hst
    rw [seqUnit_of_stopped rfl]
    exact ready_goIdle t
  · rw [seqUnit_of_done rfl hst]
    exact ht

/-- A step whose operation reads samples and writes none of the buffers. -/
theorem keepsReady_of_reads (hr : Ready s) (hop : Ends (SameButReads s) op)
    (hk : ∀ t st v, SameButReads s t → Ready (k t st v)) : KeepsReady F (seqUnit op k) := by
  cases op with
  | done t st v => exact keepsReady_of_done ⟨t, st, v, rfl, hk t st v hop⟩
  | waits t => exact ready_of_sameButReads hr hop
  | fault f => exact hop.elim

end

/-! ## The steps (`46_sync_controller.md` R271) -/

section
variable {s : State} (hr : Ready s) {p : SeqStep} (h : HeldAt p s) {F : Prop}
include hr h

/-- A `FILL` that ends where the next position's elements end. -/
theorem keepsReady_fill {off n : Nat} {q : SeqStep} (hn : n ≠ 0) (hle : off + n ≤ (mode s).tS)
    (hold : Written s.win 0 off) (hneed : winNeeded (mode s) s.boff q ≤ off + n)
    (hprev : prevNeeded q = true → prevNeeded p = true) (hsoft : q ≠ .s3) :
    KeepsReady F (seqThen (opFill off n s) q) := by
  obtain ⟨hc, -⟩ | ⟨-, ⟨t, v, hsame, hlen, hop⟩ | ⟨t, -, hop⟩ | hop⟩ := opFill_cases off n s
  · omega
  · refine keepsReady_of_done ⟨_, _, _, hop, HeldAt.ready_moveTo ?_⟩
    have ht := h.of_sameButReads hsame
    obtain ⟨src, taken, req, lvl, scan, tii, rfl⟩ := hsame
    exact { ht with
      win := written_writeRange _ _ hold (hlen ▸ hneed)
      prev := fun hq => h.prev (hprev hq)
      soft := fun hq => absurd hq hsoft }
  · rw [seqThen, seqUnit_of_stopped hop]
    exact ready_goIdle t
  · rw [seqThen, seqUnit_of_waits hop]
    exact hr

end

section
variable {s : State} {F : Prop}

theorem ready_raiseEvent (hr : Ready s) (e : EvtRecord) : Ready (raiseEvent s e) := by cases e <;> exact hr

theorem keepsReady_a0 (hr : Ready s) (h : HeldAt .a0 s) : KeepsReady F (program .a0 s) :=
  keepsReady_of_reads hr (opLevel_ends _ s) fun _ _ _ hsame =>
    ((h.of_sameButReads hsame).weaken_none rfl rfl (by simp)).ready_moveTo

theorem keepsReady_n0 (hr : Ready s) (h : HeldAt .n0 s) : KeepsReady F (program .n0 s) := by
  refine keepsReady_of_reads hr (opNullscan_ends s) fun t st v hsame => ?_
  have ht := ready_of_sameButReads hr hsame
  rw [afterScan]
  split_ifs
  · have hv0 : HeldAt .v0 t := (h.of_sameButReads hsame).weaken_none rfl rfl (by simp)
    exact HeldAt.ready_moveTo { hv0 with }
  · exact ready_raiseEvent ht _
  · exact ht
  · exact ht

theorem keepsReady_v0 (hs : ModeOk s) (hr : Ready s) (h : HeldAt .v0 s) : KeepsReady F (program .v0 s) :=
  keepsReady_fill hr h (tU_pos hs).ne' (by simpa using tU_le_tS hs) written_zero (Nat.le_add_left _ _) (by simp [prevNeeded])
    (by simp)

/-- Step `V1`: a boundary is before `T_u`. -/
theorem keepsReady_v1 (hs : ModeOk s) (h : HeldAt .v1 s) : KeepsReady F (program .v1 s) := by
  obtain ⟨X, hop | ⟨n, hn, hop⟩⟩ := opFindb_held hs s.thr.toNat h.win
  · refine keepsReady_of_done ⟨_, _, _, hop, ?_⟩
    have hn0 : HeldAt .n0 s := h.weaken_none rfl rfl (by simp)
    rw [afterVerify_fail]
    exact HeldAt.ready_moveTo { hn0 with }
  · refine keepsReady_of_done ⟨_, _, _, hop, ?_⟩
    rw [afterVerify_ok, boundary_toNat hs hn]
    exact HeldAt.ready_moveTo { h with boff := hn, soft := fun hq => absurd hq (by simp) }

/-- Step `F0`: what the shift leaves in front is what the fill of `F1` completes. -/
theorem keepsReady_f0 (h : HeldAt .f0 s) : KeepsReady F (program .f0 s) := by
  cases hstop : s.stopreq with
  | true =>
    rw [program, stepF0_stop hstop]
    exact ready_goIdle s
  | false =>
    have hboff := h.boff
    have hwritten : Written s.win s.boff ((mode s).tU - s.boff) :=
      written_mono h.win (Nat.zero_le _) (by simp only [winNeeded]; omega)
    obtain ⟨w, hmoved, -, hop⟩ := opShift_written (s := frameReset s) h.boff.le hwritten
    rw [program, stepF0_frame hstop]
    refine keepsReady_of_done ⟨_, _, _, hop, HeldAt.ready_moveTo ?_⟩
    refine { h with acc := rfl, win := fun j hj => ?_, soft := fun hq => absurd hq (by simp) }
    have hread := hmoved j hj
    rw [Nat.zero_add]
    rw [hread, Nat.add_comm]
    exact hwritten j hj

theorem keepsReady_f1 (hs : ModeOk s) (hr : Ready s) (h : HeldAt .f1 s) : KeepsReady F (program .f1 s) := by
  have hboff := h.boff
  have hU := tU_le_tS hs
  by_cases h0 : s.boff = 0
  · have hf2 : HeldAt .f2 s := h.weaken (by simp [winNeeded, h0]) (by simp [prevNeeded]) (by simp)
    rw [program, stepF1_aligned h0]
    exact hf2.ready_moveTo
  · rw [program, stepF1_fill h0]
    exact keepsReady_fill hr h h0 (by omega) h.win (by simp only [winNeeded]; omega) (by simp [prevNeeded]) (by simp)

theorem keepsReady_f2 (hs : ModeOk s) (h : HeldAt .f2 s) : KeepsReady F (program .f2 s) := by
  obtain ⟨X, hlen, hop⟩ := opPrime_held hs h.win
  refine keepsReady_of_done ⟨_, _, _, hop, HeldAt.ready_moveTo ?_⟩
  exact { h with prev := fun _ => ⟨rfl, hlen ▸ written_bufOf X⟩, soft := fun hq => absurd hq (by simp) }

theorem ready_firstSymbol (h : HeldAt .f3 s) : Ready (firstSymbol s) := by
  have hs0 : HeldAt .s0 s := h.weaken (by simp [winNeeded]) (by simp [prevNeeded]) (by simp)
  exact HeldAt.ready_moveTo { hs0 with }

theorem keepsReady_f3 (hs : ModeOk s) (h : HeldAt .f3 s) : KeepsReady F (program .f3 s) := by
  cases hsync : s.ficSync with
  | true =>
    rw [program, stepF3_synced hsync]
    exact ready_firstSymbol h
  | false =>
    obtain ⟨X, st, v, hop⟩ := opEstco_held hs h.win
    rw [program, stepF3_estco hsync]
    refine keepsReady_of_done ⟨_, _, _, hop, ready_firstSymbol ?_⟩
    rw [afterEstco]
    split <;> exact { h with }

theorem keepsReady_s0 (hs : ModeOk s) (hr : Ready s) (h : HeldAt .s0 s) : KeepsReady F (program .s0 s) :=
  keepsReady_fill hr h ((tU_pos hs).trans_le (tU_le_tS hs)).ne' (Nat.zero_add _).le written_zero (Nat.le_add_left _ _)
    (by simp [prevNeeded]) (by simp)

theorem keepsReady_s1 (hs : ModeOk s) (h : HeldAt .s1 s) : KeepsReady F (program .s1 s) := by
  obtain ⟨c, hop⟩ := opFcorr_held hs h.win
  refine keepsReady_of_done ⟨_, _, _, hop, HeldAt.ready_moveTo ?_⟩
  exact { h with soft := fun hq => absurd hq (by simp) }

theorem keepsReady_s2 (hs : ModeOk s) (h : HeldAt .s2 s) : KeepsReady F (program .s2 s) := by
  obtain ⟨hvalid, hprev⟩ := h.prev rfl
  obtain ⟨X, v, hX, hv, hop⟩ := opDecsym_held hs h.win hvalid hprev
  refine keepsReady_of_done ⟨_, _, _, hop, HeldAt.ready_moveTo ?_⟩
  exact { h with
    win := written_zero
    prev := fun _ => ⟨hvalid, hX ▸ written_bufOf X⟩
    soft := fun _ => hv ▸ written_bufOf v }

theorem ready_s4 (h : HeldAt .s3 s) : Ready (moveTo .s4 s) :=
  (h.weaken (by simp [winNeeded]) (by simp [prevNeeded]) (by simp) : HeldAt .s4 s).ready_moveTo

theorem keepsReady_s3 (hr : Ready s) (h : HeldAt .s3 s) : KeepsReady F (program .s3 s) := by
  rw [program, stepS3]
  split_ifs
  · obtain ⟨t, st, v, hop, ht⟩ := opFicpush_held h (s.symIdx - 1) (h.soft rfl)
    exact keepsReady_of_done ⟨t, st, v, hop, ready_s4 ht⟩
  · exact ready_goIdle s
  · exact hr
  · obtain ⟨t, st, v, hop, ht⟩ := opMscpush_held h s.symIdx (h.soft rfl)
    exact keepsReady_of_done ⟨t, st, v, hop, ready_s4 ht⟩

theorem ready_nextSymbol (h : HeldAt .s4 s) : Ready (nextSymbol s) := by
  rw [nextSymbol]
  split
  · have he0 : HeldAt .e0 s := h.weaken_none rfl rfl (by simp)
    exact HeldAt.ready_moveTo { he0 with }
  · have hs0 : HeldAt .s0 s := h.weaken (by simp [winNeeded]) (by simp [prevNeeded]) (by simp)
    exact HeldAt.ready_moveTo { hs0 with }

theorem keepsReady_s4 (hs : ModeOk s) (hr : Ready s) (h : HeldAt .s4 s) (hF : ¬ SubsFit s → F) :
    KeepsReady F (program .s4 s) := by
  rw [program, stepS4]
  split_ifs
  · obtain ⟨t, st, v, hop, ht⟩ := opFicdec_held h
    exact keepsReady_of_done ⟨t, st, v, hop, ready_nextSymbol ht⟩
  · exact hr
  · have hheld := h.leaves_opCifpop
    cases hop : opCifpop s with
    | done t st v =>
      rw [hop] at hheld
      exact keepsReady_of_done ⟨t, st, v, rfl, ready_nextSymbol hheld⟩
    | waits t => exact absurd hop (opCifpop_ne_waits s t)
    | fault f => exact hF fun hfit => opCifpop_ne_fault hs h hfit f hop
  · exact ready_nextSymbol h

theorem ready_afterTrack (h : HeldAt .e0 s) : Ready (afterTrack s) :=
  ((h.weaken_none rfl rfl (by simp) : HeldAt .e1 s).raiseEvent _).ready_moveTo

theorem keepsReady_e0 (h : HeldAt .e0 s) : KeepsReady F (program .e0 s) :=
  keepsReady_of_done (op := opFtrack s) (k := fun t _ _ => afterTrack t)
    ⟨_, _, _, rfl, ready_afterTrack { h with }⟩

theorem keepsReady_e1 (hr : Ready s) (h : HeldAt .e1 s) : KeepsReady F (program .e1 s) :=
  keepsReady_of_reads hr (opSkipnull_ends s) fun _ _ _ hsame =>
    ((h.of_sameButReads hsame).weaken_none rfl rfl (by simp)).ready_moveTo

theorem keepsReady_e2 (hs : ModeOk s) (hr : Ready s) (h : HeldAt .e2 s) : KeepsReady F (program .e2 s) :=
  keepsReady_fill hr h (tU_pos hs).ne' (by simpa using tU_le_tS hs) written_zero (Nat.le_add_left _ _) (by simp [prevNeeded])
    (by simp)

/-- Step `E3`: it coasts on `T_g`, which is before `T_u` too. -/
theorem keepsReady_e3 (hs : ModeOk s) (h : HeldAt .e3 s) : KeepsReady F (program .e3 s) := by
  obtain ⟨X, hop | ⟨n, hn, hop⟩⟩ := opFindb_held hs (Config.thrMult * s.thr.toNat) h.win
  · refine keepsReady_of_done ⟨_, _, _, hop, ?_⟩
    rw [afterReverify, if_neg (by simp)]
    split
    · have hn0 : HeldAt .n0 s := h.weaken_none rfl rfl (by simp)
      refine HeldAt.ready_moveTo (HeldAt.raiseEvent ?_ _)
      exact { hn0 with }
    · obtain ⟨-, hG⟩ := searchW_bounds hs
      have hG' : (mode s).tG < (mode s).tU := by omega
      exact HeldAt.ready_moveTo { h with boff := hG', soft := fun hq => absurd hq (by simp) }
  · refine keepsReady_of_done ⟨_, _, _, hop, ?_⟩
    rw [afterReverify_ok, boundary_toNat hs hn]
    exact HeldAt.ready_moveTo { h with boff := hn, soft := fun hq => absurd hq (by simp) }

end

section
variable {s : State} (hs : ModeOk s) (hr : Ready s) {F : Prop}
include hs hr

theorem keepsReady_program {p : SeqStep} (h : HeldAt p s) (hF : ¬ SubsFit s → F) : KeepsReady F (program p s) := by
  cases p with
  | a0 => exact keepsReady_a0 hr h
  | n0 => exact keepsReady_n0 hr h
  | v0 => exact keepsReady_v0 hs hr h
  | v1 => exact keepsReady_v1 hs h
  | f0 => exact keepsReady_f0 h
  | f1 => exact keepsReady_f1 hs hr h
  | f2 => exact keepsReady_f2 hs h
  | f3 => exact keepsReady_f3 hs h
  | s0 => exact keepsReady_s0 hs hr h
  | s1 => exact keepsReady_s1 hs h
  | s2 => exact keepsReady_s2 hs h
  | s3 => exact keepsReady_s3 hr h
  | s4 => exact keepsReady_s4 hs hr h hF
  | e0 => exact keepsReady_e0 h
  | e1 => exact keepsReady_e1 hr h
  | e2 => exact keepsReady_e2 hs hr h
  | e3 => exact keepsReady_e3 hs h

theorem keepsReady_seqStep (hF : ¬ SubsFit s → F) : KeepsReady F (seqStep s) := by
  cases hrun : s.run with
  | true =>
    rw [seqStep_running hrun]
    exact keepsReady_program hs hr (ready_iff.1 hr hrun) hF
  | false =>
    rw [seqStep_halted hrun]
    exact hr

/-- The step of `DMX` (`45_msc_demux.md` R247). -/
theorem keepsReady_dmxStep (hF : ¬ (s.run = true ∧ SubsFit s) → F) : KeepsReady F (dmxStep s) := by
  have hop := ready_opCifpop hr
  rw [dmxStep]
  split
  case isTrue => exact hr
  case isFalse =>
    cases h : opCifpop s with
    | done t st v => rwa [h] at hop
    | waits t => rwa [h] at hop
    | fault f => exact hF fun ⟨hrun, hfit⟩ => opCifpop_ne_fault hs (ready_iff.1 hr hrun) hfit f h

end

/-! ## The commands (`30_encoding.md` R90, R91) -/

section
variable {i : Instr} {s : State} {op : OpRes} (ho : unitOp i s = some op) (hrun : s.run = false)
include ho hrun

theorem readOp_leaves_halted (hi : readsSamples i = true) : Leaves (fun t => t.run = false) op := by
  have reads {t : State} (hsame : SameButReads s t) : t.run = false := by
    obtain ⟨src, taken, req, lvl, scan, tii, rfl⟩ := hsame
    exact hrun
  have ends {op : OpRes} (h : Ends (SameButReads s) op) : Leaves (fun t => t.run = false) op := by
    cases op with
    | done t st v => exact reads h
    | waits t => exact reads h
    | fault f => trivial
  cases i <;> cases hi
  case level n => exact Option.some.inj ho ▸ ends (opLevel_ends n s)
  case nullscan => exact Option.some.inj ho ▸ ends (opNullscan_ends s)
  case skipnull => exact Option.some.inj ho ▸ ends (opSkipnull_ends s)
  case fill off n =>
    obtain rfl := Option.some.inj ho
    obtain ⟨-, hop⟩ | ⟨-, ⟨t, v, hsame, -, hop⟩ | ⟨t, hsame, hop⟩ | hop⟩ := opFill_cases off n s <;> rw [hop]
    · exact hrun
    · exact (reads hsame :)
    · exact reads hsame
    · exact hrun

/-- An operation that ends or waits while the block is halted leaves it halted. -/
theorem unitOp_leaves_halted : Leaves (fun t => t.run = false) op := by
  cases hi : readsSamples i with
  | true => exact readOp_leaves_halted ho hrun hi
  | false =>
    have hkeep := unitOp_keepsControl ho (.inr hi)
    cases op with
    | done t st v => exact (congrArg Control.run (controlOf_of_done hkeep)).trans hrun
    | waits t => exact (congrArg Control.run (controlOf_of_waits hkeep)).trans hrun
    | fault f => trivial

end

/-- `START` begins at a position that reads nothing, with no buffer in use (`70_reset_and_hazards.md` R381). -/
theorem ready_startReset {s : State} (hs : ModeOk s) : Ready (startReset s) :=
  ready_iff.2 fun _ => ⟨tU_pos hs, written_zero, fun h => absurd h (by simp [prevNeeded]), fun h => absurd h (by simp),
    rfl, fun _ he => absurd he List.not_mem_nil, fun _ hk => absurd hk List.not_mem_nil⟩

theorem ready_csrWrite {s : State} (hr : Ready s) (a : Nat) (d : Word) : Ready (csrWrite s a d).1 := by
  obtain ⟨h, -⟩ | ⟨-, ⟨-, -, h⟩ | ⟨-, h⟩ | ⟨-, h⟩ | ⟨-, h⟩ | ⟨-, hrun, -, ⟨h, -⟩ | h⟩⟩ := csrWrite_cases s a d <;> rw [h]
  iterate 6 exact hr
  exact ready_of_halted hrun

section
variable {s : State} (hs : ModeOk s) (hr : Ready s) {F : Prop}
include hr

theorem keepsReady_execUnit {i : Instr} {op : OpRes} (ho : unitOp i s = some op) (hF : s.run = false → F) :
    KeepsReady F (exec i s) := by
  rw [exec_of_unitOp ho]
  cases hrun : s.run with
  | true => exact hr
  | false =>
    have hop := unitOp_leaves_halted ho hrun
    cases op with
    | done t st v => exact ready_of_halted hop
    | waits t => exact ready_of_halted hop
    | fault f => exact hF hrun

include hs

theorem keepsReady_execControl {i : Instr} (hi : isUnit i = false) : KeepsReady F (exec i s) := by
  cases i <;> cases hi
  case start =>
    change KeepsReady F (execStart s)
    rw [execStart]
    split
    · exact hr
    · exact (ready_startReset hs :)
  case stop =>
    change KeepsReady F (execStop s)
    rw [execStop]
    split <;> exact hr
  case rdcsr a =>
    change KeepsReady F (execRdcsr a s)
    rw [execRdcsr]
    split <;> exact hr
  case wrcsr a d =>
    change KeepsReady F (execWrcsr a d s)
    rw [execWrcsr]
    split <;> exact (ready_csrWrite hr a d :)
  case subscribe sink comp sid len addr =>
    change KeepsReady F (execSubscribe sink comp sid len addr s)
    rw [execSubscribe]
    split_ifs <;> exact hr
  case unsubscribe comp sid =>
    change KeepsReady F (execUnsubscribe comp sid s)
    rw [execUnsubscribe]
    split <;> exact hr
  case resetSubs => exact hr

theorem keepsReady_exec (i : Instr) (hF : s.run = false → F) : KeepsReady F (exec i s) := by
  cases ho : unitOp i s with
  | some op => exact keepsReady_execUnit hr ho hF
  | none => exact keepsReady_execControl hs hr (by rw [← unitOp_isSome i s, ho]; rfl)

theorem keepsReady_hostStep (hF : s.run = false → F) : KeepsReady F (hostStep s) := by
  rw [hostStep]
  split
  case h_1 i _ => exact keepsReady_exec (s := { s with hostWait := none }) hs hr i hF
  case h_2 =>
    split
    case h_1 i rest _ => exact keepsReady_exec (s := { s with cmd := rest }) hs hr i hF
    case h_2 => exact hr
    case h_3 => exact hr

/-! ## The acts -/

/-- Every act keeps the block ready, and only one of a halted block or of one whose subscriptions leave the CIF is a
fault. -/
theorem keepsReady_perform (a : Act) (hF : ¬ (s.run = true ∧ SubsFit s) → F) : KeepsReady F (perform a s) := by
  cases a with
  | host => exact keepsReady_hostStep hs hr fun hrun => hF fun h => by simp [hrun] at h
  | seq => exact keepsReady_seqStep hs hr fun hfit => hF fun h => hfit h.2
  | dmx => exact keepsReady_dmxStep hs hr hF
  | command w => exact hr
  | commandBytes b3 b2 b1 b0 => exact hr
  | sample z => exact hr
  | stopped => exact hr
  | configChanged => exact hr
  | tiiResult main sub => exact hr

theorem keepsReady_step (hF : ¬ (s.run = true ∧ SubsFit s) → F) : KeepsReady F (step s) := by
  obtain ⟨u, rfl | rfl, hstep⟩ := step_eq s hs.1
  · rw [hstep]
    exact keepsReady_perform (s := { s with plan := s.plan.tail }) hs hr _ hF
  · rw [hstep]
    exact keepsReady_perform (s := { s with tick := s.tick + 1 }) hs hr _ hF

end

/-! ## The obligations -/

/-- Settles O54: each operation of the program writes what the position after it relies on, and every other act leaves
it. -/
theorem readyKept : Obligations.ReadyKept := by
  unfold Obligations.ReadyKept
  intro s t hs hr hstep
  have hkeeps := keepsReady_step hs hr (F := True) fun _ => trivial
  rwa [hstep] at hkeeps

/-- Settles O55: a fault would be one of a halted block, or of subscriptions that leave the CIF. -/
theorem runningNeverFaults : Obligations.RunningNeverFaults := by
  unfold Obligations.RunningNeverFaults
  intro s f hs hr hrun hfit hstep
  have hkeeps := keepsReady_step hs hr (F := False) fun h => h ⟨hrun, hfit⟩
  rwa [hstep] at hkeeps

end Sys2Proof.Proofs
end

section
/-! PROOF. The null scan (`46_sync_controller.md` R276 to R283) on samples that are ready: the state and the window after
each of them, what the tests of a dip stand for, the two loops, and with them `NullscanResult` and `AllZeroScan`. -/

open Sys2Proof Sys2Proof.Machine Sys2Proof.Laws

namespace Sys2Proof.Proofs

/-! ## One round of the loops (R279) -/

section
variable {s : State} {sc : Scan} {fuel : Nat}

theorem scanLoop_of_ends {st : Status} {v : Word} (h : scanTest s sc = .ends st v) :
    scanLoop fuel sc s = .done { s with scan := none } st v := by
  cases fuel <;> rw [scanLoop, h]

theorem scanLoop_of_more {sc' : Scan} {v : List Cx} {t : State} (h : scanTest s sc = .more sc')
    (ht : take 1 s = .samples v t) : scanLoop (fuel + 1) sc s = scanLoop fuel (scanPush (order s) sc' v) t := by
  rw [scanLoop, h]
  simp only [ht]

theorem scanLoop_congr {sc' : Scan} (h : scanTest s sc = scanTest s sc') : scanLoop fuel sc s = scanLoop fuel sc' s := by
  cases fuel <;> rw [scanLoop, scanLoop, h]

end

/-! ## The state and the window after `n` samples -/

/-- The state after a null scan has read the first `n` of the samples `zs`: the window by one read, each other by one of
its own. -/
def scannedState (s : State) (zs : List Cx) (rest : List SrcItem) (n : Nat) : State :=
  { s with
    src := sampleItems (zs.drop n) ++ rest, srcTaken := s.srcTaken + n
    srcReq := s.srcReq ++ ⟨(mode s).dipWindow, foff s⟩ :: List.replicate (n - (mode s).dipWindow) ⟨1, foff s⟩
    slevel := (zs.take n).foldl (levelUpdate (order s) (mode s).levelAlpha) s.slevel }

/-- The last `DIP_WINDOW` of the first `n` samples. -/
def scanWindow (s : State) (zs : List Cx) (n : Nat) : List Cx := (zs.take n).drop (n - (mode s).dipWindow)

/-- The scan after `n` samples without a dip. -/
def searching (s : State) (zs : List Cx) (n : Nat) : Scan := ⟨false, (scanWindow s zs n).map (magAbs (order s)), n, 0⟩

/-- The scan after `n` samples, with the dip since `c` samples. -/
def dipping (s : State) (zs : List Cx) (c n : Nat) : Scan := ⟨true, (scanWindow s zs n).map (magAbs (order s)), c, n - c⟩

section
variable {s : State} {zs : List Cx} {rest : List SrcItem}

theorem sampleItems_append (a b : List Cx) : sampleItems (a ++ b) = sampleItems a ++ sampleItems b := List.map_append

theorem take_window (hs : ¬ (s.run = true ∧ s.stopreq = true)) (hsrc : s.src = sampleItems zs ++ rest)
    (hle : (mode s).dipWindow ≤ zs.length) :
    take (mode s).dipWindow s =
      .samples (zs.take (mode s).dipWindow) (scannedState s zs rest (mode s).dipWindow) := by
  have hsplit : s.src = sampleItems (zs.take (mode s).dipWindow) ++ (sampleItems (zs.drop (mode s).dipWindow) ++ rest) := by
    rw [hsrc, ← List.append_assoc, ← sampleItems_append, List.take_append_drop]
  have hlen : (zs.take (mode s).dipWindow).length = (mode s).dipWindow := List.length_take_of_le hle
  rw [take_samples _ _ _ _ hs hlen hsplit, sampledState, hlen, scannedState, Nat.sub_self]
  rfl

theorem take_next (hs : ¬ (s.run = true ∧ s.stopreq = true)) {n : Nat} (hwindow : (mode s).dipWindow ≤ n)
    (hlt : n < zs.length) :
    take 1 (scannedState s zs rest n) = .samples [zs.getD n []] (scannedState s zs rest (n + 1)) := by
  have hget : zs.getD n [] = zs[n] := List.getD_eq_getElem _ _ hlt
  have hsplit : (scannedState s zs rest n).src = sampleItems [zs.getD n []] ++ (sampleItems (zs.drop (n + 1)) ++ rest) := by
    rw [← List.append_assoc, ← sampleItems_append, hget, List.singleton_append, ← List.drop_eq_getElem_cons hlt]
    rfl
  have hreq : n + 1 - (mode s).dipWindow = n - (mode s).dipWindow + 1 := by omega
  rw [take_samples 1 (scannedState s zs rest n) _ _ hs rfl hsplit]
  simp only [sampledState, scannedState, List.take_succ_eq_append_getElem hlt, List.foldl_append, hreq,
    List.replicate_succ', hget, List.length_singleton, List.append_assoc, List.cons_append, Nat.add_assoc]
  rfl

theorem scanWindow_length {n : Nat} (hwindow : (mode s).dipWindow ≤ n) (hle : n ≤ zs.length) :
    (scanWindow s zs n).length = (mode s).dipWindow := by
  rw [scanWindow, List.length_drop, List.length_take_of_le hle]
  omega

theorem scanWindow_succ (hpos : 0 < (mode s).dipWindow) {n : Nat} (hwindow : (mode s).dipWindow ≤ n) (hlt : n < zs.length) :
    scanWindow s zs (n + 1) = (scanWindow s zs n).drop 1 ++ [zs.getD n []] := by
  have hstart : n + 1 - (mode s).dipWindow = n - (mode s).dipWindow + 1 := by omega
  have hin : n - (mode s).dipWindow + 1 ≤ (zs.take n).length := by
    rw [List.length_take_of_le hlt.le]
    omega
  rw [scanWindow, scanWindow, List.take_succ_eq_append_getElem hlt, hstart, List.drop_append_of_le_length hin,
    List.drop_drop, List.getD_eq_getElem _ _ hlt]

theorem scanPush_searching (hpos : 0 < (mode s).dipWindow) {n : Nat} (hwindow : (mode s).dipWindow ≤ n) (hlt : n < zs.length) :
    scanPush (order s) (searching s zs n) [zs.getD n []] = searching s zs (n + 1) := by
  rw [searching, searching, scanWindow_succ hpos hwindow hlt, List.map_append, List.map_drop]
  rfl

theorem scanPush_dipping (hpos : 0 < (mode s).dipWindow) {c n : Nat} (hc : c ≤ n) (hwindow : (mode s).dipWindow ≤ n)
    (hlt : n < zs.length) : scanPush (order s) (dipping s zs c n) [zs.getD n []] = dipping s zs c (n + 1) := by
  rw [dipping, dipping, scanWindow_succ hpos hwindow hlt, List.map_append, List.map_drop, Nat.succ_sub hc]
  rfl

/-- Rounds that neither end the scan nor change its phase. -/
theorem scanLoop_advance (hs : ¬ (s.run = true ∧ s.stopreq = true)) {sc : Nat → Scan} {n m : Nat} (hnm : n ≤ m)
    (hwindow : (mode s).dipWindow ≤ n) (hm : m ≤ zs.length)
    (hmore : ∀ j, n ≤ j → j < m → scanTest (scannedState s zs rest j) (sc j) = .more (sc j))
    (hpush : ∀ j, n ≤ j → j < m → scanPush (order s) (sc j) [zs.getD j []] = sc (j + 1)) (fuel : Nat) :
    scanLoop (m - n + fuel) (sc n) (scannedState s zs rest n) = scanLoop fuel (sc m) (scannedState s zs rest m) := by
  induction m, hnm using Nat.le_induction generalizing fuel with
  | base => rw [Nat.sub_self, Nat.zero_add]
  | succ m hnm ih =>
    have hrest := ih (by omega) (fun j h1 h2 => hmore j h1 (by omega)) (fun j h1 h2 => hpush j h1 (by omega)) (fuel + 1)
    rw [show m + 1 - n + fuel = m - n + (fuel + 1) by omega, hrest,
      scanLoop_of_more (hmore m hnm (by omega)) (take_next hs (by omega) (by omega))]
    exact congrArg (scanLoop fuel · _) (hpush m hnm (by omega))

end

/-! ## The tests of a dip (R276, R279, R280, R283) -/

section
variable {s : State} {zs : List Cx}

theorem magVal_scale (M : Nat) (r : Scalar) (x : Mag) : magVal M (magScale r x) = scalarVal r * magVal M x :=
  magAt_scale _ M r x

theorem magVal_abs {M : Nat} (hM : 0 < M) (z : Cx) : magVal M (magAbs M z) = ‖cxVal M z‖ := by
  rw [magAbs, magVal_sqrt, cxVal_normSq hM, Complex.ofReal_re, Real.sqrt_sq (norm_nonneg _)]

theorem magVal_levelUpdate {M : Nat} (hM : 0 < M) (alpha : Scalar) (lvl : Mag) (z : Cx) :
    magVal M (levelUpdate M alpha lvl z) =
      (1 - scalarVal alpha) * magVal M lvl + scalarVal alpha * ‖cxVal M z‖ := by
  simp only [levelUpdate, magAt_add, magAt_scale, magVal_abs hM, scalarAt_sub, scalarAt_ofRat, Rat.cast_one]

variable (hs : ModeOk s)
include hs

theorem magVal_scannedLevel (rest : List SrcItem) {n : Nat} (hle : n ≤ zs.length) :
    magVal (order s) (scannedState s zs rest n).slevel = levelAt s zs n := by
  induction n with
  | zero => rfl
  | succ n ih =>
    have hlevel : (scannedState s zs rest (n + 1)).slevel =
        levelUpdate (order s) (mode s).levelAlpha (scannedState s zs rest n).slevel (zs.getD n []) := by
      simp only [scannedState, List.take_succ_eq_append_getElem hle, List.foldl_append, List.getD_eq_getElem _ _ hle]
      rfl
    rw [hlevel, magVal_levelUpdate (order_pos hs), ih (by omega)]
    rfl

theorem magVal_scanMean {n : Nat} (hwindow : (mode s).dipWindow ≤ n) (hle : n ≤ zs.length) :
    magVal (order s) (scanMean s ((scanWindow s zs n).map (magAbs (order s)))) = curAt s zs n := by
  have hlen := scanWindow_length hwindow hle
  have hsum : ((scanWindow s zs n).map fun z => ‖cxVal (order s) z‖).sum =
      ∑ j ∈ Finset.range (mode s).dipWindow, magnitudeAt s zs (n - (mode s).dipWindow + j) := by
    rw [sum_map_eq_sum_range _ _ [], hlen]
    refine Finset.sum_congr rfl fun j hj => ?_
    have hj : n - (mode s).dipWindow + j < n := by
      have := Finset.mem_range.1 hj
      omega
    simp [magnitudeAt, scanWindow, List.getD_eq_getElem?_getD, List.getElem?_drop, List.getElem?_take_of_lt hj]
  rw [scanMean, magVal_scaleRat, magVal_sum, List.map_map, curAt, ← hsum]
  simp only [Function.comp_def, magVal_abs (order_pos hs)]
  push_cast
  ring

variable {rest : List SrcItem} {n : Nat} (hwindow : (mode s).dipWindow ≤ n) (hle : n ≤ zs.length)
include hwindow hle

theorem dipStart_iff :
    dipStart (scannedState s zs rest n) ((scanWindow s zs n).map (magAbs (order s))) = true ↔ DipStarts s zs n := by
  have hmean := magVal_scanMean hs hwindow hle
  have hlevel := magVal_scannedLevel hs rest hle
  refine (magLt_iff _ (order_pos hs) _ _).trans ?_
  rw [magVal_scale, DipStarts, ← hmean, ← hlevel]
  rfl

theorem dipEnd_iff :
    dipEnd (scannedState s zs rest n) ((scanWindow s zs n).map (magAbs (order s))) = true ↔ DipEnds s zs n := by
  have hmean := magVal_scanMean hs hwindow hle
  have hlevel := magVal_scannedLevel hs rest hle
  refine (magLt_iff _ (order_pos hs) _ _).trans ?_
  rw [magVal_scale, DipEnds, ← hmean, ← hlevel]
  rfl

/-! ## What the loops do after `n` samples (R279) -/

theorem scanLoop_start {fuel : Nat} (h : DipStarts s zs n) :
    scanLoop fuel (searching s zs n) (scannedState s zs rest n) =
      scanLoop fuel (dipping s zs n n) (scannedState s zs rest n) := by
  have hstart := (dipStart_iff (rest := rest) hs hwindow hle).2 h
  refine scanLoop_congr ?_
  simp only [scanTest, searching, dipping, hstart, if_true, if_false, Bool.false_eq_true, Nat.sub_self]

theorem scanTest_searching (h : ¬ DipStarts s zs n) :
    scanTest (scannedState s zs rest n) (searching s zs n) =
      if (mode s).tF ≤ n then .ends .fail 0 else .more (searching s zs n) := by
  have hstart := mt (dipStart_iff (rest := rest) hs hwindow hle).1 h
  rw [scanTest, if_neg (by simp [searching]), if_neg (by exact hstart)]
  rfl

theorem scanTest_ended {c : Nat} (hc : c ≤ n) (h : DipEnds s zs n) :
    scanTest (scannedState s zs rest n) (dipping s zs c n) = .ends .ok (BitVec.ofNat 32 n) := by
  have hend := (dipEnd_iff (rest := rest) hs hwindow hle).2 h
  rw [scanTest, if_pos (show (dipping s zs c n).inDip = true from rfl), scanPhase2, if_pos (by exact hend)]
  simp only [dipping, Nat.add_sub_cancel' hc]

theorem scanTest_dipping {c : Nat} (h : ¬ DipEnds s zs n) :
    scanTest (scannedState s zs rest n) (dipping s zs c n) =
      if (mode s).tNull + (mode s).dipWindow ≤ n - c then .ends .fail 1 else .more (dipping s zs c n) := by
  have hend := mt (dipEnd_iff (rest := rest) hs hwindow hle).1 h
  rw [scanTest, if_pos (show (dipping s zs c n).inDip = true from rfl), scanPhase2, if_neg (by exact hend)]
  rfl

end

/-! ## The scan -/

section
variable {s : State} (hs : ModeOk s)
include hs

theorem dipWindow_bounds : 0 < (mode s).dipWindow ∧ (mode s).dipWindow ≤ (mode s).tF := by
  have hwf := mode_wf hs
  simp only [modeWf, Bool.and_eq_true] at hwf
  obtain ⟨⟨⟨-, hlevels⟩, -⟩, -⟩ := hwf
  simp only [levelsWf, Bool.and_eq_true, decide_eq_true_iff] at hlevels
  obtain ⟨⟨⟨⟨hwindow, -⟩, -⟩, -⟩, -⟩ := hlevels
  exact hwindow

variable (hstop : ¬ (s.run = true ∧ s.stopreq = true)) {zs : List Cx} {rest : List SrcItem}
include hstop

/-- The first loop up to the sample after which a dip may start. -/
theorem opNullscan_searches (hscan : s.scan = none) (hsrc : s.src = sampleItems zs ++ rest) {m : Nat}
    (hwindow : (mode s).dipWindow ≤ m) (hm : m ≤ (mode s).tF) (hlen : m ≤ zs.length)
    (hnone : ∀ j, (mode s).dipWindow ≤ j → j < m → ¬ DipStarts s zs j) :
    opNullscan s = scanLoop (zs.length - m + rest.length + 1) (searching s zs m) (scannedState s zs rest m) := by
  obtain ⟨hpos, -⟩ := dipWindow_bounds hs
  have hbegin : opNullscan s = scanLoop ((scannedState s zs rest (mode s).dipWindow).src.length + 1)
      (searching s zs (mode s).dipWindow) (scannedState s zs rest (mode s).dipWindow) := by
    simp only [opNullscan, hscan, take_window hstop hsrc (hwindow.trans hlen)]
    rw [searching, scanWindow, Nat.sub_self, List.drop_zero]
  have hfuel : (scannedState s zs rest (mode s).dipWindow).src.length + 1 =
      m - (mode s).dipWindow + (zs.length - m + rest.length + 1) := by
    simp only [scannedState, sampleItems, List.length_append, List.length_map, List.length_drop]
    omega
  rw [hbegin, hfuel]
  refine scanLoop_advance hstop hwindow (Nat.le_refl _) hlen (fun j h1 h2 => ?_)
    (fun j h1 h2 => scanPush_searching hpos h1 (by omega)) _
  rw [scanTest_searching hs h1 (by omega) (hnone j h1 h2), if_neg (by omega)]

/-- Where no dip starts within `T_F` samples, the scan ends after them (R281). -/
theorem opNullscan_noDip (hscan : s.scan = none) (hsrc : s.src = sampleItems zs ++ rest) (hlen : (mode s).tF ≤ zs.length)
    (hnone : ∀ j, (mode s).dipWindow ≤ j → j ≤ (mode s).tF → ¬ DipStarts s zs j) :
    opNullscan s = .done { scannedState s zs rest (mode s).tF with scan := none } .fail 0 := by
  obtain ⟨-, hF⟩ := dipWindow_bounds hs
  rw [opNullscan_searches hs hstop hscan hsrc hF (Nat.le_refl _) hlen fun j h1 h2 => hnone j h1 h2.le]
  exact scanLoop_of_ends (by rw [scanTest_searching hs hF hlen (hnone _ hF (Nat.le_refl _)), if_pos (Nat.le_refl _)])

section
variable {c m : Nat} (hscan : s.scan = none) (hsrc : s.src = sampleItems zs ++ rest) (hfirst : FirstStart s zs c)
  (hcm : c ≤ m) (hm : m ≤ c + (mode s).tNull + (mode s).dipWindow) (hlen : m ≤ zs.length)
  (hnone : ∀ j, c ≤ j → j < m → ¬ DipEnds s zs j)
include hscan hsrc hfirst hcm hm hlen hnone

/-- The second loop up to the sample after which the dip may end. -/
theorem opNullscan_dips :
    opNullscan s = scanLoop (zs.length - m + rest.length + 1) (dipping s zs c m) (scannedState s zs rest m) := by
  obtain ⟨hwindow, hF, hstart, hbefore⟩ := hfirst
  obtain ⟨hpos, -⟩ := dipWindow_bounds hs
  rw [opNullscan_searches hs hstop hscan hsrc hwindow hF (hcm.trans hlen) hbefore,
    scanLoop_start hs hwindow (hcm.trans hlen) hstart,
    show zs.length - c + rest.length + 1 = m - c + (zs.length - m + rest.length + 1) by omega]
  refine scanLoop_advance hstop hcm hwindow hlen (fun j h1 h2 => ?_)
    (fun j h1 h2 => scanPush_dipping hpos h1 (by omega) (by omega)) _
  rw [scanTest_dipping hs (by omega) (by omega) (hnone j h1 h2), if_neg (by omega)]

/-- The scan ends `Found` after the first sample that ends the dip (R283). -/
theorem opNullscan_found (hend : DipEnds s zs m) :
    opNullscan s = .done { scannedState s zs rest m with scan := none } .ok (BitVec.ofNat 32 m) := by
  rw [opNullscan_dips hs hstop hscan hsrc hfirst hcm hm hlen hnone]
  exact scanLoop_of_ends (scanTest_ended hs (hfirst.1.trans hcm) hlen hcm hend)

/-- The scan ends `NoDipEnd` where its budget ends (R283). -/
theorem opNullscan_noDipEnd (hbudget : m = c + (mode s).tNull + (mode s).dipWindow) (hend : ¬ DipEnds s zs m) :
    opNullscan s = .done { scannedState s zs rest m with scan := none } .fail 1 := by
  rw [opNullscan_dips hs hstop hscan hsrc hfirst hcm hm hlen hnone]
  exact scanLoop_of_ends (by rw [scanTest_dipping hs (hfirst.1.trans hcm) hlen hend, if_pos (by omega)])

end

end

/-! ## The obligations -/

theorem exists_first {P : Nat → Prop} {lo hi : Nat} (h : ∃ n, lo ≤ n ∧ n ≤ hi ∧ P n) :
    ∃ n, lo ≤ n ∧ n ≤ hi ∧ P n ∧ ∀ j, lo ≤ j → j < n → ¬ P j := by
  classical
  obtain ⟨hlo, hhi, hP⟩ := Nat.find_spec h
  exact ⟨Nat.find h, hlo, hhi, hP, fun j hj hlt hPj => Nat.find_min h hlt ⟨hj, by omega, hPj⟩⟩

theorem withScan_none {t : State} (h : t.scan = none) : { t with scan := none } = t := by rw [← h]

/-- A scan with samples enough ends as its pseudocode does. -/
theorem opNullscan_ends_as_specified {s : State} (hs : ModeOk s) (hstop : ¬ (s.run = true ∧ s.stopreq = true))
    {zs : List Cx} {rest : List SrcItem} (hscan : s.scan = none) (hsrc : s.src = sampleItems zs ++ rest)
    (hlen : (mode s).tF + (mode s).tNull + (mode s).dipWindow ≤ zs.length) :
    ∃ k st v, (mode s).dipWindow ≤ k ∧ k ≤ (mode s).tF + (mode s).tNull + (mode s).dipWindow ∧ k ≤ zs.length ∧
      ScanEnds s zs k st v ∧ opNullscan s = .done { scannedState s zs rest k with scan := none } st v := by
  obtain ⟨-, hF⟩ := dipWindow_bounds hs
  by_cases hstart : ∃ c, (mode s).dipWindow ≤ c ∧ c ≤ (mode s).tF ∧ DipStarts s zs c
  case neg =>
    have hnone (j : Nat) (h1 : (mode s).dipWindow ≤ j) (h2 : j ≤ (mode s).tF) : ¬ DipStarts s zs j :=
      fun h => hstart ⟨j, h1, h2, h⟩
    exact ⟨(mode s).tF, .fail, 0, hF, by omega, by omega, .inr (.inl ⟨hnone, rfl, rfl, rfl⟩),
      opNullscan_noDip hs hstop hscan hsrc (by omega) hnone⟩
  case pos =>
    obtain ⟨c, hwindow, hcF, hdip, hbefore⟩ := exists_first hstart
    have hfirst : FirstStart s zs c := ⟨hwindow, hcF, hdip, hbefore⟩
    by_cases hend : ∃ m, c ≤ m ∧ m ≤ c + (mode s).tNull + (mode s).dipWindow ∧ DipEnds s zs m
    case pos =>
      obtain ⟨m, hcm, hm, hends, hnone⟩ := exists_first hend
      exact ⟨m, .ok, _, by omega, by omega, by omega, .inl ⟨c, hfirst, hcm, hm, hends, hnone, rfl, rfl⟩,
        opNullscan_found hs hstop hscan hsrc hfirst hcm hm (by omega) hnone hends⟩
    case neg =>
      have hnone (j : Nat) (h1 : c ≤ j) (h2 : j ≤ c + (mode s).tNull + (mode s).dipWindow) : ¬ DipEnds s zs j :=
        fun h => hend ⟨j, h1, h2, h⟩
      exact ⟨_, .fail, 1, by omega, by omega, by omega, .inr (.inr ⟨c, hfirst, rfl, hnone, rfl, rfl⟩),
        opNullscan_noDipEnd hs hstop hscan hsrc hfirst (by omega) (Nat.le_refl _) (by omega)
          (fun j h1 h2 => hnone j h1 h2.le) rfl (hnone _ (by omega) (Nat.le_refl _))⟩

/-- Settles O22: the scan stops at the first start of a dip, or at `T_F`, and then at the first end of it, or at its
budget; each test compares the real numbers that its forms stand for. -/
theorem nullscanResult : Obligations.NullscanResult := by
  unfold Obligations.NullscanResult
  intro s zs rest hs hrun hscan hsrc hlen
  obtain ⟨k, st, v, hwindow, hk, hkz, hends, hop⟩ :=
    opNullscan_ends_as_specified hs (by simp [hrun]) hscan hsrc hlen
  rw [withScan_none (t := scannedState s zs rest k) hscan] at hop
  exact ⟨k, st, v, _, hwindow, hk, hends, magVal_scannedLevel hs rest hkz,
    hostUnit_done .nullscan opNullscan _ _ _ _ hrun hop⟩

/-! ## An all-zero stream (R280, R300) -/

theorem getD_zeros (n j : Nat) : (List.replicate n ([] : Cx)).getD j [] = [] := by
  simp [List.getD_eq_getElem?_getD, List.getElem?_replicate]
  split <;> rfl

theorem magSqrt_nil : magSqrt [] = [] := by
  have h0 : isqrt 0 = 0 := rfl
  have h1 : isqrt 1 = 1 := rfl
  simp [magSqrt, cxRat?, ratSqrt?, h0, h1]

section
variable {s : State} (hlevel : s.slevel = []) (n : Nat)
include hlevel

/-- The level of zero samples stays the empty form. -/
theorem foldl_levelUpdate_zeros (M : Nat) (alpha : Scalar) :
    (List.replicate n ([] : Cx)).foldl (levelUpdate M alpha) s.slevel = [] := by
  have hzero : levelUpdate M alpha [] [] = [] := by
    have habs : magAbs M [] = [] := magSqrt_nil
    simp [levelUpdate, habs, magScale, magAdd]
  rw [hlevel]
  induction n with
  | zero => rfl
  | succ n ih => rw [List.replicate_succ, List.foldl_cons, hzero, ih]

theorem not_dipStarts_zeros (j : Nat) : ¬ DipStarts s (List.replicate n []) j := by
  have hmag (i : Nat) : magnitudeAt s (List.replicate n []) i = 0 := by
    rw [magnitudeAt, getD_zeros, cxVal, cxAt_nil, norm_zero]
  have hat (i : Nat) : levelAt s (List.replicate n []) i = 0 := by
    induction i with
    | zero => rw [levelAt, hlevel, magVal, magAt_nil]
    | succ i ih => rw [levelAt, ih, hmag, mul_zero, mul_zero, add_zero]
  simp [DipStarts, curAt, hmag, hat]

end

/-- A scan of `T_F` zeros with the level at 0 ends `NoDip` and changes the port only. -/
theorem opNullscan_zeros {s : State} (hs : ModeOk s) (hstop : ¬ (s.run = true ∧ s.stopreq = true))
    {rest : List SrcItem} (hscan : s.scan = none) (hlevel : s.slevel = [])
    (hsrc : s.src = sampleItems (List.replicate (mode s).tF []) ++ rest) :
    ∃ q : List SrcRead, opNullscan s = .done { s with
      src := rest, srcTaken := s.srcTaken + (mode s).tF, srcReq := s.srcReq ++ q } .fail 0 := by
  have hop := opNullscan_noDip hs hstop hscan hsrc (by simp) fun j _ _ => not_dipStarts_zeros hlevel _ j
  rw [withScan_none (t := scannedState s _ rest _) hscan, scannedState, List.drop_of_length_le (by simp),
    List.take_of_length_le (by simp), foldl_levelUpdate_zeros hlevel, ← hlevel] at hop
  exact ⟨_, hop⟩

/-- Settles O23: 0 is not below 0, so no dip starts, and the level of zeros stays at 0. -/
theorem allZeroScan : Obligations.AllZeroScan := by
  unfold Obligations.AllZeroScan
  intro s rest hs hrun hstop hp hscan hlevel hsrc
  obtain ⟨q, hop⟩ := opNullscan_zeros hs (by simp [hstop]) hscan hlevel hsrc
  have hstep : seqStep s = .next (afterScan _ .fail 0) := (seqStep_at hrun hp).trans (seqUnit_of_done hop (by simp))
  rw [hstep]
  refine ⟨q, fun hcnt => ?few, fun hcnt => ?eighth⟩
  case few => exact congrArg Host.Outcome.next (afterScan_noDip rfl hcnt.ne)
  case eighth => exact congrArg Host.Outcome.next (afterScan_noSignal rfl hcnt)

end Sys2Proof.Proofs
end

section
/-! PROOF. The session and register commands (`47_host_commands.md`): what each write of a register does to the state
and answers, and with this `StartResult`, `StopResult` and `WriteRegister`. -/

open Sys2Proof Sys2Proof.Machine Sys2Proof.Laws

namespace Sys2Proof.Proofs

/-! ## A field of a word -/

/-- The low `k` bits of a word, widened again, are the word under the mask of those bits. -/
theorem setWidth_low_eq_and_mask {w k : Nat} (hk : k ≤ w) (d : BitVec w) :
    (d.setWidth k).setWidth w = d &&& BitVec.ofNat w (2 ^ k - 1) := by
  have hmask : 2 ^ k - 1 < 2 ^ w := lt_of_lt_of_le (Nat.sub_lt (Nat.two_pow_pos k) Nat.one_pos)
    (Nat.pow_le_pow_right Nat.two_pos hk)
  refine BitVec.eq_of_toNat_eq ?_
  rw [BitVec.toNat_setWidth_of_le hk, BitVec.toNat_setWidth, BitVec.toNat_and, BitVec.toNat_ofNat,
    Nat.mod_eq_of_lt hmask, Nat.and_two_pow_sub_one_eq_mod]

/-- A register that is the low `k` bits of the word written reads as the word under the mask (R326). -/
theorem toNat_setWidth_low {w k : Nat} (hk : k ≤ w) (d : BitVec w) :
    (d.setWidth k).toNat = (d &&& BitVec.ofNat w (2 ^ k - 1)).toNat := by
  rw [← setWidth_low_eq_and_mask hk, BitVec.toNat_setWidth_of_le hk]

/-- Writing 1 clears: a bit stays where it was set and its bit of `d` is 0. -/
theorem getLsbD_clearWritten (e : BitVec 6) (d : Word) {j : Nat} (hj : j < 6) :
    (e &&& ~~~(d.setWidth 6)).getLsbD j = (e.getLsbD j && !d.getLsbD j) := by
  simp [hj]

/-! ## Register writes, address by address -/

section
variable {s : State} (d : Word)

theorem csrWrite_ctrl (hr : s.run = false) : csrWrite s 0x00 d = ({ s with ctrl := d.setWidth 2 }, .ok) :=
  if_neg (by simp [hr])

theorem csrWrite_locked (hr : s.run = true) {a : Nat} (ha : a = 0x00 ∨ a = 0x1F) : csrWrite s a d = (s, .busy) := by
  obtain rfl | rfl := ha <;> exact if_pos hr

theorem csrWrite_event : csrWrite s 0x02 d = ({ s with event := s.event &&& ~~~(d.setWidth 6) }, .ok) := rfl

theorem csrWrite_evmask : csrWrite s 0x03 d = ({ s with evmask := d.setWidth 6 }, .ok) := rfl

theorem csrWrite_thr : csrWrite s 0x04 d = ({ s with thr := d.setWidth 16 }, .ok) := rfl

theorem csrWrite_modeSel (hr : s.run = false) :
    csrWrite s 0x1F d = if s.cfg.modes.length ≤ (d.setWidth 8).toNat then (s, .illegal)
      else if d.setWidth 8 = s.modeSel then (s, .ok) else ({ forgetBuffers s with modeSel := d.setWidth 8 }, .ok) :=
  if_neg (by simp [hr])

theorem csrWrite_other {a : Nat} (ha : a ∉ [0x00, 0x02, 0x03, 0x04, 0x1F]) : csrWrite s a d = (s, .illegal) := by
  unfold csrWrite
  split
  case h_6 => rfl
  all_goals exact absurd (by decide) ha

/-! ## The answer of `WRCSR` -/

variable {d} {a : Nat} {t : State} {v : Word} {st : Status}

/-- An accepted write answers what the register then reads. -/
theorem exec_wrcsr_ok (h : csrWrite s a d = (t, .ok)) (hv : csrRead t a = some v) :
    exec (.wrcsr a d) s = .next (respond t .ok v) := by
  change execWrcsr a d s = _
  rw [execWrcsr, h, if_pos rfl, hv, Option.getD_some]

/-- A refused write answers why. -/
theorem exec_wrcsr_refused (h : csrWrite s a d = (t, st)) (hst : st ≠ .ok) :
    exec (.wrcsr a d) s = .next (respond t st 0) := by
  change execWrcsr a d s = _
  rw [execWrcsr, h, if_neg hst]

end

/-! ## The obligations -/

/-- Settles O7: at `RUN = 0` the effect is the `START` reset with the port flushed (`startReset`, `flushSrc`). -/
theorem startResult : Obligations.StartResult := by
  unfold Obligations.StartResult
  intro s hr
  change execStart s = _
  rw [execStart, if_neg (by simp [hr]), respond, flushSrc, startReset, zeroFic]

/-- Settles O8, by the two values of `RUN`; the word is that of `decodeEncode`. -/
theorem stopResult : Obligations.StopResult := by
  unfold Obligations.StopResult
  refine ⟨decodeEncode .stop [] rfl, fun s => ⟨fun hr => ?halted, fun hr => ?running⟩⟩
  case halted => exact if_neg (by simp [hr])
  case running => exact if_pos hr

/-- Settles O10, address by address: what `csrWrite` does there, and then the answer is what the register reads. -/
theorem writeRegister : Obligations.WriteRegister := by
  unfold Obligations.WriteRegister
  intro d s
  have hmodeSel : (d &&& 0xFF).toNat = (d.setWidth 8).toNat := (toNat_setWidth_low (k := 8) (by decide) d).symm
  have hmask {k : Nat} (hk : k ≤ 32) : some ((d.setWidth k).setWidth 32) = some (d &&& BitVec.ofNat 32 (2 ^ k - 1)) :=
    congrArg some (setWidth_low_eq_and_mask hk d)
  refine ⟨fun hr => ?ctrl, fun hr => ?ctrlLocked, ⟨_, fun j hj => getLsbD_clearWritten s.event d hj, ?event⟩, ?evmask,
    ?thr, fun hr => ?modeLocked, fun hr hn => ?modeIllegal, fun hr hn => ⟨fun hd => ?modeSame, fun hd => ?modeNew⟩,
    fun a ha => ?other⟩
  case ctrl => exact exec_wrcsr_ok (csrWrite_ctrl d hr) (hmask (k := 2) (by decide))
  case ctrlLocked => exact exec_wrcsr_refused (csrWrite_locked d hr (.inl rfl)) (by decide)
  case event => exact exec_wrcsr_ok (csrWrite_event d) rfl
  case evmask => exact exec_wrcsr_ok (csrWrite_evmask d) (hmask (k := 6) (by decide))
  case thr => exact exec_wrcsr_ok (csrWrite_thr d) (hmask (k := 16) (by decide))
  case modeLocked => exact exec_wrcsr_refused (csrWrite_locked d hr (.inr rfl)) (by decide)
  case modeIllegal =>
    rw [hmodeSel] at hn
    exact exec_wrcsr_refused ((csrWrite_modeSel d hr).trans (if_pos hn)) (by decide)
  case modeSame =>
    rw [hmodeSel] at hn
    have hw : csrWrite s 0x1F d = (s, .ok) := by rw [csrWrite_modeSel d hr, if_neg hn.not_ge, if_pos hd]
    refine exec_wrcsr_ok hw ?_
    rw [csrRead, ← hd]
    exact hmask (k := 8) (by decide)
  case modeNew =>
    rw [hmodeSel] at hn
    have hw : csrWrite s 0x1F d = ({ forgetBuffers s with modeSel := d.setWidth 8 }, .ok) := by
      rw [csrWrite_modeSel d hr, if_neg hn.not_ge, if_neg hd]
    exact exec_wrcsr_ok hw (hmask (k := 8) (by decide))
  case other => exact exec_wrcsr_refused (csrWrite_other d ha) (by decide)

end Sys2Proof.Proofs
end

section
/-! PROOF. What a unit operation does to the state (`30_encoding.md` R90), said once: the inductive `Effect` has a
constructor for each change that an operation can make, with what the operation has checked before it, and
`unitOp_does` says that an operation makes such changes only, and none where it refuses. -/

open Sys2Proof Sys2Proof.Machine Sys2Proof.Laws

namespace Sys2Proof.Proofs

/-! ## The changes -/

/-- One change that a unit operation makes. -/
inductive Effect (s : State) : State → Prop where
  /-- what reads of `SRC` change (`46_sync_controller.md` R273), and what arrives there -/
  | reads (src : List SrcItem) (taken : Nat) (req : List SrcRead) (lvl : Mag) (scan : Option Scan) :
      Effect s { s with src := src, srcTaken := taken, srcReq := req, slevel := lvl, scan := scan }
  /-- `SKIPNULL` (R296) -/
  | tii (v : List Cx) : Effect s { s with tiiOut := s.tiiOut ++ [v] }
  /-- `FILL`, `SHIFT` (R277, R287) -/
  | window (off : Nat) (v : List Cx) (h : ModeOk s → off + v.length ≤ (mode s).tS) :
      Effect s { s with win := bufWriteRange s.win off v }
  /-- `FFT`, `FINDB`, `ESTCO` (`40_fft_engine.md` R124) -/
  | spectrum (x : List Cx) (h : x.length = (mode s).tU) : Effect s { s with spec := bufOf 0 x }
  /-- `PRIME` (`42_ofdm_decoder.md` R163) -/
  | prime (x : List Cx) (h : x.length = (mode s).tU) :
      Effect s { s with spec := bufOf 0 x, prev := bufOf 0 x, prevValid := true }
  /-- `DECSYM` (`42_ofdm_decoder.md` R164, R165) -/
  | decsym (x : List Cx) (v : List Soft) (hx : x.length = (mode s).tU) (hv : ModeOk s → v.length ≤ nSoft (mode s)) :
      Effect s { s with spec := bufOf 0 x, prev := bufOf 0 x, soft := bufOf 0 v }
  /-- `FCORR` (R291) -/
  | fcorr (c : Cx) : Effect s { s with freqcorr := c }
  /-- `FTRACK` (R293) -/
  | ftrack : Effect s { s with
      fine := (foldFine (order s) (mode s).carrierDiff (trackedFine s)).1
      coarse := sat32 (s.coarse + (foldFine (order s) (mode s).carrierDiff (trackedFine s)).2)
      freqcorr := [] }
  /-- `FICPUSH 0` (`43_fic_decoder.md` R185) -/
  | zeroFic : Effect s (zeroFic s)
  /-- `FICPUSH` (R185), at the index that comes next -/
  | ficpush (v : List Soft) (hidx : s.ficIdx < Config.ficSyms) (hv : v.length = nSoft (mode s)) : Effect s { s with
      ficAcc := depuncture (mode s) s.ficAccZeroed (s.ficIdx * nSoft (mode s)) v s.ficAcc
      ficFill := s.ficFill + nSoft (mode s)
      ficIdx := s.ficIdx + 1
      ficState := .accumulating }
  /-- `FICDEC` (R190): the FIBs and their counts -/
  | fibs (out : List Bool) (good bad : Word) (fibs : List (List Bool))
      (h : out.length ≤ (mode s).nBlk * (mode s).blkOut) : Effect s { s with
        ficOut := bufOf 0 out, fibGood := good, fibBad := bad, fibOut := s.fibOut ++ fibs }
  /-- `FICDEC` (R190): what the counts mean -/
  | verdict (bad : Word) (st : FicState) (sync : Bool) :
      Effect s { s with badFrames := bad, ficState := st, ficSync := sync }
  /-- `raise` (`60_exceptions.md` R345) -/
  | raise (e : EvtRecord) : Effect s (raiseEvent s e)
  /-- `MSCPUSH` (`45_msc_demux.md` R248) -/
  | mscpush (e : FifoEntry) (hroom : s.fifo.length < fifoDepth (mode s)) : Effect s { s with fifo := s.fifo ++ [e] }
  /-- `CIFPOP` (R249), up to the slice -/
  | place (e : FifoEntry) (r : List FifoEntry) (hfifo : s.fifo = e :: r) (hlen : e.bits.length = nSoft (mode s)) :
      Effect s (placeHead s e r)
  /-- `CIFPOP` (R249, R251), after a CIF's last slot -/
  | slice (rs : List CuRecord) : Effect s { s with cuOut := s.cuOut ++ rs, cifValid := [] }

/-- Changes one after the other. -/
abbrev Effects : State → State → Prop := Relation.ReflTransGen Effect

/-- What an operation does: changes, and none where it refuses (`60_exceptions.md` R349). -/
def Does (s : State) : OpRes → Prop
  | .done t st v => Effects s t ∧ (st = .illegal ∨ st = .busy → t = s ∧ v = 0)
  | .waits t => Effects s t
  | .fault _ => True

theorem Does.leaves {s : State} {op : OpRes} (h : Does s op) : Leaves (Effects s) op := by
  cases op with
  | done t st v => exact h.1
  | waits t => exact h
  | fault f => trivial

section
variable {s t : State} {v : Word}

theorem does_ok (h : Effects s t) : Does s (.done t .ok v) := ⟨h, by simp⟩

theorem does_fail (h : Effects s t) : Does s (.done t .fail v) := ⟨h, by simp⟩

theorem does_stopped (h : Effects s t) : Does s (.done t .stopped v) := ⟨h, by simp⟩

theorem does_illegal : Does s (.done s .illegal 0) := ⟨.refl, fun _ => ⟨rfl, rfl⟩⟩

theorem does_onSlice {off : Nat} {k : List Cx → OpRes} (hk : ∀ w, Does s (k w)) : Does s (onSlice s off k) := by
  obtain ⟨-, h⟩ | ⟨-, ⟨w, -, -, h⟩ | ⟨-, h⟩⟩ := onSlice_cases s off k <;> rw [h]
  · exact does_illegal
  · exact hk w
  · trivial

end

/-! ## Operations that read samples (`46_sync_controller.md` R273) -/

theorem effects_of_take_samples {n : Nat} {s t : State} {v : List Cx} (h : take n s = .samples v t) :
    v.length = n ∧ Effects s t := by
  obtain ⟨-, -, he⟩ | ⟨-, ⟨v', r, hlen, -, he⟩ | ⟨v', r, -, -, he⟩ | he⟩ := take_cases n s <;> rw [he] at h <;> cases h
  exact ⟨hlen, .single (.reads ..)⟩

theorem effects_of_take_stopped {n : Nat} {s t : State} (h : take n s = .stopped t) : Effects s t := by
  obtain ⟨-, -, he⟩ | ⟨-, ⟨v', r, -, -, he⟩ | ⟨v', r, -, -, he⟩ | he⟩ := take_cases n s <;> rw [he] at h <;> cases h
  · exact .refl
  · exact .single (.reads _ _ _ s.slevel s.scan)

theorem effect_level (s : State) (lvl : Mag) : Effect s { s with slevel := lvl } :=
  .reads s.src s.srcTaken s.srcReq lvl s.scan

theorem effect_scan (s : State) (scan : Option Scan) : Effect s { s with scan := scan } :=
  .reads s.src s.srcTaken s.srcReq s.slevel scan

theorem effect_src (s : State) (src : List SrcItem) : Effect s { s with src := src } :=
  .reads src s.srcTaken s.srcReq s.slevel s.scan

theorem opLevel_does (n : Nat) (s : State) : Does s (opLevel n s) := by
  rw [opLevel]
  split
  case isTrue => exact does_illegal
  case isFalse =>
    cases ht : take n s with
    | samples v t => exact does_ok ((effects_of_take_samples ht).2.tail (effect_level t _))
    | stopped t => exact does_stopped (effects_of_take_stopped ht)
    | waits => exact .refl

theorem opFill_does (off n : Nat) (s : State) : Does s (opFill off n s) := by
  rw [opFill]
  split
  case isTrue => exact does_illegal
  case isFalse hn =>
    cases ht : take n s with
    | samples v t =>
      obtain ⟨hlen, hmode⟩ : v.length = n ∧ mode t = mode s := by
        obtain ⟨hlen, src, taken, req, lvl, scan, tii, rfl⟩ := sameButReads_of_take_samples ht
        exact ⟨hlen, rfl⟩
      exact does_ok ((effects_of_take_samples ht).2.tail (.window off v fun _ => by rw [hmode]; omega))
    | stopped t => exact does_stopped (effects_of_take_stopped ht)
    | waits => exact .refl

theorem opSkipnull_does (s : State) : Does s (opSkipnull s) := by
  rw [opSkipnull]
  cases ht : take (mode s).tNull s with
  | samples v t =>
    have ht := (effects_of_take_samples ht).2
    refine does_ok ?_
    split
    · exact ht.tail (.tii v)
    · exact ht
  | stopped t => exact does_stopped (effects_of_take_stopped ht)
  | waits => exact .refl

theorem scanPhase2_status {s : State} {sc : Scan} {st : Status} {v : Word} (h : scanPhase2 s sc = .ends st v) :
    st = .ok ∨ st = .fail := by
  rw [scanPhase2] at h
  split_ifs at h <;> cases h <;> simp

/-- A scan that ends by its tests is `Found` or one of the two failures (R279). -/
theorem scanTest_status {s : State} {sc : Scan} {st : Status} {v : Word} (h : scanTest s sc = .ends st v) :
    st = .ok ∨ st = .fail := by
  rw [scanTest] at h
  split_ifs at h
  · exact scanPhase2_status h
  · exact scanPhase2_status h
  · cases h
    exact .inr rfl

theorem scanLoop_does (fuel : Nat) (sc : Scan) {s t : State} (h : Effects s t) : Does s (scanLoop fuel sc t) := by
  have ends {u : State} {sc : Scan} {st : Status} {v : Word} (hu : Effects s u) (hst : scanTest u sc = .ends st v) :
      Does s (.done { u with scan := none } st v) := by
    obtain rfl | rfl := scanTest_status hst
    · exact does_ok (hu.tail (effect_scan u _))
    · exact does_fail (hu.tail (effect_scan u _))
  induction fuel generalizing sc t with
  | zero =>
    rw [scanLoop]
    cases hst : scanTest t sc with
    | ends st v => exact ends h hst
    | more sc' => exact h.tail (effect_scan t _)
  | succ fuel ih =>
    rw [scanLoop]
    cases hst : scanTest t sc with
    | ends st v => exact ends h hst
    | more sc' =>
      dsimp only
      cases ht : take 1 t with
      | samples v u => exact ih _ (h.trans (effects_of_take_samples ht).2)
      | stopped u => exact does_stopped ((h.trans (effects_of_take_stopped ht)).tail (effect_scan u _))
      | waits => exact h.tail (effect_scan t _)

theorem opNullscan_does (s : State) : Does s (opNullscan s) := by
  rw [opNullscan]
  cases s.scan with
  | some sc =>
    dsimp only
    split
    · exact does_stopped (.single (effect_scan s _))
    · exact scanLoop_does _ _ .refl
  | none =>
    dsimp only
    cases ht : take (mode s).dipWindow s with
    | samples v t => exact scanLoop_does _ _ (effects_of_take_samples ht).2
    | stopped t => exact does_stopped (effects_of_take_stopped ht)
    | waits => exact .refl

/-! ## Operations on the window -/

theorem opShift_does (n : Nat) (s : State) : Does s (opShift n s) := by
  rw [opShift]
  split_ifs
  · exact does_illegal
  · exact does_ok .refl
  · cases hread : bufReadRange s.win n ((mode s).tU - n) with
    | none => trivial
    | some v =>
      obtain ⟨hlen, -⟩ := (bufReadRange_eq_some _ _ _ _).1 hread
      refine does_ok (.single (.window 0 v fun hs => ?_))
      have := tU_le_tS hs
      omega

theorem sliceDft_length (s : State) (w : List Cx) : (sliceDft s w).length = (mode s).tU := dft_length _ _ w

theorem effects_spectrum (s : State) (w : List Cx) : Effects s { s with spec := bufOf 0 (sliceDft s w) } :=
  .single (.spectrum _ (sliceDft_length s w))

theorem opFft_does (off : Nat) (s : State) : Does s (opFft off s) := does_onSlice fun w => does_ok (effects_spectrum s w)

theorem opEstco_does (off : Nat) (s : State) : Does s (opEstco off s) :=
  does_onSlice fun w => by
    dsimp only
    split
    · exact does_ok (effects_spectrum s w)
    · exact does_fail (effects_spectrum s w)

theorem opFindb_does (thr : Nat) (s : State) : Does s (opFindb thr s) := by
  rw [opFindb]
  cases winSlice s 0 with
  | none => trivial
  | some w =>
    dsimp only
    split
    · exact does_fail (effects_spectrum s w)
    · exact does_ok (effects_spectrum s w)

theorem opPrime_does (off : Nat) (s : State) : Does s (opPrime off s) :=
  does_onSlice fun w => does_ok (.single (.prime _ (sliceDft_length s w)))

theorem products_length_le {s : State} (hs : ModeOk s) (x p : List Cx) : (products s x p).length ≤ (mode s).carriers := by
  rw [products, List.length_zipWith, carrierBins_length hs]
  exact Nat.min_le_left _ _

theorem opDecsym_does (off : Nat) (s : State) : Does s (opDecsym off s) := by
  rw [opDecsym]
  split_ifs
  · exact does_illegal
  · exact does_illegal
  · split
    · trivial
    · trivial
    · refine does_ok (.single (.decsym _ _ (sliceDft_length s _) fun hs => ?_))
      rw [softVector_length, nSoft]
      exact Nat.mul_le_mul_left 2 (products_length_le hs _ _)

theorem opFcorr_does (s : State) : Does s (opFcorr s) := by
  rw [opFcorr]
  split
  · exact does_ok (.single (.fcorr _))
  · trivial

theorem opFtrack_does (s : State) : Does s (opFtrack s) := does_ok (.single .ftrack)

/-! ## Operations of the FIC decoder and of the demultiplexer -/

theorem opFicpush_does (idx : Nat) (s : State) : Does s (opFicpush idx s) := by
  rw [opFicpush]
  split
  case isTrue => exact does_illegal
  case isFalse hok =>
    cases hread : bufReadRange s.soft 0 (nSoft (mode s)) with
    | none => trivial
    | some v =>
      obtain ⟨hlen, -⟩ := (bufReadRange_eq_some _ _ _ _).1 hread
      simp only [ficPushRefused, Bool.or_eq_true, Bool.and_eq_true, decide_eq_true_eq, not_or, not_and_or, not_not,
        not_le] at hok
      obtain ⟨hidx, hnext⟩ := hok
      by_cases h0 : idx = 0
      · subst h0
        exact does_ok ((Relation.ReflTransGen.single Effect.zeroFic).tail
          (.ficpush (s := Machine.zeroFic s) v (show 0 < Config.ficSyms by decide) hlen))
      · obtain ⟨-, rfl⟩ := hnext.resolve_left h0
        simp only [if_neg h0]
        exact does_ok (.single (.ficpush v hidx hlen))

theorem decodeBlock_length_le (m : Mode) (y : List Soft) : (decodeBlock m y).length ≤ m.blkOut := by
  have hviterbi : (viterbi m y).length ≤ m.blkOut := by
    rw [viterbi]
    split
    · exact List.length_take_le _ _
    · exact Nat.zero_le _
  rw [decodeBlock, List.length_zipWith]
  exact (Nat.min_le_left _ _).trans hviterbi

theorem ficBlocks_length {s : State} {k n : Nat} {ys : List (List Soft)} (h : ficBlocks s k n = some ys) :
    ys.length = k := by
  induction k generalizing n ys with
  | zero =>
    cases h
    rfl
  | succ k ih =>
    rw [ficBlocks] at h
    split at h
    case h_1 y ys' _ hys =>
      cases h
      rw [List.length_cons, ih hys]
    case h_2 => cases h

theorem flatMap_decodeBlock_length_le (m : Mode) (ys : List (List Soft)) :
    (ys.flatMap (decodeBlock m)).length ≤ ys.length * m.blkOut := by
  induction ys with
  | nil => simp
  | cons y ys ih =>
    have := decodeBlock_length_le m y
    rw [List.flatMap_cons, List.length_append, List.length_cons, Nat.add_mul, Nat.one_mul]
    omega

theorem effects_verdict (u : State) : Effects u (if u.fibGood = 0 then
    { u with badFrames := u.badFrames + 1, ficState := .invalid } else { u with ficState := .valid, ficSync := true }) := by
  split
  · exact .single (.verdict _ _ u.ficSync)
  · exact .single (.verdict u.badFrames _ _)

theorem effects_ficWalk {s : State} {out : List Bool} (h : out.length ≤ (mode s).nBlk * (mode s).blkOut) :
    Effects s (ficWalk s out) := by
  rw [ficWalk]
  exact (Relation.ReflTransGen.trans (.single (.fibs out _ _ _ h)) (effects_verdict _)).tail (.raise _)

theorem opFicdec_does (s : State) : Does s (opFicdec s) := by
  rw [opFicdec]
  split
  case isTrue => exact does_illegal
  case isFalse =>
    cases hys : ficBlocks s (mode s).nBlk 0 with
    | none => trivial
    | some ys =>
      have hlen := flatMap_decodeBlock_length_le (mode s) ys
      rw [ficBlocks_length hys] at hlen
      dsimp only
      split
      · exact does_ok (effects_ficWalk hlen)
      · exact does_fail (effects_ficWalk hlen)

theorem opCrc16_does (f : Nat) (s : State) : Does s (opCrc16 f s) := by
  rw [opCrc16]
  split
  case isTrue => exact does_illegal
  case isFalse =>
    cases bufReadRange s.ficOut (Config.fibBits * f) Config.fibBits with
    | none => trivial
    | some fib =>
      dsimp only
      split
      · exact does_ok .refl
      · exact does_fail .refl

theorem opMscpush_does (n : Nat) (s : State) : Does s (opMscpush n s) := by
  rw [opMscpush]
  split_ifs with hn hfull
  · exact does_illegal
  · exact does_fail .refl
  · cases bufReadRange s.soft 0 (nSoft (mode s)) with
    | none => trivial
    | some v => exact does_ok (.single (.mscpush _ (Nat.not_le.1 (mt fifoFull_iff.2 hfull))))

theorem opCifpop_does (s : State) : Does s (opCifpop s) := by
  rw [opCifpop]
  split
  case h_1 => exact does_fail .refl
  case h_2 e r hfifo =>
    dsimp only
    split_ifs with hlen
    · trivial
    · exact does_ok (.single (.place e r hfifo (not_not.1 hlen)))
    · have hplace : Effects s (placeHead s e r) := .single (.place e r hfifo (not_not.1 hlen))
      split
      case h_1 => trivial
      case h_2 rs _ => exact does_ok (hplace.tail (.slice rs))
    · have hslice := Effect.slice (s := placeHead s e r) []
      rw [List.append_nil] at hslice
      exact does_ok (.tail (.single (.place e r hfifo (not_not.1 hlen))) hslice)

/-! ## Every unit operation -/

theorem unitOp_does {i : Instr} {s : State} {op : OpRes} (ho : unitOp i s = some op) : Does s op := by
  cases i <;> cases ho
  case level n => exact opLevel_does n s
  case nullscan => exact opNullscan_does s
  case fill off n => exact opFill_does off n s
  case shift n => exact opShift_does n s
  case skipnull => exact opSkipnull_does s
  case fft off => exact opFft_does off s
  case findb thr => exact opFindb_does thr s
  case estco off => exact opEstco_does off s
  case prime off => exact opPrime_does off s
  case fcorr => exact opFcorr_does s
  case decsym off => exact opDecsym_does off s
  case ftrack => exact opFtrack_does s
  case ficpush idx => exact opFicpush_does idx s
  case ficdec => exact opFicdec_does s
  case crc16 f => exact opCrc16_does f s
  case mscpush n => exact opMscpush_does n s
  case cifpop => exact opCifpop_does s

/-! ## What no operation changes -/

/-- What is kept by every change is kept by changes one after the other. -/
theorem kept_of_reflTransGen {r : State → State → Prop} {P : State → Prop} (hstep : ∀ u v, r u v → P u → P v)
    {s t : State} (h : Relation.ReflTransGen r s t) (hs : P s) : P t := by
  induction h with
  | refl => exact hs
  | tail _ huv ih => exact hstep _ _ huv ih

/-- The fields that are the agents' and the configuration's (`10_state.md` R22, R24, R42, R46, R48, R55). -/
structure SameControl (s t : State) : Prop where
  cfg : t.cfg = s.cfg
  modeSel : t.modeSel = s.modeSel
  ctrl : t.ctrl = s.ctrl
  run : t.run = s.run
  stopreq : t.stopreq = s.stopreq
  syncState : t.syncState = s.syncState
  seqStep : t.seqStep = s.seqStep
  subs : t.subs = s.subs
  rsp : t.rsp = s.rsp
  hostWait : t.hostWait = s.hostWait

theorem SameControl.refl (s : State) : SameControl s s := ⟨rfl, rfl, rfl, rfl, rfl, rfl, rfl, rfl, rfl, rfl⟩

theorem SameControl.trans {s t u : State} (h : SameControl s t) (h' : SameControl t u) : SameControl s u where
  cfg := h'.cfg.trans h.cfg
  modeSel := h'.modeSel.trans h.modeSel
  ctrl := h'.ctrl.trans h.ctrl
  run := h'.run.trans h.run
  stopreq := h'.stopreq.trans h.stopreq
  syncState := h'.syncState.trans h.syncState
  seqStep := h'.seqStep.trans h.seqStep
  subs := h'.subs.trans h.subs
  rsp := h'.rsp.trans h.rsp
  hostWait := h'.hostWait.trans h.hostWait

theorem SameControl.mode {s t : State} (h : SameControl s t) : mode t = mode s := by
  rw [Machine.mode, Machine.mode, h.cfg, h.modeSel]

theorem SameControl.order {s t : State} (h : SameControl s t) : order t = order s := by
  rw [Machine.order, Machine.order, h.cfg]

theorem SameControl.modeOk {s t : State} (h : SameControl s t) : ModeOk t ↔ ModeOk s := by
  rw [ModeOk, ModeOk, h.cfg, h.modeSel]

theorem Effect.sameControl {s t : State} (h : Effect s t) : SameControl s t := by
  cases h
  case raise e => constructor <;> simp
  all_goals constructor <;> rfl

theorem Effects.sameControl {s t : State} (h : Effects s t) : SameControl s t :=
  kept_of_reflTransGen (fun _ _ huv hs => hs.trans huv.sameControl) h (SameControl.refl s)

end Sys2Proof.Proofs
end

section
/-! PROOF. What a step does to the state (`00_scope.md` R9), said once: `Update` adds to the changes of the operations
those of the sequencer, of the demultiplexer and of the ports, `Commanded` has the control commands of `HOST`, and
`step_cases` says that a step makes updates only, or carries out one control command. -/

open Sys2Proof Sys2Proof.Machine Sys2Proof.Laws

namespace Sys2Proof.Proofs

/-! ## The changes -/

/-- One change that a step makes, but for those of the control commands. -/
inductive Update (s : State) : State → Prop where
  | effect {t : State} (h : Effect s t) : Update s t
  /-- the next position of the program (`46_sync_controller.md` R271) -/
  | move (p : SeqStep) (hrun : s.run = true) : Update s (moveTo p s)
  /-- the return to `Idle` (R301) -/
  | idle : Update s (goIdle s)
  /-- the `FRAME` reset (R286) -/
  | frame : Update s (frameReset s)
  /-- the index of the symbol (R289, R292) -/
  | symbol (n : Nat) (h : ModeOk s → n < (mode s).symbols) : Update s { s with symIdx := n }
  /-- the count of scans that found no dip (R282) -/
  | noSignal (n : Nat) (h : s.nosigCnt < Config.nNosig → n < Config.nNosig) : Update s { s with nosigCnt := n }
  /-- the boundary that `FINDB` has found, or that the guard ends at (R285, R298) -/
  | boundary (n : Nat) (h : ModeOk s → n < (mode s).tU) : Update s { s with boff := n }
  /-- the count of failures in a row (R298), with `FIC_SYNC` -/
  | failures (n : Nat) (sync : Bool) (h : s.bfailCnt < Config.nBfail → n < Config.nBfail) :
      Update s { s with bfailCnt := n, ficSync := sync }
  /-- the carrier shift (R289) -/
  | coarse (x : Int) : Update s { s with coarse := x }
  /-- a response (`30_encoding.md` R96) -/
  | response (st : Status) (v : Word) : Update s (respond s st v)
  /-- the command port and the model's own plan of acts (log 5, log 11) -/
  | port (cmd : List Word) (wait : Option Instr) (plan : List Act) (tick : Nat) :
      Update s { s with cmd := cmd, hostWait := wait, plan := plan, tick := tick }

/-- Updates one after the other. -/
abbrev Updates : State → State → Prop := Relation.ReflTransGen Update

/-- What a control command that is carried out does, before its response (`47_host_commands.md`, `45_msc_demux.md` R243 to
R245). -/
inductive Commanded (s : State) : Instr → State → Prop where
  | start (hrun : s.run = false) : Commanded s .start (flushSrc (startReset s))
  | stop (hrun : s.run = true) : Commanded s .stop { s with stopreq := true }
  | ctrl (d : Word) (hrun : s.run = false) : Commanded s (.wrcsr 0x00 d) { s with ctrl := d.setWidth 2 }
  | event (d : Word) : Commanded s (.wrcsr 0x02 d) { s with event := s.event &&& ~~~(d.setWidth 6) }
  | evmask (d : Word) : Commanded s (.wrcsr 0x03 d) { s with evmask := d.setWidth 6 }
  | thr (d : Word) : Commanded s (.wrcsr 0x04 d) { s with thr := d.setWidth 16 }
  | modeSel (d : Word) (hrun : s.run = false) (hmode : (d.setWidth 8).toNat < s.cfg.modes.length)
      (hnew : d.setWidth 8 ≠ s.modeSel) :
      Commanded s (.wrcsr 0x1F d) { forgetBuffers s with modeSel := d.setWidth 8 }
  | subscribe (sink : BitVec 8) (comp : BitVec 16) (sid : Word) (len addr : Nat)
      (hkey : s.subs.any (hasKey sid comp) = false) (hroom : s.subs.length < s.cfg.maxSubs) :
      Commanded s (.subscribe sink comp sid len addr) { s with subs := s.subs ++ [⟨sid, comp, addr, len, sink⟩] }
  | unsubscribe (comp : BitVec 16) (sid : Word) :
      Commanded s (.unsubscribe comp sid) { s with subs := s.subs.eraseP (hasKey sid comp) }
  | resetSubs : Commanded s .resetSubs { s with subs := [] }

theorem Effects.updates {s t : State} (h : Effects s t) : Updates s t := h.lift id fun _ _ => Update.effect

/-! ## Commands -/

/-- What a control command does: it answers, and where it does not refuse it may have been carried out. -/
def Controls (i : Instr) (s : State) (o : Host.Outcome State Fault Refusal) : Prop :=
  ∃ u st v, o = .next (respond u st v) ∧ (u = s ∨ Commanded s i u) ∧ (st = .illegal ∨ st = .busy → u = s ∧ v = 0)

section
variable {i : Instr} {s u : State} {st : Status} {v : Word}

theorem controls_carriedOut (h : Commanded s i u) : Controls i s (.next (respond u .ok v)) :=
  ⟨u, .ok, v, rfl, .inr h, by simp⟩

theorem controls_answered (h : st = .ok ∨ st = .fail) : Controls i s (.next (respond s st v)) := by
  refine ⟨s, st, v, rfl, .inl rfl, ?_⟩
  obtain rfl | rfl := h <;> simp

theorem controls_refused : Controls i s (.next (respond s st 0)) := ⟨s, st, 0, rfl, .inl rfl, fun _ => ⟨rfl, rfl⟩⟩

end

theorem execWrcsr_controls (a : Nat) (d : Word) (s : State) : Controls (.wrcsr a d) s (execWrcsr a d s) := by
  have accepted {t : State} (h : csrWrite s a d = (t, .ok)) (ht : t = s ∨ Commanded s (.wrcsr a d) t) :
      Controls (.wrcsr a d) s (execWrcsr a d s) := by
    rw [execWrcsr, h]
    exact ⟨t, .ok, _, if_pos rfl, ht, by simp⟩
  have refused {st : Status} (h : csrWrite s a d = (s, st)) (hst : st ≠ .ok) :
      Controls (.wrcsr a d) s (execWrcsr a d s) := by
    rw [execWrcsr, h]
    exact ⟨s, st, 0, if_neg hst, .inl rfl, fun _ => ⟨rfl, rfl⟩⟩
  by_cases ha : a ∈ [0x00, 0x02, 0x03, 0x04, 0x1F]
  case neg => exact refused (csrWrite_other d ha) (by decide)
  simp only [List.mem_cons, List.not_mem_nil, or_false] at ha
  obtain rfl | rfl | rfl | rfl | rfl := ha
  case inr.inl => exact accepted (csrWrite_event d) (.inr (.event d))
  case inr.inr.inl => exact accepted (csrWrite_evmask d) (.inr (.evmask d))
  case inr.inr.inr.inl => exact accepted (csrWrite_thr d) (.inr (.thr d))
  case inl =>
    cases hrun : s.run with
    | true => exact refused (csrWrite_locked d hrun (.inl rfl)) (by decide)
    | false => exact accepted (csrWrite_ctrl d hrun) (.inr (.ctrl d hrun))
  case inr.inr.inr.inr =>
    cases hrun : s.run with
    | true => exact refused (csrWrite_locked d hrun (.inr rfl)) (by decide)
    | false =>
      have hw := csrWrite_modeSel d hrun
      split_ifs at hw with hrange hsame
      · exact refused hw (by decide)
      · exact accepted hw (.inl rfl)
      · exact accepted hw (.inr (.modeSel d hrun (Nat.not_le.1 hrange) hsame))

theorem execSubscribe_controls (sink : BitVec 8) (comp : BitVec 16) (sid : Word) (len addr : Nat) (s : State) :
    Controls (.subscribe sink comp sid len addr) s (execSubscribe sink comp sid len addr s) := by
  rw [execSubscribe]
  split_ifs with hkey hrange hfull
  · exact controls_answered (.inr rfl)
  · exact controls_refused
  · exact controls_answered (.inr rfl)
  · exact controls_carriedOut (.subscribe sink comp sid len addr (by simpa using hkey) (Nat.not_le.1 hfull))

theorem execUnsubscribe_controls (comp : BitVec 16) (sid : Word) (s : State) :
    Controls (.unsubscribe comp sid) s (execUnsubscribe comp sid s) := by
  rw [execUnsubscribe]
  split
  · exact controls_carriedOut (.unsubscribe comp sid)
  · exact controls_answered (.inr rfl)

theorem execControl_controls {i : Instr} (hi : isUnit i = false) (s : State) : Controls i s (exec i s) := by
  cases i <;> cases hi
  case start =>
    change Controls _ s (execStart s)
    rw [execStart]
    split
    case isTrue => exact controls_refused
    case isFalse hrun => exact controls_carriedOut (.start (Bool.eq_false_iff.2 hrun))
  case stop =>
    change Controls _ s (execStop s)
    rw [execStop]
    split
    case isTrue hrun => exact controls_carriedOut (.stop hrun)
    case isFalse => exact controls_answered (.inl rfl)
  case rdcsr a =>
    change Controls _ s (execRdcsr a s)
    rw [execRdcsr]
    split
    · exact controls_answered (.inl rfl)
    · exact controls_refused
  case wrcsr a d => exact execWrcsr_controls a d s
  case subscribe sink comp sid len addr => exact execSubscribe_controls sink comp sid len addr s
  case unsubscribe comp sid => exact execUnsubscribe_controls comp sid s
  case resetSubs => exact controls_carriedOut .resetSubs

/-- What a command that goes on can do: it answers once, after changes of its operation or as a control command, with
none where it refuses; or it is an operation that waits. -/
theorem exec_cases {i : Instr} {s t : State} (h : exec i s = .next t) :
    (∃ u st v, t = respond u st v ∧ (Effects s u ∨ Commanded s i u) ∧ (st = .illegal ∨ st = .busy → u = s ∧ v = 0)) ∨
    (isUnit i = true ∧ s.run = false ∧ ∃ u, unitOp i s = some (.waits u) ∧ t = { u with hostWait := some i } ∧
      Effects s u) := by
  cases ho : unitOp i s with
  | none =>
    obtain ⟨u, st, v, he, hu, hrefused⟩ := execControl_controls (i := i) (by rw [← unitOp_isSome i s, ho]; rfl) s
    cases he.symm.trans h
    refine .inl ⟨u, st, v, rfl, ?_, hrefused⟩
    obtain rfl | hu := hu
    · exact .inl .refl
    · exact .inr hu
  | some op =>
    have hdoes := unitOp_does ho
    rw [exec_of_unitOp ho] at h
    cases hrun : s.run with
    | true =>
      rw [hrun] at h
      cases h
      exact .inl ⟨s, .busy, 0, rfl, .inl .refl, fun _ => ⟨rfl, rfl⟩⟩
    | false =>
      rw [hrun] at h
      cases op with
      | done u st v =>
        cases h
        exact .inl ⟨u, st, v, rfl, .inl hdoes.1, hdoes.2⟩
      | waits u =>
        cases h
        exact .inr ⟨by rw [← unitOp_isSome i s, ho]; rfl, rfl, u, rfl, rfl, hdoes⟩
      | fault f => cases h

/-! ## The sequencer (`46_sync_controller.md` R271) -/

/-- A frame has the symbols of the FIC and one more at least (`70_reset_and_hazards.md` R388). -/
theorem symbols_ge {s : State} (hs : ModeOk s) : Config.ficSyms + 2 ≤ (mode s).symbols := by
  have hwf := mode_lengthsWf hs
  simp only [lengthsWf, Bool.and_eq_true, decide_eq_true_iff] at hwf
  obtain ⟨-, hsymbols⟩ := hwf
  exact hsymbols

theorem symbols_pos {s : State} (hs : ModeOk s) : 0 < (mode s).symbols := Nat.lt_of_lt_of_le (by decide) (symbols_ge hs)

theorem updates_seqUnit {s : State} {op : OpRes} {k : State → Status → Word → State} (hop : Does s op)
    (hk : ∀ u st v, op = .done u st v → SameControl s u → Updates u (k u st v)) : NextHas (Updates s) (seqUnit op k) := by
  rw [nextHas_iff]
  intro t ht
  obtain ⟨u, v, rfl, rfl⟩ | ⟨u, st, v, -, rfl, rfl⟩ | rfl := (seqUnit_next op k t).1 ht
  · exact hop.1.updates.tail .idle
  · exact hop.1.updates.trans (hk u st v rfl hop.1.sameControl)
  · exact Effects.updates hop

section
variable {s : State} (hrun : s.run = true)
include hrun

theorem updates_seqThen {op : OpRes} (hop : Does s op) (p : SeqStep) : NextHas (Updates s) (seqThen op p) :=
  updates_seqUnit hop fun _ _ _ _ hu => .single (.move p (hu.run.trans hrun))

theorem updates_afterScan (st : Status) (v : Word) : Updates s (afterScan s st v) := by
  rw [afterScan]
  split_ifs with hst hv hfull
  · exact .tail (.single (.noSignal 0 fun _ => by decide)) (.move .v0 hrun)
  · exact .tail (.single (.effect (.raise .noSignal))) (.noSignal 0 fun _ => by decide)
  · exact .single (.noSignal _ fun h => by omega)
  · exact .refl

theorem updates_afterVerify {st : Status} {v : Word} (hv : st = .ok → ModeOk s → v.toNat < (mode s).tU) :
    Updates s (afterVerify s st v) := by
  rw [afterVerify]
  split_ifs with hst
  · exact .tail (.single (.boundary _ (hv hst))) (.move .f0 hrun)
  · exact .single (.move .n0 hrun)

theorem updates_afterReverify {st : Status} {v : Word} (hv : st = .ok → ModeOk s → v.toNat < (mode s).tU) :
    Updates s (afterReverify s st v) := by
  rw [afterReverify]
  split_ifs with hst hlost
  · exact .tail (.tail (.single (.boundary _ (hv hst))) (.failures 0 s.ficSync fun _ => by decide)) (.move .f0 hrun)
  · exact .tail (.tail (.single (.failures 0 false fun _ => by decide)) (.effect (.raise .syncLost))) (.move .n0 hrun)
  · refine .tail (.tail (.single (.failures (s.bfailCnt + 1) s.ficSync fun h => by omega)) (.boundary _ fun hs => ?_))
      (.move .f0 hrun)
    obtain ⟨-, htG⟩ := searchW_bounds (s := s) hs
    exact Nat.lt_of_le_of_lt (Nat.le_add_right _ _) htG

theorem updates_firstSymbol : Updates s (firstSymbol s) :=
  .tail (.single (.symbol 1 fun hs => Nat.lt_of_lt_of_le (by decide) (symbols_ge hs))) (.move .s0 hrun)

theorem updates_nextSymbol : Updates s (nextSymbol s) := by
  rw [nextSymbol]
  split
  case isTrue => exact .tail (.single (.symbol 0 symbols_pos)) (.move .e0 hrun)
  case isFalse hn => exact .tail (.single (.symbol _ fun _ => Nat.not_le.1 hn)) (.move .s0 hrun)

theorem updates_afterEstco (st : Status) (v : Word) : Updates s (firstSymbol (afterEstco s st v)) := by
  rw [afterEstco]
  split
  · exact .trans (.single (.coarse _)) (updates_firstSymbol (s := { s with coarse := _ }) hrun)
  · exact updates_firstSymbol hrun

theorem updates_afterTrack : Updates s (afterTrack s) :=
  .tail (.single (.effect (.raise _))) (.move .e1 (by simpa using hrun))

end

/-- The boundary that `FINDB` answers is a lag of the search window (`41_phase_reference.md` R143). -/
theorem opFindb_answers {thr : Nat} {s t : State} {v : Word} (hop : opFindb thr s = .done t .ok v) (hs : ModeOk s) :
    v.toNat < (mode s).tU := by
  by_cases hwin : Written s.win 0 (mode s).tU
  · obtain ⟨X, h | ⟨n, hn, h⟩⟩ := opFindb_held hs thr hwin
    · cases h.symm.trans hop
    · cases h.symm.trans hop
      rwa [boundary_toNat hs hn]
  · have hslice : winSlice s 0 = none := (bufReadRange_eq_none _ _ _).2 hwin
    rw [opFindb, hslice] at hop
    cases hop

theorem findb_boundary {thr : Nat} {s t : State} {st : Status} {v : Word} (hop : opFindb thr s = .done t st v)
    (hsame : SameControl s t) (hst : st = .ok) (ht : ModeOk t) : v.toNat < (mode t).tU := by
  rw [hsame.mode]
  exact opFindb_answers (hst ▸ hop) (hsame.modeOk.1 ht)

section
variable {s : State} (hrun : s.run = true)
include hrun

theorem updates_stepF0 : NextHas (Updates s) (stepF0 s) := by
  rw [stepF0]
  split
  · exact .single .idle
  · have hshift := updates_seqThen (s := frameReset s) hrun (opShift_does s.boff _) .f1
    rw [nextHas_iff] at hshift ⊢
    exact fun t ht => .head .frame (hshift t ht)

theorem updates_stepF1 : NextHas (Updates s) (stepF1 s) := by
  rw [stepF1]
  split
  · exact .single (.move .f2 hrun)
  · exact updates_seqThen hrun (opFill_does _ _ s) _

theorem updates_stepF3 : NextHas (Updates s) (stepF3 s) := by
  rw [stepF3]
  split
  · exact updates_firstSymbol hrun
  · exact updates_seqUnit (opEstco_does 0 s) fun u st v _ hu => updates_afterEstco (hu.run.trans hrun) st v

theorem updates_stepS3 : NextHas (Updates s) (stepS3 s) := by
  rw [stepS3]
  split_ifs
  · exact updates_seqThen hrun (opFicpush_does _ s) _
  · exact .single .idle
  · exact .refl
  · exact updates_seqThen hrun (opMscpush_does _ s) _

theorem updates_stepS4 : NextHas (Updates s) (stepS4 s) := by
  rw [stepS4]
  split_ifs
  · exact updates_seqUnit (opFicdec_does s) fun _ _ _ _ hu => updates_nextSymbol (hu.run.trans hrun)
  · exact .refl
  · exact updates_seqUnit (opCifpop_does s) fun _ _ _ _ hu => updates_nextSymbol (hu.run.trans hrun)
  · exact updates_nextSymbol hrun

theorem updates_program (p : SeqStep) : NextHas (Updates s) (program p s) := by
  cases p with
  | a0 => exact updates_seqThen hrun (opLevel_does _ s) _
  | n0 => exact updates_seqUnit (opNullscan_does s) fun _ st v _ hu => updates_afterScan (hu.run.trans hrun) st v
  | v0 => exact updates_seqThen hrun (opFill_does _ _ s) _
  | v1 =>
    exact updates_seqUnit (opFindb_does _ s) fun _ _ _ hop hu =>
      updates_afterVerify (hu.run.trans hrun) (findb_boundary hop hu)
  | f0 => exact updates_stepF0 hrun
  | f1 => exact updates_stepF1 hrun
  | f2 => exact updates_seqThen hrun (opPrime_does _ s) _
  | f3 => exact updates_stepF3 hrun
  | s0 => exact updates_seqThen hrun (opFill_does _ _ s) _
  | s1 => exact updates_seqThen hrun (opFcorr_does s) _
  | s2 => exact updates_seqThen hrun (opDecsym_does _ s) _
  | s3 => exact updates_stepS3 hrun
  | s4 => exact updates_stepS4 hrun
  | e0 => exact updates_seqUnit (opFtrack_does s) fun _ _ _ _ hu => updates_afterTrack (hu.run.trans hrun)
  | e1 => exact updates_seqThen hrun (opSkipnull_does s) _
  | e2 => exact updates_seqThen hrun (opFill_does _ _ s) _
  | e3 =>
    exact updates_seqUnit (opFindb_does _ s) fun _ _ _ hop hu =>
      updates_afterReverify (hu.run.trans hrun) (findb_boundary hop hu)

end

theorem updates_seqStep (s : State) : NextHas (Updates s) (seqStep s) := by
  rw [seqStep]
  split
  case isTrue hrun => exact updates_program hrun _
  case isFalse => exact .refl

theorem updates_dmxStep (s : State) : NextHas (Updates s) (dmxStep s) := by
  have hop := opCifpop_does s
  rw [dmxStep]
  split
  case isTrue => exact .refl
  case isFalse =>
    cases h : opCifpop s <;> rw [h] at hop
    · exact hop.1.updates
    · exact Effects.updates hop
    · trivial

/-! ## The step -/

/-- Every act but `HOST`'s makes updates only. -/
theorem updates_perform {a : Act} (ha : a ≠ .host) (s : State) : NextHas (Updates s) (perform a s) := by
  have port (cmd : List Word) : Updates s { s with cmd := cmd } := .single (.port cmd s.hostWait s.plan s.tick)
  have src (items : List SrcItem) : Updates s { s with src := items } := .single (.effect (effect_src s items))
  have raise (e : EvtRecord) : Updates s (raiseEvent s e) := .single (.effect (.raise e))
  cases a with
  | host => exact absurd rfl ha
  | seq => exact updates_seqStep s
  | dmx => exact updates_dmxStep s
  | command w => exact port _
  | commandBytes b3 b2 b1 b0 => exact port _
  | sample z => exact src _
  | stopped => exact src _
  | configChanged => exact raise _
  | tiiResult main sub => exact raise _

/-- `u` is `s` but for the command port and the model's own plan of acts. -/
def SameButPort (s u : State) : Prop :=
  ∃ cmd wait plan tick, u = { s with cmd := cmd, hostWait := wait, plan := plan, tick := tick }

theorem SameButPort.updates {s u : State} (h : SameButPort s u) : Updates s u := by
  obtain ⟨cmd, wait, plan, tick, rfl⟩ := h
  exact .single (.port ..)

/-- What a step does: updates, or at `HOST`'s act its control command, which is then answered. -/
def Steps (s t : State) : Prop :=
  Updates s t ∨ nextAct s = .host ∧ ∃ i u v st w, hostCommand s = some i ∧ SameButPort s u ∧ Commanded u i v ∧
    t = respond v st w

section
variable {s u t : State}

theorem steps_exec {i : Instr} (hact : nextAct s = .host) (hi : hostCommand s = some i) (hu : SameButPort s u)
    (h : exec i u = .next t) : Steps s t := by
  obtain ⟨v, st, w, rfl, hv | hv, -⟩ | ⟨-, -, v, -, rfl, hv⟩ := exec_cases h
  · exact .inl (hu.updates.trans (hv.updates.tail (.response st w)))
  · exact .inr ⟨hact, i, u, v, st, w, hi, hu, hv, rfl⟩
  · exact .inl (hu.updates.trans (hv.updates.tail (.port v.cmd (some i) v.plan v.tick)))

theorem steps_hostStep (hact : nextAct s = .host) (hu : SameButPort s u) (hcmd : u.cmd = s.cmd)
    (hwait : u.hostWait = s.hostWait) (h : hostStep u = .next t) : Steps s t := by
  have port (cmd : List Word) (wait : Option Instr) : SameButPort s { u with cmd := cmd, hostWait := wait } := by
    obtain ⟨cmd', wait', plan, tick, rfl⟩ := hu
    exact ⟨cmd, wait, plan, tick, rfl⟩
  cases hw : u.hostWait with
  | some i =>
    rw [hostStep_waiting hw] at h
    exact steps_exec hact (by simp [hostCommand, ← hwait, hw]) (port u.cmd none) h
  | none =>
    cases hd : decode u.cmd with
    | command i rest =>
      rw [hostStep_command hw hd] at h
      exact steps_exec hact (by simp [hostCommand, ← hwait, hw, ← hcmd, hd]) (port rest u.hostWait) h
    | illegal why rest =>
      rw [hostStep_illegal hw hd] at h
      cases h
      exact .inl ((port rest u.hostWait).updates.tail (.response _ _))
    | incomplete =>
      rw [hostStep_incomplete hw hd] at h
      cases h
      exact .inl hu.updates

/-- A step makes updates only, or carries out one control command of `HOST`. -/
theorem step_cases (h : step s = .next t) : Steps s t := by
  obtain ⟨u, hu, hperform⟩ := perform_of_step_next h
  obtain ⟨hport, hcmd, hwait⟩ : SameButPort s u ∧ u.cmd = s.cmd ∧ u.hostWait = s.hostWait := by
    obtain rfl | rfl := hu <;> exact ⟨⟨_, _, _, _, rfl⟩, rfl, rfl⟩
  by_cases hact : nextAct s = .host
  · rw [hact] at hperform
    exact steps_hostStep hact hport hcmd hwait hperform
  · exact .inl (hport.updates.trans ((nextHas_iff _).1 (updates_perform hact u) t hperform))

/-- A property that every update and every control command keeps is kept by every step. -/
theorem step_keeps {P : State → Prop} (hupdate : ∀ u v, Update u v → P u → P v)
    (hcommand : ∀ i u v, Commanded u i v → P u → P v) (h : step s = .next t) (hs : P s) : P t := by
  obtain hst | ⟨-, i, u, v, st, w, -, hu, hv, rfl⟩ := step_cases h
  · exact kept_of_reflTransGen hupdate hst hs
  · exact hupdate _ _ (.response st w) (hcommand i u v hv (kept_of_reflTransGen hupdate hu.updates hs))

end

end Sys2Proof.Proofs
end

section
/-! PROOF. What every step keeps: the counters' ranges (`48_arithmetic_and_control.md` R330), the control state
(`10_state.md` R22, R24, R55), the subscription table (R42), the pending events (R49), the locked registers (R46, R48) and
the output streams (`20_memory.md` R75), each from what its changes do. -/

open Sys2Proof Sys2Proof.Machine Sys2Proof.Laws

namespace Sys2Proof.Proofs

/-! ## The configuration and the mode (R48) -/

theorem Update.mode_eq {s t : State} (h : Update s t) : t.cfg = s.cfg ∧ t.modeSel = s.modeSel := by
  cases h
  case effect h => exact ⟨h.sameControl.cfg, h.sameControl.modeSel⟩
  all_goals exact ⟨rfl, rfl⟩

theorem Updates.mode_eq {s t : State} (h : Updates s t) : t.cfg = s.cfg ∧ t.modeSel = s.modeSel :=
  kept_of_reflTransGen (P := fun t => t.cfg = s.cfg ∧ t.modeSel = s.modeSel)
    (fun _ _ huv hu => ⟨huv.mode_eq.1.trans hu.1, huv.mode_eq.2.trans hu.2⟩) h ⟨rfl, rfl⟩

theorem modeOk_of_eq {s t : State} (h : t.cfg = s.cfg ∧ t.modeSel = s.modeSel) (hs : ModeOk s) : ModeOk t := by
  rwa [ModeOk, h.1, h.2]

theorem Update.modeOk {s t : State} (h : Update s t) (hs : ModeOk s) : ModeOk t := modeOk_of_eq h.mode_eq hs

theorem Commanded.modeOk {i : Instr} {s t : State} (h : Commanded s i t) (hs : ModeOk s) : ModeOk t := by
  cases h
  case modeSel d hrun hmode hnew => exact ⟨hs.1, hmode⟩
  all_goals exact hs

/-! ## The counters (R330) -/

theorem Effect.countersOk {s t : State} (h : Effect s t) (hs : CountersOk s) : CountersOk t := by
  obtain ⟨hnosig, hbfail, hidx, hrun⟩ := id hs
  cases h
  case zeroFic =>
    refine ⟨hnosig, hbfail, Nat.zero_le _, fun hr => ?_⟩
    obtain ⟨hsym, hboff, hfifo, -⟩ := hrun hr
    exact ⟨hsym, hboff, hfifo, (Nat.zero_mul _).symm⟩
  case ficpush v hlt hv =>
    refine ⟨hnosig, hbfail, hlt, fun hr => ?_⟩
    obtain ⟨hsym, hboff, hfifo, hfill⟩ := hrun hr
    exact ⟨hsym, hboff, hfifo, by rw [Nat.succ_mul]; exact congrArg (· + _) hfill⟩
  case mscpush e hroom =>
    refine ⟨hnosig, hbfail, hidx, fun hr => ?_⟩
    obtain ⟨hsym, hboff, -, hfill⟩ := hrun hr
    exact ⟨hsym, hboff, by rw [List.length_append]; exact hroom, hfill⟩
  case place e r hfifo hlen =>
    refine ⟨hnosig, hbfail, hidx, fun hr => ?_⟩
    obtain ⟨hsym, hboff, hlength, hfill⟩ := hrun hr
    rw [hfifo] at hlength
    exact ⟨hsym, hboff, (Nat.le_succ _).trans hlength, hfill⟩
  case raise e => cases e <;> exact hs
  all_goals exact hs

theorem Update.countersOk {s t : State} (h : Update s t) (hm : ModeOk s) (hs : CountersOk s) : CountersOk t := by
  obtain ⟨hnosig, hbfail, hidx, hrun⟩ := id hs
  cases h
  case effect h => exact h.countersOk hs
  case idle => exact ⟨hnosig, hbfail, hidx, fun hr => absurd hr (by simp)⟩
  case frame =>
    refine ⟨hnosig, hbfail, Nat.zero_le _, fun hr => ?_⟩
    obtain ⟨-, hboff, hfifo, -⟩ := hrun hr
    exact ⟨symbols_pos hm, hboff, hfifo, (Nat.zero_mul _).symm⟩
  case symbol n hn =>
    refine ⟨hnosig, hbfail, hidx, fun hr => ?_⟩
    obtain ⟨-, hboff, hfifo, hfill⟩ := hrun hr
    exact ⟨hn hm, hboff, hfifo, hfill⟩
  case noSignal n hn => exact ⟨hn hnosig, hbfail, hidx, hrun⟩
  case boundary n hn =>
    refine ⟨hnosig, hbfail, hidx, fun hr => ?_⟩
    obtain ⟨hsym, -, hfifo, hfill⟩ := hrun hr
    exact ⟨hsym, hn hm, hfifo, hfill⟩
  case failures n sync hn => exact ⟨hnosig, hn hbfail, hidx, hrun⟩
  all_goals exact hs

theorem Commanded.countersOk {i : Instr} {s t : State} (h : Commanded s i t) (hm : ModeOk s) (hs : CountersOk s) :
    CountersOk t := by
  obtain ⟨hnosig, hbfail, hidx, -⟩ := id hs
  cases h
  case start =>
    exact ⟨show 0 < Config.nNosig by decide, show 0 < Config.nBfail by decide, Nat.zero_le _, fun _ => ⟨symbols_pos hm, tU_pos hm,
      Nat.zero_le _, (Nat.zero_mul _).symm⟩⟩
  case modeSel d hrun hmode hnew => exact ⟨hnosig, hbfail, hidx, fun hr => absurd hr (by simp [hrun])⟩
  all_goals exact hs

/-- Settles O50: each change keeps the counters by what its step has checked before it. -/
theorem countersKept : Obligations.CountersKept := by
  unfold Obligations.CountersKept
  intro s t hm hs hstep
  exact step_keeps (P := fun s => ModeOk s ∧ CountersOk s)
    (fun u v huv hu => ⟨huv.modeOk hu.1, huv.countersOk hu.1 hu.2⟩)
    (fun i u v huv hu => ⟨huv.modeOk hu.1, huv.countersOk hu.1 hu.2⟩) hstep ⟨hm, hs⟩

/-! ## The control state and the subscription table (R22, R24, R42, R55) -/

theorem SameControl.controlOk {s t : State} (h : SameControl s t) (hs : ControlOk s) : ControlOk t := by
  rwa [ControlOk, h.run, h.syncState, h.seqStep, h.stopreq]

theorem Update.controlOk {s t : State} (h : Update s t) (hs : ControlOk s) : ControlOk t := by
  cases h
  case effect h => exact h.sameControl.controlOk hs
  case move p hrun => exact ⟨fun _ => rfl, fun hr => absurd (hrun.symm.trans hr) (by decide)⟩
  case idle => exact ⟨fun hr => absurd hr (by simp), fun _ => ⟨rfl, rfl, rfl⟩⟩
  all_goals exact hs

theorem Commanded.controlOk {i : Instr} {s t : State} (h : Commanded s i t) (hs : ControlOk s) : ControlOk t := by
  cases h
  case start => exact ⟨fun _ => rfl, fun hr => absurd hr (by simp)⟩
  case stop hrun => exact ⟨hs.1, fun hr => absurd (hrun.symm.trans hr) (by decide)⟩
  all_goals exact hs

theorem Update.subsOk {s t : State} (h : Update s t) (hs : SubsOk s) : SubsOk t := by
  cases h
  case effect h => rwa [SubsOk, h.sameControl.subs, h.sameControl.cfg]
  all_goals exact hs

theorem Commanded.subsOk {i : Instr} {s t : State} (h : Commanded s i t) (hs : SubsOk s) : SubsOk t := by
  obtain ⟨hunique, hlength⟩ := id hs
  cases h
  case subscribe sink comp sid len addr hkey hroom =>
    refine ⟨List.pairwise_append.2 ⟨hunique, List.pairwise_singleton _ _, fun a ha b hb => ?_⟩,
      by simpa using hroom⟩
    rw [List.mem_singleton.1 hb]
    exact any_hasKey_eq_false_iff.1 hkey a ha
  case unsubscribe comp sid =>
    exact ⟨hunique.sublist List.eraseP_sublist, List.eraseP_sublist.length_le.trans hlength⟩
  case resetSubs => exact ⟨List.Pairwise.nil, Nat.zero_le _⟩
  all_goals exact hs

/-- Settles O49: only `moveTo`, `goIdle`, `START` and `STOP` change the control state, and only the subscription commands
the table. -/
theorem controlAndTableKept : Obligations.ControlAndTableKept := by
  unfold Obligations.ControlAndTableKept
  intro s t hstep
  exact ⟨step_keeps (fun _ _ => Update.controlOk) (fun _ _ _ => Commanded.controlOk) hstep,
    step_keeps (fun _ _ => Update.subsOk) (fun _ _ _ => Commanded.subsOk) hstep⟩

/-! ## The pending events (R49, `60_exceptions.md` R345, R346) -/

theorem Update.event_pending {s t : State} (h : Update s t) {j : Nat} (hs : s.event.getLsbD j = true) :
    t.event.getLsbD j = true := by
  cases h
  case effect h =>
    cases h
    case raise e => rw [raiseEvent_event, BitVec.getLsbD_or, hs, Bool.true_or]
    all_goals exact hs
  all_goals exact hs

/-- A control command clears the bits that it writes 1 to, where it is `WRCSR` to `EVENT`. -/
theorem Commanded.event_cleared {i : Instr} {s t : State} (h : Commanded s i t) {j : Nat}
    (hs : s.event.getLsbD j = true) (ht : t.event.getLsbD j = false) :
    ∃ d : Word, i = .wrcsr 0x02 d ∧ d.getLsbD j = true := by
  cases h
  case event d =>
    have hj : j < 6 := BitVec.lt_of_getLsbD hs
    refine ⟨d, rfl, ?_⟩
    simpa [getLsbD_clearWritten s.event d hj, hs] using ht
  all_goals exact absurd (hs.symm.trans ht) (by decide)

theorem notifyLine_iff (s : State) :
    notifyLine s = true ↔ ∃ j, s.event.getLsbD j = true ∧ s.evmask.getLsbD j = true := by
  rw [notifyLine, decide_eq_true_iff]
  constructor
  · contrapose!
    intro h
    refine BitVec.eq_of_getLsbD_eq fun j _ => ?_
    have := h j
    cases he : s.event.getLsbD j <;> simp_all
  · rintro ⟨j, he, hm⟩ hzero
    have := congrArg (·.getLsbD j) hzero
    simp [he, hm] at this

/-- Settles O58: an event is raised by setting its bit, so that what clears one is the control command at `HOST`'s act. -/
theorem eventsSticky : Obligations.EventsSticky := by
  unfold Obligations.EventsSticky
  refine ⟨fun s t j hstep hs ht => ?_, notifyLine_iff⟩
  have pending {u v : State} (huv : Updates u v) (hu : u.event.getLsbD j = true) : v.event.getLsbD j = true :=
    kept_of_reflTransGen (P := fun v => v.event.getLsbD j = true) (fun _ _ h => h.event_pending) huv hu
  obtain hst | ⟨hact, i, u, v, st, w, hi, hu, hv, rfl⟩ := step_cases hstep
  · exact absurd ((pending hst hs).symm.trans ht) (by decide)
  · obtain ⟨d, rfl, hd⟩ := hv.event_cleared (pending hu.updates hs) ht
    exact ⟨hact, d, hi, hd⟩

/-! ## The locked registers and the start of a session (R46, R48, `60_exceptions.md` R350) -/

theorem Update.ctrl_eq {s t : State} (h : Update s t) : t.ctrl = s.ctrl := by
  cases h
  case effect h => exact h.sameControl.ctrl
  all_goals rfl

theorem Update.halted {s t : State} (h : Update s t) (hs : s.run = false) : t.run = false := by
  cases h
  case effect h => exact h.sameControl.run.trans hs
  case idle => rfl
  all_goals exact hs

theorem Updates.halted {s t : State} (h : Updates s t) : s.run = false → t.run = false :=
  kept_of_reflTransGen (P := fun s => s.run = false) (fun _ _ => Update.halted) h

theorem Updates.ctrl_eq {s t : State} (h : Updates s t) : t.ctrl = s.ctrl :=
  kept_of_reflTransGen (P := fun t => t.ctrl = s.ctrl) (fun _ _ huv hu => huv.ctrl_eq.trans hu) h rfl

theorem SameButPort.run_eq {s u : State} (h : SameButPort s u) : u.run = s.run := by
  obtain ⟨cmd, wait, plan, tick, rfl⟩ := h
  rfl

theorem Commanded.cfg_eq {i : Instr} {s t : State} (h : Commanded s i t) : t.cfg = s.cfg := by cases h <;> rfl

theorem Commanded.locked {i : Instr} {s t : State} (h : Commanded s i t) (hs : s.run = true) :
    t.modeSel = s.modeSel ∧ t.ctrl = s.ctrl := by
  cases h
  case ctrl d hrun => exact absurd (hs.symm.trans hrun) (by decide)
  case modeSel d hrun hmode hnew => exact absurd (hs.symm.trans hrun) (by decide)
  all_goals exact ⟨rfl, rfl⟩

theorem Commanded.starts {i : Instr} {s t : State} (h : Commanded s i t) (hs : s.run = false) (ht : t.run = true) :
    i = .start ∧ t = flushSrc (startReset s) := by
  cases h
  case start => exact ⟨rfl, rfl⟩
  all_goals exact absurd (hs.symm.trans ht) (by decide)

/-- A step that sets `RUN` is `HOST`'s `START` (R350). -/
theorem step_starts {s t : State} (h : step s = .next t) (hs : s.run = false) (ht : t.run = true) :
    nextAct s = .host ∧ hostCommand s = some .start ∧
      ∃ u st w, Updates s u ∧ t = respond (flushSrc (startReset u)) st w := by
  obtain hst | ⟨hact, i, u, v, st, w, hi, hu, hv, rfl⟩ := step_cases h
  · exact absurd ((Updates.halted hst hs).symm.trans ht) (by decide)
  · obtain ⟨rfl, rfl⟩ := hv.starts (hu.run_eq.trans hs) ht
    exact ⟨hact, hi, u, st, w, hu.updates, rfl⟩

/-- Settles O59: only control commands write the registers, and those that write the locked ones, like `START`, need
`RUN = 0`. -/
theorem runGuards : Obligations.RunGuards := by
  unfold Obligations.RunGuards
  intro s t hstep
  refine ⟨?_, fun hs => ?_, fun hs ht => ?_⟩
  · exact step_keeps (P := fun t => t.cfg = s.cfg) (fun _ _ huv hu => huv.mode_eq.1.trans hu)
      (fun _ _ _ huv hu => huv.cfg_eq.trans hu) hstep rfl
  · obtain hst | ⟨-, i, u, v, st, w, -, hu, hv, rfl⟩ := step_cases hstep
    · exact ⟨(Updates.mode_eq hst).2, Updates.ctrl_eq hst⟩
    · obtain ⟨hmode, hctrl⟩ := hv.locked (hu.run_eq.trans hs)
      exact ⟨hmode.trans (Updates.mode_eq hu.updates).2, hctrl.trans (Updates.ctrl_eq hu.updates)⟩
  · obtain ⟨hact, hcmd, u, st, w, -, rfl⟩ := step_starts hstep hs ht
    exact ⟨hact, hcmd, rfl, rfl⟩

/-! ## The output streams (R75, `30_encoding.md` R96) -/

/-- The output streams of `t` extend those of `s`. -/
structure Extends (s t : State) : Prop where
  rsp : s.rsp <+: t.rsp
  fibOut : s.fibOut <+: t.fibOut
  cuOut : s.cuOut <+: t.cuOut
  tiiOut : s.tiiOut <+: t.tiiOut
  evt : s.evt <+: t.evt

theorem Extends.refl (s : State) : Extends s s := ⟨List.prefix_rfl, List.prefix_rfl, List.prefix_rfl, List.prefix_rfl, List.prefix_rfl⟩

theorem Extends.trans {s t u : State} (h : Extends s t) (h' : Extends t u) : Extends s u where
  rsp := h.rsp.trans h'.rsp
  fibOut := h.fibOut.trans h'.fibOut
  cuOut := h.cuOut.trans h'.cuOut
  tiiOut := h.tiiOut.trans h'.tiiOut
  evt := h.evt.trans h'.evt

theorem Effect.extends {s t : State} (h : Effect s t) : Extends s t := by
  cases h
  case tii v => exact { Extends.refl s with tiiOut := List.prefix_append _ _ }
  case fibs out good bad fibs hout => exact { Extends.refl s with fibOut := List.prefix_append _ _ }
  case raise e => constructor <;> simp
  case slice rs => exact { Extends.refl s with cuOut := List.prefix_append _ _ }
  all_goals exact { Extends.refl s with }

theorem Update.extends {s t : State} (h : Update s t) : Extends s t := by
  cases h
  case effect h => exact h.extends
  case response st v => exact { Extends.refl s with rsp := List.prefix_append _ _ }
  all_goals exact { Extends.refl s with }

theorem Commanded.extends {i : Instr} {s t : State} (h : Commanded s i t) : Extends s t := by
  cases h <;> exact { Extends.refl s with }

/-- Settles O60: a change leaves a stream or appends to it. -/
theorem outputsExtend : Obligations.OutputsExtend := by
  unfold Obligations.OutputsExtend
  intro s t hstep
  have h : Extends s t := step_keeps (P := Extends s) (fun _ _ huv hu => hu.trans huv.extends)
    (fun _ _ _ huv hu => hu.trans huv.extends) hstep (.refl s)
  exact ⟨h.rsp, h.fibOut, h.cuOut, h.tiiOut, h.evt⟩

end Sys2Proof.Proofs
end

section
/-! PROOF. The tracking of `FINE` (`46_sync_controller.md` R293, `10_state.md` R28, R29): the scaled drift, the fold, and
with them `FtrackResult`, and `FineKept` from what the changes of a step do to `FINE`. -/

open Sys2Proof Sys2Proof.Machine Sys2Proof.Laws

namespace Sys2Proof.Proofs

/-! ## The drift -/

section
variable {s : State} (hs : ModeOk s)
include hs

theorem carrierDiff_pos : (0 : ℝ) < (mode s).carrierDiff := by
  have hwf := mode_lengthsWf hs
  simp only [lengthsWf, Bool.and_eq_true, decide_eq_true_iff] at hwf
  obtain ⟨⟨⟨⟨-, -, -, -, hdiff⟩, -⟩, -⟩, -⟩ := hwf
  exact_mod_cast hdiff

theorem fineGain_bounds : 0 < scalarVal (mode s).fineGain ∧ scalarVal (mode s).fineGain ≤ 1 := by
  have hwf := mode_wf hs
  simp only [modeWf, Bool.and_eq_true] at hwf
  obtain ⟨⟨⟨-, hlevels⟩, -⟩, -⟩ := hwf
  simp only [levelsWf, Bool.and_eq_true] at hlevels
  obtain ⟨-, hgain⟩ := hlevels
  rw [inUnitRange, Bool.and_eq_true, decide_eq_true_iff, scalarSign_eq, sgn_pos_iff, Bool.not_eq_true',
    ← Bool.not_eq_true, scalarLt_iff, show scalarVal (scalarOfRat 1) = ((1 : Rat) : ℝ) from scalarAt_ofRat _ _, Rat.cast_one,
    not_lt] at hgain
  exact hgain

end

/-- `FINE_GAIN · (arg FREQCORR / 2π) · carrierDiff` (R293). -/
noncomputable def drift (s : State) : ℝ :=
  scalarVal (mode s).fineGain * (Complex.arg (cxVal (order s) s.freqcorr) / (2 * Real.pi)) * ((mode s).carrierDiff : ℝ)

section
variable {s : State} (hs : ModeOk s)
include hs

theorem hertzVal_trackedFine : hertzVal (order s) (trackedFine s) = hertzVal (order s) s.fine + drift s := by
  rw [trackedFine, hertzAddArg_val (order_exact hs), scalarVal, scalarAt_scale, drift]
  push_cast
  ring

/-- An argument is half a turn at most, and the gain is 1 at most. -/
theorem abs_drift_le : |drift s| ≤ (mode s).carrierDiff / 2 := by
  obtain ⟨hpos, hle⟩ := fineGain_bounds hs
  have hdiff := carrierDiff_pos hs
  have hturn : |Complex.arg (cxVal (order s) s.freqcorr) / (2 * Real.pi)| ≤ 1 / 2 := by
    rw [abs_div, abs_of_pos Real.two_pi_pos, div_le_iff₀ Real.two_pi_pos]
    linarith [Complex.abs_arg_le_pi (cxVal (order s) s.freqcorr)]
  rw [drift, abs_mul, abs_mul, abs_of_pos hpos, abs_of_pos hdiff]
  have := mul_le_mul hle hturn (abs_nonneg _) zero_le_one
  nlinarith

end

theorem drift_eq_zero {s : State} (h : s.freqcorr = []) : drift s = 0 := by
  rw [drift, h, show cxVal (order s) [] = 0 from cxAt_nil _ _, Complex.arg_zero]
  simp

/-! ## The fold (R293) -/

section
variable {M cd : Nat} (hE : Exact M) {f : Hertz}
include hE

theorem foldFine_above (h : (cd : ℝ) / 2 ≤ hertzVal M f) : foldFine M cd f = (hertzAddRat (-(cd : Rat)) f, 1) :=
  if_pos ((ratLeHertz_iff hE _ f).2 (by push_cast; exact h))

theorem not_above (h : hertzVal M f < (cd : ℝ) / 2) : ¬ ratLeHertz M ((cd : Rat) / 2) f = true := by
  rw [ratLeHertz_iff hE]
  push_cast
  exact not_le.2 h

theorem foldFine_below (h : hertzVal M f < -((cd : ℝ) / 2)) : foldFine M cd f = (hertzAddRat (cd : Rat) f, -1) := by
  have hcd : (0 : ℝ) ≤ cd := Nat.cast_nonneg cd
  have hbelow : ¬ ratLeHertz M (-((cd : Rat) / 2)) f = true := by
    rw [ratLeHertz_iff hE]
    push_cast
    exact not_le.2 h
  rw [foldFine, if_neg (not_above hE (by linarith)), if_neg hbelow]

theorem foldFine_within (hlo : -((cd : ℝ) / 2) ≤ hertzVal M f) (hhi : hertzVal M f < (cd : ℝ) / 2) :
    foldFine M cd f = (f, 0) := by
  have hwithin : ratLeHertz M (-((cd : Rat) / 2)) f = true := (ratLeHertz_iff hE _ f).2 (by push_cast; exact hlo)
  rw [foldFine, if_neg (not_above hE hhi), if_pos hwithin]

/-- The fold moves whole carriers between `FINE` and `COARSE`. -/
theorem hertzVal_foldFine :
    hertzVal M (foldFine M cd f).1 = hertzVal M f - ((foldFine M cd f).2 : ℝ) * (cd : ℝ) := by
  rcases le_or_gt ((cd : ℝ) / 2) (hertzVal M f) with h | h
  · rw [foldFine_above hE h, hertzVal_addRat]
    push_cast
    ring
  · rcases le_or_gt (-((cd : ℝ) / 2)) (hertzVal M f) with h' | h'
    · rw [foldFine_within hE h' h]
      simp
    · rw [foldFine_below hE h', hertzVal_addRat]
      push_cast
      ring

/-- One fold brings a number less than a carrier away back. -/
theorem foldFine_inRange (hcd : (0 : ℝ) < cd) (hlo : -(cd : ℝ) ≤ hertzVal M f) (hhi : hertzVal M f < cd) :
    -((cd : ℝ) / 2) ≤ hertzVal M (foldFine M cd f).1 ∧ hertzVal M (foldFine M cd f).1 < (cd : ℝ) / 2 := by
  rcases le_or_gt ((cd : ℝ) / 2) (hertzVal M f) with h | h
  · rw [foldFine_above hE h, hertzVal_addRat]
    push_cast
    constructor <;> linarith
  · rcases le_or_gt (-((cd : ℝ) / 2)) (hertzVal M f) with h' | h'
    · rw [foldFine_within hE h' h]
      exact ⟨h', h⟩
    · rw [foldFine_below hE h', hertzVal_addRat]
      push_cast
      constructor <;> linarith

end

/-! ## `FTRACK` (R293) -/

/-- The state after `FTRACK`. -/
def trackedState (s : State) : State := { s with
  fine := (foldFine (order s) (mode s).carrierDiff (trackedFine s)).1
  coarse := sat32 (s.coarse + (foldFine (order s) (mode s).carrierDiff (trackedFine s)).2)
  freqcorr := [] }

theorem exec_ftrack {s : State} (hrun : s.run = false) :
    exec .ftrack s = .next (respond (trackedState s) .ok (word32 (foff (trackedState s)))) :=
  hostUnit_done .ftrack opFtrack _ _ _ _ hrun rfl

theorem fineInRange_trackedState {s : State} (hs : ModeOk s) (h : FineInRange s) : FineInRange (trackedState s) := by
  obtain ⟨hlo, hhi⟩ := h
  obtain ⟨hdlo, hdhi⟩ := abs_le.1 (abs_drift_le hs)
  have hval := hertzVal_trackedFine hs
  have habove : -((mode s).carrierDiff : ℝ) ≤ hertzVal (order s) (trackedFine s) := by linarith
  have hbelow : hertzVal (order s) (trackedFine s) < (mode s).carrierDiff := by linarith
  exact foldFine_inRange (order_exact hs) (carrierDiff_pos hs) habove hbelow

theorem sat32_of_inRange {x : Int} (hlo : -2 ^ 31 ≤ x) (hhi : x < 2 ^ 31) : sat32 x = x := by
  rw [sat32]
  omega

theorem foff_eq {s : State} (hs : ModeOk s) :
    foff s = sat32 (s.coarse * (mode s).carrierDiff + truncReal (hertzVal (order s) s.fine)) := by
  rw [foff, hertzTrunc_eq (order_exact hs)]

/-- With nothing to track and `FINE` in its range `FTRACK` moves no carrier. -/
theorem foldFine_still {s : State} (hs : ModeOk s) (hcorr : s.freqcorr = []) (hfine : FineInRange s) :
    foldFine (order s) (mode s).carrierDiff (trackedFine s) = (trackedFine s, 0) ∧
      hertzVal (order s) (trackedFine s) = hertzVal (order s) s.fine := by
  have hval : hertzVal (order s) (trackedFine s) = hertzVal (order s) s.fine := by
    rw [hertzVal_trackedFine hs, drift_eq_zero hcorr, add_zero]
  obtain ⟨hlo, hhi⟩ := hfine
  rw [← hval] at hlo hhi
  exact ⟨foldFine_within (order_exact hs) hlo hhi, hval⟩

/-- Settles O34: the fold by the place of the sum among its bounds. -/
theorem ftrackResult : Obligations.FtrackResult := by
  unfold Obligations.FtrackResult
  refine ⟨fun s hs hrun => ?fold, fun s hs => foff_eq hs, fun s hs hrun hfine => ?range,
    fun s hs hrun hcorr hfine hlo hhi => ?still⟩
  case fold =>
    have hE := order_exact hs
    refine ⟨_, _, hertzVal (order s) (trackedFine s), hertzVal_trackedFine hs, hertzVal_foldFine hE, fun h => ?_,
      fun h => ?_, fun h h' => ?_, exec_ftrack hrun⟩
    · rw [foldFine_above hE h]
    · rw [foldFine_below hE h]
    · rw [foldFine_within hE h h']
  case range => exact ⟨_, exec_ftrack hrun, fineInRange_trackedState hs hfine, rfl⟩
  case still =>
    obtain ⟨hfold, hval⟩ := foldFine_still hs hcorr hfine
    have hstate : trackedState s = { s with fine := trackedFine s } := by
      rw [trackedState, hfold, add_zero, sat32_of_inRange hlo hhi, ← hcorr]
    refine ⟨trackedFine s, hval, ?_⟩
    rw [exec_ftrack hrun, hstate, foff_eq (s := { s with fine := trackedFine s }) hs, foff_eq hs,
      show hertzVal (order { s with fine := trackedFine s }) (trackedFine s) = _ from hval]
    rfl

/-! ## `FINE` at every step (R28) -/

theorem Effect.fineInRange {s t : State} (h : Effect s t) (hs : ModeOk s) (hfine : FineInRange s) : FineInRange t := by
  cases h
  case ftrack => exact fineInRange_trackedState hs hfine
  case raise e => cases e <;> exact hfine
  all_goals exact hfine

theorem Update.fineInRange {s t : State} (h : Update s t) (hs : ModeOk s) (hfine : FineInRange s) : FineInRange t := by
  cases h
  case effect h => exact h.fineInRange hs hfine
  all_goals exact hfine

theorem Updates.fineInRange {s t : State} (h : Updates s t) (hs : ModeOk s) (hfine : FineInRange s) : FineInRange t :=
  (kept_of_reflTransGen (P := fun u => ModeOk u ∧ FineInRange u)
    (fun _ _ huv hu => ⟨huv.modeOk hu.1, huv.fineInRange hu.1 hu.2⟩) h ⟨hs, hfine⟩).2

/-- A frequency of 0 is in every range. -/
theorem fineInRange_of_zero {s : State} (hs : ModeOk s) (h : s.fine = ⟨[], []⟩) : FineInRange s := by
  have hzero : hertzVal (order s) s.fine = 0 := by rw [h]; simp [hertzAt]
  have hdiff := carrierDiff_pos hs
  rw [FineInRange, hzero]
  constructor <;> linarith

/-- A control command that keeps the mode keeps `FINE`, or starts a session with it 0. -/
theorem Commanded.fineInRange {i : Instr} {s t : State} (h : Commanded s i t) (hs : ModeOk s) (hfine : FineInRange s)
    (hmode : t.modeSel = s.modeSel) : FineInRange t := by
  cases h
  case start => exact fineInRange_of_zero hs rfl
  case modeSel d hrun hrange hnew => exact absurd hmode hnew
  all_goals exact hfine

/-- Settles O51: only `FTRACK` and `START` write `FINE`. -/
theorem fineKept : Obligations.FineKept := by
  unfold Obligations.FineKept
  intro s t hs hstep
  refine ⟨fun hfine hmode => ?kept, fun hhalted hrun => ?begins⟩
  case kept =>
    obtain hst | ⟨-, i, u, v, st, w, -, hu, hv, rfl⟩ := step_cases hstep
    · exact Updates.fineInRange hst hs hfine
    · have husel := Updates.mode_eq hu.updates
      exact hv.fineInRange (modeOk_of_eq husel hs) (Updates.fineInRange hu.updates hs hfine)
        (hmode.trans husel.2.symm)
  case begins =>
    obtain ⟨-, -, u, st, w, hu, rfl⟩ := step_starts hstep hhalted hrun
    have hmode : ModeOk u := modeOk_of_eq (Updates.mode_eq hu) hs
    exact fineInRange_of_zero (s := flushSrc (startReset u)) hmode rfl

end Sys2Proof.Proofs
end

section
/-! PROOF. The form and the index range of every buffer (`20_memory.md` R60) under the changes of a step, and with this
`BuffersKept`; and all the invariants after power-on reset (`70_reset_and_hazards.md` R380), `InvariantsAtReset`. -/

open Sys2Proof Sys2Proof.Machine Sys2Proof.Laws

namespace Sys2Proof.Proofs

/-! ## One buffer -/

section
variable {α : Type} {n : Nat}

/-- A buffer in its canonical form, of `n` elements. -/
def BufIn (n : Nat) (b : Buf α) : Prop := bufWf b = true ∧ Below n b

theorem bufIn_nil : BufIn n ([] : Buf α) := ⟨rfl, fun _ ht => absurd ht List.not_mem_nil⟩

theorem below_bufOf {off : Nat} {v : List α} (h : off + v.length ≤ n) : Below n (bufOf off v) := by
  intro t ht
  obtain ⟨-, hlt, -⟩ := mem_bufOf _ _ _ ht
  omega

theorem bufIn_bufOf {off : Nat} {v : List α} (h : off + v.length ≤ n) : BufIn n (bufOf off v) :=
  ⟨bufWf_bufOf off v, below_bufOf h⟩

theorem bufIn_bufOf_zero {v : List α} (h : v.length ≤ n) : BufIn n (bufOf 0 v) := bufIn_bufOf (by rwa [Nat.zero_add])

theorem below_writeRange {b : Buf α} (hb : Below n b) {off : Nat} {v : List α} (h : off + v.length ≤ n) :
    Below n (bufWriteRange b off v) := fun t ht => (mem_bufWriteRange _ _ _ _ ht).elim (hb t) (below_bufOf h t)

theorem bufIn_writeRange {b : Buf α} (hb : BufIn n b) {off : Nat} {v : List α} (h : off + v.length ≤ n) :
    BufIn n (bufWriteRange b off v) := ⟨bufWf_writeRange b off v hb.1, below_writeRange hb.2 h⟩

end

/-! ## `FIC_ACC` -/

/-- `FIC_ACC` in its canonical form, of `n` elements. -/
def AccIn (zeroed : Bool) (n : Nat) (b : Buf Soft) : Prop := accWf zeroed b = true ∧ Below n b

theorem accIn_nil (zeroed : Bool) (n : Nat) : AccIn zeroed n [] := ⟨accWf_nil zeroed, bufIn_nil.2⟩

theorem accIn_write {zeroed : Bool} {n : Nat} {b : Buf Soft} (hb : AccIn zeroed n b) {a : Nat} (ha : a < n) (v : Soft) :
    AccIn zeroed n (accWrite zeroed b a v) := by
  refine ⟨accWf_write zeroed b a v hb.1, ?_⟩
  rw [accWrite]
  split
  · exact fun t ht => hb.2 t (List.mem_filter.1 ht).1
  · exact below_writeRange hb.2 ha

theorem accIn_depuncture {m : Mode} {zeroed : Bool} {n q : Nat} {v : List Soft} {b : Buf Soft} (hb : AccIn zeroed n b)
    (hq : ∀ j, j < v.length → ficAddress m (q + j) < n) : AccIn zeroed n (depuncture m zeroed q v b) := by
  induction v generalizing q b with
  | nil => exact hb
  | cons x v ih =>
    refine ih (accIn_write hb (hq 0 (Nat.succ_pos _)) x) fun j hj => ?_
    rw [Nat.add_assoc, Nat.add_comm 1 j]
    exact hq (j + 1) (Nat.succ_lt_succ hj)

theorem ficBits_eq {s : State} (hs : ModeOk s) : ficBits (mode s) = (mode s).nBlk * blkIn (mode s) := by
  have hwf := mode_ficWf hs
  simp only [ficWf, Bool.and_eq_true, decide_eq_true_iff] at hwf
  obtain ⟨⟨⟨⟨⟨⟨⟨⟨⟨-, hdvd⟩, -⟩, -⟩, -⟩, -⟩, -⟩, -⟩, -⟩, -⟩ := hwf
  exact (Nat.mul_div_cancel' (Nat.dvd_of_mod_eq_zero hdvd)).symm

/-- Every place of a frame's soft bits is one of `FIC_ACC` (`43_fic_decoder.md` R187). -/
theorem ficAddress_lt {s : State} (hs : ModeOk s) {q : Nat} (hq : q < ficBits (mode s)) :
    ficAddress (mode s) q < (mode s).nBlk * motherLen (mode s) := by
  have hblk : q / blkIn (mode s) < (mode s).nBlk := by
    rw [ficBits_eq hs, Nat.mul_comm] at hq
    exact Nat.div_lt_of_lt_mul hq
  have hrem : q % blkIn (mode s) < (punctureMap (mode s)).length := by
    rw [punctureMap_length hs]
    exact Nat.mod_lt _ (blkIn_pos hs)
  obtain ⟨-, hpos⟩ := mem_onesFrom (List.getElem_mem hrem)
  rw [Nat.zero_add, pm_length hs] at hpos
  rw [ficAddress, List.getD_eq_getElem _ _ hrem]
  calc q / blkIn (mode s) * motherLen (mode s) + (punctureMap (mode s))[q % blkIn (mode s)]
      < q / blkIn (mode s) * motherLen (mode s) + motherLen (mode s) := Nat.add_lt_add_left hpos _
    _ = (q / blkIn (mode s) + 1) * motherLen (mode s) := (Nat.succ_mul _ _).symm
    _ ≤ (mode s).nBlk * motherLen (mode s) := Nat.mul_le_mul_right _ hblk

/-! ## `CIF` -/

theorem cifSlot_end_le {s : State} (hs : ModeOk s) (sym : Nat) :
    cifSlot (mode s) sym * nSoft (mode s) + nSoft (mode s) ≤ (mode s).cifBits := by
  have hwf := mode_wf hs
  simp only [modeWf, Bool.and_eq_true] at hwf
  obtain ⟨-, hcif⟩ := hwf
  simp only [cifWf, Bool.and_eq_true, decide_eq_true_iff] at hcif
  obtain ⟨⟨⟨-, hbits⟩, -⟩, -⟩ := hcif
  obtain ⟨hgeometry, -⟩ := cif_geometry hs
  have hsyms : 0 < symsPerCif (mode s) := Nat.pos_of_mul_pos_right (by rwa [hgeometry])
  rw [← Nat.succ_mul, ← hgeometry]
  exact Nat.mul_le_mul_right _ (Nat.mod_lt _ hsyms)

/-! ## The buffers of the state -/

/-- `BuffersOk`, buffer by buffer. -/
structure BuffersIn (s : State) : Prop where
  win : BufIn (mode s).tS s.win
  spec : BufIn (mode s).tU s.spec
  prev : BufIn (mode s).tU s.prev
  soft : BufIn (nSoft (mode s)) s.soft
  acc : AccIn s.ficAccZeroed ((mode s).nBlk * motherLen (mode s)) s.ficAcc
  out : BufIn ((mode s).nBlk * (mode s).blkOut) s.ficOut
  cif : BufIn (mode s).cifBits s.cif

theorem buffersOk_iff {s : State} : BuffersOk s ↔ BuffersIn s := by
  constructor
  · rintro ⟨hwin, hwin', hspec, hspec', hprev, hprev', hsoft, hsoft', hacc, hacc', hout, hout', hcif, hcif'⟩
    exact ⟨⟨hwin, hwin'⟩, ⟨hspec, hspec'⟩, ⟨hprev, hprev'⟩, ⟨hsoft, hsoft'⟩, ⟨hacc, hacc'⟩, ⟨hout, hout'⟩, hcif, hcif'⟩
  · rintro ⟨⟨hwin, hwin'⟩, ⟨hspec, hspec'⟩, ⟨hprev, hprev'⟩, ⟨hsoft, hsoft'⟩, ⟨hacc, hacc'⟩, ⟨hout, hout'⟩, hcif, hcif'⟩
    exact ⟨hwin, hwin', hspec, hspec', hprev, hprev', hsoft, hsoft', hacc, hacc', hout, hout', hcif, hcif'⟩

theorem Effect.buffersIn {s t : State} (h : Effect s t) (hs : ModeOk s) (hb : BuffersIn s) : BuffersIn t := by
  cases h
  case window off v hv => exact { hb with win := bufIn_writeRange hb.win (hv hs) }
  case spectrum x hx => exact { hb with spec := bufIn_bufOf_zero hx.le }
  case prime x hx => exact { hb with spec := bufIn_bufOf_zero hx.le, prev := bufIn_bufOf_zero hx.le }
  case decsym x v hx hv =>
    exact { hb with
      spec := bufIn_bufOf_zero hx.le, prev := bufIn_bufOf_zero hx.le, soft := bufIn_bufOf_zero (hv hs) }
  case zeroFic => exact { hb with acc := accIn_nil _ _ }
  case ficpush v hidx hv =>
    refine { hb with acc := accIn_depuncture hb.acc fun j hj => ficAddress_lt hs ?_ }
    calc s.ficIdx * nSoft (mode s) + j < s.ficIdx * nSoft (mode s) + nSoft (mode s) := Nat.add_lt_add_left (hv ▸ hj) _
      _ = (s.ficIdx + 1) * nSoft (mode s) := (Nat.succ_mul _ _).symm
      _ ≤ ficBits (mode s) := Nat.mul_le_mul_right _ hidx
  case fibs out good bad fibs hout => exact { hb with out := bufIn_bufOf_zero hout }
  case raise e => cases e <;> exact { hb with }
  case place e r hfifo hlen =>
    exact { hb with cif := bufIn_writeRange hb.cif (by rw [hlen]; exact cifSlot_end_le hs e.sym) }
  all_goals exact { hb with }

theorem Update.buffersIn {s t : State} (h : Update s t) (hs : ModeOk s) (hb : BuffersIn s) : BuffersIn t := by
  cases h
  case effect h => exact h.buffersIn hs hb
  case frame => exact { hb with acc := accIn_nil _ _ }
  all_goals exact { hb with }

theorem Commanded.buffersIn {i : Instr} {s t : State} (h : Commanded s i t) (hb : BuffersIn s) : BuffersIn t := by
  cases h
  case start => exact ⟨bufIn_nil, bufIn_nil, bufIn_nil, bufIn_nil, accIn_nil _ _, bufIn_nil, bufIn_nil⟩
  case modeSel => exact ⟨bufIn_nil, bufIn_nil, bufIn_nil, bufIn_nil, accIn_nil _ _, bufIn_nil, bufIn_nil⟩
  all_goals exact { hb with }

/-- Settles O52: a write lies in the range of its buffer, and a new mode finds the buffers empty. -/
theorem buffersKept : Obligations.BuffersKept := by
  unfold Obligations.BuffersKept
  intro s t hs hb hstep
  have h : ModeOk t ∧ BuffersIn t := step_keeps (P := fun u => ModeOk u ∧ BuffersIn u)
    (fun _ _ huv hu => ⟨huv.modeOk hu.1, huv.buffersIn hu.1 hu.2⟩)
    (fun _ _ _ huv hu => ⟨huv.modeOk hu.1, huv.buffersIn hu.2⟩) hstep ⟨hs, buffersOk_iff.1 hb⟩
  exact buffersOk_iff.2 h.2

/-! ## After power-on reset (`10_state.md` R52, `70_reset_and_hazards.md` R380) -/

theorem modeOk_por {c : Cfg} (hc : cfgWf c = true) : ModeOk (State.por c) := by
  have hwf := hc
  simp only [cfgWf, Bool.and_eq_true, decide_eq_true_iff] at hwf
  obtain ⟨⟨⟨-, hmodes, -⟩, -⟩, -⟩ := hwf
  exact ⟨hc, hmodes⟩

/-- Settles O56: the block is halted, with its counters 0 and its buffers empty. -/
theorem invariantsAtReset : Obligations.InvariantsAtReset := by
  unfold Obligations.InvariantsAtReset
  intro c hc
  have halted {P : Prop} (h : (State.por c).run = true) : P := absurd h Bool.false_ne_true
  refine ⟨modeOk_por hc, ⟨halted, fun _ => ⟨rfl, rfl, rfl⟩⟩, ?counters, ?buffers, ?soft,
    ⟨List.Pairwise.nil, Nat.zero_le _⟩, fineInRange_of_zero (modeOk_por hc) rfl, ready_of_halted rfl⟩
  case counters =>
    exact ⟨show 0 < Config.nNosig by decide, show 0 < Config.nBfail by decide, Nat.zero_le _, halted⟩
  case buffers =>
    exact buffersOk_iff.2 ⟨bufIn_nil, bufIn_nil, bufIn_nil, bufIn_nil, accIn_nil _ _, bufIn_nil, bufIn_nil⟩
  case soft => exact ⟨by simp [State.por], by simp [State.por], by simp [State.por], by simp [State.por], by simp [State.por]⟩

end Sys2Proof.Proofs
end

section
/-! PROOF. `SPEC` is written and never read (`10_state.md` R33): what an operation, an agent's step and an act do from two
states that differ in `SPEC` only differs in `SPEC` only, and with this `SpecNotRead`. -/

open Sys2Proof Sys2Proof.Machine

namespace Sys2Proof.Proofs

/-! ## States that differ in `SPEC` -/

def withSpec (b : Buf Cx) (s : State) : State := { s with spec := b }

/-- A state without its `SPEC`. -/
def noSpec (s : State) : State := withSpec [] s

/-- An outcome without the `SPEC` of its state. -/
def eraseSpec : Host.Outcome State Fault Refusal → Host.Outcome State Fault Refusal
  | .next s => .next (noSpec s)
  | .fault f => .fault f
  | .refused r => .refused r

/-- What an operation does does not depend on `SPEC`, but for the `SPEC` it leaves. -/
def Blind (op : State → OpRes) : Prop := ∀ b s, mapState noSpec (op (withSpec b s)) = mapState noSpec (op s)

/-- The same of a step. -/
def BlindStep (f : State → Host.Outcome State Fault Refusal) : Prop :=
  ∀ b s, eraseSpec (f (withSpec b s)) = eraseSpec (f s)

/-- States that are the same without `SPEC` differ in it only. -/
theorem eq_withSpec {s t : State} (h : noSpec t = noSpec s) : t = withSpec t.spec s := (congrArg (withSpec t.spec) h :)

/-- Two choices by one condition agree under a function where their branches do. -/
theorem ite_congr_map {α β : Type} {f : α → β} {p : Prop} {_ : Decidable p} {a b a' b' : α} (ha : p → f a' = f a)
    (hb : ¬ p → f b' = f b) : f (if p then a' else b') = f (if p then a else b) := by
  by_cases h : p
  · rw [if_pos h, if_pos h, ha h]
  · rw [if_neg h, if_neg h, hb h]

/-! ## Operations that read samples (`46_sync_controller.md` R273) -/

theorem take_withSpec (n : Nat) (b : Buf Cx) (s : State) : take n (withSpec b s) = mapTaken (withSpec b) (take n s) := by
  refine ite_eq_map Iff.rfl (fun _ => rfl) fun _ => ?_
  rw [show (withSpec b s).src = s.src from rfl]
  cases fetchSamples n s.src <;> rfl

theorem opLevel_blind (n : Nat) : Blind (opLevel n) := by
  intro b s
  refine ite_congr_map (fun _ => rfl) fun _ => ?_
  rw [take_withSpec]
  cases take n s <;> rfl

theorem opFill_blind (off n : Nat) : Blind (opFill off n) := by
  intro b s
  refine ite_congr_map (fun _ => rfl) fun _ => ?_
  rw [take_withSpec]
  cases take n s <;> rfl

theorem opSkipnull_blind : Blind opSkipnull := by
  intro b s
  rw [opSkipnull, opSkipnull, show mode (withSpec b s) = mode s from rfl, take_withSpec]
  cases take (mode s).tNull s with
  | samples v t => exact congrArg (OpRes.done · .ok _) (ite_congr_map (f := noSpec) (fun _ => rfl) fun _ => rfl)
  | stopped t => rfl
  | waits => rfl

theorem scanLoop_blind (fuel : Nat) (sc : Scan) : Blind (scanLoop fuel sc) := by
  intro b s
  induction fuel generalizing sc s with
  | zero =>
    rw [scanLoop, scanLoop, show scanTest (withSpec b s) sc = scanTest s sc from rfl]
    cases scanTest s sc <;> rfl
  | succ fuel ih =>
    rw [scanLoop, scanLoop, show scanTest (withSpec b s) sc = scanTest s sc from rfl]
    cases scanTest s sc with
    | ends st v => rfl
    | more sc' =>
      dsimp only
      rw [take_withSpec]
      cases take 1 s with
      | samples v t => exact ih _ t
      | stopped t => rfl
      | waits => rfl

theorem opNullscan_blind : Blind opNullscan := by
  intro b s
  rw [opNullscan, opNullscan, show (withSpec b s).scan = s.scan from rfl]
  cases s.scan with
  | some sc => exact ite_congr_map (fun _ => rfl) fun _ => scanLoop_blind _ sc b s
  | none =>
    dsimp only
    rw [show mode (withSpec b s) = mode s from rfl, take_withSpec]
    cases take (mode s).dipWindow s with
    | samples v t => exact scanLoop_blind _ _ b t
    | stopped t => rfl
    | waits => rfl

/-! ## Operations on the window -/

theorem onSlice_blind {off : Nat} {k : State → List Cx → OpRes} (hk : ∀ w, Blind fun s => k s w) :
    Blind fun s => onSlice s off (k s) := by
  intro b s
  refine ite_congr_map (fun _ => rfl) fun _ => ?_
  rw [show winSlice (withSpec b s) off = winSlice s off from rfl]
  cases winSlice s off with
  | none => rfl
  | some w => exact hk w b s

theorem opFft_blind (off : Nat) : Blind (opFft off) := onSlice_blind fun _ _ _ => rfl

theorem opPrime_blind (off : Nat) : Blind (opPrime off) := onSlice_blind fun _ _ _ => rfl

theorem opEstco_blind (off : Nat) : Blind (opEstco off) :=
  onSlice_blind fun w b s => by
    dsimp only
    rw [show carrierShift (withSpec b s) (sliceDft (withSpec b s) w) = carrierShift s (sliceDft s w) from rfl]
    cases carrierShift s (sliceDft s w) <;> rfl

theorem opFindb_blind (thr : Nat) : Blind (opFindb thr) := by
  intro b s
  rw [opFindb, opFindb, show winSlice (withSpec b s) 0 = winSlice s 0 from rfl]
  cases winSlice s 0 with
  | none => rfl
  | some w => exact ite_congr_map (fun _ => rfl) fun _ => rfl

theorem opShift_blind (n : Nat) : Blind (opShift n) := by
  intro b s
  refine ite_congr_map (fun _ => rfl) fun _ => ite_congr_map (fun _ => rfl) fun _ => ?_
  rw [show mode (withSpec b s) = mode s from rfl, show (withSpec b s).win = s.win from rfl]
  cases bufReadRange s.win n ((mode s).tU - n) <;> rfl

theorem opDecsym_blind (off : Nat) : Blind (opDecsym off) := by
  intro b s
  refine ite_congr_map (fun _ => rfl) fun _ => ite_congr_map (fun _ => rfl) fun _ => ?_
  rw [show winSlice (withSpec b s) off = winSlice s off from rfl, show mode (withSpec b s) = mode s from rfl,
    show (withSpec b s).prev = s.prev from rfl]
  cases winSlice s off <;> cases bufReadAll s.prev (carrierBins (mode s)) <;> rfl

theorem opFcorr_blind : Blind opFcorr := by
  intro b s
  rw [opFcorr, opFcorr, show mode (withSpec b s) = mode s from rfl, show (withSpec b s).win = s.win from rfl]
  cases bufReadRange s.win (mode s).tU ((mode s).tS - (mode s).tU) <;>
    cases bufReadRange s.win 0 ((mode s).tS - (mode s).tU) <;> rfl

theorem opFtrack_blind : Blind opFtrack := fun _ _ => rfl

/-! ## Operations of the FIC decoder and of the demultiplexer -/

theorem opFicpush_blind (idx : Nat) : Blind (opFicpush idx) := by
  intro b s
  refine ite_congr_map (fun _ => rfl) fun _ => ?_
  rw [show mode (withSpec b s) = mode s from rfl, show (withSpec b s).soft = s.soft from rfl]
  cases bufReadRange s.soft 0 (nSoft (mode s)) with
  | none => rfl
  | some v => by_cases h : idx = 0 <;> simp only [h, if_true, if_false] <;> rfl

theorem ficBlocks_withSpec (b : Buf Cx) (s : State) (k n : Nat) : ficBlocks (withSpec b s) k n = ficBlocks s k n := by
  induction k generalizing n with
  | zero => rfl
  | succ k ih => rw [ficBlocks, ficBlocks, ih]; rfl

theorem raiseQuality_withSpec {b : Buf Cx} {t u : State} (h : u = withSpec b t) :
    raiseEvent u (.ficQuality u.fibGood u.fibBad) = withSpec b (raiseEvent t (.ficQuality t.fibGood t.fibBad)) := by
  subst h
  rfl

theorem ficWalk_withSpec (b : Buf Cx) (s : State) (out : List Bool) :
    ficWalk (withSpec b s) out = withSpec b (ficWalk s out) :=
  raiseQuality_withSpec (ite_eq_map Iff.rfl (fun _ => rfl) fun _ => rfl)

theorem opFicdec_blind : Blind opFicdec := by
  intro b s
  refine ite_congr_map (fun _ => rfl) fun _ => ?_
  rw [show mode (withSpec b s) = mode s from rfl, ficBlocks_withSpec]
  cases ficBlocks s (mode s).nBlk 0 with
  | none => rfl
  | some ys => simp only [ficWalk_withSpec]; rfl

theorem opCrc16_blind (f : Nat) : Blind (opCrc16 f) := by
  intro b s
  refine ite_congr_map (fun _ => rfl) fun _ => ?_
  rw [show (withSpec b s).ficOut = s.ficOut from rfl]
  cases bufReadRange s.ficOut (Config.fibBits * f) Config.fibBits <;> rfl

theorem opMscpush_blind (n : Nat) : Blind (opMscpush n) := by
  intro b s
  refine ite_congr_map (fun _ => rfl) fun _ => ite_congr_map (fun _ => rfl) fun _ => ?_
  rw [show mode (withSpec b s) = mode s from rfl, show (withSpec b s).soft = s.soft from rfl]
  cases bufReadRange s.soft 0 (nSoft (mode s)) <;> rfl

theorem opCifpop_blind : Blind opCifpop := by
  intro b s
  rw [opCifpop, opCifpop, show (withSpec b s).fifo = s.fifo from rfl]
  cases s.fifo with
  | nil => rfl
  | cons e r =>
    refine ite_congr_map (fun _ => rfl) fun _ => ite_congr_map (fun _ => rfl) fun _ => ?_
    by_cases hcomplete : cifComplete (mode s) (placeHead s e r).cifValid = true
    · rw [if_pos hcomplete, show mode (withSpec b s) = mode s from rfl,
        show (placeHead (withSpec b s) e r).cifValid = (placeHead s e r).cifValid from rfl, if_pos hcomplete,
        show cuRecords (mode s) (placeHead (withSpec b s) e r).cif (placeHead (withSpec b s) e r).subs =
          cuRecords (mode s) (placeHead s e r).cif (placeHead s e r).subs from rfl]
      cases cuRecords (mode s) (placeHead s e r).cif (placeHead s e r).subs <;> rfl
    · rw [if_neg hcomplete, show mode (withSpec b s) = mode s from rfl,
        show (placeHead (withSpec b s) e r).cifValid = (placeHead s e r).cifValid from rfl, if_neg hcomplete]
      rfl

/-! ## The commands (`30_encoding.md` R90, R91) -/

theorem hostUnit_blind (i : Instr) {op : State → OpRes} (hop : Blind op) : BlindStep (hostUnit i op) := by
  intro b s
  refine ite_congr_map (fun _ => rfl) fun _ => ?_
  have herased (r : OpRes) : eraseSpec (hostOutcome i r) = eraseSpec (hostOutcome i (mapState noSpec r)) := by
    cases r <;> rfl
  rw [herased, hop, ← herased]

theorem csrWrite_withSpec (b : Buf Cx) (s : State) (a : Nat) (d : Word) :
    noSpec (csrWrite (withSpec b s) a d).1 = noSpec (csrWrite s a d).1 ∧
      (csrWrite (withSpec b s) a d).2 = (csrWrite s a d).2 := by
  suffices h : (noSpec (csrWrite (withSpec b s) a d).1, (csrWrite (withSpec b s) a d).2) =
      (noSpec (csrWrite s a d).1, (csrWrite s a d).2) from Prod.mk.inj h
  unfold csrWrite
  split
  case h_1 => exact ite_congr_map (f := fun r : State × Status => (noSpec r.1, r.2)) (fun _ => rfl) fun _ => rfl
  case h_5 =>
    exact ite_congr_map (f := fun r : State × Status => (noSpec r.1, r.2)) (fun _ => rfl) fun _ =>
      ite_congr_map (f := fun r : State × Status => (noSpec r.1, r.2)) (fun _ => rfl) fun _ =>
        ite_congr_map (f := fun r : State × Status => (noSpec r.1, r.2)) (fun _ => rfl) fun _ => rfl
  all_goals rfl

theorem csrRead_noSpec (s : State) (a : Nat) : csrRead (noSpec s) a = csrRead s a := rfl

theorem execWrcsr_blind (a : Nat) (d : Word) : BlindStep (execWrcsr a d) := by
  intro b s
  obtain ⟨hstate, hstatus⟩ := csrWrite_withSpec b s a d
  have hread : csrRead (csrWrite (withSpec b s) a d).1 a = csrRead (csrWrite s a d).1 a := by
    rw [← csrRead_noSpec, hstate, csrRead_noSpec]
  rw [execWrcsr, execWrcsr, hstatus, hread]
  exact ite_congr_map (fun _ => congrArg (fun t => Host.Outcome.next (respond t .ok _)) hstate)
    fun _ => congrArg (fun t => Host.Outcome.next (respond t _ 0)) hstate

theorem execRdcsr_blind (a : Nat) : BlindStep (execRdcsr a) := by
  intro b s
  rw [execRdcsr, execRdcsr, show csrRead (withSpec b s) a = csrRead s a from rfl]
  cases csrRead s a <;> rfl

theorem execSubscribe_blind (sink : BitVec 8) (comp : BitVec 16) (sid : Word) (len addr : Nat) :
    BlindStep (execSubscribe sink comp sid len addr) := fun _ _ =>
  ite_congr_map (fun _ => rfl) fun _ => ite_congr_map (fun _ => rfl) fun _ => ite_congr_map (fun _ => rfl) fun _ => rfl

theorem exec_blind (i : Instr) : BlindStep (exec i) := by
  cases i with
  | start => exact fun _ _ => ite_congr_map (fun _ => rfl) fun _ => rfl
  | stop => exact fun _ _ => ite_congr_map (fun _ => rfl) fun _ => rfl
  | rdcsr a => exact execRdcsr_blind a
  | wrcsr a d => exact execWrcsr_blind a d
  | subscribe sink comp sid len addr => exact execSubscribe_blind sink comp sid len addr
  | unsubscribe comp sid => exact fun _ _ => ite_congr_map (fun _ => rfl) fun _ => rfl
  | resetSubs => exact fun _ _ => rfl
  | level n => exact hostUnit_blind _ (opLevel_blind n)
  | nullscan => exact hostUnit_blind _ opNullscan_blind
  | fill off n => exact hostUnit_blind _ (opFill_blind off n)
  | shift n => exact hostUnit_blind _ (opShift_blind n)
  | skipnull => exact hostUnit_blind _ opSkipnull_blind
  | fft off => exact hostUnit_blind _ (opFft_blind off)
  | findb thr => exact hostUnit_blind _ (opFindb_blind thr)
  | estco off => exact hostUnit_blind _ (opEstco_blind off)
  | prime off => exact hostUnit_blind _ (opPrime_blind off)
  | fcorr => exact hostUnit_blind _ opFcorr_blind
  | decsym off => exact hostUnit_blind _ (opDecsym_blind off)
  | ftrack => exact hostUnit_blind _ opFtrack_blind
  | ficpush idx => exact hostUnit_blind _ (opFicpush_blind idx)
  | ficdec => exact hostUnit_blind _ opFicdec_blind
  | crc16 f => exact hostUnit_blind _ (opCrc16_blind f)
  | mscpush n => exact hostUnit_blind _ (opMscpush_blind n)
  | cifpop => exact hostUnit_blind _ opCifpop_blind

theorem hostStep_blind : BlindStep hostStep := by
  intro b s
  cases hw : s.hostWait with
  | some i =>
    rw [hostStep_waiting hw, hostStep_waiting (s := withSpec b s) hw]
    exact exec_blind i b { s with hostWait := none }
  | none =>
    cases hd : decode s.cmd with
    | command i rest =>
      rw [hostStep_command hw hd, hostStep_command (s := withSpec b s) hw hd]
      exact exec_blind i b { s with cmd := rest }
    | illegal why rest =>
      rw [hostStep_illegal hw hd, hostStep_illegal (s := withSpec b s) hw hd]
      rfl
    | incomplete =>
      rw [hostStep_incomplete hw hd, hostStep_incomplete (s := withSpec b s) hw hd]
      rfl

/-! ## The sequencer and the demultiplexer (`46_sync_controller.md` R271, `45_msc_demux.md` R247) -/

/-- What a step makes of an answer does not touch `SPEC`. -/
def KeepsSpec (k : State → Status → Word → State) : Prop := ∀ b s st v, k (withSpec b s) st v = withSpec b (k s st v)

theorem seqUnit_blind {op : State → OpRes} {k : State → Status → Word → State} (hop : Blind op) (hk : KeepsSpec k) :
    BlindStep fun s => seqUnit (op s) k := by
  intro b s
  have herased (r : OpRes) : eraseSpec (seqUnit r k) = eraseSpec (seqUnit (mapState noSpec r) k) := by
    cases r with
    | done t st v =>
      refine ite_congr_map (fun _ => rfl) fun _ => ?_
      rw [noSpec, hk]
      rfl
    | waits t => rfl
    | fault f => rfl
  dsimp only
  rw [herased, hop, ← herased]

theorem seqThen_blind {op : State → OpRes} (hop : Blind op) (p : SeqStep) : BlindStep fun s => seqThen (op s) p :=
  seqUnit_blind hop fun _ _ _ _ => rfl

theorem afterScan_keepsSpec : KeepsSpec afterScan := fun _ _ _ _ =>
  ite_eq_map Iff.rfl (fun _ => rfl) fun _ => ite_eq_map Iff.rfl
    (fun _ => ite_eq_map Iff.rfl (fun _ => rfl) fun _ => rfl) fun _ => rfl

theorem afterVerify_keepsSpec : KeepsSpec afterVerify := fun _ _ _ _ => ite_eq_map Iff.rfl (fun _ => rfl) fun _ => rfl

theorem afterEstco_keepsSpec : KeepsSpec afterEstco := fun _ _ _ _ => ite_eq_map Iff.rfl (fun _ => rfl) fun _ => rfl

theorem afterReverify_keepsSpec : KeepsSpec afterReverify := fun _ _ _ _ =>
  ite_eq_map Iff.rfl (fun _ => rfl) fun _ => ite_eq_map Iff.rfl (fun _ => rfl) fun _ => rfl

theorem nextSymbol_withSpec (b : Buf Cx) (s : State) : nextSymbol (withSpec b s) = withSpec b (nextSymbol s) :=
  ite_eq_map Iff.rfl (fun _ => rfl) fun _ => rfl

theorem stepF0_blind : BlindStep stepF0 := fun b s =>
  ite_congr_map (fun _ => rfl) fun _ => seqThen_blind (opShift_blind s.boff) .f1 b (frameReset s)

theorem stepF1_blind : BlindStep stepF1 := fun b s =>
  ite_congr_map (fun _ => rfl) fun _ => seqThen_blind (opFill_blind ((mode s).tU - s.boff) s.boff) .f2 b s

theorem stepF3_blind : BlindStep stepF3 := fun b s =>
  ite_congr_map (fun _ => rfl) fun _ => seqUnit_blind (opEstco_blind 0)
    (k := fun t st v => firstSymbol (afterEstco t st v)) (fun b s st v =>
      (congrArg firstSymbol (afterEstco_keepsSpec b s st v) :)) b s

theorem stepS3_blind : BlindStep stepS3 := fun b s =>
  ite_congr_map (fun _ => seqThen_blind (opFicpush_blind (s.symIdx - 1)) .s4 b s) fun _ =>
    ite_congr_map (fun _ => ite_congr_map (fun _ => rfl) fun _ => rfl) fun _ => seqThen_blind (opMscpush_blind s.symIdx) .s4 b s

theorem stepS4_blind : BlindStep stepS4 := fun b s =>
  ite_congr_map (fun _ => seqUnit_blind opFicdec_blind (fun b t _ _ => nextSymbol_withSpec b t) b s) fun _ =>
    ite_congr_map (fun _ => ite_congr_map (fun _ => rfl) fun _ =>
      seqUnit_blind opCifpop_blind (fun b t _ _ => nextSymbol_withSpec b t) b s) fun _ =>
      (congrArg (fun t => eraseSpec (.next t)) (nextSymbol_withSpec b s) :)

theorem program_blind (p : SeqStep) : BlindStep (program p) := by
  cases p with
  | a0 => exact fun b s => seqThen_blind (opLevel_blind (initDiscard (mode s))) .n0 b s
  | n0 => exact seqUnit_blind opNullscan_blind afterScan_keepsSpec
  | v0 => exact fun b s => seqThen_blind (opFill_blind 0 (mode s).tU) .v1 b s
  | v1 => exact fun b s => seqUnit_blind (opFindb_blind s.thr.toNat) afterVerify_keepsSpec b s
  | f0 => exact stepF0_blind
  | f1 => exact stepF1_blind
  | f2 => exact seqThen_blind (opPrime_blind 0) .f3
  | f3 => exact stepF3_blind
  | s0 => exact fun b s => seqThen_blind (opFill_blind 0 (mode s).tS) .s1 b s
  | s1 => exact seqThen_blind opFcorr_blind .s2
  | s2 => exact fun b s => seqThen_blind (opDecsym_blind (mode s).tG) .s3 b s
  | s3 => exact stepS3_blind
  | s4 => exact stepS4_blind
  | e0 => exact seqUnit_blind opFtrack_blind (k := fun t _ _ => afterTrack t) fun _ _ _ _ => rfl
  | e1 => exact seqThen_blind opSkipnull_blind .e2
  | e2 => exact fun b s => seqThen_blind (opFill_blind 0 (mode s).tU) .e3 b s
  | e3 => exact fun b s => seqUnit_blind (opFindb_blind (Config.thrMult * s.thr.toNat)) afterReverify_keepsSpec b s

theorem seqStep_blind : BlindStep seqStep := fun b s =>
  ite_congr_map (fun _ => program_blind s.seqStep b s) fun _ => rfl

theorem dmxStep_blind : BlindStep dmxStep := by
  intro b s
  refine ite_congr_map (fun _ => rfl) fun _ => ?_
  have hop := opCifpop_blind b s
  generalize opCifpop s = r, opCifpop (withSpec b s) = r' at hop ⊢
  cases r with
  | done t st v =>
    cases r' with
    | done t' st' v' => exact congrArg Host.Outcome.next (OpRes.done.inj hop).1
    | waits t' => cases hop
    | fault f => cases hop
  | waits t =>
    cases r' with
    | done t' st' v' => cases hop
    | waits t' => exact congrArg Host.Outcome.next (OpRes.waits.inj hop)
    | fault f => cases hop
  | fault f =>
    cases r' with
    | done t' st' v' => cases hop
    | waits t' => cases hop
    | fault f' => exact congrArg Host.Outcome.fault (OpRes.fault.inj hop)

/-! ## The step -/

theorem perform_blind (a : Act) : BlindStep (perform a) := by
  cases a with
  | host => exact hostStep_blind
  | seq => exact seqStep_blind
  | dmx => exact dmxStep_blind
  | command w => exact fun _ _ => rfl
  | commandBytes b3 b2 b1 b0 => exact fun _ _ => rfl
  | sample z => exact fun _ _ => rfl
  | stopped => exact fun _ _ => rfl
  | configChanged => exact fun _ _ => rfl
  | tiiResult main sub => exact fun _ _ => rfl

theorem step_blind : BlindStep step := by
  intro b s
  cases hc : cfgWf s.cfg with
  | false => rw [step_illFormed s hc, step_illFormed (withSpec b s) hc]
  | true =>
    cases hp : s.plan with
    | nil =>
      rw [step_plan_nil hc hp, step_plan_nil (s := withSpec b s) hc hp]
      exact perform_blind _ b { s with tick := s.tick + 1 }
    | cons a r =>
      rw [step_plan_cons hc hp, step_plan_cons (s := withSpec b s) hc hp]
      exact perform_blind a b { s with plan := r }

/-- Settles O57: with `SPEC` left out the two steps are the same. -/
theorem specNotRead : Obligations.SpecNotRead := by
  unfold Obligations.SpecNotRead
  intro s b
  have hstep := step_blind b s
  refine ⟨fun t ht => ?next, fun f hf => ?fault⟩
  case next =>
    rw [ht] at hstep
    change ∃ b', step (withSpec b s) = .next (withSpec b' t)
    cases h : step (withSpec b s) with
    | next u =>
      rw [h] at hstep
      exact ⟨u.spec, congrArg Host.Outcome.next (eq_withSpec (Host.Outcome.next.inj hstep))⟩
    | fault f => rw [h] at hstep; cases hstep
    | refused r => rw [h] at hstep; cases hstep
  case fault =>
    rw [hf] at hstep
    change step (withSpec b s) = .fault f
    cases h : step (withSpec b s) with
    | next u => rw [h] at hstep; cases hstep
    | fault g => rw [h] at hstep; exact congrArg Host.Outcome.fault (Host.Outcome.fault.inj hstep)
    | refused r => rw [h] at hstep; cases hstep

end Sys2Proof.Proofs
end

section
/-! PROOF. The registers that the host reads (`10_state.md` R45), the effect of `raise` (`60_exceptions.md` R345). -/

open Sys2Proof Sys2Proof.Machine Sys2Proof.Laws

namespace Sys2Proof.Proofs

/-! ## `raise` (R345) -/

theorem getLsbD_ofNat_two_pow {w k : Nat} (hk : k < w) (j : Nat) : (BitVec.ofNat w (2 ^ k)).getLsbD j = decide (j = k) := by
  rw [BitVec.getLsbD_ofNat, Nat.testBit_two_pow]
  grind

theorem eventBit_lt (e : EvtRecord) : eventBit e < 6 := by cases e <;> simp [eventBit]

/-- Settles O48. -/
theorem raiseResult : Obligations.RaiseResult := by
  unfold Obligations.RaiseResult
  intro s e
  have hbits (j : Nat) : (raiseEvent s e).event.getLsbD j = (s.event.getLsbD j || decide (j = eventBit e)) := by
    rw [raiseEvent_event, BitVec.getLsbD_or, getLsbD_ofNat_two_pow (eventBit_lt e)]
  refine ⟨?set, fun j hj => ?kept, ?frame⟩
  case set => rw [hbits, decide_eq_true rfl, Bool.or_true]
  case kept => rw [hbits, decide_eq_false hj, Bool.or_false]
  case frame => cases e <;> rfl

/-! ## `STATUS` -/

theorem getLsbD_flagAt {k : Nat} (hk : k < 32) (b : Bool) (j : Nat) : (flagAt k b).getLsbD j = (decide (j = k) && b) := by
  cases b with
  | false => rw [flagAt, if_neg Bool.false_ne_true, Bool.and_false]; exact BitVec.getLsbD_zero
  | true => rw [flagAt, if_pos rfl, getLsbD_ofNat_two_pow hk, Bool.and_true]

theorem syncCode_lt (c : SyncState) : syncCode c < 2 ^ 3 := by cases c <;> decide

theorem ficCode_lt (c : FicState) : ficCode c < 2 ^ 3 := by cases c <;> decide

/-- The bits of `STATUS`: two codes of three bits and four flags. -/
theorem getLsbD_statusWord (s : State) {j : Nat} (hj : j < 32) :
    (statusWord s).getLsbD j = ((syncCode s.syncState).testBit j || (decide (j = 3) && s.run) ||
      (decide (j = 4) && s.stopreq) || (decide (j = 5) && s.ficSync) ||
      (decide (6 ≤ j) && (ficCode s.ficState).testBit (j - 6)) || (decide (j = 9) && s.prevValid)) := by
  simp only [statusWord, BitVec.getLsbD_or, getLsbD_flagAt (show 3 < 32 by decide), getLsbD_flagAt (show 4 < 32 by decide),
    getLsbD_flagAt (show 5 < 32 by decide), getLsbD_flagAt (show 9 < 32 by decide), BitVec.getLsbD_ofNat, hj,
    decide_true, Bool.true_and, Nat.testBit_mul_two_pow]

/-- A code of three bits has no bit from the fourth on. -/
theorem testBit_code {c : Nat} (hc : c < 2 ^ 3) {j : Nat} (hj : 3 ≤ j) : c.testBit j = false :=
  Nat.testBit_lt_two_pow (hc.trans_le (Nat.pow_le_pow_right (by decide) hj))

theorem statusWord_sync (s : State) : (statusWord s).extractLsb' 0 3 = BitVec.ofNat 3 (syncCode s.syncState) := by
  refine BitVec.eq_of_getLsbD_eq fun j hj => ?_
  rw [BitVec.getLsbD_extractLsb', BitVec.getLsbD_ofNat, getLsbD_statusWord s (by omega)]
  grind

theorem statusWord_fic (s : State) : (statusWord s).extractLsb' 6 3 = BitVec.ofNat 3 (ficCode s.ficState) := by
  refine BitVec.eq_of_getLsbD_eq fun j hj => ?_
  rw [BitVec.getLsbD_extractLsb', BitVec.getLsbD_ofNat, getLsbD_statusWord s (by omega),
    testBit_code (syncCode_lt _) (by omega)]
  grind

theorem statusWord_rest (s : State) : (statusWord s).extractLsb' 10 22 = 0 := by
  refine BitVec.eq_of_getLsbD_eq fun j hj => ?_
  rw [BitVec.getLsbD_extractLsb', getLsbD_statusWord s (by omega), testBit_code (syncCode_lt _) (by omega),
    testBit_code (ficCode_lt _) (by omega)]
  grind

/-! ## The other registers -/

theorem toNat_field {k : Nat} (hk : k ≤ 32) (n : Nat) : (field k n).toNat = n % 2 ^ k := by
  rw [field, BitVec.toNat_ofNat]
  exact Nat.mod_eq_of_lt ((Nat.mod_lt n (Nat.two_pow_pos k)).trans_le (Nat.pow_le_pow_right (by decide) hk))

theorem toNat_setWidth_word {w : Nat} (hw : w ≤ 32) (x : BitVec w) : (x.setWidth 32).toNat = x.toNat := by
  rw [BitVec.toNat_setWidth]
  exact Nat.mod_eq_of_lt (x.isLt.trans_le (Nat.pow_le_pow_right (by decide) hw))

theorem toNat_word32 (x : Int) : ((word32 x).toNat : Int) = x % 2 ^ 32 := by
  rw [word32, BitVec.toNat_ofInt]
  exact Int.toNat_of_nonneg (Int.emod_nonneg x (by decide))

theorem csrRead_of_mem {a : Nat} (ha : a ∈ csrAddresses) (s : State) : ∃ v, csrRead s a = some v := by
  fin_cases ha <;> exact ⟨_, rfl⟩

theorem csrRead_of_not_mem {a : Nat} (ha : a ∉ csrAddresses) (s : State) : csrRead s a = none := by
  simp only [csrAddresses, List.mem_cons, not_or] at ha
  unfold csrRead
  split <;> simp_all

/-- Settles O9. -/
theorem readRegister : Obligations.ReadRegister := by
  unfold Obligations.ReadRegister
  refine ⟨fun a s => ⟨fun ha => ?named, fun ha => ?other⟩, fun s => ⟨statusWord s, rfl, ?_⟩, fun s r hr => ?values⟩
  case named =>
    obtain ⟨v, hv⟩ := csrRead_of_mem ha s
    refine ⟨v, hv, ?_⟩
    change execRdcsr a s = _
    rw [execRdcsr, hv]
    rfl
  case other =>
    change execRdcsr a s = _
    rw [execRdcsr, csrRead_of_not_mem ha s]
    rfl
  case values =>
    have hw {a w : Nat} {x : BitVec w} (hw : w ≤ 32) (h : csrRead s a = some (x.setWidth 32)) : r a = x.toNat :=
      (hr a _ h).trans (toNat_setWidth_word hw x)
    have hf {a k n : Nat} (hk : k ≤ 32) (h : csrRead s a = some (field k n)) : r a = n % 2 ^ k :=
      (hr a _ h).trans (toNat_field hk n)
    have hi {a : Nat} {x : Int} (h : csrRead s a = some (word32 x)) : (r a : Int) = x % 2 ^ 32 := by
      rw [hr a _ h, toNat_word32]
    refine ⟨hw (by decide) rfl, hw (by decide) rfl, hw (by decide) rfl, hw (by decide) rfl,
      hf (by decide) rfl, hf (by decide) rfl, hf (by decide) rfl, hi rfl, hi rfl, hi rfl,
      hr _ _ rfl, hr _ _ rfl, hr _ _ rfl, hr _ _ rfl, hw (by decide) rfl,
      hf (by decide) rfl, hf (by decide) rfl, hf (by decide) rfl, hw (by decide) rfl,
      hf (by decide) rfl, hf (by decide) rfl, hf (by decide) rfl, hf (by decide) rfl, hf (by decide) rfl,
      hf (by decide) rfl, hf (by decide) rfl, hf (by decide) rfl⟩
  refine ⟨?sync, ?run, ?stopreq, ?ficSync, ?fic, ?prevValid, statusWord_rest s⟩
  case sync =>
    rw [statusWord_sync, BitVec.toNat_ofNat]
    exact Nat.mod_eq_of_lt (syncCode_lt _)
  case fic =>
    rw [statusWord_fic, BitVec.toNat_ofNat]
    exact Nat.mod_eq_of_lt (ficCode_lt _)
  all_goals
    rw [getLsbD_statusWord s (by decide), testBit_code (syncCode_lt _) (by decide)]
    simp [testBit_code (ficCode_lt _)]

/-! ## Power-on reset (R380) -/

theorem hertzTrunc_zero (M : Nat) : hertzTrunc M ⟨[], []⟩ = 0 := by
  have hsign : hertzSign M ⟨[], []⟩ = 0 := rfl
  rw [hertzTrunc, hsign, if_neg (lt_irrefl 0)]
  rfl

theorem foff_por (c : Cfg) : foff (State.por c) = 0 := by
  have h : hertzTrunc (order (State.por c)) (State.por c).fine = 0 := hertzTrunc_zero _
  rw [foff, h, show (State.por c).coarse = 0 from rfl, zero_mul, add_zero]
  rfl

theorem field_word (n : Nat) : field 32 n = BitVec.ofNat 32 n := by
  apply BitVec.eq_of_toNat_eq
  rw [toNat_field le_rfl, BitVec.toNat_ofNat]

/-- Settles O6. -/
theorem powerOnRegisters : Obligations.PowerOnRegisters := by
  unfold Obligations.PowerOnRegisters
  intro m ms n d s
  have hfield {a : Nat} {k : Nat} (h : csrRead s a = some (field 32 k)) : csrRead s a = some (BitVec.ofNat 32 k) := by
    rw [h, field_word]
  refine ⟨fun a ha => ?zero, rfl, hfield rfl, hfield rfl, hfield rfl, hfield rfl, hfield rfl, hfield rfl, hfield rfl,
    hfield rfl⟩
  have hstatus : csrRead s 0x01 = some 0 := by
    change some (BitVec.ofNat 32 0 ||| flagAt 3 false ||| flagAt 4 false ||| flagAt 5 false |||
      BitVec.ofNat 32 (0 * 2 ^ 6) ||| flagAt 9 false) = some 0
    decide
  have hfine : csrRead s 0x09 = some 0 := by
    change some (word32 (hertzTrunc (order s) ⟨[], []⟩)) = some 0
    rw [hertzTrunc_zero]
    rfl
  have hfoff : csrRead s 0x0A = some 0 := by
    change some (word32 (foff (State.por ⟨m :: ms, n, d⟩))) = some 0
    rw [foff_por]
    rfl
  obtain rfl | rfl | rfl | rfl | ⟨hlo, hhi⟩ | ⟨hlo, hhi⟩ :
      a = 0x00 ∨ a = 0x01 ∨ a = 0x09 ∨ a = 0x0A ∨ (0x02 ≤ a ∧ a ≤ 0x08) ∨ (0x0B ≤ a ∧ a ≤ 0x12) := by omega
  · rfl
  · exact hstatus
  · exact hfine
  · exact hfoff
  · interval_cases a <;> rfl
  · interval_cases a <;> rfl

end Sys2Proof.Proofs
end

section
/-! PROOF. The response of a command (`30_encoding.md` R96), what a refusal leaves (`60_exceptions.md` R349), and how a
read that waits or meets `Stopped` goes on (`46_sync_controller.md` R273, R279). -/

open Sys2Proof Sys2Proof.Machine Sys2Proof.Laws

namespace Sys2Proof.Proofs

/-! ## The response (R96, R349) -/

theorem Commanded.rsp {i : Instr} {s t : State} (h : Commanded s i t) : t.rsp = s.rsp := by cases h <;> rfl

theorem Commanded.hostWait {i : Instr} {s t : State} (h : Commanded s i t) : t.hostWait = s.hostWait := by
  cases h <;> rfl

/-- Neither an operation nor a control command touches the response stream or the command that waits. -/
theorem keepsResponses {i : Instr} {s u : State} (h : Effects s u ∨ Commanded s i u) :
    u.rsp = s.rsp ∧ u.hostWait = s.hostWait := by
  obtain h | h := h
  · exact ⟨h.sameControl.rsp, h.sameControl.hostWait⟩
  · exact ⟨h.rsp, h.hostWait⟩

/-- Settles O12. -/
theorem refusedChangesNothing : Obligations.RefusedChangesNothing := by
  unfold Obligations.RefusedChangesNothing
  intro i s t st v hst ht hrsp
  obtain ⟨u, st', v', rfl, hu, hrefused⟩ | ⟨-, -, u, -, rfl, hu⟩ := exec_cases ht
  · have hlast : u.rsp ++ [⟨st', v'⟩] = s.rsp ++ [⟨st, v⟩] := hrsp
    rw [(keepsResponses hu).1, List.append_cancel_left_eq] at hlast
    cases hlast
    obtain ⟨rfl, rfl⟩ := hrefused hst
    exact ⟨rfl, rfl⟩
  · have hkept : s.rsp = s.rsp ++ [⟨st, v⟩] := hu.sameControl.rsp.symm.trans hrsp
    simp at hkept

/-! ## One sample (R273) -/

/-- The state in which more samples have arrived. -/
def arrived (more : List SrcItem) (s : State) : State := { s with src := s.src ++ more }

section
variable {s : State} (hstop : ¬ (s.run = true ∧ s.stopreq = true))
include hstop

theorem take_one_waits (hsrc : s.src = []) : take 1 s = .waits := by
  rw [take, if_neg hstop, hsrc]
  rfl

theorem take_one_sample {z : Cx} {r : List SrcItem} (hsrc : s.src = .sample z :: r) :
    take 1 s = .samples [z] (sampledState s [z] r) := take_samples 1 s [z] r hstop rfl hsrc

/-- A read that meets `Stopped` before it has all its samples. -/
theorem take_stopped {n : Nat} {zs : List Cx} {r : List SrcItem} (hn : zs.length < n)
    (hsrc : s.src = sampleItems zs ++ .stopped :: r) : take n s = .stopped (stoppedState s n zs.length r) := by
  have hfetch : fetchSamples n s.src = .stopped zs.length r := (fetchSamples_stopped ..).2 ⟨hn, zs, rfl, hsrc⟩
  simp only [take, if_neg hstop, hfetch, stoppedState]

theorem take_arrived {n : Nat} {v : List Cx} {t : State} (h : take n s = .samples v t) (more : List SrcItem) :
    take n (arrived more s) = .samples v (arrived more t) := by
  obtain ⟨hrun, hstop', -⟩ | ⟨-, ⟨v', r, hlen, hsrc, he⟩ | ⟨v', r, -, -, he⟩ | he⟩ := take_cases n s
  · exact absurd ⟨hrun, hstop'⟩ hstop
  all_goals rw [he] at h; cases h
  exact take_samples n (arrived more s) v (r ++ more) hstop hlen
    ((congrArg (· ++ more) hsrc).trans (List.append_assoc ..))

end

/-! ## The rounds of a scan (R279) -/

/-- The loops of the scan, with the rounds that the samples at hand allow. -/
def scanOn (sc : Scan) (s : State) : OpRes := scanLoop (s.src.length + 1) sc s

theorem scanOn_ends {s : State} {sc : Scan} {st : Status} {v : Word} (h : scanTest s sc = .ends st v) :
    scanOn sc s = .done { s with scan := none } st v := scanLoop_of_ends h

section
variable {s : State} {sc sc' : Scan} (hstop : ¬ (s.run = true ∧ s.stopreq = true)) (hmore : scanTest s sc = .more sc')
include hstop hmore

theorem scanOn_waits (hsrc : s.src = []) : scanOn sc s = .waits { s with scan := some sc' } := by
  rw [scanOn, scanLoop, hmore]
  simp only [take_one_waits hstop hsrc]

theorem scanOn_stopped {r : List SrcItem} (hsrc : s.src = .stopped :: r) :
    scanOn sc s = .done { stoppedState s 1 0 r with scan := none } .stopped 0 := by
  rw [scanOn, scanLoop, hmore]
  simp only [take_stopped hstop (n := 1) (zs := []) Nat.one_pos hsrc, List.length_nil]

theorem scanOn_sample {z : Cx} {r : List SrcItem} (hsrc : s.src = .sample z :: r) :
    scanOn sc s = scanOn (scanPush (order s) sc' [z]) (sampledState s [z] r) := by
  rw [scanOn, scanLoop_of_more hmore (take_one_sample hstop hsrc), hsrc]
  rfl

end

/-- The test of a scan that goes on has settled its phase: tested again it says the same. -/
theorem scanTest_more {s : State} {sc sc' : Scan} (h : scanTest s sc = .more sc') : scanTest s sc' = .more sc' := by
  have phase2 {sc : Scan} (hdip : sc.inDip = true) (h : scanPhase2 s sc = .more sc') : scanTest s sc' = .more sc' := by
    obtain rfl : sc = sc' := by
      rw [scanPhase2] at h
      split_ifs at h
      exact Verdict.more.inj h
    rw [scanTest, if_pos hdip, h]
  have h' := h
  rw [scanTest] at h'
  split_ifs at h' with hdip hstart hF
  · exact phase2 hdip h'
  · exact phase2 rfl h'
  · cases h'
    exact h

/-- The state with another record of a scan. -/
def withScan (x : Option Scan) (s : State) : State := { s with scan := x }

/-- A scan does not read its own record. -/
theorem scanOn_scan (sc : Scan) {s : State} (hstop : ¬ (s.run = true ∧ s.stopreq = true)) (x : Option Scan) :
    scanOn sc (withScan x s) = scanOn sc s := by
  obtain ⟨src, hsrc⟩ : ∃ src, s.src = src := ⟨_, rfl⟩
  induction src generalizing sc s with
  | nil =>
    cases htest : scanTest s sc with
    | ends st v => exact (scanOn_ends (s := withScan x s) htest).trans (scanOn_ends htest).symm
    | more sc' => exact (scanOn_waits (s := withScan x s) hstop htest hsrc).trans (scanOn_waits hstop htest hsrc).symm
  | cons item r ih =>
    cases htest : scanTest s sc with
    | ends st v => exact (scanOn_ends (s := withScan x s) htest).trans (scanOn_ends htest).symm
    | more sc' =>
      cases item with
      | stopped => exact (scanOn_stopped (s := withScan x s) hstop htest hsrc).trans (scanOn_stopped hstop htest hsrc).symm
      | sample z =>
        rw [scanOn_sample hstop htest hsrc, scanOn_sample (s := withScan x s) hstop htest hsrc]
        exact ih _ (s := sampledState s [z] r) hstop rfl

/-- A scan that waits has kept its place: with more samples it goes on as it would have gone on at once. -/
theorem scanOn_resumes {sc : Scan} {s t : State} (hstop : ¬ (s.run = true ∧ s.stopreq = true))
    (h : scanOn sc s = .waits t) :
    ∃ sc', t.scan = some sc' ∧ scanTest t sc' = .more sc' ∧
      ∀ more, scanOn sc (arrived more s) = scanOn sc' (arrived more t) := by
  obtain ⟨src, hsrc⟩ : ∃ src, s.src = src := ⟨_, rfl⟩
  induction src generalizing sc s with
  | nil =>
    cases htest : scanTest s sc with
    | ends st v => rw [scanOn_ends htest] at h; cases h
    | more sc' =>
      rw [scanOn_waits hstop htest hsrc] at h
      cases h
      refine ⟨sc', rfl, scanTest_more htest, fun more => ?_⟩
      have hsame : scanOn sc (arrived more s) = scanOn sc' (arrived more s) :=
        scanLoop_congr (htest.trans (scanTest_more htest).symm)
      exact hsame.trans (scanOn_scan sc' (s := arrived more s) hstop (some sc')).symm
  | cons item r ih =>
    cases htest : scanTest s sc with
    | ends st v => rw [scanOn_ends htest] at h; cases h
    | more sc' =>
      cases item with
      | stopped => rw [scanOn_stopped hstop htest hsrc] at h; cases h
      | sample z =>
        rw [scanOn_sample hstop htest hsrc] at h
        obtain ⟨sc'', hscan, hmore, hgo⟩ := ih (s := sampledState s [z] r) hstop h rfl
        refine ⟨sc'', hscan, hmore, fun more => ?_⟩
        rw [← hgo more]
        exact scanOn_sample (s := arrived more s) hstop htest (congrArg (· ++ more) hsrc)

theorem opNullscan_of_some {s : State} {sc : Scan} (hstop : ¬ (s.run = true ∧ s.stopreq = true))
    (hscan : s.scan = some sc) : opNullscan s = scanOn sc s := by
  simp only [opNullscan, hscan, if_neg hstop, scanOn]

theorem opNullscan_of_window {s t : State} {v : List Cx} (hscan : s.scan = none)
    (ht : take (mode s).dipWindow s = .samples v t) :
    opNullscan s = scanOn ⟨false, v.map (magAbs (order s)), (mode s).dipWindow, 0⟩ t := by
  simp only [opNullscan, hscan, ht, scanOn]

/-- A null scan that waits stays as it was, or has kept its place. -/
theorem opNullscan_resumes {s t : State} (hstop : ¬ (s.run = true ∧ s.stopreq = true)) (h : opNullscan s = .waits t) :
    (t = s ∧ s.scan = none) ∨ ∃ sc, t.scan = some sc ∧ scanTest t sc = .more sc ∧
      ∀ more, opNullscan (arrived more s) = scanOn sc (arrived more t) := by
  cases hscan : s.scan with
  | some sc =>
    rw [opNullscan_of_some hstop hscan] at h
    obtain ⟨sc', hsc', hmore, hgo⟩ := scanOn_resumes hstop h
    refine .inr ⟨sc', hsc', hmore, fun more => ?_⟩
    rw [← hgo more]
    exact opNullscan_of_some hstop hscan
  | none =>
    cases ht : take (mode s).dipWindow s with
    | samples v u =>
      rw [opNullscan_of_window hscan ht] at h
      have hu := (effects_of_take_samples ht).2.sameControl
      obtain ⟨sc', hsc', hmore, hgo⟩ := scanOn_resumes (by rwa [hu.run, hu.stopreq]) h
      refine .inr ⟨sc', hsc', hmore, fun more => ?_⟩
      rw [← hgo more]
      exact opNullscan_of_window (s := arrived more s) hscan (take_arrived hstop ht more)
    | stopped u => simp only [opNullscan, hscan, ht] at h; cases h
    | waits =>
      simp only [opNullscan, hscan, ht] at h
      exact .inl ⟨(OpRes.waits.inj h).symm, rfl⟩

/-! ## An operation that waits (log 11) -/

/-- The operation does not wait, or waits where it began. -/
def WaitsInPlace (s : State) : OpRes → Prop
  | .done _ _ _ => True
  | .waits t => t = s
  | .fault _ => True

theorem waitsInPlace_onSlice {s : State} {off : Nat} {k : List Cx → OpRes} (hk : ∀ w, WaitsInPlace s (k w)) :
    WaitsInPlace s (onSlice s off k) := by
  obtain ⟨-, h⟩ | ⟨-, ⟨w, -, -, h⟩ | ⟨-, h⟩⟩ := onSlice_cases s off k <;> rw [h]
  · trivial
  · exact hk w
  · trivial

/-- Only a null scan can wait elsewhere than where it began. -/
theorem unitOp_waitsInPlace {i : Instr} (hi : i ≠ .nullscan) {s : State} {op : OpRes} (ho : unitOp i s = some op) :
    WaitsInPlace s op := by
  cases i <;> cases ho
  case nullscan => exact absurd rfl hi
  case level n => rw [opLevel]; split; trivial; split <;> trivial
  case fill off n => rw [opFill]; split; trivial; split <;> trivial
  case skipnull => rw [opSkipnull]; split <;> trivial
  case shift n => rw [opShift]; split_ifs; trivial; trivial; split <;> trivial
  case fft off => exact waitsInPlace_onSlice fun w => trivial
  case prime off => exact waitsInPlace_onSlice fun w => trivial
  case estco off => exact waitsInPlace_onSlice fun w => by dsimp only; split <;> trivial
  case findb thr => rw [opFindb]; split; trivial; dsimp only; split <;> trivial
  case fcorr => rw [opFcorr]; split <;> trivial
  case decsym off => rw [opDecsym]; split_ifs; trivial; trivial; split <;> trivial
  case ftrack => trivial
  case ficpush idx => rw [opFicpush]; split; trivial; split <;> trivial
  case ficdec => rw [opFicdec]; split; trivial; split <;> trivial
  case crc16 f => rw [opCrc16]; split; trivial; split <;> trivial
  case mscpush n => rw [opMscpush]; split_ifs; trivial; trivial; split <;> trivial
  case cifpop =>
    cases h : opCifpop s with
    | waits t => exact absurd h (opCifpop_ne_waits s t)
    | done t st v => trivial
    | fault f => trivial

/-- Begun again when more has arrived, an operation that waits does what it would have done at once. -/
theorem unitOp_resumes {i : Instr} {s t : State} (hrun : s.run = false) (ho : unitOp i s = some (.waits t))
    (more : List SrcItem) : unitOp i (arrived more t) = unitOp i (arrived more s) := by
  have hstop : ¬ (s.run = true ∧ s.stopreq = true) := by simp [hrun]
  by_cases hi : i = .nullscan
  · subst hi
    obtain ⟨rfl, -⟩ | ⟨sc, hsc, -, hgo⟩ := opNullscan_resumes hstop (Option.some.inj ho)
    · rfl
    · have hctl := Effects.sameControl (show Effects s t from unitOp_does ho)
      have hagain : opNullscan (arrived more t) = scanOn sc (arrived more t) :=
        opNullscan_of_some (s := arrived more t) (by rw [show (arrived more t).run = false from hctl.run.trans hrun]; simp) hsc
      exact congrArg some (hagain.trans (hgo more).symm)
  · rw [show t = s from unitOp_waitsInPlace hi ho]

/-- Settles O13: an operation that waits is kept as `HOST`'s command in a state from which it can go on. -/
theorem oneResponse : Obligations.OneResponse := by
  unfold Obligations.OneResponse
  refine ⟨fun i s t ht => ?once, fun i s t more hs ht hwait => ?again⟩
  case once =>
    obtain ⟨u, st, v, rfl, hu, -⟩ | ⟨hi, hrun, u, -, rfl, hu⟩ := exec_cases ht
    · obtain ⟨hrsp, hwait⟩ := keepsResponses hu
      exact .inl ⟨⟨st, v⟩, congrArg (· ++ [_]) hrsp, hwait⟩
    · exact .inr ⟨hu.sameControl.rsp, rfl, hi, hrun⟩
  case again =>
    obtain ⟨u, st, v, rfl, hu, -⟩ | ⟨-, hrun, u, ho, rfl, hu⟩ := exec_cases ht
    · have : u.hostWait = some i := hwait
      rw [(keepsResponses hu).2, hs] at this
      cases this
    · have hu' : { u with src := u.src ++ more, hostWait := none } = arrived more u := by
        rw [← hs, ← hu.sameControl.hostWait]
        rfl
      obtain ⟨op, hop⟩ : ∃ op, unitOp i (arrived more s) = some op := by
        rw [← Option.isSome_iff_exists, unitOp_isSome, ← unitOp_isSome i s, ho]
        rfl
      have hop' := (unitOp_resumes hrun ho more).trans hop
      change exec i { u with src := u.src ++ more, hostWait := none } = exec i (arrived more s)
      rw [hu', exec_of_unitOp hop, exec_of_unitOp hop', show (arrived more u).run = false from hu.sameControl.run.trans hrun,
        show (arrived more s).run = false from hrun]
      rfl

/-! ## A read that meets `Stopped` (R63, R273) -/

section
variable {s : State} {zs : List Cx} {rest : List SrcItem} (hstop : ¬ (s.run = true ∧ s.stopreq = true))
  (hsrc : s.src = sampleItems zs ++ .stopped :: rest)
include hstop hsrc

theorem opLevel_stopped {n : Nat} (hn : zs.length < n) :
    opLevel n s = .done (stoppedState s n zs.length rest) .stopped 0 := by
  rw [opLevel, if_neg (by omega), take_stopped hstop hn hsrc]

theorem opFill_stopped {off n : Nat} (hn : zs.length < n) (hoff : off + n ≤ (mode s).tS) :
    opFill off n s = .done (stoppedState s n zs.length rest) .stopped 0 := by
  rw [opFill, if_neg (by omega), take_stopped hstop hn hsrc]

theorem opSkipnull_stopped (hn : zs.length < (mode s).tNull) :
    opSkipnull s = .done (stoppedState s (mode s).tNull zs.length rest) .stopped 0 := by
  rw [opSkipnull, take_stopped hstop hn hsrc]

theorem opNullscan_stopped (hscan : s.scan = none) (hn : zs.length < (mode s).dipWindow) :
    opNullscan s = .done (stoppedState s (mode s).dipWindow zs.length rest) .stopped 0 := by
  simp only [opNullscan, hscan, take_stopped hstop hn hsrc]

end

/-- Settles O21. -/
theorem stoppedReads : Obligations.StoppedReads := by
  unfold Obligations.StoppedReads
  refine ⟨fun s t sc rest hs ht hwait hsc => ?resumed, fun s zs rest hrun hsrc => ?first⟩
  case resumed =>
    obtain ⟨u, st, v, rfl, hu, -⟩ | ⟨-, hrun, u, ho, rfl, hu⟩ := exec_cases ht
    · have : u.hostWait = some .nullscan := hwait
      rw [(keepsResponses hu).2, hs] at this
      cases this
    · obtain ⟨rfl, hnone⟩ | ⟨sc', hsc', hmore, -⟩ := opNullscan_resumes (by simp [hrun]) (Option.some.inj ho)
      · cases hnone.symm.trans hsc
      · cases hsc'.symm.trans hsc
        let w : State := { u with src := .stopped :: rest, hostWait := none }
        have hwrun : w.run = false := hu.sameControl.run.trans hrun
        have hwstop : ¬ (w.run = true ∧ w.stopreq = true) := by simp [hwrun]
        have hop : opNullscan w = .done { stoppedState w 1 0 rest with scan := none } .stopped 0 :=
          (opNullscan_of_some (s := w) hwstop hsc').trans (scanOn_stopped (s := w) hwstop hmore rfl)
        exact hostUnit_done .nullscan opNullscan w _ _ _ hwrun hop
  case first =>
    have hstop : ¬ (s.run = true ∧ s.stopreq = true) := by simp [hrun]
    exact ⟨fun n hn => hostUnit_done _ _ _ _ _ _ hrun (opLevel_stopped hstop hsrc hn),
      fun off n hn hoff => hostUnit_done _ _ _ _ _ _ hrun (opFill_stopped hstop hsrc hn hoff),
      fun hn => hostUnit_done _ _ _ _ _ _ hrun (opSkipnull_stopped hstop hsrc hn),
      fun hscan hn => hostUnit_done _ _ _ _ _ _ hrun (opNullscan_stopped hstop hsrc hscan hn)⟩

/-! ## `FILL` (R277) and `LEVEL` (R275) -/

theorem opFill_ok {s : State} {off n : Nat} {zs : List Cx} {rest : List SrcItem}
    (hstop : ¬ (s.run = true ∧ s.stopreq = true)) (hn : n ≠ 0) (hoff : off + n ≤ (mode s).tS) (hlen : zs.length = n)
    (hsrc : s.src = sampleItems zs ++ rest) :
    opFill off n s = .done { sampledState s zs rest with win := bufWriteRange s.win off zs } .ok (BitVec.ofNat 32 n) := by
  rw [opFill, if_neg (by omega), take_samples n s zs rest hstop hlen hsrc]
  rfl

/-- Settles O18. -/
theorem fillResult : Obligations.FillResult := by
  unfold Obligations.FillResult
  refine ⟨fun s off n zs rest hrun hn hoff hsrc hlen => ?taken, fun s off n hrun hn => ?refused⟩
  case taken =>
    exact ⟨bufWriteRange s.win off zs, holds_bufWriteRange _ _ _, fun a ha => bufRead_writeRange_outside _ (by omega),
      hostUnit_done _ _ _ _ _ _ hrun (opFill_ok (by simp [hrun]) hn hoff hlen hsrc)⟩
  case refused => exact hostUnit_done _ _ _ _ _ _ hrun (if_pos hn)

/-- The mean of the magnitudes of the samples (R275). -/
def meanMag (s : State) (zs : List Cx) : Mag :=
  magScaleRat (1 / (zs.length : Rat)) (magSum (zs.map (magAbs (order s))))

theorem magVal_meanMag {s : State} (hs : ModeOk s) (zs : List Cx) : magVal (order s) (meanMag s zs) =
    (∑ j ∈ Finset.range zs.length, ‖cxVal (order s) (zs.getD j [])‖) / (zs.length : ℝ) := by
  have hnorm : magVal (order s) ∘ magAbs (order s) = fun z => ‖cxVal (order s) z‖ :=
    funext fun z => magVal_abs (order_pos hs) z
  rw [meanMag, magVal_scaleRat, magVal_sum, List.map_map, hnorm, sum_map_eq_sum_range _ _ []]
  push_cast
  ring

theorem opLevel_ok {s : State} {n : Nat} {zs : List Cx} {rest : List SrcItem}
    (hstop : ¬ (s.run = true ∧ s.stopreq = true)) (hn : n ≠ 0) (hlen : zs.length = n)
    (hsrc : s.src = sampleItems zs ++ rest) :
    opLevel n s = .done { sampledState s zs rest with slevel := meanMag s zs } .ok (BitVec.ofNat 32 n) := by
  rw [opLevel, if_neg hn, take_samples n s zs rest hstop hlen hsrc, meanMag, hlen]

/-- Settles O17. -/
theorem levelResult : Obligations.LevelResult := by
  unfold Obligations.LevelResult
  refine ⟨fun s n zs rest hs hrun hn hsrc hlen => ?taken, fun s hrun => hostUnit_done _ _ _ _ _ _ hrun (if_pos rfl)⟩
  case taken =>
    subst hlen
    exact ⟨meanMag s zs, magVal_meanMag hs zs,
      hostUnit_done _ _ _ _ _ _ hrun (opLevel_ok (by simp [hrun]) hn rfl hsrc)⟩

end Sys2Proof.Proofs
end

section
/-! PROOF. The sequencer's stop (`46_sync_controller.md` R273, R301), and the model's faults on buffer elements that
nothing has written (`93_implementation_defined.md` U1). -/

open Sys2Proof Sys2Proof.Machine Sys2Proof.Laws

namespace Sys2Proof.Proofs

/-! ## A stop (R273, R301) -/

theorem initDiscard_ne_zero {s : State} (hs : ModeOk s) : initDiscard (mode s) ≠ 0 := by
  have hF : (mode s).tF = (mode s).symbols * (mode s).tS + (mode s).tNull := by
    have hwf := mode_lengthsWf hs
    simp only [lengthsWf, Bool.and_eq_true, decide_eq_true_iff] at hwf
    obtain ⟨⟨⟨⟨⟨-, hF⟩, -⟩, -⟩, -⟩, -⟩ := hwf
    exact hF
  have hsymbols : 6 ≤ (mode s).symbols := symbols_ge hs
  have hS : 0 < (mode s).tS := (tU_pos hs).trans_le (tU_le_tS hs)
  have hmul : 6 * 1 ≤ (mode s).symbols * (mode s).tS := Nat.mul_le_mul hsymbols hS
  rw [initDiscard]
  omega

section
variable {s : State} (hrun : s.run = true) (hstop : s.stopreq = true)
include hrun hstop

/-- With a stop pending no sample is taken. -/
theorem take_of_stop (n : Nat) : take n s = .stopped s := if_pos ⟨hrun, hstop⟩

theorem opLevel_of_stop {n : Nat} (hn : n ≠ 0) : opLevel n s = .done s .stopped 0 := by
  rw [opLevel, if_neg hn, take_of_stop hrun hstop]

theorem opFill_of_stop {off n : Nat} (hn : n ≠ 0) (hoff : off + n ≤ (mode s).tS) : opFill off n s = .done s .stopped 0 := by
  rw [opFill, if_neg (by omega), take_of_stop hrun hstop]

theorem opSkipnull_of_stop : opSkipnull s = .done s .stopped 0 := by rw [opSkipnull, take_of_stop hrun hstop]

theorem opNullscan_of_stop : opNullscan s = .done { s with scan := none } .stopped 0 := by
  cases hscan : s.scan with
  | some sc => simp only [opNullscan, hscan, if_pos (And.intro hrun hstop)]
  | none =>
    simp only [opNullscan, hscan, take_of_stop hrun hstop]
    rw [← hscan]

/-- The steps that read samples, and the push to a full queue, end in `Idle`. -/
theorem seqStep_of_stop (hs : ModeOk s)
    (hp : s.seqStep ∈ [SeqStep.a0, .n0, .v0, .s0, .e1, .e2] ∨ s.seqStep = .f1 ∧ s.boff ≠ 0 ∧ s.boff ≤ (mode s).tU ∨
      s.seqStep = .s3 ∧ 4 < s.symIdx ∧ (mode s).symbols ≤ s.fifo.length) : seqStep s = .next (goIdle s) := by
  have htU := tU_pos hs
  have htS := tU_le_tS hs
  simp only [List.mem_cons, List.not_mem_nil, or_false] at hp
  obtain (hp | hp | hp | hp | hp | hp) | ⟨hp, hoff, hle⟩ | ⟨hp, hsym, hfull⟩ := hp <;> rw [seqStep_at hrun hp]
  case inl.inl => exact seqUnit_of_stopped (opLevel_of_stop hrun hstop (initDiscard_ne_zero hs))
  case inl.inr.inl => exact (seqUnit_of_stopped (opNullscan_of_stop hrun hstop) :)
  case inl.inr.inr.inl => exact seqUnit_of_stopped (opFill_of_stop hrun hstop (by omega) (by omega))
  case inl.inr.inr.inr.inl => exact seqUnit_of_stopped (opFill_of_stop hrun hstop (by omega) (by omega))
  case inl.inr.inr.inr.inr.inl => exact seqUnit_of_stopped (opSkipnull_of_stop hrun hstop)
  case inl.inr.inr.inr.inr.inr => exact seqUnit_of_stopped (opFill_of_stop hrun hstop (by omega) (by omega))
  case inr.inl =>
    change stepF1 s = _
    rw [stepF1, if_neg hoff]
    exact seqUnit_of_stopped (opFill_of_stop hrun hstop hoff (by omega))
  case inr.inr =>
    change stepS3 s = _
    rw [stepS3, if_neg (Nat.not_le.2 hsym), if_pos (fifoFull_iff.2 hfull), if_pos hstop]

end

/-- Settles O47. -/
theorem sequencerStops : Obligations.SequencerStops := by
  unfold Obligations.SequencerStops
  refine ⟨fun s hs hrun hstop hp => seqStep_of_stop hrun hstop hs hp, fun s hrun hstop hp hsym hfull => ?_⟩
  rw [seqStep_at hrun hp]
  change stepS3 s = _
  rw [stepS3, if_neg (Nat.not_le.2 hsym), if_pos (fifoFull_iff.2 hfull), hstop]
  rfl

/-! ## Elements that nothing has written (U1) -/

section
variable {s : State}

theorem onSlice_unwritten {off : Nat} (hoff : off + (mode s).tU ≤ (mode s).tS) (hw : ¬ Written s.win off (mode s).tU)
    (k : List Cx → OpRes) : onSlice s off k = .fault (.readUnwritten .win) := by
  obtain ⟨hout, -⟩ | ⟨-, ⟨w, hlen, hheld, -⟩ | ⟨-, h⟩⟩ := onSlice_cases s off k
  · omega
  · exact absurd (written_iff_holds.2 ⟨w, hlen, hheld⟩) hw
  · exact h

theorem sliceLeaves_eq_false {off : Nat} (hoff : off + (mode s).tU ≤ (mode s).tS) : sliceLeaves s off = false := by
  rw [sliceLeaves]
  simpa using hoff

theorem opDecsym_unwritten_win {off : Nat} (hoff : off + (mode s).tU ≤ (mode s).tS) (hprev : s.prevValid = true)
    (hw : ¬ Written s.win off (mode s).tU) : opDecsym off s = .fault (.readUnwritten .win) := by
  have hread : winSlice s off = none := (bufReadRange_eq_none _ _ _).2 hw
  simp [opDecsym, sliceLeaves_eq_false hoff, hprev, hread]

theorem bufReadAll_eq_none {α : Type} {b : Buf α} {l : List Nat} {a : Nat} (ha : a ∈ l) (hb : bufRead b a = none) :
    bufReadAll b l = none := by
  induction l with
  | nil => cases ha
  | cons k r ih =>
    rw [bufReadAll]
    obtain rfl | har := List.mem_cons.1 ha
    · rw [hb]
    · rw [ih har]
      cases bufRead b k <;> rfl

theorem opDecsym_unwritten_prev (hs : ModeOk s) {off i : Nat} (hoff : off + (mode s).tU ≤ (mode s).tS)
    (hprev : s.prevValid = true) (hw : Written s.win off (mode s).tU) (hi : i < (mode s).carriers)
    (hb : bufRead s.prev (carrierBin (mode s) ((mode s).perm.getD i 0)) = none) :
    opDecsym off s = .fault (.readUnwritten .prev) := by
  obtain ⟨w, hlen, hheld⟩ := written_iff_holds.1 hw
  have hread : winSlice s off = some w := (bufReadRange_eq_some _ _ _ _).2 ⟨hlen, hheld⟩
  have hmem : carrierBin (mode s) ((mode s).perm.getD i 0) ∈ carrierBins (mode s) := by
    have hi' : i < (mode s).perm.length := by rwa [perm_length hs]
    rw [List.getD_eq_getElem _ _ hi']
    exact List.mem_map_of_mem (List.getElem_mem hi')
  have hbins : bufReadAll s.prev (carrierBins (mode s)) = none := bufReadAll_eq_none hmem hb
  simp [opDecsym, sliceLeaves_eq_false hoff, hprev, hread, hbins]

theorem opFindb_unwritten {thr : Nat} (hw : ¬ Written s.win 0 (mode s).tU) :
    opFindb thr s = .fault (.readUnwritten .win) := by
  have hread : winSlice s 0 = none := (bufReadRange_eq_none _ _ _).2 hw
  rw [opFindb, hread]

theorem opShift_unwritten {n : Nat} (hn : 0 < n) (hle : n ≤ (mode s).tU) (hw : ¬ Written s.win n ((mode s).tU - n)) :
    opShift n s = .fault (.readUnwritten .win) := by
  rw [opShift, if_neg (by omega), if_neg (by omega), (bufReadRange_eq_none _ _ _).2 hw]

theorem opFcorr_unwritten (hs : ModeOk s)
    (hw : ¬ (Written s.win 0 (mode s).tG ∧ Written s.win (mode s).tU (mode s).tG)) :
    opFcorr s = .fault (.readUnwritten .win) := by
  rw [opFcorr, tS_eq hs, Nat.add_sub_cancel_left]
  split
  case h_1 u g hu hg =>
    exact absurd ⟨written_iff_holds.2 ⟨g, (bufReadRange_eq_some _ _ _ _).1 hg⟩,
      written_iff_holds.2 ⟨u, (bufReadRange_eq_some _ _ _ _).1 hu⟩⟩ hw
  case h_2 => rfl

theorem opFicpush_unwritten {idx : Nat} (hidx : ficPushRefused idx s = false) (hw : ¬ Written s.soft 0 (nSoft (mode s))) :
    opFicpush idx s = .fault (.readUnwritten .soft) := by
  rw [opFicpush, if_neg (by simp [hidx]), (bufReadRange_eq_none _ _ _).2 hw]

theorem opMscpush_unwritten {n : Nat} (hlow : 5 ≤ n) (hhigh : n < (mode s).symbols)
    (hroom : s.fifo.length < (mode s).symbols) (hw : ¬ Written s.soft 0 (nSoft (mode s))) :
    opMscpush n s = .fault (.readUnwritten .soft) := by
  rw [opMscpush, if_neg (not_or.2 ⟨Nat.not_lt.2 hlow, Nat.not_le.2 hhigh⟩),
    if_neg (mt fifoFull_iff.1 (Nat.not_le.2 hroom)), (bufReadRange_eq_none _ _ _).2 hw]

/-- An accumulator that has not been zeroed is read as a plain buffer. -/
theorem accReadRange_false (b : Buf Soft) (off n : Nat) : accReadRange false b off n = bufReadRange b off n := by
  have hread (a : Nat) : accRead false b a = bufRead b a := by
    rw [accRead]
    cases bufRead b a <;> rfl
  induction n generalizing off with
  | zero => rfl
  | succ n ih =>
    rw [accReadRange, bufReadRange, hread, ih]
    cases bufRead b off <;> cases bufReadRange b (off + 1) n <;> rfl

theorem written_append {α : Type} {b : Buf α} {off n m : Nat} (h : Written b off n) (h' : Written b (off + n) m) :
    Written b off (n + m) := by
  intro j hj
  by_cases hn : j < n
  · exact h j hn
  · have := h' (j - n) (by omega)
    rwa [show off + n + (j - n) = off + j by omega] at this

theorem written_of_ficBlocks (hz : s.ficAccZeroed = false) {k n : Nat} {ys : List (List Soft)}
    (h : ficBlocks s k n = some ys) : Written s.ficAcc (n * motherLen (mode s)) (k * motherLen (mode s)) := by
  induction k generalizing n ys with
  | zero => rw [Nat.zero_mul]; exact written_zero
  | succ k ih =>
    rw [ficBlocks] at h
    split at h
    case h_1 y ys' hy hys =>
      rw [hz, accReadRange_false] at hy
      have hfirst := written_iff_holds.2 ⟨y, (bufReadRange_eq_some _ _ _ _).1 hy⟩
      rw [Nat.succ_mul, Nat.add_comm]
      exact written_append hfirst (by rw [← Nat.succ_mul]; exact ih hys)
    case h_2 => cases h

theorem opFicdec_unwritten (hstate : s.ficState = .accumulating) (hidx : s.ficIdx = 4) (hz : s.ficAccZeroed = false)
    (hw : ¬ Written s.ficAcc 0 ((mode s).nBlk * motherLen (mode s))) : opFicdec s = .fault (.readUnwritten .ficAcc) := by
  have hblocks : ficBlocks s (mode s).nBlk 0 = none := by
    rw [Option.eq_none_iff_forall_ne_some]
    intro ys hys
    have := written_of_ficBlocks hz hys
    rw [Nat.zero_mul] at this
    exact hw this
  rw [opFicdec, if_neg (by simp [hstate, hidx, Config.ficSyms]), hblocks]

theorem opCrc16_unwritten {f : Nat} (hf : f < fibsPerFrame (mode s)) (hw : ¬ Written s.ficOut (256 * f) 256) :
    opCrc16 f s = .fault (.readUnwritten .ficOut) := by
  have hread : bufReadRange s.ficOut (Config.fibBits * f) Config.fibBits = none := (bufReadRange_eq_none _ _ _).2 hw
  rw [opCrc16, if_neg (Nat.not_le.2 hf), hread]

theorem opCifpop_unreadable {e : FifoEntry} {q : List FifoEntry} (hfifo : s.fifo = e :: q)
    (hlen : e.bits.length ≠ nSoft (mode s)) : opCifpop s = .fault (.readUnwritten .fifo) := by
  simp only [opCifpop, hfifo, if_pos hlen]

end

/-- Settles O42. -/
theorem unwrittenFaults : Obligations.UnwrittenFaults := by
  unfold Obligations.UnwrittenFaults
  intro s hs hrun
  refine ⟨fun off hoff hw => ⟨?_, ?_, ?_, fun hprev => ?_⟩, fun off i hoff hw hprev hi hb => ?_, fun thr hw => ?_,
    fun n hn hle hw => ?_, fun hw => ?_, fun hw => ⟨?_, fun idx hlt hstate hidx => ?_, fun n hlow hhigh hroom => ?_⟩,
    fun hstate hidx hz hw => ?_, fun f hf hw => ?_, fun e q hfifo hlen => ?_⟩ <;> refine hostUnit_fault hrun ?_
  · exact onSlice_unwritten hoff hw _
  · exact onSlice_unwritten hoff hw _
  · exact onSlice_unwritten hoff hw _
  · exact opDecsym_unwritten_win hoff hprev hw
  · exact opDecsym_unwritten_prev hs hoff hprev hw hi hb
  · exact opFindb_unwritten hw
  · exact opShift_unwritten hn hle hw
  · exact opFcorr_unwritten hs hw
  · exact opFicpush_unwritten (by simp [ficPushRefused, Config.ficSyms]) hw
  · exact opFicpush_unwritten (by simp [ficPushRefused, Config.ficSyms, hstate, hidx, hlt]) hw
  · exact opMscpush_unwritten hlow hhigh hroom hw
  · exact opFicdec_unwritten hstate hidx hz hw
  · exact opCrc16_unwritten hf hw
  · exact opCifpop_unreadable hfifo hlen

end Sys2Proof.Proofs
end
